-- ==== Sys2Proof/Word.lean ====
section
/-!
DEFINITION. The word types of the Mespora Q16: the byte of the Shared Store, the 32-bit register and count, and the
indices of channels, pairs and request slots (00_scope, section 4).
-/

namespace Sys2Proof

/-- One byte of the Shared Store. -/
abbrev Byte := BitVec 8

/-- A 32-bit register or a 32-bit count that wraps (00_scope section 4.2). -/
abbrev U32 := BitVec 32

/-- A channel, 0 to 15. -/
abbrev Chan := Fin 16

/-- A pair, 0 to 7; pair k joins channels 2k and 2k + 1. -/
abbrev PairIx := Fin 8

/-- A Request Slot, 0 to 15 for the channels and 16 for the device. -/
abbrev SlotIx := Fin 17

/-- The two Result Pools of a channel, numbered 0 and 1 (00_scope section 4.4). -/
inductive PoolId where
  | a
  | b
  deriving DecidableEq, Repr

end Sys2Proof
end

