-- ==== Sys2Proof/Config.lean ====
section
/-!
DEFINITION. What is fixed at manufacture: the memory window and the Shared Store's layout (R175), the register values
(R176), the spans of the current ranges (00_scope section 4.1) and the ranges of the saturating quantities. The spec
leaves no VALUE of a command's result open, so the model has no opaque constant; the ORDERS it leaves open are operands of the
commands (logs 5 and 7).
-/

namespace Sys2Proof.Config

/-- R176: the fixed value of IDENT. -/
def ident : U32 := 0x4C4A0110#32

/-- R176: the pace time after both resets, in units of 10 µs. -/
def paceReset : Nat := 100

/-- R175: the size of the memory window in bytes. -/
def windowSize : Nat := 0x200000

/-- R175: the window offset of the Shared Store. -/
def storeBase : Nat := 0x100000

/-- R175: the size of the Shared Store in bytes. -/
def storeSize : Nat := 0x100000

/-- R175: the size of the register window in bytes. -/
def regWindowSize : Nat := 0x18

/-- R175: store offset of the device Notice Record. -/
def devNotice : Nat := 0x100

/-- R175: store offset of channel c's Notice Record. -/
def chanNotice (c : Chan) : Nat := 0x200 + c.val * 0x40

/-- R175: store offset of Request Slot s. -/
def slotBase (s : SlotIx) : Nat := 0x1000 + s.val * 0x200

/-- R175: the number of a pool, 0 for A and 1 for B. -/
def poolNo : PoolId → Nat
  | .a => 0
  | .b => 1

/-- R175: store offset of the header of pool p of channel c. -/
def headerBase (c : Chan) (p : PoolId) : Nat := 0x4000 + (2 * c.val + poolNo p) * 0x20

/-- R175: store offset of channel c's Plan Area. -/
def planBase (c : Chan) : Nat := 0x8000 + c.val * 0x2000

/-- R175: the size of one Plan Area. -/
def planAreaSize : Nat := 0x2000

/-- R175: store offset of Result Pool p of channel c. -/
def poolBase (c : Chan) (p : PoolId) : Nat := 0x28000 + (2 * c.val + poolNo p) * 0x2000

/-- 08 introduction: the record slots of one pool. -/
def poolSlots : Nat := 256

/-- 08 introduction: the bytes of one record slot. -/
def recordSlot : Nat := 32

/-- 00_scope section 4.1: the span of a current range in mA. -/
def span : Fin 3 → Int
  | 0 => 600000
  | 1 => 150000
  | 2 => 30000

/-- R55: the span of the voltage correction, in mV. -/
def spanVolt : Int := 1000000

/-- R55: the span of the temperature correction, in 0.1 °C. -/
def spanTemp : Int := 2000

/-- R173: the number of PROBE frames of a bring-up. -/
def bringUpLimit : Nat := 100

/-- R60: the codes of one auto-zero collection. -/
def azRun : Nat := 64

/-- R59: the step active time an auto-zero collection waits for, in ms. -/
def azWait : Nat := 500

/-- R127: the mismatch count that trips the pair. -/
def mismatchTrip : Nat := 10

/-- R46: loop arrivals at one step end never exceed the 64 steps of a plan (log 35). -/
def loopFuel : Nat := 65

/-- 00_scope section 4.2: the top of an n-bit saturating quantity. -/
def top (n : Nat) : Nat := 2 ^ n - 1

end Sys2Proof.Config
end

