-- ==== Sys2Proof/Syntax.lean ====
section
/-!
DEFINITION. The commands of the block, one constructor per row of spec/opcode_table.json. The table gives no operands;
the operands here are what the rule of each row needs (INVENTORY, Instructions). An operand that chooses among orders the
spec leaves open (HostTiming, Schedule, evalLate) belongs to the sender: every order is a value of it (logs 5 and 7).
-/

namespace Sys2Proof

/-- The 21 parameters of SET_LIMITS in the order of the table of 05 section 5.1, each 4 bytes signed (11 section 11.3). -/
structure LimitWords where
  vMax : U32
  vMin : U32
  iMax : U32
  iSoft : U32
  chopOff : U32
  softWindow : U32
  softMax : U32
  blankTime : U32
  tMax : U32
  tStart : U32
  slope : U32
  iFloor : U32
  iRunMax : U32
  vCmin : U32
  vCmax : U32
  filterTime : U32
  silenceLimit : U32
  linkHoldMax : U32
  resumePolicy : U32
  priority : U32
  pairTol : U32
  deriving DecidableEq, Repr

/-- When a host write lands against the part's own accesses of the store (R27, R177; log 5): how many further records of a load
in progress the part has read by then, and whether the initialisation in progress has already written those bytes. -/
structure HostTiming where
  recordsRead : Nat
  afterInit : Bool
  deriving DecidableEq, Repr

/-- The orders that the spec leaves open inside one expiry of the sample timer (log 7): the order in which the channels' missed
samples are handled (a channel not listed comes after, in ascending order); for each channel, by bit, whether the Stage Link reads
its demand before that handling (R166); and whether the evaluation that a step end of that handling causes comes after the
handling's reading of the grant (R136, R141). -/
structure Schedule where
  order : List Chan
  readFirst : BitVec 16
  evalLate : BitVec 16
  deriving DecidableEq, Repr

/-- The commands: one constructor per row of spec/opcode_table.json, in the table's order. -/
inductive Instr where
  /-- POWER_ON_RESET: the application of power, with the levels of the two lines at that moment (R132, R177). -/
  | powerOnReset (stopAll linkOk : Bool)
  /-- INITIALISATION_COMPLETE (R177). -/
  | initialisationComplete
  /-- SOFT_RESET: a write of CONTROL with bit 0 set (R176, R178). -/
  | softReset (value : U32)
  /-- ATTN_ENABLE_WRITE: a write of CONTROL with bit 0 clear (R176). -/
  | attnEnableWrite (value : U32)
  /-- ATTENTION_CLEAR: a write of ATTENTION (R187). -/
  | attentionClear (value : U32)
  /-- PACE_WRITE: a write of PACE (R188). -/
  | paceWrite (value : U32)
  /-- REGISTER_WRITE_OTHER: a host write of the memory window elsewhere than at a register that acts on it (R175, R176). -/
  | registerWriteOther (offset : Nat) (bytes : List Byte) (timing : HostTiming)
  /-- SLOT_POST: a write of POST with code 0 to 16 (R180). -/
  | slotPost (slot : SlotIx)
  /-- STRAY_POST: a write of POST with any code (R179). -/
  | strayPost (code : U32)
  /-- POOL_RELEASE: a write of POST with code 32 + 2c + p (R153). -/
  | poolRelease (c : Chan) (p : PoolId)
  /-- ABORT: a write of POST with code 64 + c (R18). -/
  | abort (c : Chan)
  /-- ENABLE (R3): the host writes the request into slot c and posts it (log 3); so for the requests below. -/
  | enable (c : Chan) (tag : U32)
  /-- DISABLE (R4). -/
  | disable (c : Chan) (tag : U32)
  /-- LOAD_PLAN (R26). -/
  | loadPlan (c : Chan) (tag : U32)
  /-- LOAD_COMPLETION: the end of the load of channel c (R29). -/
  | loadCompletion (c : Chan)
  /-- START (R5). -/
  | start (c : Chan) (tag : U32)
  /-- PAUSE (R13). -/
  | pause (c : Chan) (tag : U32)
  /-- RESUME (R14, R15). -/
  | resume (c : Chan) (tag : U32)
  /-- STOP (R17). -/
  | stop (c : Chan) (tag : U32)
  /-- FAULT_ACK (R114). -/
  | faultAck (c : Chan) (tag : U32)
  /-- SET_LIMITS (R96). -/
  | setLimits (c : Chan) (tag : U32) (limits : LimitWords)
  /-- SET_CAL (R57): record, offset mode and learn request are one byte each; offset, gain and learn limit four. -/
  | setCal (c : Chan) (tag : U32) (record mode learnRequest : Byte) (offset gain learnLimit : U32)
  /-- SET_WATCH (R160). -/
  | setWatch (c : Chan) (tag : U32) (index quantity direction mode : Byte) (threshold : U32)
  /-- CLEAR_WATCH (R162). -/
  | clearWatch (c : Chan) (tag : U32) (index : Byte)
  /-- JUMP (R48). -/
  | jump (c : Chan) (tag : U32) (step : Byte)
  /-- FLUSH (R158). -/
  | flush (c : Chan) (tag : U32)
  /-- STATUS (R184), with its section parameter (R191). -/
  | status (c : Chan) (tag : U32) (sect : Byte)
  /-- COUNTERS (R185), with its CLEAR flag. -/
  | counters (c : Chan) (tag : U32) (clear : Byte)
  /-- SET_LINK (R133). -/
  | setLink (tag : U32) (importLimit exportLimit interval : U32)
  /-- SET_PAIR (R120). -/
  | setPair (tag : U32) (pair setting : Byte)
  /-- DEVICE_COUNTERS (R185). -/
  | deviceCounters (tag : U32) (clear : Byte)
  /-- SAMPLE_TIMER_EXPIRY (R170). -/
  | sampleTimerExpiry (sched : Schedule)
  /-- BRING_UP_LIMIT (R173). -/
  | bringUpLimit (c : Chan)
  /-- RESPONSE_FRAME (R168): 96 bits on link c, bit 0 first; evalLate chooses between the two orders of R136. -/
  | responseFrame (c : Chan) (frame : BitVec 96) (evalLate : Bool)
  /-- CHOP_END (R104). -/
  | chopEnd (c : Chan)
  /-- BLANKING_EXPIRY (R102). -/
  | blankingExpiry (c : Chan)
  /-- SOFT_WINDOW_EXPIRY (R105). -/
  | softWindowExpiry (c : Chan)
  /-- CONTACT_CHECK_FAIL (R108). -/
  | contactCheckFail (c : Chan)
  /-- LINK_HOLD_EXPIRY (R10). -/
  | linkHoldExpiry (c : Chan)
  /-- STOP_ALL_ASSERT (R19). -/
  | stopAllAssert
  /-- STOP_ALL_RELEASE (R19). -/
  | stopAllRelease
  /-- LINK_OK_FALL (R20): the edge as the channels receive it. -/
  | linkOkFall
  /-- LINK_OK_RISE (R20): the edge as the channels receive it. -/
  | linkOkRise
  /-- ARBITER_LINK_EDGE (R142): the edge as the Arbiter receives it. -/
  | arbiterLinkEdge (rising : Bool)
  /-- INTERVAL_TIMER_EXPIRY (R137). -/
  | intervalTimerExpiry
  /-- PACE_TIMER_EXPIRY (R188). -/
  | paceTimerExpiry
  deriving DecidableEq, Repr

end Sys2Proof
end

