-- ==== Sys2Proof/Decode.lean ====
section
/-!
DEFINITION. spec/opcode_table.json gives no bits for any of its rows: a command of this block is an event, not a word. So no
word spells a command (log 40).
-/

namespace Sys2Proof

/-- The command that an instruction word of `nbits` bits spells: none, for every row of the table is without bits (log 40). -/
def decodeTableWord (_nbits _w : Nat) : Option Instr := none

end Sys2Proof
end

