-- ==== Sys2Proof/Machine/State.lean ====
section
/-!
DEFINITION. The state of the Mespora Q16 as plain data, the reasons a step could stop, and the machine right after power-on
reset. Every piece is listed in INVENTORY.md with its rule and its reset value. Quantities are exact whole numbers (00_scope
section 4); counts that wrap are 32-bit words.
-/

namespace Sys2Proof.Machine

/-- The Shared Store: its nonzero bytes by store offset, offsets rising (log 2). -/
abbrev Mem := List Host.Cell

/-! ### Plans (02_test_plans, section 2.1) -/

/-- R36: the quantities of end conditions. -/
inductive Quantity where
  | stepTime | voltage | currentMag | stepCharge | stepEnergy | temperature | voltDrop | planCycles
  deriving DecidableEq, Repr

/-- R36: the comparisons of end conditions. -/
inductive Comparison where
  | atLeast | atMost
  deriving DecidableEq, Repr

/-- R39: the actions of end conditions. -/
inductive EndAction where
  | next | goto | endPlan | trip
  deriving DecidableEq, Repr

/-- R44: the actions of retention checks. -/
inductive RetAction where
  | next | goto | endPlan
  deriving DecidableEq, Repr

/-- An end-condition entry (section 2.1.2). -/
structure EndCond where
  quantity : Quantity
  comparison : Comparison
  qualify : Nat
  action : EndAction
  threshold : Int
  target : Nat
  deriving DecidableEq, Repr

/-- A retention check (section 2.1.2); the threshold is in per-mille. -/
structure Retention where
  threshold : Nat
  action : RetAction
  target : Nat
  deriving DecidableEq, Repr

/-- A step's kind with the setpoints read for that kind (section 2.1.2). -/
inductive StepBody where
  | rest
  | cc (setpoint : Int)
  | cccv (setpoint : Int) (target : Int)
  | cp (power : Int)
  | loop (target count : Nat)
  deriving DecidableEq, Repr

/-- A step of a validated plan (section 2.1.2). -/
structure Step where
  body : StepBody
  cycleMark : Bool
  captureRef : Bool
  autoZero : Bool
  logInterval : Nat
  conds : List EndCond
  retention : Option Retention
  deriving DecidableEq, Repr

/-- The log loss policies (section 2.1.1). -/
inductive LossPolicy where
  | drop | pause
  deriving DecidableEq, Repr

/-- The switch modes (section 2.1.1). -/
inductive SwitchMode where
  | nextStart | atStepEnd
  deriving DecidableEq, Repr

/-- The gain modes (section 2.1.1). -/
inductive GainMode where
  | sevenLevel | twoLevel | fixed
  deriving DecidableEq, Repr

/-- The header of a validated plan (section 2.1.1). -/
structure PlanHeader where
  range : Fin 3
  loss : LossPolicy
  closePool : Bool
  levelHold : Bool
  switchMode : SwitchMode
  gainMode : GainMode
  ul : Nat
  ll : Nat
  high : Nat
  low : Nat
  kb : Nat
  window : Nat
  logDelta : Nat
  label : U32
  deriving DecidableEq, Repr

/-- A validated plan. -/
structure Plan where
  header : PlanHeader
  steps : List Step
  deriving DecidableEq, Repr

/-- A plan header as a load has read it, its codes unjudged (R27). -/
structure RawHeader where
  count : Nat
  range : Nat
  loss : Nat
  flags : Nat
  switchMode : Nat
  gainMode : Nat
  ul : Nat
  ll : Nat
  high : Nat
  low : Nat
  kb : Nat
  window : Nat
  logDelta : Nat
  label : U32
  deriving DecidableEq, Repr

/-- An end-condition entry as a load has read it. -/
structure RawCond where
  quantity : Nat
  comparison : Nat
  qualify : Nat
  action : Nat
  threshold : Int
  target : Nat
  deriving DecidableEq, Repr

/-- A step record as a load has read it. -/
structure RawStep where
  kind : Nat
  flags : Nat
  nConds : Nat
  retPresent : Nat
  logInterval : Nat
  loopCount : Nat
  setpoint : Int
  voltTarget : Int
  power : Int
  loopTarget : Nat
  retAction : Nat
  retTarget : Nat
  retThreshold : Nat
  conds : List RawCond
  deriving DecidableEq, Repr

/-- A LOAD_PLAN in execution: what has been read, and whether the plan is discarded at its end because its channel became
FOLLOWER meanwhile (R21, R27). -/
structure Load where
  header : Option RawHeader
  steps : List RawStep
  discard : Bool
  deriving DecidableEq, Repr

/-- R24: the staged slot. -/
inductive Staged where
  | empty
  | loading
  | valid (p : Plan)
  deriving DecidableEq, Repr

/-! ### The channel (01 to 05) -/

/-- Section 1.1: the eight channel states. -/
inductive ChState where
  | disabled | idle | checking | running | paused | held | tripped | follower
  deriving DecidableEq, Repr

/-- R16: the causes of a trip. -/
inductive Cause where
  | overVoltage | underVoltage | overCurrent | overTemp | softRepeat | stageSilent | stageFault
  | contactFail | externalStop | linkLost | pairMismatch | planTrip
  deriving DecidableEq, Repr

/-- R8: the two hold causes. -/
inductive HoldCause where
  | logFull | linkDown
  deriving DecidableEq, Repr

/-- R8: the hold-cause set, by membership. -/
structure HoldSet where
  logFull : Bool
  linkDown : Bool
  deriving DecidableEq, Repr

/-- R10: the link-hold timer; `due` says that its count has reached the maximum at an expiry of the sample timer and that its own
expiry has not been taken yet (log 8). -/
structure LinkHold where
  running : Bool
  count : Nat
  due : Bool
  deriving DecidableEq, Repr

/-- The sequencer of a channel: position, loop stack (bottom first, each a LOOP step and its remaining count), cycle count,
retention reference, step active time, step peak voltage, qualify counters (R33 to R46), the marker that the next sample taken in
RUNNING is the step's first (R149) and the LEARN_CLAMP marker of the step (R60). -/
structure Sequencer where
  position : Nat
  loops : List (Nat × Nat)
  cycle : Nat
  retRef : Option Nat
  stepTime : Nat
  peak : Option Int
  qualify : List Nat
  firstDue : Bool
  learnClamp : Bool
  deriving DecidableEq, Repr

/-- R82: what the most recent regulation stage formed. -/
structure RegReport where
  s : Int
  d : Int
  b : Option Int
  c : Int
  derated : Bool
  budget : Bool
  deriving DecidableEq, Repr

/-- The regulator (section 4.4), the CLAMPED marker (R77), the last report and the three counters (R82, R90). -/
structure Regulator where
  integ : Int
  level : Nat
  climb : Bool
  restartMark : Bool
  cvPhase : Bool
  clamped : Bool
  last : Option RegReport
  deratedCtr : U32
  budgetCtr : U32
  restartCtr : U32
  deriving DecidableEq, Repr

/-- Section 3.5: the phases of auto-zero. -/
inductive AzPhase where
  | idle | waiting | collecting
  deriving DecidableEq, Repr

/-- Section 3.5: the auto-zero state. -/
structure AutoZero where
  phase : AzPhase
  sum : Int
  count : Nat
  learned : Bool
  deriving DecidableEq, Repr

/-- Section 3.2: a VOLTAGE or TEMP record. -/
structure CalRecord where
  offset : Int
  gain : Int
  deriving DecidableEq, Repr

/-- Section 3.2: the offset modes. -/
inductive OffsetMode where
  | fixed | learnOnce | learnEvery
  deriving DecidableEq, Repr

/-- Section 3.2: a CURRENT record. -/
structure CurRecord where
  offset : Int
  gain : Int
  mode : OffsetMode
  learned : Option Int
  limit : Int
  pending : Bool
  deriving DecidableEq, Repr

/-- R54: the Calibration Table of a channel. -/
structure CalTable where
  voltage : CalRecord
  cur0 : CurRecord
  cur1 : CurRecord
  cur2 : CurRecord
  temp1 : CalRecord
  temp2 : CalRecord
  deriving DecidableEq, Repr

/-- R52, R63: corrected values with their SENSE_CLAMP markers. -/
structure Corrected where
  v : Int
  i : Int
  t1 : Int
  t2 : Int
  t : Int
  clampV : Bool
  clampI : Bool
  clampT1 : Bool
  clampT2 : Bool
  deriving DecidableEq, Repr

/-- R66: an accumulator set, with the marker that an addition has saturated a whole part (R69, log 18). -/
structure Acc where
  chIn : Nat
  chOut : Nat
  enIn : Nat
  enInRem : Nat
  enOut : Nat
  enOutRem : Nat
  saturated : Bool
  deriving DecidableEq, Repr

/-- R115: the resume policies. -/
inductive ResumePolicy where
  | onRequest | afterAck
  deriving DecidableEq, Repr

/-- Section 5.1: the limit set. -/
structure LimitSet where
  vMax : Int
  vMin : Int
  iMax : Int
  iSoft : Int
  chopOff : Nat
  softWindow : Nat
  softMax : Nat
  blankTime : Nat
  tMax : Int
  tStart : Int
  slope : Int
  iFloor : Int
  iRunMax : Int
  vCmin : Int
  vCmax : Int
  filterTime : Nat
  silenceLimit : Nat
  linkHoldMax : Nat
  resumePolicy : ResumePolicy
  priority : Nat
  pairTol : Int
  deriving DecidableEq, Repr

/-- R100: the five check states; `true` is VIOLATED. -/
structure Checks where
  overVoltage : Bool
  underVoltage : Bool
  overCurrent : Bool
  overTemp : Bool
  stageFault : Bool
  deriving DecidableEq, Repr

/-- R102: the blanking timer. -/
structure Blanking where
  running : Bool
  count : Nat
  deriving DecidableEq, Repr

/-- Section 5.5: the contact check. -/
structure Contact where
  inProgress : Bool
  inWindow : Nat
  timer : Nat
  deriving DecidableEq, Repr

/-- R111: the fault record; an absent cause is NONE, and coincident causes are listed in the order of detection. -/
structure FaultRecord where
  first : Option Cause
  coincident : List Cause
  planTime : Nat
  stepIndex : Nat
  stepEntered : Bool
  cycle : Nat
  v : Int
  i : Int
  t : Int
  acked : Bool
  laterCount : Nat
  lastLater : Option Cause
  deriving DecidableEq, Repr

/-! ### Results (08) -/

/-- R145: the side that may use a pool's slots. -/
inductive Owner where
  | part | host
  deriving DecidableEq, Repr

/-- R145: the part-side states. -/
inductive PartSide where
  | filling | waiting
  deriving DecidableEq, Repr

/-- R145: the close reasons. -/
inductive CloseReason where
  | none | full | stepEnd | planEnd | trip | flush
  deriving DecidableEq, Repr

/-- R145: the Logger's copy of a pool header. -/
structure PoolHeader where
  owner : Owner
  side : PartSide
  used : Nat
  firstSeq : U32
  lastSeq : U32
  reason : CloseReason
  gen : U32
  deriving DecidableEq, Repr

/-- Section 8.2: the record kinds. -/
inductive RecKind where
  | sample | stepEnd | event | planEnd | gap
  deriving DecidableEq, Repr

/-- A generated record: its kind, sequence number, slot count and bytes (section 11.5). -/
structure Record where
  kind : RecKind
  seq : U32
  slots : Nat
  bytes : List Byte
  deriving DecidableEq, Repr

/-- R145: the Result Logger's state of one channel. `report` says that a record has entered the latch and that the Channel Engine
has not yet acted on it (R155); it is set only inside one event. -/
structure Logger where
  poolA : PoolHeader
  poolB : PoolHeader
  nextSeq : U32
  latch : Option Record
  pendingLoss : Option (U32 × U32)
  report : Bool
  written : U32
  lost : U32
  stepEndLost : U32
  planEndLost : U32
  latchEntries : U32
  gaps : U32
  deriving DecidableEq, Repr

/-- R160: the quantities of watch points. -/
inductive WatchQuantity where
  | none | voltage | planNetCharge | cycleCount | temperature
  deriving DecidableEq, Repr

/-- R160: the directions of watch points. -/
inductive WatchDir where
  | rising | falling
  deriving DecidableEq, Repr

/-- R160: the modes of watch points. -/
inductive WatchMode where
  | latch | every
  deriving DecidableEq, Repr

/-- R160: a watch point. -/
structure Watch where
  quantity : WatchQuantity
  dir : WatchDir
  mode : WatchMode
  threshold : Int
  prev : Option Int
  latched : Bool
  hits : U32
  deriving DecidableEq, Repr

/-- One Channel Engine, with the Sense Correction and Result Logger state of its channel. -/
structure Channel where
  st : ChState
  demand : Int
  hold : HoldSet
  linkHold : LinkHold
  stepEntered : Bool
  active : Option Plan
  staged : Staged
  load : Option Load
  planTime : Nat
  seqr : Sequencer
  reg : Regulator
  az : AutoZero
  cal : CalTable
  held : Corrected
  silence : Nat
  silenceReached : Bool
  missedCtr : U32
  clampCtr : U32
  learnCtr : U32
  stageHot : Bool
  stepSet : Acc
  planSet : Acc
  lifeSet : Acc
  limits : Option LimitSet
  limitsLoaded : Bool
  checks : Checks
  blanking : Blanking
  chop : Option Nat
  hits : Nat
  window : Nat
  contact : Contact
  fault : FaultRecord
  tripCtr : U32
  chopCtr : U32
  stageFaultCtr : U32
  stageHotCtr : U32
  log : Logger
  loggedV : Option Int
  watches : Vector Watch 3
  deriving DecidableEq, Repr

/-! ### Pairs (06) -/

/-- A corrected sample as it is handed on (R52): the values, the status flags, the raw current code, and the index, DRIVE and range
of the frame answered. -/
structure Sample where
  index : BitVec 8
  val : Corrected
  ready : Bool
  fault : Bool
  hot : Bool
  code : Int
  drive : Bool
  range : Fin 3
  deriving DecidableEq, Repr

/-- R124: one half of a pair sample, with the channel that supplied it. -/
structure Half where
  chan : Chan
  sample : Sample
  deriving DecidableEq, Repr

/-- R126: the pair quantities held by the leader. -/
structure PairHeld where
  v : Int
  i : Int
  t : Int
  clamp : Bool
  deriving DecidableEq, Repr

/-- The pair state held by the leader of pair k (R131); `formed` says that the pair sample of the period in progress has been
formed (R124, log 28). -/
structure Pair where
  ganged : Bool
  assembly : Option Half
  formed : Bool
  held : PairHeld
  mismatch : Nat
  missedCtr : U32
  deriving DecidableEq, Repr

/-! ### The DC link budget (07) -/

/-- R132: the link settings. -/
structure LinkSettings where
  importLimit : Nat
  exportLimit : Nat
  interval : Nat
  deriving DecidableEq, Repr

/-- R132: the directions of wanted power. -/
inductive WantDir where
  | none | charge | discharge
  deriving DecidableEq, Repr

/-- R132: an entry of the wanted-power table, in W. -/
structure Wanted where
  dir : WantDir
  mag : Nat
  deriving DecidableEq, Repr

/-- R132: a grant. -/
inductive Grant where
  | full
  | watts (w : Nat)
  deriving DecidableEq, Repr

/-- R138: the outcomes of an evaluation. -/
inductive EvalOutcome where
  | none | within | importCut | exportCut | linkDown
  deriving DecidableEq, Repr

/-- R138: the last evaluation summary. -/
structure EvalSummary where
  sPlus : Nat
  sMinus : Nat
  net : Int
  outcome : EvalOutcome
  deriving DecidableEq, Repr

/-- R132: the Link Budget Arbiter. -/
structure Arbiter where
  settings : Option LinkSettings
  linkSet : Bool
  linkUp : Bool
  wanted : Vector Wanted 16
  classes : Vector Nat 16
  grants : Vector Grant 16
  timer : Option Nat
  summary : EvalSummary
  evals : U32
  importCuts : U32
  exportCuts : U32
  linkDowns : U32
  deriving DecidableEq, Repr

/-! ### The Stage Link (09) -/

/-- R165: the link states. -/
inductive LinkState where
  | silent | bringUp | inService
  deriving DecidableEq, Repr

/-- R166: the kinds of demand frames. -/
inductive FrameKind where
  | demand | probe
  deriving DecidableEq, Repr

/-- R165: the frame record. -/
structure FrameRecord where
  index : BitVec 8
  kind : FrameKind
  drive : Bool
  range : Fin 3
  demand : Int
  deriving DecidableEq, Repr

/-- R165, R171: one link; `received` is the response state; `wire` is the last frame sent on the link (R192, log 32). -/
structure Link where
  state : LinkState
  frame : Option FrameRecord
  received : Bool
  bringUp : Nat
  unsolicited : U32
  parity : U32
  kind : U32
  index : U32
  duplicate : U32
  sent : U32
  clamped : U32
  wire : Option (BitVec 64)
  deriving DecidableEq, Repr

/-! ### The Request Unit and the Notice Unit (10) -/

/-- R177: the interface phases. -/
inductive Phase where
  | starting | ready
  deriving DecidableEq, Repr

/-- R180, R182: the executing latch, holding the copy of a request half, and the pending-post flag of a slot. -/
structure Slot where
  latch : Option (List Byte)
  pendingPost : Bool
  deriving DecidableEq, Repr

/-- R186: the notice counts of a channel. -/
structure ChanNotice where
  responses : U32
  handovers : U32
  stateChanges : U32
  watchHits : U32
  faults : U32
  deriving DecidableEq, Repr

/-- R186: the notice counts of the device. -/
structure DevNotice where
  responses : U32
  linkChanges : U32
  stopAllChanges : U32
  deriving DecidableEq, Repr

/-- R186 to R188: the Notice Unit; bit c of `attention` is channel c, bit 16 the device; `pace` is the count of a RUNNING pace
timer, absent while it is STOPPED. -/
structure NoticeUnit where
  chan : Vector ChanNotice 16
  dev : DevNotice
  attention : BitVec 17
  attnEnable : Bool
  paceTime : Nat
  pace : Option Nat
  owed : Bool
  sent : U32
  deferred : U32
  deriving DecidableEq, Repr

/-! ### The machine -/

/-- The whole state. `initKept` holds the store offsets that the host wrote during STARTING after the initialisation had written
them (R177, log 6); `pending` is the queue of commands waiting, first in, first out. -/
structure State where
  phase : Phase
  initCount : U32
  store : Mem
  stopAll : Bool
  linkOk : Bool
  initKept : List Nat
  slots : Vector Slot 17
  strayPost : U32
  strayRelease : U32
  notices : NoticeUnit
  timerRunning : Bool
  sampleIndex : BitVec 8
  links : Vector Link 16
  arb : Arbiter
  chans : Vector Channel 16
  pairs : Vector Pair 8
  pending : List Instr
  deriving DecidableEq, Repr

/-- The faults a step can end in: none, for nothing the spec describes stops the part (INVENTORY, Faults). Safe: no command of
the table ends in one. -/
inductive Fault where
  deriving DecidableEq, Repr

/-- The refusals a step can end in. -/
inductive Refusal where
  /-- Raised by exec's arm of a command that has no meaning yet; no arm raises it now. Safe: the model stops. -/
  | notModelled (mnemonic : String)
  deriving DecidableEq, Repr

/-! ### Values after reset -/

/-- R66: an empty accumulator set. -/
def Acc.zero : Acc := ⟨0, 0, 0, 0, 0, 0, false⟩

/-- R54: a VOLTAGE or TEMP record after power-on reset. -/
def CalRecord.reset : CalRecord := ⟨0, 4096⟩

/-- R54: a CURRENT record after power-on reset. -/
def CurRecord.reset : CurRecord := ⟨0, 4096, .fixed, none, 0, false⟩

/-- R54: a Calibration Table after power-on reset. -/
def CalTable.reset : CalTable :=
  ⟨.reset, .reset, .reset, .reset, .reset, .reset⟩

/-- R63: the held values after either reset. -/
def Corrected.zero : Corrected := ⟨0, 0, 0, 0, 0, false, false, false, false⟩

/-- R145: a pool header after either reset. -/
def PoolHeader.reset (side : PartSide) : PoolHeader := ⟨.part, side, 0, 0, 0, .none, 0⟩

/-- R145: a channel's Logger state after either reset. -/
def Logger.reset : Logger :=
  ⟨.reset .filling, .reset .waiting, 0, none, none, false, 0, 0, 0, 0, 0, 0⟩

/-- R160: a watch point after either reset. -/
def Watch.reset : Watch := ⟨.none, .rising, .latch, 0, none, false, 0⟩

/-- R51: the sequencer after either reset. -/
def Sequencer.reset : Sequencer := ⟨0, [], 0, none, 0, none, [0, 0, 0, 0], false, false⟩

/-- R94: the regulator after either reset. -/
def Regulator.reset : Regulator := ⟨0, 5, false, false, false, false, none, 0, 0, 0⟩

/-- R72: auto-zero after either reset. -/
def AutoZero.reset : AutoZero := ⟨.idle, 0, 0, false⟩

/-- R111: the fault record after either reset; that its step-entered field is clear is log 33 (DESIGN CHOICE). -/
def FaultRecord.reset : FaultRecord := ⟨none, [], 0, 0, false, 0, 0, 0, 0, false, 0, none⟩

/-- A channel after power-on reset (R23, R51, R72, R94, R119, R163). -/
def Channel.reset : Channel where
  st := .disabled
  demand := 0
  hold := ⟨false, false⟩
  linkHold := ⟨false, 0, false⟩
  stepEntered := false
  active := none
  staged := .empty
  load := none
  planTime := 0
  seqr := .reset
  reg := .reset
  az := .reset
  cal := .reset
  held := .zero
  silence := 0
  silenceReached := false
  missedCtr := 0
  clampCtr := 0
  learnCtr := 0
  stageHot := false
  stepSet := .zero
  planSet := .zero
  lifeSet := .zero
  limits := none
  limitsLoaded := false
  checks := ⟨false, false, false, false, false⟩
  blanking := ⟨false, 0⟩
  chop := none
  hits := 0
  window := 0
  contact := ⟨false, 0, 0⟩
  fault := .reset
  tripCtr := 0
  chopCtr := 0
  stageFaultCtr := 0
  stageHotCtr := 0
  log := .reset
  loggedV := none
  watches := Vector.replicate 3 Watch.reset

/-- R131: the pair state after either reset. -/
def Pair.reset : Pair := ⟨false, none, false, ⟨0, 0, 0, false⟩, 0, 0⟩

/-- R132: the Arbiter after either reset, with LINK_OK at the given level; the empty summary has sums of 0 (log 47). -/
def Arbiter.reset (linkOk : Bool) : Arbiter where
  settings := none
  linkSet := false
  linkUp := linkOk
  wanted := Vector.replicate 16 ⟨.none, 0⟩
  classes := Vector.replicate 16 0
  grants := Vector.replicate 16 (if linkOk then .full else .watts 0)
  timer := none
  summary := ⟨0, 0, 0, .none⟩
  evals := 0
  importCuts := 0
  exportCuts := 0
  linkDowns := 0

/-- R174: a link after power-on reset. -/
def Link.reset : Link := ⟨.silent, none, false, 0, 0, 0, 0, 0, 0, 0, 0, none⟩

/-- R189: the Notice Unit after either reset. -/
def NoticeUnit.reset : NoticeUnit where
  chan := Vector.replicate 16 ⟨0, 0, 0, 0, 0⟩
  dev := ⟨0, 0, 0⟩
  attention := 0
  attnEnable := false
  paceTime := Config.paceReset
  pace := none
  owed := false
  sent := 0
  deferred := 0

/-- The machine at the application of power, with the two lines at the given levels: STARTING, the first initialisation begun
(R177, R189), and every block at its power-on values. -/
def State.powerOn (stopAll linkOk : Bool) : State where
  phase := .starting
  initCount := 1
  store := []
  stopAll := stopAll
  linkOk := linkOk
  initKept := []
  slots := Vector.replicate 17 ⟨none, false⟩
  strayPost := 0
  strayRelease := 0
  notices := .reset
  timerRunning := false
  sampleIndex := 0
  links := Vector.replicate 16 Link.reset
  arb := .reset linkOk
  chans := Vector.replicate 16 Channel.reset
  pairs := Vector.replicate 8 Pair.reset
  pending := []

/-- The machine right after power-on reset, with STOP_ALL released and LINK_OK low (DESIGN CHOICE, log 1). -/
def State.reset : State := State.powerOn false false

end Sys2Proof.Machine
end

