-- ==== Sys2Proof/Machine/Bits.lean ====
section
/-!
DEFINITION. Arithmetic and byte order: the two roundings of 00_scope section 4.2, saturation, little-endian fields (R190), and
fields that take their largest or smallest value (R190).
-/

namespace Sys2Proof.Machine

/-- 00_scope section 4.2, nearest rounding: the quotient n ÷ d to the nearest whole number, ties away from zero. -/
def nearest (n : Int) (d : Nat) : Int :=
  if 0 ≤ n then (((2 * n.natAbs + d) / (2 * d) : Nat) : Int)
  else -(((2 * n.natAbs + d) / (2 * d) : Nat) : Int)

/-- R134, rounded up: the smallest whole number not less than n ÷ d. -/
def ceilDiv (n d : Nat) : Nat := (n + (d - 1)) / d

/-- A value clamped to a range. -/
def clampInt (lo hi x : Int) : Int := max lo (min hi x)

/-- 00_scope section 4.2: a count of n bits that saturates, advanced by one. -/
def satSucc (n x : Nat) : Nat := min (x + 1) (Config.top n)

/-- The n low-order bytes of v, least significant first (R190). -/
def leBytes : Nat → Nat → List Byte
  | 0, _ => []
  | n + 1, v => BitVec.ofNat 8 v :: leBytes n (v / 256)

/-- The number that little-endian bytes spell (R190). -/
def ofLE : List Byte → Nat
  | [] => 0
  | b :: bs => b.toNat + 256 * ofLE bs

/-- The two's-complement reading of an n-bit number. -/
def toSigned (n v : Nat) : Int :=
  if v < 2 ^ (n - 1) then (v : Int) else (v : Int) - (2 ^ n : Nat)

/-- The n-bit two's-complement form of a whole number. -/
def ofSigned (n : Nat) (x : Int) : Nat := (x % (2 ^ n : Nat)).toNat

/-- R190: an unsigned field of n bits takes its largest value when the quantity exceeds it. -/
def fieldU (n v : Nat) : Nat := min v (Config.top n)

/-- R190: a signed field of n bits takes its largest or smallest value when the quantity lies outside it. -/
def fieldS (n : Nat) (x : Int) : Nat :=
  ofSigned n (clampInt (-(2 ^ (n - 1) : Nat)) ((2 ^ (n - 1) : Nat) - 1) x)

/-- A list filled with zeros up to n entries. -/
def padTo (n : Nat) (l : List Byte) : List Byte := l ++ List.replicate (n - l.length) 0

/-- One bit as a number. -/
def bit (b : Bool) : Nat := if b then 1 else 0

/-- A little-endian field of n bytes at offset o of a structure. -/
def fieldAt (l : List Byte) (o n : Nat) : Nat := ofLE ((l.drop o).take n)

/-- A signed little-endian field of n bytes at offset o of a structure. -/
def sfieldAt (l : List Byte) (o n : Nat) : Int := toSigned (8 * n) (fieldAt l o n)

end Sys2Proof.Machine
end

