-- ==== Sys2Proof/Machine/Ops.lean ====
section
/-!
DEFINITION. The operations over the Shared Store and the accessors of the state's parts. Every other file reads and writes
through these.
-/

namespace Sys2Proof.Machine

/-! ### The Shared Store -/

/-- What an unlisted byte of the store reads as (log 2). -/
def Mem.unlisted : Byte := 0

/-- The byte at a store offset. -/
def Mem.read : Mem → Nat → Byte
  | [], _ => Mem.unlisted
  | (b, v) :: rest, a => if a = b then v else Mem.read rest a

/-- A byte that does not read as unlisted, put in before the first greater offset. -/
def Mem.insert : Mem → Nat → Byte → Mem
  | [], a, v => [(a, v)]
  | (b, w) :: rest, a, v => if a < b then (a, v) :: (b, w) :: rest else (b, w) :: Mem.insert rest a v

/-- The entry at a store offset taken out. -/
def Mem.erase (m : Mem) (a : Nat) : Mem := m.filter fun e => e.1 != a

/-- A byte written at a store offset; the canonical form is kept. -/
def Mem.write (m : Mem) (a : Nat) (v : Byte) : Mem :=
  if v = Mem.unlisted then m.erase a else (m.erase a).insert a v

/-- Bytes written from a store offset on, in ascending order. -/
def Mem.writeBytes : Mem → Nat → List Byte → Mem
  | m, _, [] => m
  | m, a, v :: vs => Mem.writeBytes (Mem.write m a v) (a + 1) vs

/-- The n bytes from a store offset on. -/
def Mem.readBytes (m : Mem) (a : Nat) : Nat → List Byte
  | 0 => []
  | n + 1 => Mem.read m a :: Mem.readBytes m (a + 1) n

/-- Zeros written over the n bytes from a store offset on. -/
def Mem.clear (m : Mem) (a n : Nat) : Mem := m.filter fun e => e.1 < a || a + n ≤ e.1

/-- The canonical form: offsets strictly rising from a bound on, and no byte that reads as unlisted. -/
def Mem.wfFrom : Nat → Mem → Bool
  | _, [] => true
  | n, (a, v) :: rest => decide (n ≤ a) && (v != Mem.unlisted) && Mem.wfFrom (a + 1) rest

/-- The canonical form of a store. -/
def Mem.wf (m : Mem) : Bool := Mem.wfFrom 0 m

/-! ### Parts of the state -/

/-- Channel c. -/
def State.chan (s : State) (c : Chan) : Channel := s.chans[c]

/-- Channel c replaced. -/
def State.setChan (s : State) (c : Chan) (ch : Channel) : State := { s with chans := s.chans.set c ch }

/-- Channel c changed. -/
def State.modChan (s : State) (c : Chan) (f : Channel → Channel) : State := s.setChan c (f (s.chan c))

/-- The link of channel c. -/
def State.link (s : State) (c : Chan) : Link := s.links[c]

/-- The link of channel c changed. -/
def State.modLink (s : State) (c : Chan) (f : Link → Link) : State :=
  { s with links := s.links.set c (f (s.link c)) }

/-- Request Slot n. -/
def State.slot (s : State) (n : SlotIx) : Slot := s.slots[n]

/-- Request Slot n changed. -/
def State.modSlot (s : State) (n : SlotIx) (f : Slot → Slot) : State :=
  { s with slots := s.slots.set n (f (s.slot n)) }

/-- Pair k. -/
def State.pair (s : State) (k : PairIx) : Pair := s.pairs[k]

/-- Pair k changed. -/
def State.modPair (s : State) (k : PairIx) (f : Pair → Pair) : State :=
  { s with pairs := s.pairs.set k (f (s.pair k)) }

/-- The Arbiter changed. -/
def State.modArb (s : State) (f : Arbiter → Arbiter) : State := { s with arb := f s.arb }

/-- Bytes written into the Shared Store. -/
def State.writeStore (s : State) (a : Nat) (bs : List Byte) : State :=
  { s with store := Mem.writeBytes s.store a bs }

/-- The channels in ascending order. -/
def allChans : List Chan := List.finRange 16

/-! ### Pairs of channels -/

/-- The pair that a channel belongs to. -/
def pairOf (c : Chan) : PairIx := ⟨c.val / 2, by omega⟩

/-- The even channel of a pair. -/
def leaderOf (k : PairIx) : Chan := ⟨2 * k.val, by omega⟩

/-- The odd channel of a pair. -/
def followerOf (k : PairIx) : Chan := ⟨2 * k.val + 1, by omega⟩

/-- Whether a channel is even. -/
def isEven (c : Chan) : Bool := c.val % 2 == 0

/-- Whether channel c leads a GANGED pair (R122). -/
def State.leads (s : State) (c : Chan) : Bool := isEven c && (s.pair (pairOf c)).ganged

/-- Whether channel c is the odd channel of a GANGED pair (R21). -/
def State.follows (s : State) (c : Chan) : Bool := !isEven c && (s.pair (pairOf c)).ganged

/-- The channel whose Channel Engine conducts channel c: its leader while its pair is GANGED, else itself. -/
def State.conductor (s : State) (c : Chan) : Chan := if s.follows c then leaderOf (pairOf c) else c

/-! ### Sets and plans of a channel -/

/-- Section 1.1: the five plan states. -/
def ChState.inPlan : ChState → Bool
  | .checking | .running | .paused | .held | .tripped => true
  | _ => false

/-- R16: the states that a trip moves to TRIPPED. -/
def ChState.tripable : ChState → Bool
  | .checking | .running | .paused | .held => true
  | _ => false

/-- R8: whether the hold-cause set is empty. -/
def HoldSet.isEmpty (h : HoldSet) : Bool := !h.logFull && !h.linkDown

/-- R8: membership of the hold-cause set. -/
def HoldSet.has (h : HoldSet) : HoldCause → Bool
  | .logFull => h.logFull
  | .linkDown => h.linkDown

/-- R8: a cause put into or taken out of the hold-cause set. -/
def HoldSet.put (h : HoldSet) (cause : HoldCause) (b : Bool) : HoldSet :=
  match cause with
  | .logFull => { h with logFull := b }
  | .linkDown => { h with linkDown := b }

/-- The link-hold timer stopped at zero (R10). -/
def LinkHold.stopped : LinkHold := ⟨false, 0, false⟩

/-- The link-hold timer started from zero (R10). -/
def LinkHold.started : LinkHold := ⟨true, 0, false⟩

/-- The step of the active plan at an index, if there is one. -/
def Channel.stepAt (ch : Channel) (n : Nat) : Option Step := ch.active.bind fun p => p.steps[n]?

/-- The step at the sequencer position. -/
def Channel.curStep (ch : Channel) : Option Step := ch.stepAt ch.seqr.position

/-- The current range of the active plan, or range 0 (R53). -/
def Channel.range (ch : Channel) : Fin 3 :=
  match ch.active with
  | some p => p.header.range
  | none => 0

/-- The loss policy of the active plan (R147); DROP while there is none, when no record is generated. -/
def Channel.lossPolicy (ch : Channel) : LossPolicy :=
  match ch.active with
  | some p => p.header.loss
  | none => .drop

/-- The label of the active plan, 0 while there is none. -/
def Channel.label (ch : Channel) : U32 :=
  match ch.active with
  | some p => p.header.label
  | none => 0

/-- Section 2.1.2: the step directions. -/
inductive StepDir where
  | none | charge | discharge
  deriving DecidableEq, Repr

/-- The direction of a signed setpoint. -/
def dirOf (x : Int) : StepDir := if 0 < x then .charge else if x < 0 then .discharge else .none

/-- Section 2.1.2: the step direction. -/
def StepBody.dir : StepBody → StepDir
  | .rest => .none
  | .cc i => dirOf i
  | .cccv i _ => dirOf i
  | .cp p => dirOf p
  | .loop _ _ => .none

/-- Whether a step is a LOOP step. -/
def StepBody.isLoop : StepBody → Bool
  | .loop _ _ => true
  | _ => false

/-- Whether a step is a CCCV step. -/
def StepBody.isCccv : StepBody → Bool
  | .cccv _ _ => true
  | _ => false

/-- Whether a step is a REST step. -/
def StepBody.isRest : StepBody → Bool
  | .rest => true
  | _ => false

/-- R59: whether a step is a REST step that carries AUTO_ZERO. -/
def Step.azRest (st : Step) : Bool := st.autoZero && st.body.isRest

/-- The step charge in the step direction (R36, R43). -/
def Acc.charge (a : Acc) : StepDir → Nat
  | .none => 0
  | .charge => a.chIn
  | .discharge => a.chOut

/-- The whole mJ of step energy in the step direction (R36). -/
def Acc.energy (a : Acc) : StepDir → Nat
  | .none => 0
  | .charge => a.enIn
  | .discharge => a.enOut

end Sys2Proof.Machine
end

