-- ==== Sys2Proof/Machine/Codes.lean ====
section
/-!
DEFINITION. The codes of 11_formats: of the plan, the requests, the records, the pool headers and the response payloads, both
ways where the host writes them.
-/

namespace Sys2Proof.Machine

/-! ### Codes of the plan (section 11.2); `none` is a code outside the list. -/

def Quantity.ofCode : Nat → Option Quantity
  | 0 => some .stepTime
  | 1 => some .voltage
  | 2 => some .currentMag
  | 3 => some .stepCharge
  | 4 => some .stepEnergy
  | 5 => some .temperature
  | 6 => some .voltDrop
  | 7 => some .planCycles
  | _ => none

def Comparison.ofCode : Nat → Option Comparison
  | 0 => some .atLeast
  | 1 => some .atMost
  | _ => none

def EndAction.ofCode : Nat → Option EndAction
  | 0 => some .next
  | 1 => some .goto
  | 2 => some .endPlan
  | 3 => some .trip
  | _ => none

def EndAction.code : EndAction → Nat
  | .next => 0
  | .goto => 1
  | .endPlan => 2
  | .trip => 3

def RetAction.ofCode : Nat → Option RetAction
  | 0 => some .next
  | 1 => some .goto
  | 2 => some .endPlan
  | _ => none

def LossPolicy.ofCode : Nat → Option LossPolicy
  | 0 => some .drop
  | 1 => some .pause
  | _ => none

def SwitchMode.ofCode : Nat → Option SwitchMode
  | 0 => some .nextStart
  | 1 => some .atStepEnd
  | _ => none

def SwitchMode.code : SwitchMode → Nat
  | .nextStart => 0
  | .atStepEnd => 1

def GainMode.ofCode : Nat → Option GainMode
  | 0 => some .sevenLevel
  | 1 => some .twoLevel
  | 2 => some .fixed
  | _ => none

def rangeOfCode : Nat → Option (Fin 3)
  | 0 => some 0
  | 1 => some 1
  | 2 => some 2
  | _ => none

/-- The step kinds' codes: 0 REST, 1 CC, 2 CCCV, 3 CP, 4 LOOP. -/
def StepBody.code : StepBody → Nat
  | .rest => 0
  | .cc _ => 1
  | .cccv _ _ => 2
  | .cp _ => 3
  | .loop _ _ => 4

/-! ### Codes of records (section 11.5) -/

def ChState.code : ChState → Nat
  | .disabled => 0
  | .idle => 1
  | .checking => 2
  | .running => 3
  | .paused => 4
  | .held => 5
  | .tripped => 6
  | .follower => 7

def Cause.code : Cause → Nat
  | .overVoltage => 1
  | .underVoltage => 2
  | .overCurrent => 3
  | .overTemp => 4
  | .softRepeat => 5
  | .stageSilent => 6
  | .stageFault => 7
  | .contactFail => 8
  | .externalStop => 9
  | .linkLost => 10
  | .pairMismatch => 11
  | .planTrip => 12

/-- A cause or NONE. -/
def causeCode : Option Cause → Nat
  | none => 0
  | some k => k.code

/-- Coincident causes as a bit set: bit n − 1 for cause code n. -/
def causeMask (l : List Cause) : Nat := l.foldl (fun m k => m ||| 2 ^ (k.code - 1)) 0

def HoldCause.code : HoldCause → Nat
  | .logFull => 0
  | .linkDown => 1

def RecKind.code : RecKind → Nat
  | .sample => 1
  | .stepEnd => 2
  | .event => 3
  | .planEnd => 4
  | .gap => 5

/-! ### Codes of pool headers (section 11.4) -/

def Owner.code : Owner → Nat
  | .part => 0
  | .host => 1

def PartSide.code : PartSide → Nat
  | .filling => 0
  | .waiting => 1

def CloseReason.code : CloseReason → Nat
  | .none => 0
  | .full => 1
  | .stepEnd => 2
  | .planEnd => 3
  | .trip => 4
  | .flush => 5

/-! ### Codes of requests (section 11.3) -/

def OffsetMode.ofCode : Nat → Option OffsetMode
  | 0 => some .fixed
  | 1 => some .learnOnce
  | 2 => some .learnEvery
  | _ => none

def OffsetMode.code : OffsetMode → Nat
  | .fixed => 0
  | .learnOnce => 1
  | .learnEvery => 2

def WatchQuantity.ofCode : Nat → Option WatchQuantity
  | 0 => some .none
  | 1 => some .voltage
  | 2 => some .planNetCharge
  | 3 => some .cycleCount
  | 4 => some .temperature
  | _ => Option.none

def WatchQuantity.code : WatchQuantity → Nat
  | .none => 0
  | .voltage => 1
  | .planNetCharge => 2
  | .cycleCount => 3
  | .temperature => 4

def WatchDir.ofCode : Nat → Option WatchDir
  | 0 => some .rising
  | 1 => some .falling
  | _ => none

def WatchDir.code : WatchDir → Nat
  | .rising => 0
  | .falling => 1

def WatchMode.ofCode : Nat → Option WatchMode
  | 0 => some .latch
  | 1 => some .every
  | _ => none

def WatchMode.code : WatchMode → Nat
  | .latch => 0
  | .every => 1

def ResumePolicy.ofCode : Nat → Option ResumePolicy
  | 0 => some .onRequest
  | 1 => some .afterAck
  | _ => none

def ResumePolicy.code : ResumePolicy → Nat
  | .onRequest => 0
  | .afterAck => 1

/-! ### Codes of response payloads (R191) -/

def Staged.code : Staged → Nat
  | .empty => 0
  | .loading => 1
  | .valid _ => 2

def HoldSet.code (h : HoldSet) : Nat := bit h.logFull + 2 * bit h.linkDown

def AzPhase.code : AzPhase → Nat
  | .idle => 0
  | .waiting => 1
  | .collecting => 2

def WantDir.code : WantDir → Nat
  | .none => 0
  | .charge => 1
  | .discharge => 2

/-- A grant in 4 bytes: the number of watts, or 0xFFFFFFFF for FULL. -/
def Grant.code : Grant → Nat
  | .full => 0xFFFFFFFF
  | .watts w => w

def EvalOutcome.code : EvalOutcome → Nat
  | .none => 0
  | .within => 1
  | .importCut => 2
  | .exportCut => 3
  | .linkDown => 4

def LinkState.code : LinkState → Nat
  | .silent => 0
  | .bringUp => 1
  | .inService => 2

/-- The kinds of demand frames as the frame format codes them (section 11.6). -/
def FrameKind.code : FrameKind → Nat
  | .demand => 5
  | .probe => 6

def Phase.code : Phase → Nat
  | .starting => 0
  | .ready => 1

end Sys2Proof.Machine
end

