-- ==== Sys2Proof/Machine/Flags.lean ====
section
/-!
DEFINITION. The Notice Unit: notice counts, ATTENTION bits, attention messages and their pacing (R186 to R188), and the change of
channel state that it counts (R1).
-/

namespace Sys2Proof.Machine

/-- R188, message sent: the counter is incremented, and the pace timer starts from 0 if the pace time is nonzero. -/
def NoticeUnit.send (n : NoticeUnit) : NoticeUnit :=
  { n with sent := n.sent + 1, pace := if n.paceTime = 0 then n.pace else some 0 }

/-- R188, bit rise: a message is sent if the pace timer is STOPPED, and owed if it is RUNNING; nothing while ATTN_ENABLE is
clear. -/
def NoticeUnit.rise (n : NoticeUnit) : NoticeUnit :=
  if n.attnEnable then
    match n.pace with
    | none => n.send
    | some _ => if n.owed then n else { n with owed := true, deferred := n.deferred + 1 }
  else n

/-- R186, R187: ATTENTION bit i is set; a bit that is already set is left set. -/
def NoticeUnit.setBit (n : NoticeUnit) (i : Nat) : NoticeUnit :=
  if n.attention.getLsbD i then n
  else ({ n with attention := n.attention ||| (1#17 <<< i) }).rise

/-- R188, at expiry: the timer stops; an owed message is no longer owed, and is sent if ATTN_ENABLE and any bit are set. -/
def NoticeUnit.expire (n : NoticeUnit) : NoticeUnit :=
  let n1 := { n with pace := none }
  if n1.owed then
    let n2 := { n1 with owed := false }
    if n2.attnEnable && n2.attention != 0 then n2.send else n2
  else n1

/-- R188: the timer expires when it is RUNNING with its count at or above the pace time in force. -/
def NoticeUnit.judge (n : NoticeUnit) : NoticeUnit :=
  match n.pace with
  | none => n
  | some k => if n.paceTime ≤ k then n.expire else n

/-- The notice counts of a channel, by name (R186). -/
inductive ChanCount where
  | responses | handovers | stateChanges | watchHits | faults
  deriving DecidableEq, Repr

/-- The notice counts of the device, by name (R186). -/
inductive DevCount where
  | responses | linkChanges | stopAllChanges
  deriving DecidableEq, Repr

/-- A channel's notice count. -/
def ChanNotice.get (n : ChanNotice) : ChanCount → U32
  | .responses => n.responses
  | .handovers => n.handovers
  | .stateChanges => n.stateChanges
  | .watchHits => n.watchHits
  | .faults => n.faults

/-- A channel's notice count incremented. -/
def ChanNotice.bump (n : ChanNotice) : ChanCount → ChanNotice
  | .responses => { n with responses := n.responses + 1 }
  | .handovers => { n with handovers := n.handovers + 1 }
  | .stateChanges => { n with stateChanges := n.stateChanges + 1 }
  | .watchHits => { n with watchHits := n.watchHits + 1 }
  | .faults => { n with faults := n.faults + 1 }

/-- The offset of a count in a channel Notice Record (11 section 11.4). -/
def ChanCount.offset : ChanCount → Nat
  | .responses => 0x0
  | .handovers => 0x4
  | .stateChanges => 0x8
  | .watchHits => 0xC
  | .faults => 0x10

/-- A device notice count. -/
def DevNotice.get (n : DevNotice) : DevCount → U32
  | .responses => n.responses
  | .linkChanges => n.linkChanges
  | .stopAllChanges => n.stopAllChanges

/-- A device notice count incremented. -/
def DevNotice.bump (n : DevNotice) : DevCount → DevNotice
  | .responses => { n with responses := n.responses + 1 }
  | .linkChanges => { n with linkChanges := n.linkChanges + 1 }
  | .stopAllChanges => { n with stopAllChanges := n.stopAllChanges + 1 }

/-- The offset of a count in the device Notice Record (11 section 11.4). -/
def DevCount.offset : DevCount → Nat
  | .responses => 0x0
  | .linkChanges => 0x4
  | .stopAllChanges => 0x8

/-- R186: a channel's count is incremented, written into its field of the Notice Record, and then the channel's ATTENTION bit is
set. -/
def State.bumpChan (s : State) (c : Chan) (k : ChanCount) : State :=
  let cn := (s.notices.chan[c]).bump k
  let n := { s.notices with chan := s.notices.chan.set c cn }
  let s1 := s.writeStore (Config.chanNotice c + k.offset) (leBytes 4 (cn.get k).toNat)
  { s1 with notices := n.setBit c.val }

/-- R186: a device count is incremented, written into its field of the device Notice Record, and then ATTENTION bit 16 is set. -/
def State.bumpDev (s : State) (k : DevCount) : State :=
  let dn := s.notices.dev.bump k
  let n := { s.notices with dev := dn }
  let s1 := s.writeStore (Config.devNotice + k.offset) (leBytes 4 (dn.get k).toNat)
  { s1 with notices := n.setBit 16 }

/-- R1: channel c's state becomes st, and the state-change count is incremented if that is a change. -/
def State.setSt (s : State) (c : Chan) (st : ChState) : State :=
  if (s.chan c).st = st then s
  else (s.modChan c fun ch => { ch with st := st }).bumpChan c .stateChanges

end Sys2Proof.Machine
end

