-- ==== Sys2Proof/Machine/Records.lean ====
section
/-!
DEFINITION. The Result Logger: pools, handover and release, the placing of records, loss, the holding latch and GAP records
(R145 to R159), and the byte layouts of the records (section 11.5).
-/

namespace Sys2Proof.Machine

/-! ### Pools -/

/-- The Logger's copy of a pool's header. -/
def Logger.pool (l : Logger) : PoolId → PoolHeader
  | .a => l.poolA
  | .b => l.poolB

/-- The Logger's copy of a pool's header replaced. -/
def Logger.setPool (l : Logger) (p : PoolId) (h : PoolHeader) : Logger :=
  match p with
  | .a => { l with poolA := h }
  | .b => { l with poolB := h }

/-- The other pool of a channel. -/
def otherPool : PoolId → PoolId
  | .a => .b
  | .b => .a

/-- R146: whether a pool is the one the Logger writes into. -/
def PoolHeader.isFilling (h : PoolHeader) : Bool := decide (h.owner = .part) && decide (h.side = .filling)

/-- R146: the FILLING pool of a channel, if it has one. -/
def Logger.filling (l : Logger) : Option PoolId :=
  if l.poolA.isFilling then some .a else if l.poolB.isFilling then some .b else none

/-- The 32 bytes of a pool header (section 11.4). -/
def PoolHeader.bytes (h : PoolHeader) : List Byte :=
  padTo 32 (leBytes 1 h.owner.code ++ leBytes 1 h.side.code ++ leBytes 1 h.reason.code ++ leBytes 1 0 ++ leBytes 2 h.used
    ++ leBytes 2 0 ++ leBytes 4 h.firstSeq.toNat ++ leBytes 4 h.lastSeq.toNat ++ leBytes 4 h.gen.toNat)

/-- Channel c's Logger state changed. -/
def State.modLog (s : State) (c : Chan) (f : Logger → Logger) : State :=
  s.modChan c fun ch => { ch with log := f ch.log }

/-- R145: a header changed in the Logger's copy, and the copy written into its place in the store. -/
def State.putHeader (s : State) (c : Chan) (p : PoolId) (h : PoolHeader) : State :=
  (s.modLog c fun l => l.setPool p h).writeStore (Config.headerBase c p) h.bytes

/-- R152: the handover of pool p of channel c. -/
def State.handover (s : State) (c : Chan) (p : PoolId) (reason : CloseReason) : State :=
  let h := (s.chan c).log.pool p
  let s1 := s.putHeader c p { h with reason := reason, gen := h.gen + 1, owner := .host }
  let q := otherPool p
  let hq := (s1.chan c).log.pool q
  let s2 := if hq.owner = .part then s1.putHeader c q { hq with side := .filling } else s1
  s2.bumpChan c .handovers

/-- R151: a cause of handover hands over the FILLING pool if it holds a record, and does nothing otherwise. -/
def State.closePool (s : State) (c : Chan) (reason : CloseReason) : State :=
  match (s.chan c).log.filling with
  | some p => if 0 < ((s.chan c).log.pool p).used then s.handover c p reason else s
  | none => s

/-! ### The common fields -/

/-- The common fields of a record (section 11.5), 14 bytes: kind and its upper nibble, channel, slot count and the two bits
beside them, step index and the two bits beside it, flags, sequence number, plan time. -/
def commonBytes (kind upper : Nat) (c : Chan) (slots bits1 : Nat) (step bits2 flags : Nat) (seq : U32) (planTime : Nat) : List Byte :=
  leBytes 1 (kind + 16 * upper) ++ leBytes 1 (c.val + 16 * slots + 64 * bits1) ++ leBytes 1 (step % 64 + 64 * bits2)
    ++ leBytes 1 flags ++ leBytes 4 seq.toNat ++ leBytes 6 (fieldU 48 planTime)

/-- A GAP record (R157): the first lost sequence number and the count lost. -/
def gapBytes (ch : Channel) (c : Chan) (seq first count : U32) : List Byte :=
  padTo 32 (commonBytes RecKind.gap.code 0 c 1 0 ch.seqr.position 0 0 seq ch.planTime
    ++ leBytes 4 first.toNat ++ leBytes 4 count.toNat)

/-! ### Placing -/

/-- R150: a record's slots written after the last used one of pool p, and the header that covers them. -/
def State.writeRecord (s : State) (c : Chan) (p : PoolId) (r : Record) : State :=
  let h := (s.chan c).log.pool p
  let s1 := s.writeStore (Config.poolBase c p + h.used * Config.recordSlot) r.bytes
  let s2 := s1.modLog c fun l => { l with written := l.written + 1 }
  s2.putHeader c p
    { h with used := h.used + r.slots, firstSeq := if h.used = 0 then r.seq else h.firstSeq, lastSeq := r.seq }

/-- R157: a GAP record is generated and written into pool p, if a loss is pending. -/
def State.writeGap (s : State) (c : Chan) (p : PoolId) : State :=
  let l := (s.chan c).log
  match l.pendingLoss with
  | none => s
  | some (first, count) =>
    let r : Record := ⟨.gap, l.nextSeq, 1, gapBytes (s.chan c) c l.nextSeq first count⟩
    let s1 := s.modLog c fun l => { l with nextSeq := l.nextSeq + 1, pendingLoss := none, gaps := l.gaps + 1 }
    s1.writeRecord c p r

/-- R150, R157: a record placed in pool p, which has room, preceded by a GAP if a loss is pending; a pool whose last slot it fills
is handed over with reason FULL. -/
def State.placeIn (s : State) (c : Chan) (p : PoolId) (r : Record) : State :=
  let s1 := (s.writeGap c p).writeRecord c p r
  if ((s1.chan c).log.pool p).used = Config.poolSlots then s1.handover c p .full else s1

/-- R154: a record is lost. -/
def Logger.lose (l : Logger) (r : Record) : Logger :=
  { l with
    pendingLoss := match l.pendingLoss with
      | none => some (r.seq, 1)
      | some (first, count) => some (first, count + 1)
    lost := l.lost + 1
    stepEndLost := if r.kind = .stepEnd then l.stepEndLost + 1 else l.stepEndLost
    planEndLost := if r.kind = .planEnd then l.planEndLost + 1 else l.planEndLost }

/-- R154, R155: a record that falls due while the channel has no active pool enters an EMPTY latch under PAUSE, and is lost
otherwise. -/
def Logger.refuse (l : Logger) (policy : LossPolicy) (r : Record) : Logger :=
  if policy = .pause ∧ l.latch = none then
    { l with latch := some r, latchEntries := l.latchEntries + 1, report := true }
  else l.lose r

/-- The slots a record needs, with those of the GAP that precedes it (R150). -/
def Logger.need (l : Logger) (r : Record) : Nat := r.slots + if l.pendingLoss.isSome then 1 else 0

/-- R150: a record is placed in the FILLING pool, after a handover for want of room if that is needed, or dealt with by the loss
policy. -/
def State.place (s : State) (c : Chan) (policy : LossPolicy) (r : Record) : State :=
  let l := (s.chan c).log
  match l.filling with
  | some p =>
    if (l.pool p).used + l.need r ≤ Config.poolSlots then s.placeIn c p r
    else
      let s1 := s.handover c p .full
      match (s1.chan c).log.filling with
      | some q => s1.placeIn c q r
      | none => s1.modLog c fun l => l.refuse policy r
  | none => s.modLog c fun l => l.refuse policy r

/-- R147, R148: a record of channel c is generated with the next sequence number and placed at the same event; `mk` gives its
bytes from its number. -/
def State.emit (s : State) (c : Chan) (kind : RecKind) (slots : Nat) (mk : U32 → List Byte) : State :=
  let l := (s.chan c).log
  let r : Record := ⟨kind, l.nextSeq, slots, mk l.nextSeq⟩
  (s.modLog c fun l => { l with nextSeq := l.nextSeq + 1 }).place c (s.chan c).lossPolicy r

/-- An EVENT record of one slot with the given subkind, flags and body, about channel `about` (R129). -/
def State.emitEvent (s : State) (c about : Chan) (subkind flags : Nat) (body : List Byte) : State :=
  let ch := s.chan c
  s.emit c .event 1 fun seq =>
    padTo 32 (commonBytes RecKind.event.code subkind about 1 0 ch.seqr.position 0 flags seq ch.planTime ++ body)

/-! ### Event bodies -/

/-- The body of a TRIP event. -/
def tripBody (cause : Cause) (coincident : List Cause) (v i t : Int) : List Byte :=
  leBytes 1 cause.code ++ leBytes 2 (causeMask coincident) ++ leBytes 3 (fieldS 24 v) ++ leBytes 3 (fieldS 24 i)
    ++ leBytes 2 (fieldS 16 t)

/-- The body of a WATCH event; its values are signed fields of four bytes (log 25). -/
def watchBody (ix : Nat) (w : Watch) (prev cur : Int) (hits : U32) : List Byte :=
  leBytes 1 (ix + 4 * w.quantity.code + 32 * w.dir.code + 64 * w.mode.code) ++ leBytes 4 (fieldS 32 w.threshold)
    ++ leBytes 4 (fieldS 32 prev) ++ leBytes 4 (fieldS 32 cur) ++ leBytes 4 hits.toNat

/-- The body of a LEARN event. -/
def learnBody (range : Fin 3) (new : Int) (prev : Option Int) (unclamped : Int) : List Byte :=
  leBytes 1 range.val ++ leBytes 2 (fieldS 16 new) ++ leBytes 2 (fieldS 16 (prev.getD 0)) ++ leBytes 4 (fieldS 32 unclamped)

/-- The subkind codes of EVENT records (section 11.5). -/
def subTrip : Nat := 1
def subWatch : Nat := 2
def subHold : Nat := 3
def subRelease : Nat := 4
def subPause : Nat := 5
def subResume : Nat := 6
def subSwitch : Nat := 7
def subLearn : Nat := 8

/-! ### Step-end and plan-end records -/

/-- The reasons of a step end (R42) with their codes. -/
inductive StepReason where
  | condition (ix : Nat) (action : EndAction)
  | jumped
  | stopped
  deriving DecidableEq, Repr

/-- The codes of the reasons of a step end. -/
def StepReason.code : StepReason → Nat
  | .condition _ _ => 0
  | .jumped => 1
  | .stopped => 2

/-- The reasons of a plan end (R50). -/
inductive PlanReason where
  | completed | conditionEnd | retentionEnd | stopped | aborted
  deriving DecidableEq, Repr

/-- The codes of the reasons of a plan end. -/
def PlanReason.code : PlanReason → Nat
  | .completed => 0
  | .conditionEnd => 1
  | .retentionEnd => 2
  | .stopped => 3
  | .aborted => 4

/-- What stages 2 to 4 of a step end contribute to the step-end record (R42). -/
structure StepOutcome where
  refCaptured : Bool
  noReference : Bool
  fired : Bool
  switchFollows : Bool
  retention : Nat
  deriving DecidableEq, Repr

/-- Nothing contributed: step ends of reason JUMPED and STOPPED, and of action TRIP (R40, R41). -/
def StepOutcome.none : StepOutcome := ⟨false, false, false, false, 0⟩

/-- The packed field of 10 bytes of a step-end record: last V, step peak voltage, last I, last T and the reason. -/
def stepEndTail (v peak i t : Int) (reason : Nat) : List Byte :=
  leBytes 10 (fieldU 20 v.toNat + 2 ^ 20 * fieldU 20 peak.toNat + 2 ^ 40 * fieldS 22 i + 2 ^ 62 * fieldS 12 t + 2 ^ 74 * reason)

/-- The 64 bytes of a step-end record (R42); `v`, `i` and `t` are the last corrected values. -/
def stepEndBytes (ch : Channel) (c : Chan) (st : Step) (reason : StepReason) (o : StepOutcome) (v i t : Int) (seq : U32) : List Byte :=
  let act := match reason with
    | .condition _ a => a.code
    | _ => 0
  let ix := match reason with
    | .condition n _ => n
    | _ => 0
  let flags := bit ch.reg.clamped + 2 * bit (ch.stepSet.saturated || ch.planSet.saturated) + 4 * bit ch.seqr.learnClamp
    + 8 * bit o.refCaptured + 16 * bit o.noReference + 32 * bit o.fired + 64 * bit o.switchFollows
    + 128 * bit (st.body.isCccv && ch.reg.cvPhase)
  padTo 64 (commonBytes RecKind.stepEnd.code st.body.code c 2 act ch.seqr.position ix flags seq ch.planTime
    ++ leBytes 4 ch.label.toNat ++ leBytes 4 ch.seqr.stepTime ++ leBytes 4 ch.seqr.cycle ++ leBytes 4 (fieldU 32 o.retention)
    ++ leBytes 6 (fieldU 48 ch.stepSet.chIn) ++ leBytes 6 (fieldU 48 ch.stepSet.chOut)
    ++ leBytes 6 (fieldU 48 ch.stepSet.enIn) ++ leBytes 6 (fieldU 48 ch.stepSet.enOut)
    ++ stepEndTail v (ch.seqr.peak.getD 0) i t reason.code)

/-- Whether the staged slot is VALID. -/
def Staged.isValid : Staged → Bool
  | .valid _ => true
  | _ => false

/-- The 64 bytes of a plan-end record (R50). -/
def planEndBytes (ch : Channel) (c : Chan) (reason : PlanReason) (seq : U32) : List Byte :=
  let flags := bit ch.planSet.saturated + 2 * bit ch.staged.isValid + 4 * bit ch.seqr.retRef.isSome
  padTo 64 (commonBytes RecKind.planEnd.code reason.code c 2 0 ch.seqr.position 0 flags seq ch.planTime
    ++ leBytes 4 ch.label.toNat ++ leBytes 4 ch.seqr.cycle
    ++ leBytes 8 ch.planSet.chIn ++ leBytes 8 ch.planSet.chOut ++ leBytes 8 ch.planSet.enIn ++ leBytes 8 ch.planSet.enOut
    ++ leBytes 8 (ch.seqr.retRef.getD 0))

/-- The flags of a SAMPLE record (section 11.5). -/
structure SampleFlags where
  first : Bool
  interval : Bool
  delta : Bool
  heldValue : Bool
  clamp : Bool
  derated : Bool
  budget : Bool
  hot : Bool
  deriving DecidableEq, Repr

/-- The flags byte of a SAMPLE record. -/
def SampleFlags.byte (f : SampleFlags) : Nat :=
  bit f.first + 2 * bit f.interval + 4 * bit f.delta + 8 * bit f.heldValue + 16 * bit f.clamp + 32 * bit f.derated
    + 64 * bit f.budget + 128 * bit f.hot

/-- The 32 bytes of a SAMPLE record (R149). -/
def sampleBytes (ch : Channel) (c : Chan) (f : SampleFlags) (v i t1 t2 : Int) (seq : U32) : List Byte :=
  padTo 32 (commonBytes RecKind.sample.code 0 c 1 0 ch.seqr.position 0 f.byte seq ch.planTime
    ++ leBytes 3 (fieldS 24 v) ++ leBytes 3 (fieldS 24 i) ++ leBytes 3 (fieldS 24 ch.demand)
    ++ leBytes 2 (fieldS 16 t1) ++ leBytes 2 (fieldS 16 t2) ++ leBytes 4 ch.seqr.stepTime)

end Sys2Proof.Machine
end

