-- ==== Sys2Proof/Machine/Arbiter.lean ====
section
/-!
DEFINITION. The Link Budget Arbiter: wanted power (R134), deliveries and notifications (R135, R136), the evaluation and its cuts
(R138 to R140), and the edges of LINK_OK as the Arbiter takes them (R142).
-/

namespace Sys2Proof.Machine

/-! ### Wanted power -/

/-- An entry of the wanted-power table; a magnitude of 0 has direction NONE (R132). -/
def Wanted.mk' (dir : StepDir) (mag : Nat) : Wanted :=
  if mag = 0 then ⟨.none, 0⟩
  else
    match dir with
    | .none => ⟨.none, 0⟩
    | .charge => ⟨.charge, mag⟩
    | .discharge => ⟨.discharge, mag⟩

/-- The entry of a channel that wants nothing. -/
def Wanted.nothing : Wanted := ⟨.none, 0⟩

/-- R134: the wanted power of a step at voltage v under the running current limit. -/
def stepWants (body : StepBody) (iRunMax v : Int) : Wanted :=
  match body with
  | .cc i => .mk' (dirOf i) (ceilDiv (min i.natAbs iRunMax.natAbs * v.toNat) 1000000)
  | .cccv i _ => .mk' (dirOf i) (ceilDiv (min i.natAbs iRunMax.natAbs * v.toNat) 1000000)
  | .cp p => .mk' (dirOf p) (min p.natAbs (ceilDiv (iRunMax.natAbs * (max v 1000).toNat) 1000000))
  | .rest => .nothing
  | .loop _ _ => .nothing

/-- R134: the wanted power of a channel at voltage v: nothing outside RUNNING. -/
def Channel.wants (ch : Channel) (v : Int) : Wanted :=
  match ch.st, ch.curStep, ch.limits with
  | .running, some st, some l => stepWants st.body l.iRunMax v
  | _, _, _ => .nothing

/-! ### The evaluation -/

/-- The sum of the magnitudes of the entries of one direction whose channel passes a test (R138, R139). -/
def Arbiter.total (a : Arbiter) (dir : WantDir) (p : Chan → Bool) : Nat :=
  (allChans.map fun c => if a.wanted[c].dir = dir ∧ p c = true then a.wanted[c].mag else 0).sum

/-- What a cut does to the channels of one class (R139). -/
inductive ClassCut where
  | full
  | zero
  | frac (f : Nat)
  deriving DecidableEq, Repr

/-- R139: the classes in the order taken, with the excess that remains. -/
def cutPlan (total : Nat → Nat) : List Nat → Nat → List (Nat × ClassCut)
  | [], _ => []
  | k :: ks, x =>
    if total k = 0 then (k, .full) :: cutPlan total ks x
    else if x ≤ total k then (k, .frac ((total k - x) * 1024 / total k)) :: ks.map fun j => (j, .full)
    else (k, .zero) :: cutPlan total ks (x - total k)

/-- R139: the grant of a channel of wanted power w whose class is cut so. -/
def ClassCut.grant (w : Nat) : ClassCut → Grant
  | .full => .full
  | .zero => .watts 0
  | .frac f => .watts (w * f / 1024)

/-- R139, R140: the grants of a cut of the channels of one direction by an excess of x W. -/
def Arbiter.cut (a : Arbiter) (dir : WantDir) (x : Nat) : Vector Grant 16 :=
  let plan := cutPlan (fun k => a.total dir fun c => a.classes[c] == k) [2, 1, 0] x
  Vector.ofFn fun c =>
    if a.wanted[c].dir = dir then
      match plan.lookup a.classes[c] with
      | some k => k.grant a.wanted[c].mag
      | none => .full
    else .full

/-- R138: the class of each charging or discharging channel as read at the evaluation; the others keep the last-read one. -/
def Arbiter.readClasses (a : Arbiter) (prio : Chan → Option Nat) : Arbiter :=
  { a with
    classes := Vector.ofFn fun c =>
      if a.wanted[c].dir = .none then a.classes[c] else (prio c).getD a.classes[c] }

/-- R138: the outcome of an evaluation with the link-up flag set. -/
def evalOutcome (settings : LinkSettings) (n : Int) : EvalOutcome :=
  if (settings.importLimit : Int) < n then .importCut
  else if n < -(settings.exportLimit : Int) then .exportCut
  else .within

/-- R138 to R140: the grants of an evaluation with the link-up flag set, the classes read. -/
def Arbiter.grantsFor (a : Arbiter) (settings : LinkSettings) (n : Int) : Vector Grant 16 :=
  match evalOutcome settings n with
  | .importCut => a.cut .charge (n - settings.importLimit).toNat
  | .exportCut => a.cut .discharge (-(settings.exportLimit : Int) - n).toNat
  | _ => Vector.replicate 16 .full

/-- R138, R142: one evaluation. `prio` reads the priority class from a channel's limit set. -/
def Arbiter.evaluate (a : Arbiter) (prio : Chan → Option Nat) (settings : LinkSettings) : Arbiter :=
  let sPlus := a.total .charge fun _ => true
  let sMinus := a.total .discharge fun _ => true
  let n : Int := (sPlus : Int) - sMinus
  if a.linkUp then
    let a1 := a.readClasses prio
    let out := evalOutcome settings n
    { a1 with
      grants := a1.grantsFor settings n
      summary := ⟨sPlus, sMinus, n, out⟩
      evals := a1.evals + 1
      importCuts := if out = .importCut then a1.importCuts + 1 else a1.importCuts
      exportCuts := if out = .exportCut then a1.exportCuts + 1 else a1.exportCuts }
  else
    { a with
      grants := Vector.replicate 16 (.watts 0)
      summary := ⟨sPlus, sMinus, n, .linkDown⟩
      evals := a.evals + 1
      linkDowns := a.linkDowns + 1 }

/-- R138: the priority class in a channel's limit set. -/
def State.prio (s : State) (c : Chan) : Option Nat := (s.chan c).limits.map fun l => l.priority

/-- R136: an evaluation, if the link settings are present. -/
def State.evaluate (s : State) : State :=
  match s.arb.settings with
  | some settings => s.modArb fun a => a.evaluate s.prio settings
  | none => s

/-- R135: a delivery writes the channel's entry of the wanted-power table. -/
def State.deliver (s : State) (c : Chan) (w : Wanted) : State :=
  s.modArb fun a => { a with wanted := a.wanted.set c w }

/-- R135: the held voltage of a channel, or the held pair voltage for a leader. -/
def State.heldV (s : State) (c : Chan) : Int :=
  if s.leads c then (s.pair (pairOf c)).held.v else (s.chan c).held.v

/-- R136: a notification of channel c: the delivery R135 makes at the same event, then an evaluation. The entry is NONE, 0 in
every state other than RUNNING (R134). The evaluation is made at the event itself, so before any later regulation stage reads the grant,
an order that R136 leaves open (log 50, DESIGN CHOICE); at a step end within a sample's handling the order is an operand (log 7). -/
def State.notify (s : State) (c : Chan) : State :=
  (s.deliver c ((s.chan c).wants (s.heldV c))).evaluate

/-! ### The interval timer and the edges of LINK_OK -/

/-- R137: the interval timer has reached the interval. -/
def Arbiter.intervalDue (a : Arbiter) : Bool :=
  match a.timer, a.settings with
  | some k, some settings => decide (settings.interval ≤ k)
  | _, _ => false

/-- R137: the expiry of the interval timer: an evaluation, and the count starts again from 0. -/
def State.intervalExpire (s : State) : State :=
  if s.arb.intervalDue then (s.modArb fun a => { a with timer := some 0 }).evaluate else s

/-- R137: one expiry of the sample timer counted by the interval timer. -/
def Arbiter.countMs (a : Arbiter) : Arbiter := { a with timer := a.timer.map (· + 1) }

/-- R142: the Arbiter's taking of an edge of LINK_OK. -/
def State.arbiterEdge (s : State) (rising : Bool) : State :=
  if rising then
    let s1 := s.modArb fun a => { a with linkUp := true }
    match s1.arb.settings with
    | some _ => s1.evaluate
    | none => s1.modArb fun a => { a with grants := Vector.replicate 16 .full }
  else s.modArb fun a => { a with linkUp := false, grants := Vector.replicate 16 (.watts 0) }

end Sys2Proof.Machine
end

