-- ==== Sys2Proof/Machine/Regulation.lean ====
section
/-!
DEFINITION. Demand regulation: the limiting terms and the ceiling (R77 to R81), the CCCV regulator and its gain schedules (R83 to
R89), regulator restarts (R90, R91), the demand of a regulation stage (R75, R76, R82) and the bounding of a standing demand on a
missed sample (R74).
-/

namespace Sys2Proof.Machine

/-! ### Restart -/

/-- R90: the effect of a regulator restart under a plan header. -/
def Regulator.restart (r : Regulator) (h : PlanHeader) : Regulator :=
  let r0 := { r with integ := 0, restartCtr := r.restartCtr + 1 }
  match h.gainMode, h.levelHold with
  | .sevenLevel, false => { r0 with level := 7, climb := true, restartMark := true }
  | .sevenLevel, true => { r0 with climb := false, restartMark := false }
  | .twoLevel, false => { r0 with level := h.high, restartMark := true }
  | .twoLevel, true => { r0 with restartMark := false }
  | .fixed, false => { r0 with level := h.high, climb := true, restartMark := true }
  | .fixed, true => { r0 with climb := false, restartMark := false }

/-- R90: a regulator restart of a channel; without an active plan there is none to make. -/
def Channel.restart (ch : Channel) : Channel :=
  match ch.active with
  | some p => { ch with reg := ch.reg.restart p.header }
  | none => ch

/-! ### Gain level -/

/-- R86: the band level of a band ratio in percent. -/
def bandLevel (r : Nat) : Nat :=
  if 90 ≤ r then 7 else if 60 ≤ r then 6 else if 40 ≤ r then 5 else if 20 ≤ r then 4
  else if 10 ≤ r then 3 else if 5 ≤ r then 2 else 1

/-- R86: a level clamped to the range LL to UL. -/
def clampLevel (h : PlanHeader) (l : Nat) : Nat := max h.ll (min h.ul l)

/-- R86 to R89, R91: the level in force on a sample of band ratio r, with the flags it leaves; the restart sample keeps the level the
restart set and clears the marker. -/
def Regulator.select (g : Regulator) (h : PlanHeader) (r : Nat) : Regulator :=
  if g.restartMark then { g with restartMark := false }
  else
    match h.gainMode with
    | .sevenLevel =>
      if g.climb then
        if h.ul < bandLevel r then { g with level := bandLevel r }
        else { g with climb := false, level := clampLevel h (bandLevel r) }
      else { g with level := clampLevel h (bandLevel r) }
    | .twoLevel =>
      if 75 ≤ r then { g with level := h.high } else if r < 25 then { g with level := h.low } else g
    | .fixed =>
      if g.climb then
        if r < 25 then { g with climb := false, level := h.low } else { g with level := h.high }
      else { g with level := h.low }

/-! ### The limiting terms -/

/-- R75: the truncation of |P| × 1,000,000 ÷ max(V, 1,000). -/
def cpMagnitude (p v : Int) : Int := ((p.natAbs * 1000000 / (max v 1000).toNat : Nat) : Int)

/-- R77: the setpoint magnitude of a step at voltage v; none for REST. -/
def setpointMag (body : StepBody) (v : Int) : Option Int :=
  match body with
  | .cc i => some i.natAbs
  | .cccv i _ => some i.natAbs
  | .cp p => some (cpMagnitude p v)
  | .rest => none
  | .loop _ _ => none

/-- R79: the derated limit at temperature t. -/
def deratedLimit (l : LimitSet) (t : Int) : Int := max l.iFloor (l.iRunMax - max 0 (t - l.tStart) * l.slope)

/-- R80: the budget cap of a grant at voltage v; absent under FULL. -/
def budgetCap (g : Grant) (v : Int) : Option Int :=
  match g with
  | .full => none
  | .watts w => some ((w * 1000000 / (max v 1000).toNat : Nat) : Int)

/-- The lesser of a bound and an optional one. -/
def minOpt (x : Int) : Option Int → Int
  | none => x
  | some y => min x y

/-- R78: the target in force of a CCCV step. -/
def targetInForce (l : LimitSet) (target : Int) : Int := clampInt l.vMin l.vMax target

/-- R84: the increment ΔI of error e at a gain level: e × Kb × 2^(L − 5) ÷ 256, nearest rounding. -/
def increment (e : Int) (kb level : Nat) : Int := nearest (e * kb * (2 ^ (level - 1) : Nat)) 4096

/-- R83: the band ratio of an error in percent. -/
def bandRatio (e : Int) (w : Nat) : Nat := e.natAbs * 100 / w

/-- R83: the error of a CCCV step against the target in force. -/
def errorOf (dir : StepDir) (target v : Int) : Int :=
  match dir with
  | .discharge => v - target
  | _ => target - v

/-- R84, R85: the regulator after the update of a CCCV step with ceiling c. -/
def Regulator.update (g : Regulator) (h : PlanHeader) (e c : Int) : Regulator :=
  let g1 := g.select h (bandRatio e h.window)
  let d := increment e h.kb g1.level
  { g1 with integ := clampInt 0 c (g1.integ + d), cvPhase := g1.cvPhase || decide (d < 0) }

/-! ### The regulation stage -/

/-- R76: a magnitude with the sign of the step direction. -/
def signed (dir : StepDir) (mag : Int) : Int :=
  match dir with
  | .discharge => -mag
  | .charge => mag
  | .none => 0

/-- R82: the flags of a regulation stage whose demand magnitude is m. -/
def limitFlags (s d : Int) (b : Option Int) (c m : Int) : Bool × Bool :=
  match b with
  | none => (decide (m = c) && decide (d < s), false)
  | some x => (decide (m = c) && decide (d < s) && decide (d ≤ x), decide (m = c) && decide (x < s) && decide (x ≤ d))

/-- R75 to R85: the regulation stage of a step with a direction, at voltage v and temperature t under grant g. -/
def Channel.regulateStep (ch : Channel) (h : PlanHeader) (l : LimitSet) (body : StepBody) (mag v t : Int) (g : Grant) : Channel :=
  let s := min mag l.iRunMax
  let d := deratedLimit l t
  let b := budgetCap g v
  let c := minOpt (min s d) b
  let clampS := decide (l.iRunMax < mag)
  let clampT := match body with
    | .cccv _ target => decide (targetInForce l target ≠ target)
    | _ => false
  let reg1 := match body with
    | .cccv _ target => ch.reg.update h (errorOf body.dir (targetInForce l target) v) c
    | _ => ch.reg
  let m := match body with
    | .cccv _ _ => min reg1.integ c
    | _ => min mag c
  let f := limitFlags s d b c m
  { ch with
    demand := signed body.dir m
    reg := { reg1 with
      clamped := reg1.clamped || clampS || clampT
      last := some ⟨s, d, b, c, f.1, f.2⟩
      deratedCtr := if f.1 then reg1.deratedCtr + 1 else reg1.deratedCtr
      budgetCtr := if f.2 then reg1.budgetCtr + 1 else reg1.budgetCtr } }

/-- R73: the regulation stage of a valid sample at voltage v and temperature t under grant g. A REST step demands 0 and forms no
term (log 26). -/
def Channel.regulate (ch : Channel) (v t : Int) (g : Grant) : Channel :=
  match ch.active, ch.curStep, ch.limits with
  | some p, some st, some l =>
    match setpointMag st.body v with
    | none => { ch with demand := 0, reg := { ch.reg with last := none } }
    | some mag => ch.regulateStep p.header l st.body mag v t g
  | _, _, _ => ch

/-! ### Missed samples -/

/-- R74: the least limiting term at held values v and t under grant g (log 21). -/
def leastTerm (l : LimitSet) (body : StepBody) (v t : Int) (g : Grant) : Int :=
  let d := deratedLimit l t
  let m := match setpointMag body v with
    | none => d
    | some mag => min (min mag l.iRunMax) d
  minOpt m (budgetCap g v)

/-- R74: the standing demand reduced to the least limiting term where its magnitude exceeds it, and so the integrator, whatever the
kind of the step (R92: a CC, CP or REST step keeps the integrator of the last CCCV step). -/
def Channel.bound (ch : Channel) (v t : Int) (g : Grant) : Channel :=
  match ch.curStep, ch.limits with
  | some st, some l =>
    let m := leastTerm l st.body v t g
    { ch with
      demand := if m < ch.demand.natAbs then (if ch.demand < 0 then -m else m) else ch.demand
      reg := { ch.reg with integ := min ch.reg.integ m } }
  | _, _ => ch

end Sys2Proof.Machine
end

