-- ==== Sys2Proof/Machine/Channel.lean ====
section
/-!
DEFINITION. The Channel Engine's transitions: departure from and entry to RUNNING (R11, R12), step entry (R33), the hold-cause set
(R8, R9), trips and later faults (R110, R113), the loop stack (R46, R47), step ends and plan ends (R41 to R50).
-/

namespace Sys2Proof.Machine

/-! ### Departure and entry -/

/-- R61: a collection discarded at a departure from RUNNING: the phase becomes WAITING. -/
def AutoZero.discard (a : AutoZero) : AutoZero :=
  if a.phase = .collecting then { a with phase := .waiting, sum := 0, count := 0 } else a

/-- R59: auto-zero at the entry of a step. -/
def AutoZero.begin (rest : Bool) : AutoZero := ⟨if rest then .waiting else .idle, 0, 0, false⟩

/-- R61, R72: auto-zero at the end of a plan. -/
def AutoZero.ended (a : AutoZero) : AutoZero := { a with phase := .idle, sum := 0, count := 0 }

/-- The auto-zero state of channel c, and of the channel that follows it (R62), changed. -/
def State.modAz (s : State) (c : Chan) (f : AutoZero → AutoZero) : State :=
  let s1 := s.modChan c fun ch => { ch with az := f ch.az }
  if s.leads c then s1.modChan (followerOf (pairOf c)) fun ch => { ch with az := f ch.az } else s1

/-- R11: the effects of a departure from RUNNING within the channel. -/
def State.departLocal (s : State) (c : Chan) : State :=
  (s.modChan c fun ch => { ch with demand := 0, chop := none }).modAz c AutoZero.discard

/-- R1, R11: channel c's state becomes st, which is not RUNNING; from RUNNING, with the departure effects and the notification. -/
def State.moveTo (s : State) (c : Chan) (st : ChState) : State :=
  if (s.chan c).st = .running then ((s.departLocal c).setSt c st).notify c else s.setSt c st

/-- R102: the blanking timer started by step entry. -/
def Blanking.start (limits : Option LimitSet) : Blanking :=
  match limits with
  | some l => ⟨decide (l.blankTime ≠ 0), 0⟩
  | none => ⟨false, 0⟩

/-- R33: the effects of the entry of step n, whose record is st, within the channel; `restart` says that the event also restarts the
regulator for another reason, which has the effect of one restart (R90); a chop end on the same sample is another event (log 45). -/
def Channel.enterStep (ch : Channel) (n : Nat) (st : Step) (restart : Bool) : Channel :=
  let ch1 : Channel := { ch with
    stepEntered := true
    seqr := { ch.seqr with
      position := n
      cycle := if st.cycleMark then satSucc 32 ch.seqr.cycle else ch.seqr.cycle
      stepTime := 0
      peak := none
      qualify := [0, 0, 0, 0]
      firstDue := true
      learnClamp := false }
    stepSet := .zero
    reg := { ch.reg with clamped := false, cvPhase := false }
    blanking := .start ch.limits }
  if st.body.isCccv || restart then ch1.restart else ch1

/-- R155: a latch entry noted earlier in the same event takes the RUNNING channel to HELD once the event's stages are done. -/
def Channel.holdDue (ch : Channel) : Bool := ch.log.report && decide (ch.st = .running) && !ch.hold.logFull

/-- R33, R136: the notification of a step entry. Where the same event goes on to hold the channel (R155), the notification of that
departure is the event's one notification: two made at one event cause one evaluation (log 49). -/
def State.notifyEntry (s : State) (c : Chan) : State := if (s.chan c).holdDue then s else s.notify c

/-- R33: step n of channel c's active plan is entered. -/
def State.enterStep (s : State) (c : Chan) (n : Nat) (restart : Bool) : State :=
  match (s.chan c).stepAt n with
  | some st =>
    ((s.modChan c fun ch => ch.enterStep n st restart).modAz c fun _ => .begin st.azRest).notifyEntry c
  | none => s

/-- R12, R38, R90: channel c enters RUNNING; `held` says that it comes from PAUSED or HELD. The evaluation that the entry notifies is
made here, before the first regulation stage after it reads the grant (log 50, DESIGN CHOICE). -/
def State.enterRunning (s : State) (c : Chan) (held : Bool) : State :=
  let s1 := (s.setSt c .running).modChan c fun ch => { ch with seqr := { ch.seqr with qualify := [0, 0, 0, 0] } }
  if (s.chan c).stepEntered then (s1.modChan c Channel.restart).notify c
  else s1.enterStep c (s.chan c).seqr.position held

/-! ### The hold-cause set -/

/-- R8, R9: a cause joins the set of channel c, which is in a plan state and does not hold it: a RUNNING channel becomes HELD, and a
HOLD record is generated. -/
def State.joinCause (s : State) (c : Chan) (cause : HoldCause) : State :=
  let s1 := s.modChan c fun ch => { ch with hold := ch.hold.put cause true }
  let s2 := if (s1.chan c).st = .running then s1.moveTo c .held else s1
  s2.emitEvent c c subHold 0 (leBytes 1 cause.code)

/-- R155: the report of a latch entry takes effect: LOG_FULL joins the set of a channel in a plan state. -/
def State.settle (s : State) (c : Chan) : State :=
  if (s.chan c).log.report then
    let s1 := s.modLog c fun l => { l with report := false }
    if (s1.chan c).st.inPlan && !(s1.chan c).hold.logFull then s1.joinCause c .logFull else s1
  else s

/-- R147, R155: an EVENT record generated, and a latch entry it makes acted on at once. -/
def State.event (s : State) (c about : Chan) (subkind flags : Nat) (body : List Byte) : State :=
  (s.emitEvent c about subkind flags body).settle c

/-- R8, R10: LINK_DOWN joins the set of channel c, if it is in a plan state without it; its timer starts unless it is TRIPPED. -/
def State.joinLinkDown (s : State) (c : Chan) : State :=
  let ch := s.chan c
  if ch.st.inPlan && !ch.hold.linkDown then
    ((s.modChan c fun ch => { ch with linkHold := if ch.st.tripable then .started else ch.linkHold }).joinCause c
      .linkDown).settle c
  else s

/-- R8, R9: a cause leaves the set of channel c, if it is in a plan state with it: the RELEASE record, then a HELD channel whose set
is empty enters RUNNING (log 23). -/
def State.leaveCause (s : State) (c : Chan) (cause : HoldCause) : State :=
  let ch := s.chan c
  if ch.st.inPlan && ch.hold.has cause then
    let s1 := s.modChan c fun ch => { ch with
      hold := ch.hold.put cause false
      linkHold := if cause = .linkDown then .stopped else ch.linkHold }
    let s2 := s1.event c c subRelease 0 (leBytes 1 cause.code)
    if (s2.chan c).st = .held ∧ (s2.chan c).hold.isEmpty then s2.enterRunning c true else s2
  else s

/-! ### Held quantities -/

/-- The last corrected V, I and T of channel c: the held values, or for a leader the held pair quantities (R42, R116). -/
def State.lastVit (s : State) (c : Chan) : Int × Int × Int :=
  if s.leads c then
    let h := (s.pair (pairOf c)).held
    (h.v, h.i, h.t)
  else
    let h := (s.chan c).held
    (h.v, h.i, h.t)

/-! ### Trips and later faults -/

/-- R111: the fault record of a trip; `ended` is the step that ended, for PLAN_TRIP (R40). -/
def Channel.faultRecord (ch : Channel) (cause : Cause) (coincident : List Cause) (v i t : Int) (ended : Option Nat) :
    FaultRecord where
  first := some cause
  coincident := coincident
  planTime := ch.planTime
  stepIndex := ended.getD ch.seqr.position
  stepEntered := ch.stepEntered
  cycle := ch.seqr.cycle
  v := v
  i := i
  t := t
  acked := false
  laterCount := 0
  lastLater := none

/-- R110, effects 1 to 3 and the trip counter, within the channel. -/
def Channel.tripLocal (ch : Channel) (cause : Cause) (coincident : List Cause) (v i t : Int) (ended : Option Nat) : Channel :=
  { ch with
    contact := { ch.contact with inProgress := false }
    linkHold := .stopped
    hits := 0
    window := 0
    fault := ch.faultRecord cause coincident v i t ended
    tripCtr := ch.tripCtr + 1 }

/-- R110: the trip of channel c, which is in CHECKING, RUNNING, PAUSED or HELD. -/
def State.trip (s : State) (c : Chan) (cause : Cause) (coincident : List Cause) (v i t : Int) (ended : Option Nat) : State :=
  let s1 := if (s.chan c).st = .running then s.departLocal c else s
  let s2 := s1.setSt c .tripped
  let s3 := s2.modChan c fun ch => ch.tripLocal cause coincident v i t ended
  let s4 := s3.event c c subTrip 0 (tripBody cause coincident v i t)
  ((s4.closePool c .trip).bumpChan c .faults).notify c

/-- R113: a later fault of channel c, which is TRIPPED. -/
def State.laterFault (s : State) (c : Chan) (cause : Cause) (v i t : Int) : State :=
  let s1 := s.modChan c fun ch => { ch with
    fault := { ch.fault with laterCount := satSucc 16 ch.fault.laterCount, lastLater := some cause, acked := false } }
  (s1.event c c subTrip 1 (tripBody cause [] v i t)).bumpChan c .faults

/-- R109: a cause reaches channel c outside the handling of a sample, with the held values: a trip, or nothing outside the four
states. -/
def State.tripHeld (s : State) (c : Chan) (cause : Cause) : State :=
  if (s.chan c).st.tripable then
    let w := s.lastVit c
    s.trip c cause [] w.1 w.2.1 w.2.2 none
  else s

/-! ### The loop stack -/

/-- The target and count of LOOP step j. -/
def Plan.loopAt (p : Plan) (j : Nat) : Option (Nat × Nat) :=
  match p.steps[j]? with
  | some st =>
    match st.body with
    | .loop target count => some (target, count)
    | _ => none
  | none => none

/-- R47: pruning against a new step n. -/
def Plan.prune (p : Plan) (n : Nat) (loops : List (Nat × Nat)) : List (Nat × Nat) :=
  loops.filter fun e =>
    match p.loopAt e.1 with
    | some lc => decide (lc.1 ≤ n) && decide (n ≤ e.1)
    | none => false

/-- R46: the remaining count of the entry used at an arrival at LOOP step j of count k, and the entries below it. -/
def loopEntry (loops : List (Nat × Nat)) (j k : Nat) : List (Nat × Nat) × Nat :=
  match loops.getLast? with
  | some e => if e.1 = j then (loops.dropLast, e.2) else (loops, k - 1)
  | none => ([], k - 1)

/-- R46: an arrival at LOOP step j with target t and count k: the new stack and the index that follows. -/
def arrive (loops : List (Nat × Nat)) (j t k : Nat) : List (Nat × Nat) × Nat :=
  let e := loopEntry loops j k
  if 0 < e.2 then (e.1 ++ [(j, e.2 - 1)], t) else (e.1, j + 1)

/-- R45: the arrivals at LOOP steps resolved from index n on: the stack, and the non-LOOP step reached or none past the last step. -/
def Plan.resolve (p : Plan) : Nat → List (Nat × Nat) → Nat → List (Nat × Nat) × Option Nat
  | 0, loops, _ => (loops, none)
  | fuel + 1, loops, n =>
    if n < p.steps.length then
      match p.loopAt n with
      | some lc =>
        let r := arrive loops n lc.1 lc.2
        p.resolve fuel r.1 r.2
      | none => (loops, some n)
    else (loops, none)

/-! ### Step ends and plan ends -/

/-- R41, R42: the step-end record of step st of channel c, and the handover of a set close-pool flag. The report of a latch entry is
left for the end of the event (R155). -/
def State.emitStepEnd (s : State) (c : Chan) (st : Step) (reason : StepReason) (o : StepOutcome) (v i t : Int) : State :=
  let ch := s.chan c
  let s1 := s.emit c .stepEnd 2 (stepEndBytes ch c st reason o v i t)
  match ch.active with
  | some p => if p.header.closePool then s1.closePool c .stepEnd else s1
  | none => s1

/-- R17, R48: the step-end record of a step ended by STOP or JUMP, if a step has been entered. -/
def State.endStepBy (s : State) (c : Chan) (reason : StepReason) : State :=
  let ch := s.chan c
  match ch.curStep with
  | some st =>
    if ch.stepEntered then
      let w := s.lastVit c
      s.emitStepEnd c st reason .none w.1 w.2.1 w.2.2
    else s
  | none => s

/-- R49, items 2 to 4: what a plan end leaves within the channel. -/
def Channel.endPlan (ch : Channel) : Channel :=
  { ch with
    hold := ⟨false, false⟩
    linkHold := .stopped
    stepEntered := false
    active := none
    seqr := { ch.seqr with loops := [] }
    contact := { ch.contact with inProgress := false } }

/-- R49, R17, R18: the plan of channel c ends: the plan-end record and its handover, IDLE, and no plan. -/
def State.endPlan (s : State) (c : Chan) (reason : PlanReason) : State :=
  let s1 := (s.emit c .planEnd 2 (planEndBytes (s.chan c) c reason)).closePool c .planEnd
  ((s1.moveTo c .idle).modChan c Channel.endPlan).modAz c AutoZero.ended |>.settle c

/-- R45: what a step end names: a step index, reached by NEXT or by GOTO, or the plan's end. -/
inductive Follow where
  | index (n : Nat) (goto : Bool)
  | ends (reason : PlanReason)
  deriving DecidableEq, Repr

/-- R39: what an end-condition action names; TRIP is dealt with apart (R40). -/
def EndAction.follow (a : EndAction) (position target : Nat) : Follow :=
  match a with
  | .next => .index (position + 1) false
  | .goto => .index target true
  | .endPlan => .ends .conditionEnd
  | .trip => .index target true

/-- R44: what a retention action names. -/
def RetAction.follow (a : RetAction) (position target : Nat) : Follow :=
  match a with
  | .next => .index (position + 1) false
  | .goto => .index target true
  | .endPlan => .ends .retentionEnd

/-- R31: whether the staged plan is VALID with mode AT_STEP_END. -/
def Staged.switches : Staged → Bool
  | .valid p => decide (p.header.switchMode = .atStepEnd)
  | _ => false

/-- R43: the retention reference after stage 2 of a step end. -/
def Channel.capture (ch : Channel) (st : Step) : Option Nat :=
  if st.captureRef then
    let q := ch.stepSet.charge st.body.dir
    if q = 0 then none else some q
  else ch.seqr.retRef

/-- R44: the retention in per-mille. -/
def retentionOf (charge reference : Nat) : Nat := charge * 1000 / reference

/-- Stages 2 and 3 of a step end whose action is NEXT or GOTO (R43, R44): the reference, what is named, and what the record says. -/
def Channel.stages (ch : Channel) (st : Step) (named : Follow) : Option Nat × Follow × StepOutcome :=
  let ref := ch.capture st
  let captured := st.captureRef && ref.isSome
  match st.retention, ref with
  | none, _ => (ref, named, ⟨captured, false, false, false, 0⟩)
  | some _, none => (ref, named, ⟨captured, true, false, false, 0⟩)
  | some r, some q =>
    let v := retentionOf (ch.stepSet.charge st.body.dir) q
    if v ≤ r.threshold then (ref, r.action.follow ch.seqr.position r.target, ⟨captured, false, true, false, v⟩)
    else (ref, named, ⟨captured, false, false, false, v⟩)

/-- R41: stages 2 and 3 for the acting condition; END_PLAN passes both over. -/
def Channel.outcome (ch : Channel) (st : Step) (e : EndCond) : Option Nat × Follow × StepOutcome :=
  let named := e.action.follow ch.seqr.position e.target
  match e.action with
  | .next => ch.stages st named
  | .goto => ch.stages st named
  | _ => (ch.seqr.retRef, named, .none)

/-- R31, R45: whether the step end is a staged switch. -/
def Follow.switches (f : Follow) (staged : Staged) : Bool :=
  match f with
  | .index _ _ => staged.switches
  | .ends _ => false

/-- R32, effects 1 and 3, with the regulator's flags cleared (R92), within the channel. -/
def Channel.switchTo (ch : Channel) (p : Plan) : Channel :=
  { ch with
    active := some p
    staged := .empty
    seqr := { ch.seqr with loops := [] }
    reg := { ch.reg with climb := false, restartMark := false } }

/-- R32: the staged switch of channel c. -/
def State.switchPlan (s : State) (c : Chan) : State :=
  match (s.chan c).staged with
  | .valid p =>
    let former := (s.chan c).label
    let s1 := s.modChan c fun ch => ch.switchTo p
    let s2 := s1.emitEvent c c subSwitch 0 (leBytes 4 former.toNat ++ leBytes 4 p.header.label.toNat)
    s2.enterStep c 0 false
  | _ => s

/-- R45: what follows a step end that is no switch. -/
def State.follow (s : State) (c : Chan) (f : Follow) : State :=
  match f, (s.chan c).active with
  | .ends reason, _ => s.endPlan c reason
  | .index n goto, some p =>
    let loops := (s.chan c).seqr.loops
    let r := p.resolve Config.loopFuel (if goto then p.prune n loops else loops) n
    let s1 := s.modChan c fun ch => { ch with seqr := { ch.seqr with loops := r.1 } }
    match r.2 with
    | some m => s1.enterStep c m false
    | none => s1.endPlan c .completed
  | .index _ _, none => s

/-- R40: a step end whose acting condition has action TRIP. A step-end record that enters the latch is reported within the trip, after
its TRIP record: the channel goes from RUNNING to TRIPPED, not by way of HELD (log 48). -/
def State.endStepTrip (s : State) (c : Chan) (st : Step) (ix : Nat) (e : EndCond) (v i t : Int) : State :=
  let ended := (s.chan c).seqr.position
  let s1 := s.emitStepEnd c st (.condition ix .trip) .none v i t
  let s2 := s1.modChan c fun ch => { ch with
    stepEntered := false
    seqr := { ch.seqr with
      position := e.target
      loops := match ch.active with
        | some p => p.prune e.target ch.seqr.loops
        | none => ch.seqr.loops } }
  s2.trip c .planTrip [] v i t (some ended)

/-- R39 to R45: the step end of channel c at its met condition ix. -/
def State.endStep (s : State) (c : Chan) (st : Step) (ix : Nat) (e : EndCond) (v i t : Int) : State :=
  if e.action = .trip then s.endStepTrip c st ix e v i t
  else
    let ch := s.chan c
    let o := ch.outcome st e
    let switch := o.2.1.switches ch.staged
    let s1 := s.emitStepEnd c st (.condition ix e.action) { o.2.2 with switchFollows := switch } v i t
    let s2 := s1.modChan c fun ch => { ch with seqr := { ch.seqr with retRef := o.1 } }
    (if switch then s2.switchPlan c else s2.follow c o.2.1).settle c

end Sys2Proof.Machine
end

