-- ==== Sys2Proof/Machine/Plan.lean ====
section
/-!
DEFINITION. Loading a plan: the reading of the Plan Area (R27, 11 section 11.2), the validation of the copy (R28) and the plan that a
valid copy gives.
-/

namespace Sys2Proof.Machine

/-! ### Reading -/

/-- The bytes of a plan header. -/
def planHeaderSize : Nat := 0x40

/-- The bytes of a step record. -/
def stepRecordSize : Nat := 0x60

/-- The plan header in 64 bytes. -/
def RawHeader.ofBytes (l : List Byte) : RawHeader where
  count := fieldAt l 0x00 1
  range := fieldAt l 0x01 1
  loss := fieldAt l 0x02 1
  flags := fieldAt l 0x03 1
  switchMode := fieldAt l 0x04 1
  gainMode := fieldAt l 0x05 1
  ul := fieldAt l 0x06 1
  ll := fieldAt l 0x07 1
  high := fieldAt l 0x08 1
  low := fieldAt l 0x09 1
  kb := fieldAt l 0x0A 2
  window := fieldAt l 0x0C 2
  logDelta := fieldAt l 0x10 4
  label := BitVec.ofNat 32 (fieldAt l 0x14 4)

/-- An end-condition entry in 16 bytes. -/
def RawCond.ofBytes (l : List Byte) : RawCond where
  quantity := fieldAt l 0x00 1
  comparison := fieldAt l 0x01 1
  qualify := fieldAt l 0x02 1
  action := fieldAt l 0x03 1
  threshold := sfieldAt l 0x04 4
  target := fieldAt l 0x08 1

/-- How many end-condition entries a load reads (section 11.2). -/
def condsRead (n : Nat) : Nat := if n ≤ 4 then n else 0

/-- A step record in 96 bytes. -/
def RawStep.ofBytes (l : List Byte) : RawStep where
  kind := fieldAt l 0x00 1
  flags := fieldAt l 0x01 1
  nConds := fieldAt l 0x02 1
  retPresent := fieldAt l 0x03 1
  logInterval := fieldAt l 0x04 2
  loopCount := fieldAt l 0x06 2
  setpoint := sfieldAt l 0x08 4
  voltTarget := fieldAt l 0x0C 4
  power := sfieldAt l 0x10 4
  loopTarget := fieldAt l 0x14 1
  retAction := fieldAt l 0x15 1
  retTarget := fieldAt l 0x16 1
  retThreshold := fieldAt l 0x18 2
  conds := (List.range (condsRead (fieldAt l 0x02 1))).map fun k => RawCond.ofBytes (l.drop (0x20 + k * 16))

/-- R28: whether a step count is in its range. -/
def countOk (n : Nat) : Bool := decide (1 ≤ n) && decide (n ≤ 64)

/-- R27: one further record read from a Plan Area; nothing once the reading is over. -/
def Load.readNext (ld : Load) (m : Mem) (c : Chan) : Load :=
  match ld.header with
  | none => { ld with header := some (.ofBytes (m.readBytes (Config.planBase c) planHeaderSize)) }
  | some h =>
    if countOk h.count && decide (ld.steps.length < h.count) then
      { ld with
        steps := ld.steps ++ [.ofBytes (m.readBytes (Config.planBase c + planHeaderSize + ld.steps.length * stepRecordSize)
          stepRecordSize)] }
    else ld

/-- R27: n further records read. -/
def Load.read (m : Mem) (c : Chan) : Nat → Load → Load
  | 0, ld => ld
  | n + 1, ld => Load.read m c n (ld.readNext m c)

/-- A header and 64 steps: the reading is over after so many records. -/
def loadRecords : Nat := 65

/-- R27, log 5: n further records of the load in execution of channel c, if there is one, read. -/
def State.advanceLoad (s : State) (c : Chan) (n : Nat) : State :=
  s.modChan c fun ch => { ch with load := ch.load.map (Load.read s.store c (min n loadRecords)) }

/-! ### Validation -/

/-- The reasons of BAD_PLAN (R28). -/
inductive PlanFault where
  | stepCount | kind | gain | noEnd | qualify | sign | target | emptyLoop | nesting
  deriving DecidableEq, Repr

/-- The codes of the reasons (section 11.3). -/
def PlanFault.code : PlanFault → Nat
  | .stepCount => 1
  | .kind => 2
  | .gain => 3
  | .noEnd => 4
  | .qualify => 5
  | .sign => 6
  | .target => 7
  | .emptyLoop => 8
  | .nesting => 9

/-- R28: GAIN. -/
def RawHeader.gainOk (h : RawHeader) : Bool :=
  let lv := fun n : Nat => decide (1 ≤ n) && decide (n ≤ 7)
  decide (h.kb ≠ 0) && decide (100 ≤ h.window) && decide (h.window ≤ 50000) && lv h.ul && lv h.ll && lv h.high && lv h.low
    && decide (h.ll ≤ h.ul) && decide (h.low < h.high)

/-- R28: the first pass. -/
def RawHeader.fault (h : RawHeader) : Option PlanFault :=
  if !countOk h.count then some .stepCount
  else if (rangeOfCode h.range).isNone || (LossPolicy.ofCode h.loss).isNone || (SwitchMode.ofCode h.switchMode).isNone
    || (GainMode.ofCode h.gainMode).isNone then some .kind
  else if !h.gainOk then some .gain
  else none

/-- The kind code of a LOOP step. -/
def loopKind : Nat := 4

/-- Whether a raw step is a LOOP step. -/
def RawStep.isLoop (st : RawStep) : Bool := st.kind == loopKind

/-- Whether the step at an index is a LOOP step. -/
def loopIn (steps : List RawStep) (n : Nat) : Bool :=
  match steps[n]? with
  | some st => st.isLoop
  | none => false

/-- R28: KIND of an end condition. -/
def RawCond.kindOk (e : RawCond) : Bool :=
  (Quantity.ofCode e.quantity).isSome && (Comparison.ofCode e.comparison).isSome && (EndAction.ofCode e.action).isSome

/-- R28: KIND of a step. -/
def RawStep.kindOk (st : RawStep) : Bool :=
  decide (st.kind ≤ loopKind)
    && (st.isLoop || (st.conds.all RawCond.kindOk && (st.retPresent == 0 || (RetAction.ofCode st.retAction).isSome)))

/-- R28: TARGET of an end condition. -/
def RawCond.targetOk (e : RawCond) (steps : List RawStep) : Bool :=
  match EndAction.ofCode e.action with
  | some .goto => decide (e.target < steps.length)
  | some .trip => decide (e.target < steps.length) && !loopIn steps e.target
  | _ => true

/-- R28: TARGET of a retention check. -/
def RawStep.retTargetOk (st : RawStep) (steps : List RawStep) : Bool :=
  st.retPresent == 0 || RetAction.ofCode st.retAction != some .goto || decide (st.retTarget < steps.length)

/-- R28: SIGN. -/
def RawStep.signOk (st : RawStep) : Bool :=
  match st.kind with
  | 1 | 2 => decide (st.setpoint ≠ 0)
  | 3 => decide (st.power ≠ 0)
  | _ => true

/-- R28: QUALIFY. -/
def RawStep.qualifyOk (st : RawStep) : Bool :=
  if st.isLoop then decide (st.loopCount ≠ 0)
  else decide (st.logInterval ≠ 0) && st.conds.all fun e => decide (e.qualify ≠ 0)

/-- R28: TARGET. -/
def RawStep.targetOk (st : RawStep) (steps : List RawStep) (j : Nat) : Bool :=
  if st.isLoop then decide (st.loopTarget < j)
  else st.conds.all (fun e => e.targetOk steps) && st.retTargetOk steps

/-- R28: EMPTY_LOOP: whether a LOOP step's body has a step that is no LOOP step. -/
def RawStep.bodyOk (st : RawStep) (steps : List RawStep) (j : Nat) : Bool :=
  !st.isLoop || ((List.range j).drop st.loopTarget).any fun n => !loopIn steps n

/-- R28: the second pass on the step at index j. -/
def RawStep.fault (st : RawStep) (steps : List RawStep) (j : Nat) : Option PlanFault :=
  if !st.kindOk then some .kind
  else if !st.isLoop && (st.nConds == 0 || decide (4 < st.nConds)) then some .noEnd
  else if !st.qualifyOk then some .qualify
  else if !st.signOk then some .sign
  else if !st.targetOk steps j then some .target
  else if !st.bodyOk steps j then some .emptyLoop
  else none

/-- R28: the second pass from index j on. -/
def stepFaults (steps : List RawStep) : Nat → List RawStep → Option (PlanFault × Nat)
  | _, [] => none
  | j, st :: rest =>
    match st.fault steps j with
    | some f => some (f, j)
    | none => stepFaults steps (j + 1) rest

/-- The ranges of the LOOP steps, in ascending index: (target, index). -/
def loopRanges (steps : List RawStep) : List (Nat × Nat) :=
  (List.range steps.length).filterMap fun j =>
    match steps[j]? with
    | some st => if st.isLoop then some (st.loopTarget, j) else none
    | none => none

/-- R28: whether two ranges cross. -/
def rangesCross (a b : Nat × Nat) : Bool :=
  decide (max a.1 b.1 ≤ min a.2 b.2) && !(decide (a.1 ≤ b.1) && decide (b.2 ≤ a.2)) && !(decide (b.1 ≤ a.1) && decide (a.2 ≤ b.2))

/-- R28: how many ranges of a list hold step n. -/
def rangesAt (l : List (Nat × Nat)) (n : Nat) : Nat := (l.filter fun r => decide (r.1 ≤ n) && decide (n ≤ r.2)).length

/-- R28: the third pass; `seen` are the ranges of lower index. -/
def nestingFault (count : Nat) : List (Nat × Nat) → List (Nat × Nat) → Option Nat
  | _, [] => none
  | seen, r :: rest =>
    if seen.any (rangesCross r) || (List.range count).any (fun n => decide (4 < rangesAt (seen ++ [r]) n)) then some r.2
    else nestingFault count (seen ++ [r]) rest

/-- The step index reported for a fault of the first pass. -/
def headerIndex : Nat := 255

/-- R28: the first fault of a copy, with its step index. -/
def planFault (h : RawHeader) (steps : List RawStep) : Option (PlanFault × Nat) :=
  match h.fault with
  | some f => some (f, headerIndex)
  | none =>
    match stepFaults steps 0 steps with
    | some f => some f
    | none => (nestingFault steps.length [] (loopRanges steps)).map fun j => (.nesting, j)

/-! ### The plan of a valid copy -/

/-- An end condition of known codes. -/
def RawCond.typed (e : RawCond) : Option EndCond :=
  match Quantity.ofCode e.quantity, Comparison.ofCode e.comparison, EndAction.ofCode e.action with
  | some q, some k, some a => some ⟨q, k, e.qualify, a, e.threshold, e.target⟩
  | _, _, _ => none

/-- A step's kind with the fields read for it. -/
def RawStep.body (st : RawStep) : Option StepBody :=
  match st.kind with
  | 0 => some .rest
  | 1 => some (.cc st.setpoint)
  | 2 => some (.cccv st.setpoint st.voltTarget)
  | 3 => some (.cp st.power)
  | 4 => some (.loop st.loopTarget st.loopCount)
  | _ => none

/-- A retention check of a known code, if present. -/
def RawStep.retention (st : RawStep) : Option Retention :=
  if st.retPresent == 0 then none
  else (RetAction.ofCode st.retAction).map fun a => ⟨st.retThreshold, a, st.retTarget⟩

/-- A step of known codes; a LOOP step has no flags, conditions or check. -/
def RawStep.typed (st : RawStep) : Option Step :=
  match st.body with
  | some (.loop target count) => some ⟨.loop target count, false, false, false, st.logInterval, [], none⟩
  | some b =>
    (st.conds.mapM RawCond.typed).map fun conds =>
      ⟨b, st.flags.testBit 0, st.flags.testBit 1, st.flags.testBit 2, st.logInterval, conds, st.retention⟩
  | none => none

/-- A header of known codes. -/
def RawHeader.typed (h : RawHeader) : Option PlanHeader :=
  match rangeOfCode h.range, LossPolicy.ofCode h.loss, SwitchMode.ofCode h.switchMode, GainMode.ofCode h.gainMode with
  | some r, some p, some m, some g =>
    some ⟨r, p, h.flags.testBit 0, h.flags.testBit 1, m, g, h.ul, h.ll, h.high, h.low, h.kb, h.window, h.logDelta, h.label⟩
  | _, _, _, _ => none

/-- The plan of a copy of known codes. -/
def rawPlan (h : RawHeader) (steps : List RawStep) : Option Plan :=
  match h.typed, steps.mapM RawStep.typed with
  | some ph, some st => some ⟨ph, st⟩
  | _, _ => none

/-- R29: what a load that has read its copy ends in: the plan, or the fault. -/
inductive LoadEnd where
  | plan (p : Plan)
  | fault (f : PlanFault) (ix : Nat)
  deriving DecidableEq, Repr

/-- R28, R29: the end of a load. A copy without fault has known codes, so its plan exists. -/
def Load.finish (ld : Load) : LoadEnd :=
  match ld.header with
  | none => .fault .stepCount headerIndex
  | some h =>
    match planFault h ld.steps with
    | some f => .fault f.1 f.2
    | none =>
      match rawPlan h ld.steps with
      | some p => .plan p
      | none => .fault .kind headerIndex

end Sys2Proof.Machine
end

