-- ==== Sys2Proof/Machine/Operands.lean ====
section
/-!
DEFINITION. The forms that cross the block's edges: the request half and the response half of a slot (11 section 11.3), the post
codes (R179), the demand frame and the response frame (11 section 11.6, R167, R192).
-/

namespace Sys2Proof.Machine

/-! ### Requests -/

/-- The requests of the catalogue (R183). -/
inductive ReqKind where
  | enable | disable | loadPlan | start | pause | resume | stop | faultAck | setLimits | setCal | setWatch | clearWatch | jump
  | flush | status | counters | setLink | setPair | deviceCounters
  deriving DecidableEq, Repr

/-- The kind codes (section 11.3). -/
def ReqKind.code : ReqKind → Nat
  | .enable => 1
  | .disable => 2
  | .loadPlan => 3
  | .start => 4
  | .pause => 5
  | .resume => 6
  | .stop => 7
  | .faultAck => 8
  | .setLimits => 9
  | .setCal => 10
  | .setWatch => 11
  | .clearWatch => 12
  | .jump => 13
  | .flush => 14
  | .status => 15
  | .counters => 16
  | .setLink => 32
  | .setPair => 33
  | .deviceCounters => 34

/-- The channel request of a kind code (R183). -/
def ReqKind.ofChannelCode : Nat → Option ReqKind
  | 1 => some .enable
  | 2 => some .disable
  | 3 => some .loadPlan
  | 4 => some .start
  | 5 => some .pause
  | 6 => some .resume
  | 7 => some .stop
  | 8 => some .faultAck
  | 9 => some .setLimits
  | 10 => some .setCal
  | 11 => some .setWatch
  | 12 => some .clearWatch
  | 13 => some .jump
  | 14 => some .flush
  | 15 => some .status
  | 16 => some .counters
  | _ => none

/-- The device request of a kind code (R183). -/
def ReqKind.ofDeviceCode : Nat → Option ReqKind
  | 32 => some .setLink
  | 33 => some .setPair
  | 34 => some .deviceCounters
  | _ => none

/-- R128: the requests that a FOLLOWER's slot accepts. -/
def ReqKind.followerMay : ReqKind → Bool
  | .status | .counters | .setCal => true
  | _ => false

/-- The bytes of a request half (R175). -/
def requestHalfSize : Nat := 128

/-- The state field's codes (section 11.3). -/
def statePosted : Nat := 1
def stateTaken : Nat := 2
def stateDone : Nat := 3

/-- A request half as the host writes it: POSTED, kind, tag and parameters, the rest zero (R190). -/
def requestHalf (kind : ReqKind) (tag : U32) (params : List Byte) : List Byte :=
  padTo requestHalfSize (leBytes 4 statePosted ++ leBytes 2 kind.code ++ leBytes 2 0 ++ leBytes 4 tag.toNat ++ leBytes 4 0
    ++ params)

/-- The kind code in a request half. -/
def reqKindCode (half : List Byte) : Nat := fieldAt half 0x04 2

/-- The tag in a request half. -/
def reqTag (half : List Byte) : Nat := fieldAt half 0x08 4

/-- A one-byte parameter. -/
def param1 (half : List Byte) (o : Nat) : Nat := fieldAt half o 1

/-- A four-byte unsigned parameter. -/
def param4 (half : List Byte) (o : Nat) : Nat := fieldAt half o 4

/-- A four-byte signed parameter. -/
def sparam4 (half : List Byte) (o : Nat) : Int := sfieldAt half o 4

/-- The parameters of SET_LIMITS in the order of the limit-set table. -/
def limitWordBytes (w : LimitWords) : List Byte :=
  [w.vMax, w.vMin, w.iMax, w.iSoft, w.chopOff, w.softWindow, w.softMax, w.blankTime, w.tMax, w.tStart, w.slope, w.iFloor,
    w.iRunMax, w.vCmin, w.vCmax, w.filterTime, w.silenceLimit, w.linkHoldMax, w.resumePolicy, w.priority, w.pairTol].flatMap
    fun x => leBytes 4 x.toNat

/-! ### Results -/

/-- The result codes (R183). -/
inductive Result where
  | done | refusedState | badPlan | badValue | unknownRequest | noStage | noPlan | noLimits | noLink | faultNotAcked
  | stopAllActive | follower
  deriving DecidableEq, Repr

/-- The codes of the results (section 11.3). -/
def Result.code : Result → Nat
  | .done => 0
  | .refusedState => 1
  | .badPlan => 2
  | .badValue => 3
  | .unknownRequest => 4
  | .noStage => 5
  | .noPlan => 6
  | .noLimits => 7
  | .noLink => 8
  | .faultNotAcked => 9
  | .stopAllActive => 10
  | .follower => 11

/-- What an owner gives at the completion of a request (R181). -/
structure Reply where
  result : Result
  detail : List Byte
  payload : List Byte
  deriving DecidableEq, Repr

/-- A reply of a result alone. -/
def Reply.plain (r : Result) : Reply := ⟨r, [], []⟩

/-- DONE with a payload. -/
def Reply.payload' (p : List Byte) : Reply := ⟨.done, [], p⟩

/-- BAD_VALUE naming the field at an offset of the request half. -/
def Reply.bad (offset : Nat) : Reply := ⟨.badValue, leBytes 2 offset, []⟩

/-- The bytes of a response half (R175). -/
def responseHalfSize : Nat := 384

/-- The response half of a request with the given tag and kind code (section 11.3). -/
def Reply.half (r : Reply) (tag kind : Nat) : List Byte :=
  padTo responseHalfSize (leBytes 4 tag ++ leBytes 2 kind ++ leBytes 2 r.result.code ++ padTo 8 r.detail
    ++ leBytes 4 r.payload.length ++ r.payload)

/-! ### Payloads (R191) -/

/-- One item of a payload appended: its width in bytes, aligned to that width from the payload's start, and its value (log 24). -/
def payItem (l : List Byte) (x : Nat × Nat) : List Byte :=
  l ++ List.replicate ((x.1 - l.length % x.1) % x.1) 0 ++ leBytes x.1 x.2

/-- A payload laid out from its items. -/
def payload (items : List (Nat × Nat)) : List Byte := items.foldl payItem []

/-- An optional item group: a presence byte, then the items, zeros where absent (log 24). -/
def payOpt (absent : List (Nat × Nat)) (o : Option (List (Nat × Nat))) : List (Nat × Nat) :=
  match o with
  | some items => (1, 1) :: items
  | none => (1, 0) :: absent.map fun x => (x.1, 0)

/-- A flag item. -/
def payFlag (b : Bool) : Nat × Nat := (1, bit b)

/-- A signed item of n bytes. -/
def payInt (n : Nat) (x : Int) : Nat × Nat := (n, fieldS (8 * n) x)

/-- An unsigned item of n bytes. -/
def payNat (n x : Nat) : Nat × Nat := (n, fieldU (8 * n) x)

/-- A 32-bit count. -/
def payCount (x : U32) : Nat × Nat := (4, x.toNat)

/-! ### Post codes -/

/-- The meaning of a post code (R179). -/
inductive Post where
  | slot (n : SlotIx)
  | release (c : Chan) (p : PoolId)
  | abort (c : Chan)
  | stray
  deriving DecidableEq, Repr

/-- R179: a post code decoded. -/
def postOf (code : Nat) : Post :=
  if h : code < 17 then .slot ⟨code, h⟩
  else if h : 32 ≤ code ∧ code < 64 then
    .release ⟨(code - 32) / 2, by omega⟩ (if code % 2 = 0 then .a else .b)
  else if h : 64 ≤ code ∧ code < 80 then .abort ⟨code - 64, by omega⟩
  else .stray

/-! ### Frames -/

/-- Whether the number of ones among the n low bits of v is odd. -/
def oddOnes : Nat → Nat → Bool
  | 0, _ => false
  | n + 1, v => (v % 2 == 1) != oddOnes n (v / 2)

/-- R167: the check nibble of a frame. -/
def checkNibble (index : BitVec 8) (range : Fin 3) (drive : Bool) (demand : Int) : Nat :=
  (index.toNat + range.val + bit drive + (demand % 16).toNat) % 16

/-- R192: a demand frame, bit 0 first. -/
def FrameRecord.encode (f : FrameRecord) : BitVec 64 :=
  let body := f.kind.code + f.index.toNat * 2 ^ 4 + bit f.drive * 2 ^ 12 + f.range.val * 2 ^ 13
    + ofSigned 22 f.demand * 2 ^ 15 + checkNibble f.index f.range f.drive f.demand * 2 ^ 37
  BitVec.ofNat 64 (body + bit (oddOnes 63 body) * 2 ^ 63)

/-- The contents of a response frame that the part uses (section 9.4). -/
structure Response where
  kind : Nat
  index : BitVec 8
  v : Int
  i : Int
  t1 : Int
  t2 : Int
  ready : Bool
  fault : Bool
  hot : Bool
  deriving DecidableEq, Repr

/-- The n bits of a response frame from bit k on. -/
def frameBits (frame : BitVec 96) (k n : Nat) : Nat := frame.toNat / 2 ^ k % 2 ^ n

/-- Section 11.6: a response frame read. -/
def Response.ofFrame (frame : BitVec 96) : Response where
  kind := frameBits frame 0 4
  index := BitVec.ofNat 8 (frameBits frame 4 8)
  v := toSigned 18 (frameBits frame 12 18)
  i := toSigned 18 (frameBits frame 30 18)
  t1 := toSigned 12 (frameBits frame 48 12)
  t2 := toSigned 12 (frameBits frame 60 12)
  ready := frame.getLsbD 72
  fault := frame.getLsbD 73
  hot := frame.getLsbD 74

/-- The kind code of a SENSE frame. -/
def senseKind : Nat := 10

/-- R192: whether the ones of a response frame, all 96 bits counted, are even in number. -/
def evenParity (frame : BitVec 96) : Bool := !oddOnes 96 frame.toNat

end Sys2Proof.Machine
end

