-- ==== Sys2Proof/Machine/Sampling.lean ====
section
/-!
DEFINITION. Sense Correction (R52 to R56), the Calibration Table (R58), the accumulator sets (R67 to R69) and auto-zero (R59 to
R62).
-/

namespace Sys2Proof.Machine

/-! ### Correction -/

/-- R55: the correction formula. -/
def correctCode (code offset gain span : Int) : Int := nearest ((code - offset) * gain * span) (2 ^ 29)

/-- R55: the offset in force of a current record. -/
def CurRecord.inForce (r : CurRecord) : Int :=
  match r.mode, r.learned with
  | .fixed, _ => r.offset
  | _, some l => l
  | _, none => r.offset

/-- R53: the current record of a range. -/
def CalTable.cur (t : CalTable) (range : Fin 3) : CurRecord :=
  match range with
  | 0 => t.cur0
  | 1 => t.cur1
  | 2 => t.cur2

/-- The current record of a range replaced. -/
def CalTable.setCur (t : CalTable) (range : Fin 3) (r : CurRecord) : CalTable :=
  match range with
  | 0 => { t with cur0 := r }
  | 1 => { t with cur1 := r }
  | 2 => { t with cur2 := r }

/-- R55, R56: the codes of a response corrected under a range. -/
def CalTable.correct (cal : CalTable) (r : Response) (range : Fin 3) : Corrected :=
  let sp := Config.span range
  let v := correctCode r.v cal.voltage.offset cal.voltage.gain Config.spanVolt
  let i := correctCode r.i (cal.cur range).inForce (cal.cur range).gain sp
  let t1 := correctCode (r.t1 * 64) cal.temp1.offset cal.temp1.gain Config.spanTemp
  let t2 := correctCode (r.t2 * 64) cal.temp2.offset cal.temp2.gain Config.spanTemp
  let v' := clampInt 0 1000000 v
  let i' := clampInt (-sp) sp i
  let t1' := clampInt (-400) 1500 t1
  let t2' := clampInt (-400) 1500 t2
  ⟨v', i', t1', t2', max t1' t2', decide (v' ≠ v), decide (i' ≠ i), decide (t1' ≠ t1), decide (t2' ≠ t2)⟩

/-- Whether any of the four SENSE_CLAMP markers is set. -/
def Corrected.anyClamp (x : Corrected) : Bool := x.clampV || x.clampI || x.clampT1 || x.clampT2

/-- R58: a VOLTAGE or TEMP record after an accepted SET_CAL. -/
def CalRecord.set (offset gain : Int) : CalRecord := ⟨offset, gain⟩

/-- R58: the learned offset that is kept under a learn limit. -/
def keepLearned (limit : Int) (learned : Option Int) : Option Int :=
  if limit = 0 then none else learned.map (clampInt (-limit) limit)

/-- R58: a CURRENT record after an accepted SET_CAL. -/
def CurRecord.set (r : CurRecord) (offset gain : Int) (mode : OffsetMode) (limit : Int) (learnRequest : Bool) : CurRecord where
  offset := offset
  gain := gain
  mode := mode
  learned := keepLearned limit (if mode = r.mode then r.learned else none)
  limit := limit
  pending := decide (mode = .learnOnce) && learnRequest

/-! ### Accumulation -/

/-- The top of a 64-bit whole part. -/
def top64 : Nat := Config.top 64

/-- R68, R69: a sample of voltage v and current i added to an accumulator set. -/
def Acc.add (a : Acc) (v i : Int) : Acc :=
  let q := i.natAbs
  let e := v.toNat * q
  if 0 < i then
    let rem := a.enInRem + e
    let ch := a.chIn + q
    let en := a.enIn + rem / 1000000
    { a with
      chIn := min ch top64
      enIn := min en top64
      enInRem := rem % 1000000
      saturated := a.saturated || decide (top64 < ch) || decide (top64 < en) }
  else if i < 0 then
    let rem := a.enOutRem + e
    let ch := a.chOut + q
    let en := a.enOut + rem / 1000000
    { a with
      chOut := min ch top64
      enOut := min en top64
      enOutRem := rem % 1000000
      saturated := a.saturated || decide (top64 < ch) || decide (top64 < en) }
  else a

/-! ### Auto-zero -/

/-- R59: whether a record and a marker let a rest qualify. -/
def CurRecord.qualifies (r : CurRecord) (learnedThisStep : Bool) : Bool :=
  (decide (r.mode = .learnEvery) || (decide (r.mode = .learnOnce) && r.pending)) && decide (r.limit ≠ 0) && !learnedThisStep

/-- R59, R61: auto-zero after a sample whose own code is `own`, with the DRIVE of the frame it answers; none for a missed one. -/
def AutoZero.collect (a : AutoZero) (qualifies : Bool) (stepTime : Nat) (own : Option (Int × Bool)) : AutoZero :=
  match a.phase, own with
  | .collecting, none => { a with sum := 0, count := 0 }
  | .collecting, some (code, drive) =>
    if drive then { a with sum := 0, count := 0 } else { a with sum := a.sum + code, count := a.count + 1 }
  | .waiting, some (code, drive) =>
    if qualifies && decide (Config.azWait < stepTime) then
      if drive then { a with phase := .collecting, sum := 0, count := 0 }
      else { a with phase := .collecting, sum := code, count := 1 }
    else a
  | _, _ => a

/-- R60: the value learned from a sum of 64 codes, before the clamp. -/
def azMean (sum : Int) : Int := nearest sum Config.azRun

/-- R60: what learning changes in the channel that learns. -/
def Channel.learn (ch : Channel) (range : Fin 3) : Channel :=
  let r := ch.cal.cur range
  let v := clampInt (-r.limit) r.limit (azMean ch.az.sum)
  { ch with
    cal := ch.cal.setCur range { r with learned := some v, pending := if r.mode = .learnOnce then false else r.pending }
    az := { ch.az with learned := true, phase := .idle }
    learnCtr := ch.learnCtr + 1 }

/-- R60, R62, R129: channel x learns, in the rest of channel c; the LEARN event is among the records of c. -/
def State.learn (s : State) (c x : Chan) (range : Fin 3) : State :=
  let ch := s.chan x
  let r := ch.cal.cur range
  let mean := azMean ch.az.sum
  let v := clampInt (-r.limit) r.limit mean
  let clamped := decide (v ≠ mean)
  let s1 := s.modChan x fun ch => ch.learn range
  let s2 := s1.modChan c fun ch => { ch with seqr := { ch.seqr with learnClamp := ch.seqr.learnClamp || clamped } }
  s2.event c x subLearn (bit r.learned.isSome + 2 * bit clamped) (learnBody range v r.learned mean)

/-- R59 to R62: the auto-zero of channel x on a sample handled by c in RUNNING, in a REST step carrying AUTO_ZERO. -/
def State.autoZero (s : State) (c x : Chan) (own : Option (Int × Bool)) : State :=
  let range := (s.chan c).range
  let ch := s.chan x
  let az := ch.az.collect ((ch.cal.cur range).qualifies ch.az.learned) (s.chan c).seqr.stepTime own
  let s1 := s.modChan x fun ch => { ch with az := az }
  if az.phase = .collecting ∧ Config.azRun ≤ az.count then s1.learn c x range else s1

end Sys2Proof.Machine
end

