-- ==== Sys2Proof/Machine/Handling.lean ====
section
/-!
DEFINITION. The handling of a sample by a Channel Engine: the protection judgement (R98 to R108), accumulation (R67), end conditions
(R36 to R39), regulation (R73, R74), the SAMPLE record (R149) and the watch points (R161); and how samples reach it: the arrival of
a valid report, the pair sample, and the missed report (R52, R63 to R65, R124 to R126).
-/

namespace Sys2Proof.Machine

/-- What one handling works on: the corrected values, or the held ones of a missed sample. `followerV` is the follower's voltage of
a formed pair sample; `own` and `follower` are the raw current codes of the channel's and its follower's own frames with their DRIVE,
absent where that frame was missed (R62). -/
structure Input where
  valid : Bool
  v : Int
  i : Int
  t1 : Int
  t2 : Int
  t : Int
  clamp : Bool
  fault : Bool
  hot : Bool
  followerV : Option Int
  own : Option (Int × Bool)
  follower : Option (Int × Bool)
  deriving DecidableEq, Repr

/-! ### Hard checks, stage status and voltage agreement -/

/-- R99, R101: the check states that a valid sample gives. -/
def LimitSet.judge (l : LimitSet) (x : Input) : Checks where
  overVoltage := decide (l.vMax < x.v)
  underVoltage := decide (x.v < l.vMin)
  overCurrent := decide (l.iMax < x.i.natAbs)
  overTemp := decide (l.tMax < x.t)
  stageFault := x.fault

/-- The causes of the violated checks, in the order of R99 with STAGE_FAULT last. -/
def Checks.causes (k : Checks) : List Cause :=
  (if k.overVoltage then [.overVoltage] else []) ++ (if k.underVoltage then [.underVoltage] else [])
    ++ (if k.overCurrent then [.overCurrent] else []) ++ (if k.overTemp then [.overTemp] else [])
    ++ (if k.stageFault then [.stageFault] else [])

/-- R112: the checks that pass from WITHIN to VIOLATED. -/
def Checks.rising (new old : Checks) : Checks where
  overVoltage := new.overVoltage && !old.overVoltage
  underVoltage := new.underVoltage && !old.underVoltage
  overCurrent := new.overCurrent && !old.overCurrent
  overTemp := new.overTemp && !old.overTemp
  stageFault := new.stageFault && !old.stageFault

/-- R127: whether a formed pair sample disagrees. -/
def disagrees (l : LimitSet) (x : Input) : Bool :=
  match x.followerV with
  | some w => decide (l.pairTol < ((x.v - w).natAbs : Int))
  | none => false

/-- R127: the mismatch count after a formed pair sample. -/
def mismatchNext (disagree : Bool) (count : Nat) : Nat :=
  if disagree then min (count + 1) Config.mismatchTrip else 0

/-- R127: the leader's mismatch count judged on a formed pair sample; other samples leave it. -/
def State.judgeMismatch (s : State) (c : Chan) (l : LimitSet) (x : Input) : State :=
  match x.followerV with
  | some _ => s.modPair (pairOf c) fun p => { p with mismatch := mismatchNext (disagrees l x) p.mismatch }
  | none => s

/-- R112, R113: the later faults of a TRIPPED channel, in order. -/
def State.laterFaults (s : State) (c : Chan) (x : Input) : List Cause → State
  | [] => s
  | k :: ks => (s.laterFault c k x.v x.i x.t).laterFaults c x ks

/-- R98, parts 1 to 3, on a valid sample of a channel in a plan state: a trip by the first cause with the others coincident, or in
TRIPPED the later faults. -/
def State.judgeChecks (s : State) (c : Chan) (l : LimitSet) (x : Input) : State :=
  let ch := s.chan c
  let new := l.judge x
  let count := (s.pair (pairOf c)).mismatch
  let s1 := (s.modChan c fun ch => { ch with checks := new }).judgeMismatch c l x
  let full := disagrees l x && decide (Config.mismatchTrip ≤ mismatchNext true count)
  if ch.st.tripable then
    match new.causes ++ (if full then [.pairMismatch] else []) with
    | [] => s1
    | first :: rest => s1.trip c first rest x.v x.i x.t none
  else
    s1.laterFaults c x ((new.rising ch.checks).causes
      ++ if full && decide (count < Config.mismatchTrip) then [.pairMismatch] else [])

/-! ### Silence -/

/-- R64: the silence judgement of a missed sample, its count already advanced; the held values are those of x. -/
def State.judgeSilence (s : State) (c : Chan) (l : LimitSet) (x : Input) : State :=
  let ch := s.chan c
  if l.silenceLimit ≤ ch.silence then
    let s1 := s.modChan c fun ch => { ch with silenceReached := true }
    if ch.st.tripable then s1.trip c .stageSilent [] x.v x.i x.t none
    else if ch.silenceReached then s1
    else s1.laterFault c .stageSilent x.v x.i x.t
  else s

/-! ### Blanking, chop and soft limit -/

/-- R102: the blanking timer's expiry, judged on each sample handled in RUNNING. -/
def Channel.blankingExpiry (ch : Channel) (l : LimitSet) : Channel :=
  if ch.blanking.running ∧ l.blankTime ≤ ch.blanking.count then
    { ch with blanking := { ch.blanking with running := false } }
  else ch

/-- R104: the end of a chop. Its restart and that of a CCCV step entered on the same sample are two events, each counted (R90; log
45, DESIGN CHOICE). -/
def Channel.endChop (ch : Channel) : Channel := { ch with chop := none }.restart

/-- R104: a chop in progress advanced. -/
def Channel.advanceChop (ch : Channel) (l : LimitSet) : Channel :=
  match ch.chop with
  | some k => if l.chopOff ≤ k + 1 then ch.endChop else { ch with chop := some (k + 1) }
  | none => ch

/-- R103: whether a valid sample taken in RUNNING is a soft-limit hit. -/
def Channel.softHit (ch : Channel) (l : LimitSet) (i : Int) : Bool :=
  decide (l.iSoft < i.natAbs) && ch.chop.isNone && !ch.blanking.running

/-- R103: a soft-limit hit: a chop begins, or the channel trips. -/
def State.hit (s : State) (c : Chan) (l : LimitSet) (x : Input) : State :=
  let n := (s.chan c).hits + 1
  if n ≤ l.softMax then
    s.modChan c fun ch => { ch with hits := n, chop := some 0, demand := 0, chopCtr := ch.chopCtr + 1 }
  else (s.modChan c fun ch => { ch with hits := n }).trip c .softRepeat [] x.v x.i x.t none

/-- R98, parts 4 and 5, on a sample handled in RUNNING. -/
def State.judgeSoft (s : State) (c : Chan) (l : LimitSet) (x : Input) : State :=
  let s1 := s.modChan c fun ch => ch.advanceChop l
  if x.valid && (s1.chan c).softHit l x.i then s1.hit c l x else s1

/-! ### The contact check -/

/-- R107, R108: the contact check's counts after a sample. -/
def Contact.count (k : Contact) (l : LimitSet) (x : Input) : Contact :=
  { k with
    inWindow := if x.valid then (if l.vCmin ≤ x.v ∧ x.v ≤ l.vCmax then k.inWindow + 1 else 0) else k.inWindow
    timer := k.timer + 1 }

/-- R107: the contact check passes: to RUNNING, or to HELD while the hold-cause set is not empty (R7). -/
def State.contactPass (s : State) (c : Chan) : State :=
  let s1 := s.modChan c fun ch => { ch with contact := { ch.contact with inProgress := false } }
  if (s.chan c).hold.isEmpty then s1.enterRunning c false else s1.moveTo c .held

/-- R98, part 6, on a sample handled in CHECKING. A missed sample advances the timer only: it does not pass the check, even where a
SET_LIMITS has lowered the filter time to the count that stands (R97, R98, R107; log 46, DESIGN CHOICE). -/
def State.judgeContact (s : State) (c : Chan) (l : LimitSet) (x : Input) : State :=
  let k := (s.chan c).contact.count l x
  let s1 := s.modChan c fun ch => { ch with contact := k }
  if x.valid ∧ l.filterTime ≤ k.inWindow then s1.contactPass c
  else if 5 * l.filterTime ≤ k.timer then s1.trip c .contactFail [] x.v x.i x.t none
  else s1

/-! ### The protection judgement -/

/-- R98: the protection judgement of a sample; a trip ends it. -/
def State.protect (s : State) (c : Chan) (x : Input) : State :=
  match (s.chan c).limits with
  | none => s
  | some l =>
    let st := (s.chan c).st
    if st.inPlan then
      let s0 := if st = .running then s.modChan c fun ch => ch.blankingExpiry l else s
      let s1 := if x.valid then s0.judgeChecks c l x else s0.judgeSilence c l x
      if (s1.chan c).st = .tripped then s1
      else if st = .running then s1.judgeSoft c l x
      else if st = .checking then s1.judgeContact c l x
      else s1
    else s

/-! ### Accumulation -/

/-- R67, R34, R36, R102, R105: what the accumulation of a sample taken in RUNNING changes within the channel; `tripped` says that
the protection judgement has tripped it. -/
def Channel.accumulate (ch : Channel) (x : Input) (tripped : Bool) : Channel :=
  let expired := match ch.limits with
    | some l => decide (l.softWindow ≤ ch.window + 1)
    | none => false
  { ch with
    seqr := { ch.seqr with
      stepTime := satSucc 32 ch.seqr.stepTime
      peak := if x.valid then some (match ch.seqr.peak with
        | some p => max p x.v
        | none => x.v) else ch.seqr.peak
      firstDue := false }
    stepSet := ch.stepSet.add x.v x.i
    planSet := ch.planSet.add x.v x.i
    lifeSet := ch.lifeSet.add x.v x.i
    blanking := if ch.blanking.running then { ch.blanking with count := ch.blanking.count + 1 } else ch.blanking
    window := if tripped then ch.window else if expired then 0 else ch.window + 1
    hits := if tripped then ch.hits else if expired then 0 else ch.hits }

/-- R67, R71, R59: the accumulation stage of a sample that c took in RUNNING. A leader adds the pair quantities to its lifetime set too,
where R71 also says that each channel's lifetime set counts what passed through its own stage (log 52, DESIGN CHOICE). -/
def State.accumulate (s : State) (c : Chan) (x : Input) : State :=
  let tripped := decide ((s.chan c).st = .tripped)
  let s1 := s.modChan c fun ch => ch.accumulate x tripped
  let f := followerOf (pairOf c)
  let s2 := if s.leads c then
      s1.modChan f fun ch => { ch with lifeSet := ch.lifeSet.add ch.held.v ch.held.i }
    else s1
  match (s.chan c).curStep with
  | some st =>
    if !tripped && st.azRest then
      let s3 := s2.autoZero c c x.own
      if s.leads c ∧ (s3.chan c).st = .running then s3.autoZero c f x.follower else s3
    else s2
  | none => s2

/-! ### End conditions -/

/-- A comparison of R36. -/
def Comparison.holds (k : Comparison) (value figure : Int) : Bool :=
  match k with
  | .atLeast => decide (figure ≤ value)
  | .atMost => decide (value ≤ figure)

/-- R36, R37: whether an end condition holds on a sample. -/
def Channel.condHolds (ch : Channel) (st : Step) (x : Input) (e : EndCond) : Bool :=
  match e.quantity with
  | .stepTime => e.comparison.holds ch.seqr.stepTime e.threshold
  | .voltage => e.comparison.holds x.v e.threshold
  | .currentMag => (!st.body.isCccv || ch.reg.cvPhase) && e.comparison.holds x.i.natAbs e.threshold
  | .stepCharge => e.comparison.holds (ch.stepSet.charge st.body.dir) (e.threshold * 1000)
  | .stepEnergy => e.comparison.holds (ch.stepSet.energy st.body.dir) (e.threshold * 1000)
  | .temperature => e.comparison.holds x.t e.threshold
  | .voltDrop =>
    match ch.seqr.peak with
    | some p => e.comparison.holds (p - x.v) e.threshold
    | none => false
  | .planCycles => e.comparison.holds ch.seqr.cycle e.threshold

/-- R38: one condition on a sample: its counter after, and whether it is met. A STEP_TIME condition ignores its counter; on a missed
sample the others are left (R37). -/
def Channel.judgeCond (ch : Channel) (st : Step) (x : Input) (e : EndCond) (q : Nat) : Nat × Bool :=
  let holds := ch.condHolds st x e
  if e.quantity = .stepTime then (q, holds)
  else if x.valid then
    if holds then (min (q + 1) 255, decide (e.qualify ≤ q + 1)) else (0, false)
  else (q, false)

/-- R38: the qualify counters after a sample, as many as were held. -/
def Channel.qualifyNext (ch : Channel) (st : Step) (x : Input) : List EndCond → List Nat → List Nat
  | e :: es, q :: qs => (ch.judgeCond st x e q).1 :: ch.qualifyNext st x es qs
  | _, qs => qs

/-- R39: the met condition of lowest index, from index n on. -/
def Channel.firstMet (ch : Channel) (st : Step) (x : Input) : Nat → List EndCond → List Nat → Option (Nat × EndCond)
  | n, e :: es, q :: qs =>
    if (ch.judgeCond st x e q).2 then some (n, e) else ch.firstMet st x (n + 1) es qs
  | _, _, _ => none

/-- R37 to R39: end conditions on a sample taken in RUNNING by a channel that is still RUNNING; whether the step ended. -/
def State.endConditions (s : State) (c : Chan) (x : Input) : State × Bool :=
  let ch := s.chan c
  match ch.curStep with
  | some st =>
    let met := ch.firstMet st x 0 st.conds ch.seqr.qualify
    let s1 := s.modChan c fun ch => { ch with
      seqr := { ch.seqr with qualify := ch.qualifyNext st x st.conds ch.seqr.qualify } }
    match met with
    | some (ix, e) => (s1.endStep c st ix e x.v x.i x.t, true)
    | none => (s1, false)
  | none => (s, false)

/-! ### Regulation and the SAMPLE record -/

/-- R73, R74, R135: the regulation stage of a valid sample, or the bounding of a missed one, under grant g. -/
def State.regulate (s : State) (c : Chan) (x : Input) (g : Grant) : State :=
  if x.valid then
    if (s.chan c).chop.isNone then
      (s.deliver c ((s.chan c).wants x.v)).modChan c fun ch => ch.regulate x.v x.t g
    else s
  else s.modChan c fun ch => ch.bound x.v x.t g

/-- R149: whether the INTERVAL trigger applies. -/
def Channel.intervalTrigger (ch : Channel) : Bool :=
  match ch.curStep with
  | some st => ch.seqr.stepTime % st.logInterval == 0
  | none => false

/-- R149: whether the DELTA trigger applies. -/
def Channel.deltaTrigger (ch : Channel) (x : Input) : Bool :=
  match ch.active, ch.loggedV with
  | some p, some w => x.valid && p.header.logDelta != 0 && decide (p.header.logDelta ≤ (x.v - w).natAbs)
  | _, _ => false

/-- R82: the flags that the regulation stage of this sample set. -/
def Channel.termFlags (ch : Channel) (regulated : Bool) : Bool × Bool :=
  match regulated, ch.reg.last with
  | true, some r => (r.derated, r.budget)
  | _, _ => (false, false)

/-- R149: the record stage of a sample taken in RUNNING, the channel still RUNNING in the same step; `first` is the first-sample
marker that the sample found. -/
def State.sampleRecord (s : State) (c : Chan) (x : Input) (first : Bool) : State :=
  let ch := s.chan c
  let tf := ch.termFlags (x.valid && ch.chop.isNone)
  let f : SampleFlags := ⟨first, ch.intervalTrigger, ch.deltaTrigger x, !x.valid, x.clamp, tf.1, tf.2, x.valid && x.hot⟩
  if f.first || f.interval || f.delta then
    ((s.emit c .sample 1 (sampleBytes ch c f x.v x.i x.t1 x.t2)).modChan c fun ch => { ch with loggedV := some x.v }).settle c
  else s

/-! ### Watch points -/

/-- R161: the value that a watch point evaluates. -/
def Channel.watchValue (ch : Channel) (x : Input) : WatchQuantity → Option Int
  | .none => none
  | .voltage => some x.v
  | .planNetCharge => some (((ch.planSet.chIn : Int) - ch.planSet.chOut).tdiv 1000)
  | .cycleCount => some ch.seqr.cycle
  | .temperature => some x.t

/-- R161: whether a value is a crossing of a watch point. -/
def Watch.crosses (w : Watch) (prev value : Int) : Bool :=
  match w.dir with
  | .rising => decide (prev < w.threshold) && decide (w.threshold ≤ value)
  | .falling => decide (w.threshold < prev) && decide (value ≤ w.threshold)

/-- R161: a watch point after a value, and the crossing it reports, by its previous value. -/
def Watch.judge (w : Watch) (value : Int) : Watch × Option Int :=
  let w1 := { w with prev := some value }
  match w.prev with
  | none => (w1, none)
  | some p =>
    if w.crosses p value then
      let w2 := { w1 with hits := w.hits + 1 }
      match w.mode with
      | .every => (w2, some p)
      | .latch => if w.latched then (w2, none) else ({ w2 with latched := true }, some p)
    else (w1, none)

/-- R161: watch point n of channel c on a valid sample. -/
def State.watch (s : State) (c : Chan) (x : Input) (n : Fin 3) : State :=
  let ch := s.chan c
  let w := ch.watches[n]
  match ch.watchValue x w.quantity with
  | none => s
  | some value =>
    let r := w.judge value
    let s1 := s.modChan c fun ch => { ch with watches := ch.watches.set n r.1 }
    match r.2 with
    | some prev => (s1.event c c subWatch 0 (watchBody n.val r.1 prev value r.1.hits)).bumpChan c .watchHits
    | none => s1

/-- R161: the three watch points in index order, on a valid sample after which the channel is in a plan state. -/
def State.watchAll (s : State) (c : Chan) (x : Input) : State :=
  if x.valid && (s.chan c).st.inPlan then ((s.watch c x 0).watch c x 1).watch c x 2 else s

/-! ### The handling -/

/-- The stages of the handling after accumulation, for a channel still RUNNING: end conditions, regulation and the SAMPLE record.
`evalLate` says that the evaluation of a notification made at the step end comes after the regulation stage reads the grant
(R136). -/
def State.drive (s : State) (c : Chan) (x : Input) (first evalLate : Bool) : State :=
  let e := s.endConditions c x
  if (e.1.chan c).st = .running then
    let g := if evalLate then s.arb.grants[c] else e.1.arb.grants[c]
    let s1 := e.1.regulate c x g
    if e.2 then s1 else s1.sampleRecord c x first
  else e.1

/-- R98, R67, R37, R73, R149, R161: the handling of a sample by the Channel Engine of channel c. -/
def State.handle (s : State) (c : Chan) (x : Input) (evalLate : Bool) : State :=
  let taken := decide ((s.chan c).st = .running)
  let s1 := s.protect c x
  let first := (s1.chan c).seqr.firstDue
  let s2 := if taken then s1.accumulate c x else s1
  let s3 := if taken && decide ((s2.chan c).st = .running) then s2.drive c x first evalLate else s2
  s3.watchAll c x

/-! ### Valid reports -/

/-- R55, R63, R101: what a valid report changes in the channel that made it, at its arrival. In a GANGED pair, too, the last STAGE_HOT
flag of each channel is that of its own report (log 53, DESIGN CHOICE). -/
def Channel.report (ch : Channel) (x : Sample) : Channel :=
  { ch with
    held := x.val
    clampCtr := if x.val.anyClamp then ch.clampCtr + 1 else ch.clampCtr
    stageFaultCtr := if x.fault then ch.stageFaultCtr + 1 else ch.stageFaultCtr
    stageHotCtr := if x.hot then ch.stageHotCtr + 1 else ch.stageHotCtr
    stageHot := x.hot }

/-- R64: the silence count set to zero. -/
def Channel.heard (ch : Channel) : Channel := { ch with silence := 0, silenceReached := false }

/-- R52: the corrected sample of a response that answers a frame. -/
def State.correctSample (s : State) (c : Chan) (r : Response) (f : FrameRecord) : Sample where
  index := r.index
  val := (s.chan c).cal.correct r f.range
  ready := r.ready
  fault := r.fault
  hot := r.hot
  code := r.i
  drive := f.drive
  range := f.range

/-- What the handling of a single channel's valid sample works on. -/
def Sample.input (x : Sample) : Input :=
  ⟨true, x.val.v, x.val.i, x.val.t1, x.val.t2, x.val.t, x.val.anyClamp, x.fault, x.hot, none, some (x.code, x.drive), none⟩

/-- R120, R126: the pair quantities of the corrected values of two channels, the leader's and the follower's. Every one of the eight
values forms a pair quantity, the follower's voltage the one of that name, so any marker sets SENSE_CLAMP (log 29). -/
def formPairHeld (l f : Corrected) : PairHeld := ⟨l.v, l.i + f.i, max l.t f.t, l.anyClamp || f.anyClamp⟩

/-- R126: the pair quantities of two halves. -/
def pairQuantities (l f : Sample) : PairHeld := formPairHeld l.val f.val

/-- What the handling of a formed pair sample works on (log 15). -/
def pairInput (l f : Sample) : Input :=
  let q := pairQuantities l f
  ⟨true, q.v, q.i, q.t, q.t, q.t, q.clamp, l.fault || f.fault, l.hot || f.hot, some f.val.v, some (l.code, l.drive),
    some (f.code, f.drive)⟩

/-- R124: a half handed to the leader's assembly; the second half of an index forms the pair sample. -/
def State.assemble (s : State) (c : Chan) (x : Sample) (evalLate : Bool) : State :=
  let k := pairOf c
  match (s.pair k).assembly with
  | none => s.modPair k fun p => { p with assembly := some ⟨c, x⟩ }
  | some h =>
    if h.chan ≠ c ∧ h.sample.index = x.index then
      let l := if isEven c then x else h.sample
      let f := if isEven c then h.sample else x
      let s1 := s.modPair k fun p => { p with assembly := none, formed := true, held := pairQuantities l f }
      (s1.modChan (leaderOf k) Channel.heard).handle (leaderOf k) (pairInput l f) evalLate
    else s.modPair k fun p => { p with assembly := some ⟨c, x⟩ }

/-- R169: a valid sample of channel c reported: corrected, counted, and handled or handed to the pair. -/
def State.validReport (s : State) (c : Chan) (r : Response) (f : FrameRecord) (evalLate : Bool) : State :=
  let x := s.correctSample c r f
  let s1 := s.modChan c fun ch => ch.report x
  let s2 := if s.leads c then s1 else s1.modChan c Channel.heard
  if (s.pair (pairOf c)).ganged then s2.assemble c x evalLate else s2.handle c x.input evalLate

/-! ### Missed reports -/

/-- R64: the silence count advanced by a missed sample; in a state whose handling does not judge it, the limit's marker is kept up
(log 17). -/
def Channel.miss (ch : Channel) : Channel :=
  let n := satSucc 16 ch.silence
  { ch with
    silence := n
    silenceReached := ch.silenceReached || (!ch.st.inPlan && match ch.limits with
      | some l => decide (l.silenceLimit ≤ n)
      | none => false) }

/-- R65, R64: the missed report of channel c, counted; a leader's silence count counts pair samples. -/
def State.missedReport (s : State) (c : Chan) : State :=
  let s1 := s.modChan c fun ch => { ch with missedCtr := ch.missedCtr + 1 }
  if s.leads c then s1 else s1.modChan c Channel.miss

/-- What the handling of a single channel's missed sample works on (R63). -/
def Channel.missedInput (ch : Channel) : Input :=
  let h := ch.held
  ⟨false, h.v, h.i, h.t1, h.t2, h.t, h.anyClamp, false, false, none, none, none⟩

/-- The code of a half that channel c supplied. -/
def Half.codeOf (h : Option Half) (c : Chan) : Option (Int × Bool) :=
  match h with
  | some x => if x.chan = c then some (x.sample.code, x.sample.drive) else none
  | none => none

/-- What the handling of a missed pair sample works on (R125, logs 15, 19). -/
def Pair.missedInput (p : Pair) (leader follower : Chan) : Input :=
  let h := p.held
  ⟨false, h.v, h.i, h.t, h.t, h.t, h.clamp, false, false, none, Half.codeOf p.assembly leader, Half.codeOf p.assembly follower⟩

/-- R125: the handling of a missed pair sample of pair k. -/
def State.missedPair (s : State) (k : PairIx) (evalLate : Bool) : State :=
  let c := leaderOf k
  let x := (s.pair k).missedInput c (followerOf k)
  let s1 := s.modPair k fun p => { p with assembly := none, missedCtr := p.missedCtr + 1 }
  (s1.modChan c Channel.miss).handle c x evalLate

end Sys2Proof.Machine
end

