-- ==== Sys2Proof/Machine/Status.lean ====
section
/-!
DEFINITION. The payloads of responses (R184, R185, R191): the four sections of the STATUS snapshot, COUNTERS, DEVICE_COUNTERS, and
the limit set, calibration record, fault record and link settings that other responses carry. Widths and the order inside an item
are log 24.
-/

namespace Sys2Proof.Machine

/-- Items of a payload: width in bytes and value. -/
abbrev Items := List (Nat × Nat)

/-! ### Parts that more than one response carries -/

/-- A VOLTAGE or TEMP record (section 3.2). -/
def CalRecord.items (r : CalRecord) : Items := [payInt 2 r.offset, payInt 2 r.gain]

/-- A CURRENT record (section 3.2). -/
def CurRecord.items (r : CurRecord) : Items :=
  [payInt 2 r.offset, payInt 2 r.gain, (1, r.mode.code)] ++ payOpt [(2, 0)] (r.learned.map fun x => [payInt 2 x])
    ++ [payInt 2 r.limit, payFlag r.pending]

/-- The limit set in the order of its table (section 5.1). -/
def LimitSet.items (l : LimitSet) : Items :=
  [payInt 4 l.vMax, payInt 4 l.vMin, payInt 4 l.iMax, payInt 4 l.iSoft, payNat 2 l.chopOff, payNat 2 l.softWindow,
    payNat 2 l.softMax, payNat 2 l.blankTime, payInt 4 l.tMax, payInt 4 l.tStart, payInt 4 l.slope, payInt 4 l.iFloor,
    payInt 4 l.iRunMax, payInt 4 l.vCmin, payInt 4 l.vCmax, payNat 2 l.filterTime, payNat 2 l.silenceLimit,
    payNat 2 l.linkHoldMax, (1, l.resumePolicy.code), (1, l.priority), payInt 4 l.pairTol]

/-- The items of a limit set, for their widths where there is none. -/
def limitWidths : Items :=
  [(4, 0), (4, 0), (4, 0), (4, 0), (2, 0), (2, 0), (2, 0), (2, 0), (4, 0), (4, 0), (4, 0), (4, 0), (4, 0), (4, 0), (4, 0),
    (2, 0), (2, 0), (2, 0), (1, 0), (1, 0), (4, 0)]

/-- The fault record in the order of its table (R111). -/
def FaultRecord.items (f : FaultRecord) : Items :=
  [(1, causeCode f.first), (2, causeMask f.coincident), payNat 8 f.planTime, payNat 1 f.stepIndex, payFlag f.stepEntered,
    payNat 4 f.cycle, payInt 4 f.v, payInt 4 f.i, payInt 4 f.t, payFlag f.acked, payNat 2 f.laterCount,
    (1, causeCode f.lastLater)]

/-- The link settings (R132). -/
def LinkSettings.items (l : LinkSettings) : Items := [payNat 4 l.importLimit, payNat 4 l.exportLimit, payNat 2 l.interval]

/-- The last evaluation summary (R138); an empty one (R132) is 0, 0, 0 with outcome NONE, without a presence byte (log 47). -/
def EvalSummary.items (e : EvalSummary) : Items :=
  [payNat 4 e.sPlus, payNat 4 e.sMinus, payInt 4 e.net, (1, e.outcome.code)]

/-- An entry of the wanted-power table. -/
def Wanted.items (w : Wanted) : Items := [(1, w.dir.code), payNat 4 w.mag]

/-- An accumulator set (R66). -/
def Acc.items (a : Acc) : Items :=
  [payNat 8 a.chIn, payNat 8 a.chOut, payNat 8 a.enIn, payNat 4 a.enInRem, payNat 8 a.enOut, payNat 4 a.enOutRem]

/-! ### STATUS -/

/-- The label and switch mode of a VALID staged plan. -/
def Staged.plan : Staged → Option Plan
  | .valid p => some p
  | _ => none

/-- A loop stack: its count, and four entries. R191 does not state the width of a list's count: 2 bytes, as for every quantity
bounded within 16 bits (log 24). -/
def loopItems (l : List (Nat × Nat)) : Items :=
  payNat 2 l.length :: ((l ++ List.replicate 4 (0, 0)).take 4).flatMap fun (e : Nat × Nat) => [payNat 1 e.1, payNat 2 e.2]

/-- The pair number and leader of a FOLLOWER (R128). -/
def State.pairItems (s : State) (c : Chan) : Items :=
  payOpt [(1, 0), (1, 0)] (if s.follows c then some [(1, (pairOf c).val), (1, (leaderOf (pairOf c)).val)] else none)

/-- A frame record (R165). -/
def FrameRecord.items (f : FrameRecord) : Items :=
  [(1, f.index.toNat), (1, f.kind.code), payFlag f.drive, (1, f.range.val), payInt 4 f.demand]

/-- STATUS section 0 (R191). -/
def State.section0 (s : State) (c : Chan) : Items :=
  let ch := s.chan c
  let lk := s.link c
  [(1, ch.st.code), (1, ch.hold.code), payFlag ch.stepEntered, payNat 8 ch.planTime, (1, ch.staged.code)]
    ++ payOpt [(4, 0)] (ch.staged.plan.map fun p => [payCount p.header.label])
    ++ payOpt [(4, 0)] (ch.active.map fun p => [payCount p.header.label])
    ++ payOpt [(1, 0)] (ch.staged.plan.map fun p => [(1, p.header.switchMode.code)])
    ++ [payNat 1 ch.seqr.position] ++ loopItems ch.seqr.loops ++ [payNat 4 ch.seqr.cycle, payNat 4 ch.seqr.stepTime]
    ++ payOpt [(8, 0)] (ch.seqr.retRef.map fun q => [payNat 8 q])
    ++ s.pairItems c ++ s.arb.wanted[c].items ++ [(1, s.arb.classes[c]), (4, s.arb.grants[c].code)]
    ++ [(1, lk.state.code), payNat 2 lk.bringUp]
    ++ payOpt [(1, 0), (1, 0), (1, 0), (1, 0), (4, 0)] (lk.frame.map FrameRecord.items)

/-- STATUS section 1 (R191). -/
def State.section1 (s : State) (c : Chan) : Items :=
  let ch := s.chan c
  let h := ch.held
  ch.cal.voltage.items ++ ch.cal.cur0.items ++ ch.cal.cur1.items ++ ch.cal.cur2.items ++ ch.cal.temp1.items
    ++ ch.cal.temp2.items ++ [(1, ch.az.phase.code)]
    ++ [payInt 4 h.v, payInt 4 h.i, payInt 4 h.t1, payInt 4 h.t2, payInt 4 h.t, payFlag h.clampV, payFlag h.clampI,
      payFlag h.clampT1, payFlag h.clampT2]
    ++ [payFlag ch.stageHot] ++ ch.stepSet.items ++ ch.planSet.items ++ ch.lifeSet.items ++ [payFlag ch.lifeSet.saturated]

/-- The last S, D, B, C and flags (R82). -/
def RegReport.items (r : RegReport) : Items :=
  [payInt 4 r.s, payInt 4 r.d] ++ payOpt [(4, 0)] (r.b.map fun x => [payInt 4 x])
    ++ [payInt 4 r.c, payFlag r.derated, payFlag r.budget]

/-- The five check states (R100). -/
def Checks.items (k : Checks) : Items :=
  [payFlag k.overVoltage, payFlag k.underVoltage, payFlag k.overCurrent, payFlag k.overTemp, payFlag k.stageFault]

/-- STATUS section 2 (R191). The CV-phase flag, which section 4.4 counts among the regulator state and R184 names beside it, is reported
once, after the rest of that state (log 51, DESIGN CHOICE). -/
def State.section2 (s : State) (c : Chan) : Items :=
  let ch := s.chan c
  [payInt 4 ch.reg.integ, payNat 1 ch.reg.level, payFlag ch.reg.climb, payFlag ch.reg.restartMark, payFlag ch.reg.cvPhase]
    ++ payOpt [(4, 0), (4, 0), (1, 0), (4, 0), (4, 0), (1, 0), (1, 0)] (ch.reg.last.map RegReport.items)
    ++ payOpt limitWidths (ch.limits.map LimitSet.items) ++ ch.checks.items
    ++ [payFlag ch.blanking.running, payNat 2 ch.blanking.count] ++ payOpt [(2, 0)] (ch.chop.map fun k => [payNat 2 k])
    ++ [payNat 2 ch.hits, payNat 2 ch.window]
    ++ [payFlag ch.contact.inProgress, payNat 2 ch.contact.inWindow, payNat 2 ch.contact.timer] ++ ch.fault.items
    ++ payOpt [(2, 0)] (if isEven c then some [payNat 2 (s.pair (pairOf c)).mismatch] else none)

/-- A pool header in the order of its table (R145). -/
def PoolHeader.items (h : PoolHeader) : Items :=
  [(1, h.owner.code), (1, h.side.code), payNat 2 h.used, payCount h.firstSeq, payCount h.lastSeq, (1, h.reason.code),
    payCount h.gen]

/-- A watch point in the order of its table (R160). -/
def Watch.items (w : Watch) : Items :=
  [(1, w.quantity.code), (1, w.dir.code), (1, w.mode.code), payInt 4 w.threshold]
    ++ payOpt [(8, 0)] (w.prev.map fun x => [payInt 8 x]) ++ [payFlag w.latched, payCount w.hits]

/-- STATUS section 3 (R191). -/
def State.section3 (s : State) (c : Chan) : Items :=
  let ch := s.chan c
  let l := ch.log
  l.poolA.items ++ l.poolB.items ++ payOpt [(4, 0), (1, 0)] (l.latch.map fun r => [payCount r.seq, (1, r.kind.code)])
    ++ payOpt [(4, 0), (4, 0)] (l.pendingLoss.map fun p => [payCount p.1, payCount p.2]) ++ [payCount l.nextSeq]
    ++ ch.watches[0].items ++ ch.watches[1].items ++ ch.watches[2].items

/-- R184, R191: the payload of STATUS for a section parameter, of which the low two bits are read. -/
def State.snapshot (s : State) (c : Chan) (sect : Nat) : List Byte :=
  payload (match sect % 4 with
    | 0 => s.section0 c
    | 1 => s.section1 c
    | 2 => s.section2 c
    | _ => s.section3 c)

/-! ### COUNTERS -/

/-- R185: the payload of COUNTERS. -/
def State.counterItems (s : State) (c : Chan) : Items :=
  let ch := s.chan c
  let lk := s.link c
  [payCount ch.missedCtr, payCount ch.clampCtr, payCount ch.learnCtr, payCount ch.reg.deratedCtr, payCount ch.reg.budgetCtr,
    payCount ch.reg.restartCtr, payCount ch.tripCtr, payCount ch.chopCtr, payCount ch.stageFaultCtr, payCount ch.stageHotCtr]
    ++ payOpt [(4, 0)] (if isEven c then some [payCount (s.pair (pairOf c)).missedCtr] else none)
    ++ [payCount ch.log.written, payCount ch.log.lost, payCount ch.log.stepEndLost, payCount ch.log.planEndLost,
      payCount ch.log.latchEntries, payCount ch.log.gaps, payCount lk.unsolicited, payCount lk.parity, payCount lk.kind,
      payCount lk.index, payCount lk.duplicate, payCount lk.sent, payCount lk.clamped]

/-- R185: the channel's own counters set to zero. -/
def Channel.clearCounters (ch : Channel) : Channel :=
  { ch with
    missedCtr := 0
    clampCtr := 0
    learnCtr := 0
    reg := { ch.reg with deratedCtr := 0, budgetCtr := 0, restartCtr := 0 }
    tripCtr := 0
    chopCtr := 0
    stageFaultCtr := 0
    stageHotCtr := 0
    log := { ch.log with written := 0, lost := 0, stepEndLost := 0, planEndLost := 0, latchEntries := 0, gaps := 0 } }

/-- R185: the counters of a link set to zero. -/
def Link.clearCounters (l : Link) : Link :=
  { l with unsolicited := 0, parity := 0, kind := 0, index := 0, duplicate := 0, sent := 0, clamped := 0 }

/-- R185: every counter that COUNTERS reports set to zero. -/
def State.clearCounters (s : State) (c : Chan) : State :=
  let s1 := (s.modChan c Channel.clearCounters).modLink c Link.clearCounters
  if isEven c then s1.modPair (pairOf c) fun p => { p with missedCtr := 0 } else s1

/-- R185, R143: the payload of DEVICE_COUNTERS. -/
def State.deviceItems (s : State) : Items :=
  let n := s.notices
  let a := s.arb
  [(1, s.phase.code), payFlag s.stopAll, payFlag s.linkOk] ++ s.pairs.toList.map (fun p => payFlag p.ganged)
    ++ [payFlag n.attnEnable, payNat 2 n.paceTime, payFlag n.pace.isSome, payFlag n.owed]
    ++ [payCount s.strayPost, payCount s.strayRelease, payCount n.sent, payCount n.deferred]
    ++ [payCount a.evals, payCount a.importCuts, payCount a.exportCuts, payCount a.linkDowns]
    ++ payOpt [(4, 0), (4, 0), (2, 0)] (a.settings.map LinkSettings.items)
    ++ [payFlag a.linkSet, payFlag a.linkUp] ++ a.summary.items ++ a.wanted.toList.flatMap Wanted.items
    ++ a.grants.toList.map fun g => (4, g.code)

/-- R185: the stray, attention and Arbiter counters set to zero. -/
def State.clearDeviceCounters (s : State) : State :=
  { s with
    strayPost := 0
    strayRelease := 0
    notices := { s.notices with sent := 0, deferred := 0 }
    arb := { s.arb with evals := 0, importCuts := 0, exportCuts := 0, linkDowns := 0 } }

end Sys2Proof.Machine
end

