-- ==== Sys2Proof/Machine/Requests.lean ====
section
/-!
DEFINITION. What each request does at its take by its owner (R3 to R17, R26, R48, R57, R96, R114, R120, R133, R158, R160, R162,
R184, R185), reading its parameters from the executing copy of the request half (11 section 11.3).
-/

namespace Sys2Proof.Machine

/-- A refusal that changes nothing. -/
def State.refuse (s : State) (r : Result) : State × Reply := (s, .plain r)

/-- DONE with no detail and no payload. -/
def State.done (s : State) : State × Reply := (s, .plain .done)

/-! ### ENABLE, DISABLE, LOAD_PLAN -/

/-- R172: the link at the take of an accepted ENABLE. -/
def Link.beginBringUp (l : Link) : Link := { l with state := .bringUp, bringUp := 0, frame := none, received := false }

/-- R3, R172: ENABLE; an accepted one stays in execution. -/
def State.reqEnable (s : State) (c : Chan) : State × Option Reply :=
  if (s.chan c).st = .disabled then ((s.modLink c Link.beginBringUp).modChan c Channel.heard, none)
  else (s, some (.plain .refusedState))

/-- R4, R121: DISABLE. -/
def State.reqDisable (s : State) (c : Chan) : State × Reply :=
  match (s.chan c).st with
  | .disabled => s.done
  | .idle =>
    if s.leads c then s.refuse .refusedState
    else (((s.moveTo c .disabled).modLink c fun l => { l with state := .silent }).modChan c Channel.heard).done
  | _ => s.refuse .refusedState

/-- R26: the take of LOAD_PLAN, which stays in execution. -/
def State.reqLoad (s : State) (c : Chan) : State × Option Reply :=
  (s.modChan c fun ch => { ch with staged := .loading, load := some ⟨none, [], false⟩ }, none)

/-! ### START, PAUSE, RESUME, STOP, FAULT_ACK, JUMP -/

/-- R106: the contact check begun. -/
def Contact.begun : Contact := ⟨true, 0, 0⟩

/-- R6, R23, R51, R94, R100, R105, R160: what an accepted START sets within the channel. -/
def Channel.start (ch : Channel) (p : Plan) (linkDown : Bool) : Channel :=
  { ch with
    active := some p
    staged := .empty
    demand := 0
    planTime := 0
    planSet := .zero
    stepEntered := false
    seqr := { ch.seqr with position := 0, loops := [], cycle := 0, retRef := none }
    hold := ⟨ch.log.latch.isSome, linkDown⟩
    linkHold := if linkDown then .started else .stopped
    checks := ⟨false, false, false, false, false⟩
    hits := 0
    window := 0
    chop := none
    contact := .begun
    reg := { ch.reg with integ := 0, level := 5, climb := false, restartMark := false }
    watches := ch.watches.map fun w => { w with prev := none } }

/-- R8: the HOLD records of a START, LINK_DOWN before LOG_FULL. -/
def State.startHolds (s : State) (c : Chan) : State :=
  let h := (s.chan c).hold
  let s1 := if h.linkDown then s.event c c subHold 0 (leBytes 1 HoldCause.linkDown.code) else s
  if h.logFull then s1.event c c subHold 0 (leBytes 1 HoldCause.logFull.code) else s1

/-- R6: the effects of an accepted START with staged plan p. -/
def State.startPlan (s : State) (c : Chan) (p : Plan) : State :=
  let s1 := s.modChan c fun ch => ch.start p (!s.linkOk)
  let s2 := if s.leads c then s1.modPair (pairOf c) fun k => { k with mismatch := 0 } else s1
  (s2.moveTo c .checking).startHolds c

/-- R5: START. -/
def State.reqStart (s : State) (c : Chan) : State × Reply :=
  let ch := s.chan c
  if ch.st ≠ .idle then s.refuse .refusedState
  else if s.stopAll then s.refuse .stopAllActive
  else
    match ch.staged with
    | .valid p =>
      if !ch.limitsLoaded then s.refuse .noLimits
      else if !s.arb.linkSet then s.refuse .noLink
      else (s.startPlan c p).done
    | _ => s.refuse .noPlan

/-- R13: PAUSE. -/
def State.reqPause (s : State) (c : Chan) : State × Reply :=
  let st := (s.chan c).st
  if st = .running ∨ st = .held then ((s.moveTo c .paused).event c c subPause 0 (leBytes 1 st.code)).done
  else s.refuse .refusedState

/-- R15, R106: an accepted RESUME from TRIPPED, within the channel. -/
def Channel.recheck (ch : Channel) : Channel :=
  { ch with contact := .begun, linkHold := if ch.hold.linkDown then .started else .stopped }

/-- R14: an accepted RESUME from PAUSED, its record generated. -/
def State.resumePaused (s : State) (c : Chan) : State :=
  if (s.chan c).hold.isEmpty then s.enterRunning c true else s.moveTo c .held

/-- R115: whether RESUME from TRIPPED wants an acknowledgement that is missing. -/
def Channel.ackMissing (ch : Channel) : Bool :=
  match ch.limits with
  | some l => decide (l.resumePolicy = .afterAck) && !ch.fault.acked
  | none => false

/-- R14, R15: RESUME. -/
def State.reqResume (s : State) (c : Chan) : State × Reply :=
  let ch := s.chan c
  match ch.st with
  | .paused =>
    if s.stopAll then s.refuse .stopAllActive
    else ((s.event c c subResume 0 (leBytes 1 ChState.paused.code)).resumePaused c).done
  | .tripped =>
    if s.stopAll then s.refuse .stopAllActive
    else if ch.ackMissing then s.refuse .faultNotAcked
    else
      (((s.moveTo c .checking).modChan c Channel.recheck).event c c subResume 0 (leBytes 1 ChState.tripped.code)).done
  | _ => s.refuse .refusedState

/-- R17: STOP. -/
def State.reqStop (s : State) (c : Chan) : State × Reply :=
  if (s.chan c).st.inPlan then ((s.endStepBy c .stopped).endPlan c .stopped).done else s.refuse .refusedState

/-- R114: FAULT_ACK. -/
def State.reqFaultAck (s : State) (c : Chan) : State × Reply :=
  if (s.chan c).st = .tripped then
    let s1 := s.modChan c fun ch => { ch with fault := { ch.fault with acked := true } }
    (s1, .payload' (payload (s1.chan c).fault.items))
  else s.refuse .refusedState

/-- R48: the effects of an accepted JUMP to step n. The evaluation that the step entry notifies is made here, before the next regulation
stage reads the grant (log 50, DESIGN CHOICE). -/
def State.jumpTo (s : State) (c : Chan) (n : Nat) : State :=
  let s1 := (s.endStepBy c .jumped).modChan c fun ch => { ch with
    demand := 0
    seqr := { ch.seqr with loops := match ch.active with
      | some p => p.prune n ch.seqr.loops
      | none => ch.seqr.loops } }
  (s1.enterStep c n false).settle c

/-- R48: whether step n can be jumped to. -/
def Channel.jumpOk (ch : Channel) (n : Nat) : Bool :=
  match ch.stepAt n with
  | some st => !st.body.isLoop
  | none => false

/-- R48: JUMP; the state is judged before the value (log 31). -/
def State.reqJump (s : State) (c : Chan) (half : List Byte) : State × Reply :=
  let ch := s.chan c
  let n := param1 half 0x10
  if ch.st = .running ∨ ch.st = .paused then
    if ch.jumpOk n then (s.jumpTo c n).done else (s, .bad 0x10)
  else s.refuse .refusedState

/-! ### SET_LIMITS -/

/-- The offset of field n of SET_LIMITS in the request half. -/
def limitOffset (n : Nat) : Nat := 0x10 + 4 * n

/-- Field n of SET_LIMITS. -/
def limitField (half : List Byte) (n : Nat) : Int := sparam4 half (limitOffset n)

/-- Whether a value lies in a range. -/
def within (lo hi x : Int) : Bool := decide (lo ≤ x) && decide (x ≤ hi)

/-- R96: the range of field n, in the order of the table of section 5.1. -/
def limitOk (n : Nat) (x : Int) : Bool :=
  match n with
  | 0 => within 1 1000000 x
  | 1 => within 0 999999 x
  | 2 => within 1 1200000 x
  | 3 => within 1 1200000 x
  | 4 => within 1 255 x
  | 5 => within 100 10000 x
  | 6 => within 1 255 x
  | 7 => within 0 1000 x
  | 8 => within (-400) 1500 x
  | 9 => within (-400) 1500 x
  | 10 => within 0 100000 x
  | 11 => within 0 1200000 x
  | 12 => within 1 1200000 x
  | 13 => within 0 1000000 x
  | 14 => within 0 1000000 x
  | 15 => decide (x = 50) || decide (x = 100) || decide (x = 200) || decide (x = 400)
  | 16 => within 2 50 x
  | 17 => within 1 600 x
  | 18 => within 0 1 x
  | 19 => within 0 2 x
  | 20 => within 0 100000 x
  | _ => true

/-- R96: the second pass, by the field it names. -/
def limitConflict (f : Nat → Int) : Option Nat :=
  if f 0 ≤ f 1 then some 1
  else if f 2 < f 3 then some 3
  else if f 2 < f 12 then some 12
  else if f 12 < f 11 then some 11
  else if f 14 < f 13 then some 13
  else none

/-- R96: the field that a SET_LIMITS is refused for. -/
def limitFault (f : Nat → Int) : Option Nat :=
  match (List.range 21).find? fun n => !limitOk n (f n) with
  | some n => some n
  | none => limitConflict f

/-- The limit set of the fields of a SET_LIMITS without fault. -/
def limitSetOf (f : Nat → Int) : LimitSet where
  vMax := f 0
  vMin := f 1
  iMax := f 2
  iSoft := f 3
  chopOff := (f 4).toNat
  softWindow := (f 5).toNat
  softMax := (f 6).toNat
  blankTime := (f 7).toNat
  tMax := f 8
  tStart := f 9
  slope := f 10
  iFloor := f 11
  iRunMax := f 12
  vCmin := f 13
  vCmax := f 14
  filterTime := (f 15).toNat
  silenceLimit := (f 16).toNat
  linkHoldMax := (f 17).toNat
  resumePolicy := if f 18 = 1 then .afterAck else .onRequest
  priority := (f 19).toNat
  pairTol := f 20

/-- R96, R97: SET_LIMITS. -/
def State.reqSetLimits (s : State) (c : Chan) (half : List Byte) : State × Reply :=
  if (s.chan c).st = .disabled then s.refuse .refusedState
  else
    let f := limitField half
    match limitFault f with
    | some n => (s, .bad (limitOffset n))
    | none =>
      (s.modChan c fun ch => { ch with limits := some (limitSetOf f), limitsLoaded := true },
        .payload' (payload (limitSetOf f).items))

/-! ### SET_CAL -/

/-- The parameters of SET_CAL. -/
structure CalParams where
  record : Nat
  mode : Nat
  learnRequest : Bool
  offset : Int
  gain : Int
  limit : Int
  deriving DecidableEq, Repr

/-- The parameters of SET_CAL in a request half. -/
def CalParams.ofHalf (half : List Byte) : CalParams :=
  ⟨param1 half 0x10, param1 half 0x11, param1 half 0x12 != 0, sparam4 half 0x14, sparam4 half 0x18, sparam4 half 0x1C⟩

/-- The range of a current record's code. -/
def calRange : Nat → Option (Fin 3)
  | 1 => some 0
  | 2 => some 1
  | 3 => some 2
  | _ => none

/-- R57: whether a learn limit is one of the four. -/
def learnLimitOk (x : Int) : Bool := decide (x = 0) || decide (x = 256) || decide (x = 512) || decide (x = 1024)

/-- R57: the offset of the first offending field, in the order of the list. -/
def CalParams.fault (p : CalParams) : Option Nat :=
  if 5 < p.record then some 0x10
  else if !within (-4096) 4096 p.offset then some 0x14
  else if !within 2048 6144 p.gain then some 0x18
  else if (calRange p.record).isSome && (OffsetMode.ofCode p.mode).isNone then some 0x11
  else if (calRange p.record).isSome && !learnLimitOk p.limit then some 0x1C
  else none

/-- R58: the effects of an accepted SET_CAL on the table. -/
def CalTable.set (t : CalTable) (p : CalParams) : CalTable :=
  match calRange p.record with
  | some r =>
    t.setCur r ((t.cur r).set p.offset p.gain ((OffsetMode.ofCode p.mode).getD .fixed) p.limit p.learnRequest)
  | none =>
    match p.record with
    | 0 => { t with voltage := .set p.offset p.gain }
    | 4 => { t with temp1 := .set p.offset p.gain }
    | _ => { t with temp2 := .set p.offset p.gain }

/-- R57: the record named, as a payload. -/
def CalTable.recordItems (t : CalTable) (record : Nat) : Items :=
  match record with
  | 0 => t.voltage.items
  | 1 => t.cur0.items
  | 2 => t.cur1.items
  | 3 => t.cur2.items
  | 4 => t.temp1.items
  | _ => t.temp2.items

/-- R58, effect 4: a collection on the codes of the record's range is discarded; a follower's runs under its leader's range. -/
def State.discardLearning (s : State) (c : Chan) (p : CalParams) : State :=
  if calRange p.record = some (s.chan (s.conductor c)).range then
    s.modChan c fun ch => { ch with az := ch.az.discard }
  else s

/-- R57, R58: SET_CAL. -/
def State.reqSetCal (s : State) (c : Chan) (half : List Byte) : State × Reply :=
  let p := CalParams.ofHalf half
  match p.fault with
  | some o => (s, .bad o)
  | none =>
    let s1 := (s.modChan c fun ch => { ch with cal := ch.cal.set p }).discardLearning c p
    (s1, .payload' (payload ((s1.chan c).cal.recordItems p.record)))

/-! ### Watch points, FLUSH, STATUS, COUNTERS -/

/-- The watch index of a parameter, if it is one. -/
def watchIx (n : Nat) : Option (Fin 3) := if h : n < 3 then some ⟨n, h⟩ else none

/-- R160: SET_WATCH. -/
def State.reqSetWatch (s : State) (c : Chan) (half : List Byte) : State × Reply :=
  match watchIx (param1 half 0x10) with
  | none => (s, .bad 0x10)
  | some n =>
    match WatchQuantity.ofCode (param1 half 0x11) with
    | none => (s, .bad 0x11)
    | some q =>
      match WatchDir.ofCode (param1 half 0x12) with
      | none => (s, .bad 0x12)
      | some d =>
        match WatchMode.ofCode (param1 half 0x13) with
        | none => (s, .bad 0x13)
        | some m =>
          (s.modChan c fun ch => { ch with watches := ch.watches.set n ⟨q, d, m, sparam4 half 0x14, none, false, 0⟩ }).done

/-- R162: CLEAR_WATCH. -/
def State.reqClearWatch (s : State) (c : Chan) (half : List Byte) : State × Reply :=
  match watchIx (param1 half 0x10) with
  | none => (s, .bad 0x10)
  | some n =>
    (s.modChan c fun ch => { ch with watches := ch.watches.set n { ch.watches[n] with latched := false } }).done

/-- The outcomes of FLUSH with their codes (section 11.3). -/
def flushHandedOver : Nat := 0
def flushEmpty : Nat := 1
def flushNoPool : Nat := 2

/-- R158: FLUSH. -/
def State.reqFlush (s : State) (c : Chan) : State × Reply :=
  let l := (s.chan c).log
  match l.filling with
  | none => (s, ⟨.done, leBytes 1 flushNoPool, []⟩)
  | some p =>
    if 0 < (l.pool p).used then
      let s1 := s.handover c p .flush
      (s1, ⟨.done, leBytes 1 flushHandedOver ++ leBytes 1 (Config.poolNo p) ++ leBytes 2 0
        ++ leBytes 4 ((s1.chan c).log.pool p).gen.toNat, []⟩)
    else (s, ⟨.done, leBytes 1 flushEmpty, []⟩)

/-- R184: STATUS. -/
def State.reqStatus (s : State) (c : Chan) (half : List Byte) : State × Reply :=
  (s, .payload' (s.snapshot c (param1 half 0x10)))

/-- R185: COUNTERS. -/
def State.reqCounters (s : State) (c : Chan) (half : List Byte) : State × Reply :=
  (if param1 half 0x10 ≠ 0 then s.clearCounters c else s, .payload' (payload (s.counterItems c)))

/-! ### Device requests -/

/-- R133: the offset of the first field of a SET_LINK out of range. -/
def linkFault (importLimit exportLimit interval : Nat) : Option Nat :=
  if 2000000 < importLimit then some 0x10
  else if 2000000 < exportLimit then some 0x14
  else if interval < 10 ∨ 1000 < interval then some 0x18
  else none

/-- R133: SET_LINK. -/
def State.reqSetLink (s : State) (half : List Byte) : State × Reply :=
  let l : LinkSettings := ⟨param4 half 0x10, param4 half 0x14, param4 half 0x18⟩
  match linkFault l.importLimit l.exportLimit l.interval with
  | some o => (s, .bad o)
  | none =>
    let s1 := (s.modArb fun a => { a with settings := some l, linkSet := true, timer := some 0 }).evaluate
    (s1, .payload' (payload (l.items ++ s1.arb.summary.items)))

/-- R120: the effects of an accepted SET_PAIR ON. -/
def State.gang (s : State) (k : PairIx) : State :=
  let l := leaderOf k
  let f := followerOf k
  let s1 := s.modPair k fun p =>
    { p with ganged := true, assembly := none, mismatch := 0, held := formPairHeld (s.chan l).held (s.chan f).held }
  let s2 := (s1.moveTo f .follower).modChan f fun ch => { ch with
    staged := .empty
    load := ch.load.map fun ld => { ld with discard := true } }
  (s2.modChan l Channel.heard).notify f

/-- R121: the effects of an accepted SET_PAIR OFF for a GANGED pair. -/
def State.separate (s : State) (k : PairIx) : State :=
  let s1 := s.modPair k fun p => { p with ganged := false, assembly := none, mismatch := 0 }
  (s1.moveTo (followerOf k) .idle).modChan (leaderOf k) Channel.heard

/-- R120: the pair of a parameter, if it is one. -/
def pairIx (n : Nat) : Option PairIx := if h : n < 8 then some ⟨n, h⟩ else none

/-- R120: the detail of an accepted SET_PAIR. -/
def pairDetail (k : PairIx) : List Byte := leBytes 1 (leaderOf k).val ++ leBytes 1 (followerOf k).val

/-- R120, R121: SET_PAIR. -/
def State.reqSetPair (s : State) (half : List Byte) : State × Reply :=
  match pairIx (param1 half 0x10) with
  | none => (s, .bad 0x10)
  | some k =>
    let idle := fun c => decide ((s.chan c).st = .idle)
    match param1 half 0x11 with
    | 1 =>
      if idle (leaderOf k) && idle (followerOf k) then (s.gang k, ⟨.done, pairDetail k, []⟩) else s.refuse .refusedState
    | 0 =>
      if idle (leaderOf k) then (if (s.pair k).ganged then s.separate k else s, ⟨.done, pairDetail k, []⟩)
      else s.refuse .refusedState
    | _ => (s, .bad 0x11)

/-- R185: DEVICE_COUNTERS. -/
def State.reqDeviceCounters (s : State) (half : List Byte) : State × Reply :=
  (if param1 half 0x10 ≠ 0 then s.clearDeviceCounters else s, .payload' (payload s.deviceItems))

end Sys2Proof.Machine
end

