-- ==== Sys2Proof/Machine/Slots.lean ====
section
/-!
DEFINITION. The Request Unit: the slot protocol (R180 to R182), dispatch (R183), posts (R179), releases (R153, R156), the ABORT post
(R18) and the completions of LOAD_PLAN and ENABLE (R29, R3).
-/

namespace Sys2Proof.Machine

/-! ### Dispatch -/

/-- The channel of a slot; none for the device slot. -/
def slotChan (n : SlotIx) : Option Chan := if h : n.val < 16 then some ⟨n.val, h⟩ else none

/-- The slot of a channel. -/
def chanSlot (c : Chan) : SlotIx := ⟨c.val, by omega⟩

/-- The device slot. -/
def deviceSlot : SlotIx := 16

/-- A completion at the take. -/
def atTake (r : State × Reply) : State × Option Reply := (r.1, some r.2)

/-- R183, order 3: a channel request handed to its owner. -/
def State.channelRequest (s : State) (c : Chan) (half : List Byte) : ReqKind → State × Option Reply
  | .enable => s.reqEnable c
  | .disable => atTake (s.reqDisable c)
  | .loadPlan => s.reqLoad c
  | .start => atTake (s.reqStart c)
  | .pause => atTake (s.reqPause c)
  | .resume => atTake (s.reqResume c)
  | .stop => atTake (s.reqStop c)
  | .faultAck => atTake (s.reqFaultAck c)
  | .setLimits => atTake (s.reqSetLimits c half)
  | .setCal => atTake (s.reqSetCal c half)
  | .setWatch => atTake (s.reqSetWatch c half)
  | .clearWatch => atTake (s.reqClearWatch c half)
  | .jump => atTake (s.reqJump c half)
  | .flush => atTake (s.reqFlush c)
  | .status => atTake (s.reqStatus c half)
  | .counters => atTake (s.reqCounters c half)
  | _ => (s, none)

/-- R183, order 3: a device request handed to its owner. -/
def State.deviceRequest (s : State) (half : List Byte) : ReqKind → State × Option Reply
  | .setLink => atTake (s.reqSetLink half)
  | .setPair => atTake (s.reqSetPair half)
  | .deviceCounters => atTake (s.reqDeviceCounters half)
  | _ => (s, none)

/-- R183, order 1: UNKNOWN_REQUEST, naming the kind code. -/
def Reply.unknown (kind : Nat) : Reply := ⟨.unknownRequest, leBytes 2 kind, []⟩

/-- R183: the request of an executing copy examined; no reply while it stays in execution. -/
def State.dispatch (s : State) (n : SlotIx) (half : List Byte) : State × Option Reply :=
  let code := reqKindCode half
  match slotChan n with
  | some c =>
    match ReqKind.ofChannelCode code with
    | none => (s, some (.unknown code))
    | some k =>
      if (s.chan c).st = .follower ∧ k.followerMay = false then (s, some (.plain .follower))
      else s.channelRequest c half k
  | none =>
    match ReqKind.ofDeviceCode code with
    | none => (s, some (.unknown code))
    | some k => s.deviceRequest half k

/-! ### The slot protocol -/

/-- Where the response half of a slot begins. -/
def responseBase (n : SlotIx) : Nat := Config.slotBase n + requestHalfSize

/-- The state field of a slot, as it stands in the store. -/
def State.stateField (s : State) (n : SlotIx) : Nat := ofLE (s.store.readBytes (Config.slotBase n) 4)

/-- The state field of a slot written. -/
def State.putStateField (s : State) (n : SlotIx) (v : Nat) : State := s.writeStore (Config.slotBase n) (leBytes 4 v)

/-- R181, stage 3: the response count of a slot's Notice Record. -/
def State.bumpResponses (s : State) (n : SlotIx) : State :=
  match slotChan n with
  | some c => s.bumpChan c .responses
  | none => s.bumpDev .responses

/-- R181, stages 1 to 4: the completion of the request executing in slot n. -/
def State.finish (s : State) (n : SlotIx) (r : Reply) : State :=
  match (s.slot n).latch with
  | none => s
  | some half =>
    let s1 := s.writeStore (responseBase n) (r.half (reqTag half) (reqKindCode half))
    let s2 := if s1.stateField n = stateTaken then s1.putStateField n stateDone else s1
    (s2.bumpResponses n).modSlot n fun sl => { sl with latch := none }

/-- R179: a stray post. -/
def State.stray (s : State) : State := { s with strayPost := s.strayPost + 1 }

/-- R180: a post taken with the latch FREE: stray, or the request copied, TAKEN written, and the request examined; a request that
its owner completes at the take has its response written within it. -/
def State.take (s : State) (n : SlotIx) : State :=
  if s.stateField n = statePosted then
    let half := s.store.readBytes (Config.slotBase n) requestHalfSize
    let s1 := (s.modSlot n fun sl => { sl with latch := some half }).putStateField n stateTaken
    let d := s1.dispatch n half
    match d.2 with
    | some r => d.1.finish n r
    | none => d.1
  else s.stray

/-- R181, stage 5, R182: a pending post is taken as a new post once the latch is FREE. -/
def State.drain (s : State) (n : SlotIx) : State :=
  if (s.slot n).pendingPost && (s.slot n).latch.isNone then
    (s.modSlot n fun sl => { sl with pendingPost := false }).take n
  else s

/-- R180, R182: a post of slot n taken in READY. -/
def State.postSlot (s : State) (n : SlotIx) : State :=
  if (s.slot n).latch.isSome then s.modSlot n fun sl => { sl with pendingPost := true }
  else (s.take n).drain n

/-- R181: the completion of a request that stayed in execution. -/
def State.complete (s : State) (n : SlotIx) (r : Reply) : State := (s.finish n r).drain n

/-! ### Completions -/

/-- R29: the detail of a load that ends with DONE. -/
def planDetail (p : Plan) : List Byte :=
  leBytes 1 p.steps.length ++ leBytes 1 0 ++ leBytes 2 0 ++ leBytes 4 p.header.label.toNat

/-- R29: the detail of BAD_PLAN. -/
def badPlanDetail (f : PlanFault) (ix : Nat) : List Byte := leBytes 1 f.code ++ leBytes 1 ix

/-- R29, R21: the end of the load of channel c, its reading made complete first; nothing while no load is in execution. -/
def State.completeLoad (s : State) (c : Chan) : State :=
  let s1 := s.advanceLoad c loadRecords
  match (s1.chan c).load with
  | none => s
  | some ld =>
    match ld.finish with
    | .plan p =>
      (s1.modChan c fun ch => { ch with load := none, staged := if ld.discard then .empty else .valid p }).complete
        (chanSlot c) ⟨.done, planDetail p, []⟩
    | .fault f ix =>
      (s1.modChan c fun ch => { ch with load := none, staged := .empty }).complete (chanSlot c)
        ⟨.badPlan, badPlanDetail f ix, []⟩

/-- R173: the end of a bring-up whose limit is reached. -/
def State.endBringUp (s : State) (c : Chan) : State :=
  (s.modLink c fun l => { l with state := .silent }).complete (chanSlot c) (.plain .noStage)

/-! ### Releases -/

/-- R153: a pool released to the part. -/
def PoolHeader.released (h : PoolHeader) (side : PartSide) : PoolHeader :=
  { h with owner := .part, side := side, used := 0, firstSeq := 0, lastSeq := 0, reason := .none }

/-- R156: the holding latch of channel c written into pool p, which a release has made FILLING. -/
def State.writeOut (s : State) (c : Chan) (p : PoolId) : State :=
  match (s.chan c).log.latch with
  | none => s
  | some r => ((s.modLog c fun l => { l with latch := none }).placeIn c p r).leaveCause c .logFull

/-- R153: the release of pool p of channel c taken in READY. -/
def State.release (s : State) (c : Chan) (p : PoolId) : State :=
  let l := (s.chan c).log
  if (l.pool p).owner = .host then
    match l.filling with
    | none => (s.putHeader c p ((l.pool p).released .filling)).writeOut c p
    | some _ => s.putHeader c p ((l.pool p).released .waiting)
  else { s with strayRelease := s.strayRelease + 1 }

/-! ### The ABORT post -/

/-- R18, R128: an ABORT post for channel c taken in READY; for a FOLLOWER it acts on the leader. -/
def State.abortPost (s : State) (c : Chan) : State :=
  let d := if (s.chan c).st = .follower then leaderOf (pairOf c) else c
  if (s.chan d).st.inPlan then s.endPlan d .aborted else s.stray

/-! ### Posts -/

/-- R179: a post with its code. -/
def State.takePost (s : State) (code : Nat) : State :=
  if s.phase = .starting then s.stray
  else
    match postOf code with
    | .slot n => s.postSlot n
    | .release c p => s.release c p
    | .abort c => s.abortPost c
    | .stray => s.stray

/-- Section 10.4: the host's exchange of a request: the request half written into slot n, POSTED, and the slot posted (log 3). -/
def State.hostRequest (s : State) (n : SlotIx) (kind : ReqKind) (tag : U32) (params : List Byte) : State :=
  (s.writeStore (Config.slotBase n) (requestHalf kind tag params)).takePost n.val

end Sys2Proof.Machine
end

