-- ==== Sys2Proof/Machine/StageLink.lean ====
section
/-!
DEFINITION. The Stage Link: demand frames (R166, R167, R123), the examination of response frames (R168, R169), bring-up (R172,
R173) and the expiry of the sample timer (R170), with the timers that count its expiries (R10, R22, R137).
-/

namespace Sys2Proof.Machine

/-! ### Demand frames -/

/-- R53: the range of a channel's frames: that of its active plan, of its leader's for a FOLLOWER, else 0. -/
def State.frameRange (s : State) (c : Chan) : Fin 3 := (s.chan (s.conductor c)).range

/-- R123: the follower share of a pair demand. -/
def followerShare (d : Int) : Int := d.tdiv 2

/-- R123: the leader share of a pair demand. -/
def leaderShare (d : Int) : Int := d - followerShare d

/-- R123, R166: the demand that the frames of a channel carry, before the clamp. -/
def State.frameDemand (s : State) (c : Chan) : Int :=
  let d := (s.chan (s.conductor c)).demand
  if s.follows c then followerShare d else if s.leads c then leaderShare d else d

/-- R167: a demand clamped to the span of a range. -/
def clampDemand (range : Fin 3) (d : Int) : Int := clampInt (-Config.span range) (Config.span range) d

/-- R166, R171: a frame sent on a link: recorded, counted, and put on the wire. -/
def Link.sendFrame (l : Link) (f : FrameRecord) (clamped : Bool) : Link :=
  { l with
    frame := some f
    received := false
    sent := l.sent + 1
    clamped := if clamped then l.clamped + 1 else l.clamped
    wire := some f.encode }

/-- R166: the DEMAND frame of a demand d under a range, for the period of an index. -/
def Link.sendDemand (l : Link) (index : BitVec 8) (range : Fin 3) (d : Int) : Link :=
  let v := clampDemand range d
  l.sendFrame ⟨index, .demand, decide (v ≠ 0), range, v⟩ (decide (v ≠ d))

/-- R172: the PROBE frame of a bring-up, its count incremented. -/
def Link.sendProbe (l : Link) (index : BitVec 8) : Link :=
  { l with bringUp := l.bringUp + 1 }.sendFrame ⟨index, .probe, false, 0, 0⟩ false

/-- R166: the frame of channel c for the period of the sample index, its demand and range as read from `read`. -/
def State.sendFrame (s : State) (read : State) (c : Chan) : State :=
  match (s.link c).state with
  | .inService => s.modLink c fun l => l.sendDemand s.sampleIndex (read.frameRange c) (read.frameDemand c)
  | .bringUp => s.modLink c fun l => l.sendProbe s.sampleIndex
  | .silent => s

/-! ### Response frames -/

/-- The causes of discard (R168). -/
inductive Discard where
  | unsolicited | parity | kind | index | duplicate
  deriving DecidableEq, Repr

/-- R168: the first check that a response frame fails; none for a VALID RESPONSE. -/
def Link.examine (l : Link) (frame : BitVec 96) : Option Discard :=
  let r := Response.ofFrame frame
  if l.state = .silent then some .unsolicited
  else if !evenParity frame then some .parity
  else if r.kind ≠ senseKind then some .kind
  else
    match l.frame with
    | none => some .index
    | some f => if f.index ≠ r.index then some .index else if l.received then some .duplicate else none

/-- R168: a discard counted by its cause. -/
def Link.discard (l : Link) : Discard → Link
  | .unsolicited => { l with unsolicited := l.unsolicited + 1 }
  | .parity => { l with parity := l.parity + 1 }
  | .kind => { l with kind := l.kind + 1 }
  | .index => { l with index := l.index + 1 }
  | .duplicate => { l with duplicate := l.duplicate + 1 }

/-- R172, R3: the completion of the bring-up of channel c by a response carrying READY. -/
def State.completeBringUp (s : State) (c : Chan) (r : Response) (f : FrameRecord) : State :=
  let s1 := s.modLink c fun l => { l with state := .inService }
  let s2 := (s1.modChan c fun ch => ch.report (s1.correctSample c r f)).modChan c Channel.heard
  (s2.moveTo c .idle).complete (chanSlot c) (.plain .done)

/-- R169, R172: a valid response of channel c that answers frame f; the response state has become RECEIVED. -/
def State.validResponse (s : State) (c : Chan) (r : Response) (f : FrameRecord) (evalLate : Bool) : State :=
  match (s.link c).state with
  | .bringUp => if r.ready then s.completeBringUp c r f else s
  | _ => s.validReport c r f evalLate

/-- R168: a response frame arrives on the link of channel c. -/
def State.responseFrame (s : State) (c : Chan) (frame : BitVec 96) (evalLate : Bool) : State :=
  let l := s.link c
  match l.examine frame, l.frame with
  | some d, _ => s.modLink c fun l => l.discard d
  | none, some f =>
    (s.modLink c fun l => { l with received := true }).validResponse c (Response.ofFrame frame) f evalLate
  | none, none => s

/-! ### The timers that count expiries -/

/-- R10: one expiry counted by a running link-hold timer; its own expiry is due when the count reaches the maximum (log 8). -/
def LinkHold.tick (k : LinkHold) (limits : Option LimitSet) : LinkHold :=
  if k.running then
    let n := k.count + 1
    { k with count := n, due := match limits with
      | some l => decide (l.linkHoldMax * 1000 ≤ n)
      | none => false }
  else k

/-- R22, R10: one expiry counted by plan time and by the link-hold timer. -/
def Channel.tick (ch : Channel) : Channel :=
  { ch with
    planTime := if ch.st.inPlan then satSucc 48 ch.planTime else ch.planTime
    linkHold := ch.linkHold.tick ch.limits }

/-- R10, R117: the expiry of channel c's link-hold timer, where it is due. -/
def State.linkHoldExpire (s : State) (c : Chan) : State :=
  if (s.chan c).linkHold.running && (s.chan c).linkHold.due then s.tripHeld c .linkLost else s

/-- An operation made on every channel of a list, in its order. -/
def State.forChans (s : State) (f : State → Chan → State) : List Chan → State
  | [] => s
  | c :: cs => (f s c).forChans f cs

/-- The expiries that are due, taken: the interval timer's, then the link-hold timers' in ascending channel order (logs 8, 9). -/
def State.takeDue (s : State) : State := s.intervalExpire.forChans State.linkHoldExpire allChans

/-! ### The expiry of the sample timer -/

/-- R170: whether the period of channel c ends with a missed report. -/
def Link.misses (l : Link) : Bool := decide (l.state = .inService) && !l.received && l.frame.isSome

/-- R173: whether the bring-up limit of a link is reached. -/
def Link.atLimit (l : Link) : Bool := decide (l.state = .bringUp) && decide (Config.bringUpLimit ≤ l.bringUp)

/-- R170, R124: the handling that channel c makes at the end of the period, judged on the state `old` in which the period ends. -/
def State.handleMissed (old : State) (sched : Schedule) (s : State) (c : Chan) : State :=
  let late := sched.evalLate.getLsbD c.val
  if (old.pair (pairOf c)).ganged then
    if isEven c && !(old.pair (pairOf c)).formed then s.missedPair (pairOf c) late else s
  else if (old.link c).misses then s.handle c (s.chan c).missedInput late
  else s

/-- The channels in the order of a schedule: those listed, once each, then the others ascending (log 7). -/
def schedChans (sched : Schedule) : List Chan := (sched.order ++ allChans).eraseDups

/-- R170, R173: the periods of every link ended. -/
def State.endPeriods (s : State) (sched : Schedule) : State :=
  let s1 := s.forChans (fun s c => if (s.link c).atLimit then s.endBringUp c else s) allChans
  let s2 := s1.forChans (fun s c => if (s.link c).misses then s.missedReport c else s) allChans
  s2.forChans (State.handleMissed s2 sched) (schedChans sched)

/-- R22, R10, R137: the counts of the part's timers advanced. -/
def State.tickTimers (s : State) : State :=
  { s with chans := s.chans.map Channel.tick, arb := s.arb.countMs, pairs := s.pairs.map fun p => { p with formed := false } }

/-- R166: the frames of a new period. A link whose bring-up limit was reached at this expiry is sent none (R173). A channel whose bit
is set in `readFirst` has its demand read from `early`, the state before the missed samples were handled; the bit of a leader governs
its pair (log 7). -/
def State.sendFrames (s early : State) (readFirst : BitVec 16) : State :=
  s.forChans
    (fun t c =>
      if (early.link c).atLimit then t else t.sendFrame (if readFirst.getLsbD (s.conductor c).val then early else s) c)
    allChans

/-- R164, R166, R170: an expiry of the sample timer. -/
def State.expire (s : State) (sched : Schedule) : State :=
  let s0 := s.takeDue
  let s1 := (s0.endPeriods sched).tickTimers
  { s1 with sampleIndex := s1.sampleIndex + 1 }.sendFrames s0 sched.readFirst

end Sys2Proof.Machine
end

