-- ==== Sys2Proof/Machine/EventRows.lean ====
section
/-!
DEFINITION. The meanings of the timers' expiries, the response frames and the edges of the lines.
-/

namespace Sys2Proof.Machine

/-! ### Ends of counted times that a sample's handling reaches (log 11) -/

/-- R104: the end of a chop whose count has reached the off-time in force. -/
def Channel.chopEnd (ch : Channel) : Channel :=
  match ch.chop, ch.limits with
  | some k, some l => if ch.st = .running ∧ l.chopOff ≤ k then ch.endChop else ch
  | _, _ => ch

/-- R102: the expiry of the blanking timer of a RUNNING channel. -/
def Channel.blankingEnd (ch : Channel) : Channel :=
  match ch.limits with
  | some l => if ch.st = .running then ch.blankingExpiry l else ch
  | none => ch

/-- R105: the expiry of the soft window of a RUNNING channel. -/
def Channel.windowEnd (ch : Channel) : Channel :=
  match ch.limits with
  | some l => if ch.st = .running ∧ l.softWindow ≤ ch.window then { ch with hits := 0, window := 0 } else ch
  | none => ch

/-- R108: the failure of the contact check of a channel in CHECKING, with the held values. -/
def State.contactFail (s : State) (c : Chan) : State :=
  match (s.chan c).limits with
  | some l =>
    if (s.chan c).st = .checking ∧ (s.chan c).contact.inProgress = true ∧ 5 * l.filterTime ≤ (s.chan c).contact.timer then
      s.tripHeld c .contactFail
    else s
  | none => s

/-! ### The lines -/

/-- R19, R116: the assertion of STOP_ALL at channel c: a trip, a later fault in TRIPPED, or nothing. -/
def State.externalStop (s : State) (c : Chan) : State :=
  let w := s.lastVit c
  if (s.chan c).st = .tripped then s.laterFault c .externalStop w.1 w.2.1 w.2.2 else s.tripHeld c .externalStop

/-- R8, R10: LINK_DOWN leaves the set of channel c. -/
def State.leaveLinkDown (s : State) (c : Chan) : State := s.leaveCause c .linkDown

/-! ### The meanings -/

/-- SAMPLE_TIMER_EXPIRY (R164, R166, R170); a stopped timer does not expire. -/
def execSampleTimerExpiry (sched : Schedule) (s : State) : Host.Outcome State Fault Refusal :=
  .next (if s.timerRunning then s.expire sched else s)

/-- BRING_UP_LIMIT (R173). -/
def execBringUpLimit (c : Chan) (s : State) : Host.Outcome State Fault Refusal :=
  .next (if (s.link c).atLimit then s.endBringUp c else s)

/-- RESPONSE_FRAME (R168). -/
def execResponseFrame (c : Chan) (frame : BitVec 96) (evalLate : Bool) (s : State) : Host.Outcome State Fault Refusal :=
  .next (s.responseFrame c frame evalLate)

/-- CHOP_END (R104). -/
def execChopEnd (c : Chan) (s : State) : Host.Outcome State Fault Refusal := .next (s.modChan c Channel.chopEnd)

/-- BLANKING_EXPIRY (R102). -/
def execBlankingExpiry (c : Chan) (s : State) : Host.Outcome State Fault Refusal := .next (s.modChan c Channel.blankingEnd)

/-- SOFT_WINDOW_EXPIRY (R105). -/
def execSoftWindowExpiry (c : Chan) (s : State) : Host.Outcome State Fault Refusal := .next (s.modChan c Channel.windowEnd)

/-- CONTACT_CHECK_FAIL (R108). -/
def execContactCheckFail (c : Chan) (s : State) : Host.Outcome State Fault Refusal := .next (s.contactFail c)

/-- LINK_HOLD_EXPIRY (R10, R117). -/
def execLinkHoldExpiry (c : Chan) (s : State) : Host.Outcome State Fault Refusal := .next (s.linkHoldExpire c)

/-- STOP_ALL_ASSERT (R19, R116). -/
def execStopAllAssert (s : State) : Host.Outcome State Fault Refusal :=
  .next (if s.stopAll then s
    else ({ s with stopAll := true }.forChans State.externalStop allChans).bumpDev .stopAllChanges)

/-- STOP_ALL_RELEASE (R19). -/
def execStopAllRelease (s : State) : Host.Outcome State Fault Refusal :=
  .next (if s.stopAll then { s with stopAll := false }.bumpDev .stopAllChanges else s)

/-- LINK_OK_FALL (R20). -/
def execLinkOkFall (s : State) : Host.Outcome State Fault Refusal :=
  .next (if s.linkOk then
      ({ s with linkOk := false }.forChans State.joinLinkDown allChans).bumpDev .linkChanges
    else s)

/-- LINK_OK_RISE (R20). -/
def execLinkOkRise (s : State) : Host.Outcome State Fault Refusal :=
  .next (if s.linkOk then s
    else ({ s with linkOk := true }.forChans State.leaveLinkDown allChans).bumpDev .linkChanges)

/-- ARBITER_LINK_EDGE (R142). -/
def execArbiterLinkEdge (rising : Bool) (s : State) : Host.Outcome State Fault Refusal := .next (s.arbiterEdge rising)

/-- INTERVAL_TIMER_EXPIRY (R137). -/
def execIntervalTimerExpiry (s : State) : Host.Outcome State Fault Refusal := .next s.intervalExpire

/-- PACE_TIMER_EXPIRY (R188): the expiry of a RUNNING pace timer (log 10). -/
def execPaceTimerExpiry (s : State) : Host.Outcome State Fault Refusal :=
  .next (if s.notices.pace.isSome then { s with notices := s.notices.expire } else s)

end Sys2Proof.Machine
end

