-- ==== Sys2Proof/Machine/RegisterRows.lean ====
section
/-!
DEFINITION. The meanings of the resets, the register writes and the posts that pass no slot: POWER_ON_RESET,
INITIALISATION_COMPLETE, SOFT_RESET, ATTN_ENABLE_WRITE, ATTENTION_CLEAR, PACE_WRITE, REGISTER_WRITE_OTHER, SLOT_POST, STRAY_POST,
POOL_RELEASE and ABORT (R175 to R180, R187, R188); and what the host reads.
-/

namespace Sys2Proof.Machine

/-! ### Resets -/

/-- R174, R178: the drive-off frame of a link that is IN_SERVICE or BRING_UP, as it leaves on the wire. -/
def Link.driveOff (l : Link) (index : BitVec 8) : Link :=
  if l.state = .silent then l
  else { l with wire := some (FrameRecord.encode ⟨index, .demand, false, 0, 0⟩) }

/-- R174: a link after soft reset, its drive-off frame sent. -/
def Link.softReset (l : Link) (index : BitVec 8) : Link := { Link.reset with wire := (l.driveOff index).wire }

/-- R178, effect 3: a channel after soft reset; the Calibration Table and the lifetime set are kept (R54, R70). -/
def Channel.softReset (ch : Channel) : Channel := { Channel.reset with cal := ch.cal, lifeSet := ch.lifeSet }

/-- R178: the soft reset. The store, the lines' levels and the queue are kept; the next initialisation is begun (log 6). -/
def State.softReset (s : State) : State where
  phase := .starting
  initCount := s.initCount + 1
  store := s.store
  stopAll := s.stopAll
  linkOk := s.linkOk
  initKept := []
  slots := Vector.replicate 17 ⟨none, false⟩
  strayPost := 0
  strayRelease := 0
  notices := .reset
  timerRunning := false
  sampleIndex := 0
  links := s.links.map fun l => l.softReset s.sampleIndex
  arb := .reset s.linkOk
  chans := s.chans.map Channel.softReset
  pairs := Vector.replicate 8 Pair.reset
  pending := s.pending

/-! ### The initialisation of the store -/

/-- The layout figures of the device header (R175). -/
def layoutFigures : List Nat := [16, 17, 512, 32, 8192, 32, 8192]

/-- R175, R177: the 256 bytes of the device header. -/
def deviceHeader (count : U32) : List Byte :=
  padTo 256 (leBytes 4 Config.ident.toNat ++ layoutFigures.flatMap (leBytes 4) ++ leBytes 4 count.toNat)

/-- The 64 bytes of a channel Notice Record (11 section 11.4). -/
def ChanNotice.bytes (n : ChanNotice) : List Byte :=
  padTo 64 ([n.responses, n.handovers, n.stateChanges, n.watchHits, n.faults].flatMap fun x => leBytes 4 x.toNat)

/-- The 64 bytes of the device Notice Record (11 section 11.4). -/
def DevNotice.bytes (n : DevNotice) : List Byte :=
  padTo 64 ([n.responses, n.linkChanges, n.stopAllChanges].flatMap fun x => leBytes 4 x.toNat)

/-- R177: the store after the initialisation's writes: the device header, the Notice Records, the slots as zeros and the pool
headers. -/
def State.initialised (s : State) : Mem :=
  let m1 := Mem.writeBytes s.store 0 (deviceHeader s.initCount)
  let m2 := Mem.writeBytes m1 Config.devNotice s.notices.dev.bytes
  let m3 := allChans.foldl (fun m c => Mem.writeBytes m (Config.chanNotice c) (s.notices.chan[c]).bytes) m2
  let m4 := Mem.clear m3 (Config.slotBase 0) (17 * 512)
  allChans.foldl (fun m c =>
    Mem.writeBytes (Mem.writeBytes m (Config.headerBase c .a) (PoolHeader.reset .filling).bytes) (Config.headerBase c .b)
      (PoolHeader.reset .waiting).bytes) m4

/-- R177, logs 5 and 6: the bytes that the host wrote after the initialisation had written them stand as the host wrote them. -/
def State.restoreKept (s : State) (m : Mem) : Mem := s.initKept.foldl (fun m a => Mem.write m a (s.store.read a)) m

/-! ### Register writes -/

/-- R176, R188: a write of CONTROL with SOFT_RESET clear; a clear ATTN_ENABLE clears message-owed. -/
def NoticeUnit.setEnable (n : NoticeUnit) (on : Bool) : NoticeUnit :=
  { n with attnEnable := on, owed := n.owed && on }

/-- R176: a write of CONTROL. -/
def State.controlWrite (s : State) (v : U32) : State :=
  if v.getLsbD 0 then s.softReset else { s with notices := s.notices.setEnable (v.getLsbD 1) }

/-- R187: the ATTENTION bits with the written 1s cleared. -/
def NoticeUnit.clearBits (n : NoticeUnit) (v : U32) : NoticeUnit :=
  { n with attention := n.attention &&& ~~~(v.setWidth 17) }

/-- R176, R188: a write of PACE. -/
def NoticeUnit.setPace (n : NoticeUnit) (v : U32) : NoticeUnit := ({ n with paceTime := v.toNat % 2 ^ 16 }).judge

/-! ### Host writes of the window -/

/-- The window offset lies in the Shared Store (R175). -/
def storeOffset (a : Nat) : Option Nat :=
  if Config.storeBase ≤ a ∧ a < Config.storeBase + Config.storeSize then some (a - Config.storeBase) else none

/-- The channel whose Plan Area holds a store offset (R175). -/
def planAreaOf (a : Nat) : Option Chan :=
  if h : 0x8000 ≤ a ∧ a < 0x28000 then some ⟨(a - 0x8000) / 0x2000, by omega⟩ else none

/-- R27, log 5: the loads in execution whose Plan Area a host write touches have read n further records before it. -/
def State.advanceTouched (s : State) (offsets : List Nat) (n : Nat) : State :=
  s.forChans (fun s c => if offsets.any (fun a => planAreaOf a == some c) then s.advanceLoad c n else s) allChans

/-- R177, log 6: the bytes kept against the initialisation after a host write in STARTING. -/
def State.noteKept (s : State) (a : Nat) (after : Bool) : List Nat :=
  if s.phase = .starting then
    let rest := s.initKept.filter (· != a)
    if after then a :: rest else rest
  else s.initKept

/-- R175: one byte of a host write of the window: a byte of the store, or nothing. -/
def State.hostByte (s : State) (a : Nat) (v : Byte) (after : Bool) : State :=
  match storeOffset a with
  | some o => { s with store := s.store.write o v, initKept := s.noteKept o after }
  | none => s

/-- R175: a host write of the window elsewhere than at a register that acts. -/
def State.hostBytes (s : State) (a : Nat) (after : Bool) : List Byte → State
  | [] => s
  | v :: vs => (s.hostByte a v after).hostBytes (a + 1) after vs

/-- The store offsets that a host write touches. -/
def touchedOffsets (a n : Nat) : List Nat := (List.range n).filterMap fun i => storeOffset (a + i)

/-! ### Host reads -/

/-- R176: the value that a read of the register at a window offset returns; 0 where there is none. -/
def State.readRegister (s : State) (offset : Nat) : U32 :=
  match offset with
  | 0x000 => Config.ident
  | 0x004 => BitVec.ofNat 32 (2 * bit s.notices.attnEnable)
  | 0x008 => BitVec.ofNat 32 (s.phase.code + 2 * bit s.stopAll + 4 * bit s.linkOk)
  | 0x00C => 0
  | 0x010 => s.notices.attention.setWidth 32
  | 0x014 => BitVec.ofNat 32 s.notices.paceTime
  | _ => 0

/-- R175: the byte that a host read of the window returns at an offset. -/
def State.readWindow (s : State) (a : Nat) : Byte :=
  if a < Config.regWindowSize then BitVec.ofNat 8 ((s.readRegister (a / 4 * 4)).toNat / 256 ^ (a % 4))
  else
    match storeOffset a with
    | some o => s.store.read o
    | none => 0

/-! ### The meanings -/

/-- POWER_ON_RESET (R177): every block at its power-on values under the present levels of the lines; the queue is kept. -/
def execPowerOnReset (stopAll linkOk : Bool) (s : State) : Host.Outcome State Fault Refusal :=
  .next { State.powerOn stopAll linkOk with pending := s.pending }

/-- INITIALISATION_COMPLETE (R177): the store as initialised, READY, and the sample timer started; in READY there is none to
complete. -/
def execInitialisationComplete (s : State) : Host.Outcome State Fault Refusal :=
  .next (if s.phase = .starting then
      { s with store := s.restoreKept s.initialised, initKept := [], phase := .ready, timerRunning := true }
    else s)

/-- SOFT_RESET (R178): a write of CONTROL with bit 0 set. -/
def execSoftReset (value : U32) (s : State) : Host.Outcome State Fault Refusal := .next (s.controlWrite value)

/-- ATTN_ENABLE_WRITE (R176, R188): a write of CONTROL with bit 0 clear. -/
def execAttnEnableWrite (value : U32) (s : State) : Host.Outcome State Fault Refusal := .next (s.controlWrite value)

/-- ATTENTION_CLEAR (R187): each written 1 clears the matching bit. -/
def execAttentionClear (value : U32) (s : State) : Host.Outcome State Fault Refusal :=
  .next { s with notices := s.notices.clearBits value }

/-- PACE_WRITE (R176, R188): the pace time replaced, which acts on a running timer at once. -/
def execPaceWrite (value : U32) (s : State) : Host.Outcome State Fault Refusal :=
  .next { s with notices := s.notices.setPace value }

/-- REGISTER_WRITE_OTHER (R175, R176): no effect outside the Shared Store; inside it, the bytes written (log 4). -/
def execRegisterWriteOther (offset : Nat) (bytes : List Byte) (timing : HostTiming) (s : State) :
    Host.Outcome State Fault Refusal :=
  .next ((s.advanceTouched (touchedOffsets offset bytes.length) timing.recordsRead).hostBytes offset timing.afterInit bytes)

/-- SLOT_POST (R179, R180, R182): the post of a slot. -/
def execSlotPost (slot : SlotIx) (s : State) : Host.Outcome State Fault Refusal := .next (s.takePost slot.val)

/-- STRAY_POST (R179): a post of any code, stray where R179 makes it so. -/
def execStrayPost (code : U32) (s : State) : Host.Outcome State Fault Refusal := .next (s.takePost code.toNat)

/-- POOL_RELEASE (R153): the post of code 32 + 2c + p. -/
def execPoolRelease (c : Chan) (p : PoolId) (s : State) : Host.Outcome State Fault Refusal :=
  .next (s.takePost (32 + 2 * c.val + Config.poolNo p))

/-- ABORT (R18): the post of code 64 + c. -/
def execAbort (c : Chan) (s : State) : Host.Outcome State Fault Refusal := .next (s.takePost (64 + c.val))

end Sys2Proof.Machine
end

