-- ==== Sys2Proof/Machine/RequestRows.lean ====
section
/-!
DEFINITION. The meanings of the nineteen requests, each the host's exchange of section 10.4 (log 3), and of LOAD_COMPLETION.
-/

namespace Sys2Proof.Machine

/-- The host's exchange of a channel request. -/
def State.channelExchange (s : State) (c : Chan) (kind : ReqKind) (tag : U32) (params : List Byte) : State :=
  s.hostRequest (chanSlot c) kind tag params

/-- The host's exchange of a device request. -/
def State.deviceExchange (s : State) (kind : ReqKind) (tag : U32) (params : List Byte) : State :=
  s.hostRequest deviceSlot kind tag params

/-- ENABLE (R3, R172). -/
def execEnable (c : Chan) (tag : U32) (s : State) : Host.Outcome State Fault Refusal :=
  .next (s.channelExchange c .enable tag [])

/-- DISABLE (R4). -/
def execDisable (c : Chan) (tag : U32) (s : State) : Host.Outcome State Fault Refusal :=
  .next (s.channelExchange c .disable tag [])

/-- LOAD_PLAN (R26). -/
def execLoadPlan (c : Chan) (tag : U32) (s : State) : Host.Outcome State Fault Refusal :=
  .next (s.channelExchange c .loadPlan tag [])

/-- LOAD_COMPLETION (R29). -/
def execLoadCompletion (c : Chan) (s : State) : Host.Outcome State Fault Refusal := .next (s.completeLoad c)

/-- START (R5, R6). -/
def execStart (c : Chan) (tag : U32) (s : State) : Host.Outcome State Fault Refusal :=
  .next (s.channelExchange c .start tag [])

/-- PAUSE (R13). -/
def execPause (c : Chan) (tag : U32) (s : State) : Host.Outcome State Fault Refusal :=
  .next (s.channelExchange c .pause tag [])

/-- RESUME (R14, R15). -/
def execResume (c : Chan) (tag : U32) (s : State) : Host.Outcome State Fault Refusal :=
  .next (s.channelExchange c .resume tag [])

/-- STOP (R17). -/
def execStop (c : Chan) (tag : U32) (s : State) : Host.Outcome State Fault Refusal :=
  .next (s.channelExchange c .stop tag [])

/-- FAULT_ACK (R114). -/
def execFaultAck (c : Chan) (tag : U32) (s : State) : Host.Outcome State Fault Refusal :=
  .next (s.channelExchange c .faultAck tag [])

/-- SET_LIMITS (R96, R97). -/
def execSetLimits (c : Chan) (tag : U32) (limits : LimitWords) (s : State) : Host.Outcome State Fault Refusal :=
  .next (s.channelExchange c .setLimits tag (limitWordBytes limits))

/-- SET_CAL (R57, R58). -/
def execSetCal (c : Chan) (tag : U32) (record mode learnRequest : Byte) (offset gain learnLimit : U32) (s : State) :
    Host.Outcome State Fault Refusal :=
  .next (s.channelExchange c .setCal tag
    ([record, mode, learnRequest, 0] ++ leBytes 4 offset.toNat ++ leBytes 4 gain.toNat ++ leBytes 4 learnLimit.toNat))

/-- SET_WATCH (R160). -/
def execSetWatch (c : Chan) (tag : U32) (index quantity direction mode : Byte) (threshold : U32) (s : State) :
    Host.Outcome State Fault Refusal :=
  .next (s.channelExchange c .setWatch tag ([index, quantity, direction, mode] ++ leBytes 4 threshold.toNat))

/-- CLEAR_WATCH (R162). -/
def execClearWatch (c : Chan) (tag : U32) (index : Byte) (s : State) : Host.Outcome State Fault Refusal :=
  .next (s.channelExchange c .clearWatch tag [index])

/-- JUMP (R48). -/
def execJump (c : Chan) (tag : U32) (step : Byte) (s : State) : Host.Outcome State Fault Refusal :=
  .next (s.channelExchange c .jump tag [step])

/-- FLUSH (R158). -/
def execFlush (c : Chan) (tag : U32) (s : State) : Host.Outcome State Fault Refusal :=
  .next (s.channelExchange c .flush tag [])

/-- STATUS (R184, R191). -/
def execStatus (c : Chan) (tag : U32) (sect : Byte) (s : State) : Host.Outcome State Fault Refusal :=
  .next (s.channelExchange c .status tag [sect])

/-- COUNTERS (R185). -/
def execCounters (c : Chan) (tag : U32) (clear : Byte) (s : State) : Host.Outcome State Fault Refusal :=
  .next (s.channelExchange c .counters tag [clear])

/-- SET_LINK (R133). -/
def execSetLink (tag : U32) (importLimit exportLimit interval : U32) (s : State) : Host.Outcome State Fault Refusal :=
  .next (s.deviceExchange .setLink tag
    (leBytes 4 importLimit.toNat ++ leBytes 4 exportLimit.toNat ++ leBytes 4 interval.toNat))

/-- SET_PAIR (R120, R121). -/
def execSetPair (tag : U32) (pair setting : Byte) (s : State) : Host.Outcome State Fault Refusal :=
  .next (s.deviceExchange .setPair tag [pair, setting])

/-- DEVICE_COUNTERS (R185). -/
def execDeviceCounters (tag : U32) (clear : Byte) (s : State) : Host.Outcome State Fault Refusal :=
  .next (s.deviceExchange .deviceCounters tag [clear])

end Sys2Proof.Machine
end

