-- ==== Sys2Proof/Machine/Dispatch.lean ====
section
/-!
DEFINITION. The meaning of every command of the table.
-/

namespace Sys2Proof.Machine

/-- The effect of a command on the state; the queue is step's. -/
def exec (i : Instr) (s : State) : Host.Outcome State Fault Refusal :=
  match i with
  | .powerOnReset stopAll linkOk => Sys2Proof.Machine.execPowerOnReset stopAll linkOk s
  | .initialisationComplete => Sys2Proof.Machine.execInitialisationComplete s
  | .softReset value => Sys2Proof.Machine.execSoftReset value s
  | .attnEnableWrite value => Sys2Proof.Machine.execAttnEnableWrite value s
  | .attentionClear value => Sys2Proof.Machine.execAttentionClear value s
  | .paceWrite value => Sys2Proof.Machine.execPaceWrite value s
  | .registerWriteOther offset bytes timing => Sys2Proof.Machine.execRegisterWriteOther offset bytes timing s
  | .slotPost slot => Sys2Proof.Machine.execSlotPost slot s
  | .strayPost code => Sys2Proof.Machine.execStrayPost code s
  | .poolRelease c p => Sys2Proof.Machine.execPoolRelease c p s
  | .abort c => Sys2Proof.Machine.execAbort c s
  | .enable c tag => Sys2Proof.Machine.execEnable c tag s
  | .disable c tag => Sys2Proof.Machine.execDisable c tag s
  | .loadPlan c tag => Sys2Proof.Machine.execLoadPlan c tag s
  | .loadCompletion c => Sys2Proof.Machine.execLoadCompletion c s
  | .start c tag => Sys2Proof.Machine.execStart c tag s
  | .pause c tag => Sys2Proof.Machine.execPause c tag s
  | .resume c tag => Sys2Proof.Machine.execResume c tag s
  | .stop c tag => Sys2Proof.Machine.execStop c tag s
  | .faultAck c tag => Sys2Proof.Machine.execFaultAck c tag s
  | .setLimits c tag limits => Sys2Proof.Machine.execSetLimits c tag limits s
  | .setCal c tag record mode learnRequest offset gain learnLimit => Sys2Proof.Machine.execSetCal c tag record mode learnRequest offset gain learnLimit s
  | .setWatch c tag index quantity direction mode threshold => Sys2Proof.Machine.execSetWatch c tag index quantity direction mode threshold s
  | .clearWatch c tag index => Sys2Proof.Machine.execClearWatch c tag index s
  | .jump c tag step => Sys2Proof.Machine.execJump c tag step s
  | .flush c tag => Sys2Proof.Machine.execFlush c tag s
  | .status c tag sect => Sys2Proof.Machine.execStatus c tag sect s
  | .counters c tag clear => Sys2Proof.Machine.execCounters c tag clear s
  | .setLink tag importLimit exportLimit interval => Sys2Proof.Machine.execSetLink tag importLimit exportLimit interval s
  | .setPair tag pair setting => Sys2Proof.Machine.execSetPair tag pair setting s
  | .deviceCounters tag clear => Sys2Proof.Machine.execDeviceCounters tag clear s
  | .sampleTimerExpiry sched => Sys2Proof.Machine.execSampleTimerExpiry sched s
  | .bringUpLimit c => Sys2Proof.Machine.execBringUpLimit c s
  | .responseFrame c frame evalLate => Sys2Proof.Machine.execResponseFrame c frame evalLate s
  | .chopEnd c => Sys2Proof.Machine.execChopEnd c s
  | .blankingExpiry c => Sys2Proof.Machine.execBlankingExpiry c s
  | .softWindowExpiry c => Sys2Proof.Machine.execSoftWindowExpiry c s
  | .contactCheckFail c => Sys2Proof.Machine.execContactCheckFail c s
  | .linkHoldExpiry c => Sys2Proof.Machine.execLinkHoldExpiry c s
  | .stopAllAssert => Sys2Proof.Machine.execStopAllAssert s
  | .stopAllRelease => Sys2Proof.Machine.execStopAllRelease s
  | .linkOkFall => Sys2Proof.Machine.execLinkOkFall s
  | .linkOkRise => Sys2Proof.Machine.execLinkOkRise s
  | .arbiterLinkEdge rising => Sys2Proof.Machine.execArbiterLinkEdge rising s
  | .intervalTimerExpiry => Sys2Proof.Machine.execIntervalTimerExpiry s
  | .paceTimerExpiry => Sys2Proof.Machine.execPaceTimerExpiry s

end Sys2Proof.Machine
end

