-- ==== Sys2Proof/Machine/Idle.lean ====
section
/-!
DEFINITION. What the part does in 10 µs without a command (log 9).
-/

namespace Sys2Proof.Machine

/-- R188: 10 µs counted by a RUNNING pace timer, and the expiry judged. -/
def NoticeUnit.tick (n : NoticeUnit) : NoticeUnit := ({ n with pace := n.pace.map (· + 1) }).judge

/-- Log 9: the expiries that are due are taken, and the pace timer counts. -/
def State.idle (s : State) : State :=
  let s1 := s.takeDue
  { s1 with notices := s1.notices.tick }

end Sys2Proof.Machine
end

