-- ==== Sys2Proof/Machine/Step.lean ====
section
/-!
DEFINITION. The step of the machine: the command at the front of the queue is taken and run on the rest; on an empty queue the part
idles for 10 µs (log 9). And how the host puts a command into the machine.
-/

namespace Sys2Proof.Machine

/-- One step: the front command, or 10 µs of idling. -/
def step (s : State) : Host.Outcome State Fault Refusal :=
  match s.pending with
  | c :: rest => exec c { s with pending := rest }
  | [] => .next s.idle

/-- s with the command that a word spells at the front of its queue; no word spells one (log 40). -/
def State.withFetchWord (s : State) (nbits w : Nat) : State :=
  match decodeTableWord nbits w with
  | some i => { s with pending := i :: s.pending }
  | none => s

end Sys2Proof.Machine
end

