-- ==== Sys2Proof/Safety.lean ====
section
/-!
DEFINITION. What counts as a sound state of the part, in the terms claims use: the stage is driven only in RUNNING outside a chop
(R2), the bounded quantities stay in their ranges (R22, R34, R35, R64, R66, R111), a limit set in force passed the examination of
R96, the store is canonical, the wanted-power table is well formed (R132), the pace time has 16 bits (R176), and the sample timer
runs exactly in READY (R164, R177). And what statements about one command say it leaves as it was: the frames.
-/

namespace Sys2Proof.Machine

/-- R66: an accumulator set in its ranges. -/
structure Acc.Ok (a : Acc) : Prop where
  chIn : a.chIn ≤ top64
  chOut : a.chOut ≤ top64
  enIn : a.enIn ≤ top64
  enOut : a.enOut ≤ top64
  enInRem : a.enInRem < 1000000
  enOutRem : a.enOutRem < 1000000

/-- R96: a limit set that both passes accept: every field in its range (the resume policy has no others), and the five figures of the
second pass consistent. -/
structure LimitSet.Ok (l : LimitSet) : Prop where
  vMax : 1 ≤ l.vMax ∧ l.vMax ≤ 1000000
  vMin : 0 ≤ l.vMin ∧ l.vMin ≤ 999999
  iMax : 1 ≤ l.iMax ∧ l.iMax ≤ 1200000
  iSoft : 1 ≤ l.iSoft ∧ l.iSoft ≤ 1200000
  chopOff : 1 ≤ l.chopOff ∧ l.chopOff ≤ 255
  softWindow : 100 ≤ l.softWindow ∧ l.softWindow ≤ 10000
  softMax : 1 ≤ l.softMax ∧ l.softMax ≤ 255
  blankTime : l.blankTime ≤ 1000
  tMax : -400 ≤ l.tMax ∧ l.tMax ≤ 1500
  tStart : -400 ≤ l.tStart ∧ l.tStart ≤ 1500
  slope : 0 ≤ l.slope ∧ l.slope ≤ 100000
  iFloor : 0 ≤ l.iFloor ∧ l.iFloor ≤ 1200000
  iRunMax : 1 ≤ l.iRunMax ∧ l.iRunMax ≤ 1200000
  vCmin : 0 ≤ l.vCmin ∧ l.vCmin ≤ 1000000
  vCmax : 0 ≤ l.vCmax ∧ l.vCmax ≤ 1000000
  filterTime : l.filterTime = 50 ∨ l.filterTime = 100 ∨ l.filterTime = 200 ∨ l.filterTime = 400
  silenceLimit : 2 ≤ l.silenceLimit ∧ l.silenceLimit ≤ 50
  linkHoldMax : 1 ≤ l.linkHoldMax ∧ l.linkHoldMax ≤ 600
  priority : l.priority ≤ 2
  pairTol : 0 ≤ l.pairTol ∧ l.pairTol ≤ 100000
  voltages : l.vMin < l.vMax
  soft : l.iSoft ≤ l.iMax
  running : l.iRunMax ≤ l.iMax
  floor : l.iFloor ≤ l.iRunMax
  contact : l.vCmin ≤ l.vCmax

/-- R2: a demand other than 0 stands only in RUNNING outside a chop. -/
def Channel.Driven (ch : Channel) : Prop := ch.demand ≠ 0 → ch.st = .running ∧ ch.chop = none

/-- A sound channel. -/
structure Channel.Ok (ch : Channel) : Prop where
  driven : ch.Driven
  stepSet : ch.stepSet.Ok
  planSet : ch.planSet.Ok
  lifeSet : ch.lifeSet.Ok
  planTime : ch.planTime ≤ Config.top 48
  stepTime : ch.seqr.stepTime ≤ Config.top 32
  cycle : ch.seqr.cycle ≤ Config.top 32
  silence : ch.silence ≤ Config.top 16
  later : ch.fault.laterCount ≤ Config.top 16
  limits : ∀ l, ch.limits = some l → l.Ok
  loaded : ch.limitsLoaded = ch.limits.isSome

/-- R132: direction NONE and magnitude 0 go together. -/
def Wanted.Ok (w : Wanted) : Prop := w.dir = .none ↔ w.mag = 0

/-- A sound state. -/
structure State.Ok (s : State) : Prop where
  store : Mem.wf s.store = true
  chans : ∀ c, (s.chan c).Ok
  wanted : ∀ c : Chan, (s.arb.wanted[c]).Ok
  paceTime : s.notices.paceTime < 2 ^ 16
  timer : s.timerRunning = true ↔ s.phase = .ready

/-! ### Pools -/

/-- Section 8.2: a record fills whole slots, one or two. -/
def Record.Fits (r : Record) : Prop := (r.slots = 1 ∨ r.slots = 2) ∧ r.bytes.length = Config.recordSlot * r.slots

/-- R145, R146: a pool of the part other than the FILLING one is WAITING and empty; no pool holds more than its slots. -/
structure PoolHeader.Ok (h : PoolHeader) : Prop where
  used : h.used ≤ Config.poolSlots
  waiting : h.owner = .part → h.side = .waiting → h.used = 0

/-- R146, R154, R155: at most one pool is FILLING, one is whenever the part owns one, the latch holds a record only while it owns
none, and no report of a latch entry stands over from one event to the next. -/
structure Logger.Ok (l : Logger) : Prop where
  poolA : l.poolA.Ok
  poolB : l.poolB.Ok
  one : ¬ (l.poolA.isFilling = true ∧ l.poolB.isFilling = true)
  owned : l.poolA.owner = .part ∨ l.poolB.owner = .part → l.filling.isSome = true
  latch : ∀ r, l.latch = some r → l.filling = none ∧ r.Fits
  report : l.report = false

/-- The pools of every channel are as R145 and R146 have them, and a RUNNING channel has no hold cause (R8, R9). -/
structure State.LogsOk (s : State) : Prop where
  logs : ∀ c, (s.chan c).log.Ok
  unheld : ∀ c, (s.chan c).st = .running → (s.chan c).hold.isEmpty = true

/-! ### Frames -/

/-- What belongs to no channel, link, pair, slot, count or table, with the queue. -/
structure DeviceKept (s t : State) : Prop where
  phase : t.phase = s.phase
  initCount : t.initCount = s.initCount
  stopAll : t.stopAll = s.stopAll
  linkOk : t.linkOk = s.linkOk
  initKept : t.initKept = s.initKept
  strayPost : t.strayPost = s.strayPost
  strayRelease : t.strayRelease = s.strayRelease
  timerRunning : t.timerRunning = s.timerRunning
  sampleIndex : t.sampleIndex = s.sampleIndex
  pending : t.pending = s.pending

/-- Every byte of the store outside the given areas, each a first offset and a size, reads as before. -/
def StoreKept (s t : State) (areas : List (Nat × Nat)) : Prop :=
  ∀ a, (∀ r ∈ areas, a < r.1 ∨ r.1 + r.2 ≤ a) → t.store.read a = s.store.read a

/-- The area of Request Slot n (R175). -/
def slotArea (n : SlotIx) : Nat × Nat := (Config.slotBase n, 512)

/-- The area of channel c's Notice Record (R175). -/
def noticeArea (c : Chan) : Nat × Nat := (Config.chanNotice c, 64)

/-- The area of the device Notice Record (R175). -/
def devNoticeArea : Nat × Nat := (Config.devNotice, 64)

/-- The areas that channel c's records and counts are written to: its Notice Record, its two pool headers and its two pools. -/
def logAreas (c : Chan) : List (Nat × Nat) :=
  [noticeArea c, (Config.headerBase c .a, 64), (Config.poolBase c .a, 0x4000)]

/-- Notice counts: those of other channels and of the device, the other ATTENTION bits, ATTN_ENABLE and the pace time. -/
structure NoticesKept (s t : State) (c : Chan) : Prop where
  chans : ∀ d : Chan, d ≠ c → t.notices.chan[d] = s.notices.chan[d]
  dev : t.notices.dev = s.notices.dev
  bits : ∀ i, i ≠ c.val → t.notices.attention.getLsbD i = s.notices.attention.getLsbD i
  attnEnable : t.notices.attnEnable = s.notices.attnEnable
  paceTime : t.notices.paceTime = s.notices.paceTime

/-- The Arbiter's settings and lines, and the wanted power of other channels. -/
structure ArbiterKept (s t : State) (c : Chan) : Prop where
  settings : t.arb.settings = s.arb.settings
  linkSet : t.arb.linkSet = s.arb.linkSet
  linkUp : t.arb.linkUp = s.arb.linkUp
  timer : t.arb.timer = s.arb.timer
  wanted : ∀ d : Chan, d ≠ c → t.arb.wanted[d] = s.arb.wanted[d]

/-- The other channels; the follower of a leader may have its auto-zero state changed with its leader's (R62), and nothing else. -/
def OthersKept (s t : State) (c : Chan) : Prop :=
  ∀ d, d ≠ c → t.chan d = s.chan d
    ∨ (s.leads c = true ∧ d = followerOf (pairOf c) ∧ ∃ a, t.chan d = { s.chan d with az := a })

/-- What a command about channel c leaves elsewhere: everything but channel c, its slot, its link, its pair, its counts, its wanted
power and the grants, and the given areas of the store. -/
structure Frame (s t : State) (c : Chan) (areas : List (Nat × Nat)) : Prop where
  device : DeviceKept s t
  others : OthersKept s t c
  notices : NoticesKept s t c
  arb : ArbiterKept s t c
  links : ∀ d, d ≠ c → t.link d = s.link d
  slots : ∀ n, n ≠ chanSlot c → t.slot n = s.slot n
  pairs : ∀ k, k ≠ pairOf c → t.pair k = s.pair k
  store : StoreKept s t areas

/-! ### Exchanges -/

/-- A request can be taken: READY, and slot n FREE with no post pending (R180, R182). -/
structure SlotFree (s : State) (n : SlotIx) : Prop where
  phase : s.phase = .ready
  slot : s.slot n = ⟨none, false⟩

/-- R181: the request of slot n is completed with reply r: the response half, DONE in the state field, the latch FREE. -/
structure Answered (t : State) (n : SlotIx) (tag kind : Nat) (r : Reply) : Prop where
  response : t.store.readBytes (responseBase n) responseHalfSize = r.half tag kind
  done : t.stateField n = stateDone
  slot : t.slot n = ⟨none, false⟩

/-- R180: the request of slot n stays in execution: its copy in the latch, TAKEN in the state field. -/
structure Executing (t : State) (n : SlotIx) (half : List Byte) : Prop where
  taken : t.stateField n = stateTaken
  slot : t.slot n = ⟨some half, false⟩

/-- R186: channel c's notice counts after a completion by which the given counts have grown so far; its ATTENTION
bit is set. Handovers are the pools' affair. -/
structure Counted (s t : State) (c : Chan) (responses stateChanges faults : U32) : Prop where
  responses : (t.notices.chan[c]).responses = (s.notices.chan[c]).responses + responses
  stateChanges : (t.notices.chan[c]).stateChanges = (s.notices.chan[c]).stateChanges + stateChanges
  watchHits : (t.notices.chan[c]).watchHits = (s.notices.chan[c]).watchHits
  faults : (t.notices.chan[c]).faults = (s.notices.chan[c]).faults + faults
  bit : t.notices.attention.getLsbD c.val = true

/-- A request of channel c answered with reply r, by which nothing changes but its slot, its response count and the Notice Unit. -/
structure OnlyAnswered (s t : State) (c : Chan) (tag kind : Nat) (r : Reply) : Prop where
  answered : Answered t (chanSlot c) tag kind r
  counted : Counted s t c 1 0 0
  chans : t.chans = s.chans
  links : t.links = s.links
  pairs : t.pairs = s.pairs
  arb : t.arb = s.arb
  device : DeviceKept s t
  notices : NoticesKept s t c
  slots : ∀ n, n ≠ chanSlot c → t.slot n = s.slot n
  store : StoreKept s t [slotArea (chanSlot c), noticeArea c]

/-- R186: a device count grown by a completion or an edge; the channels' counts stand, and ATTENTION bit 16 is set. -/
structure DeviceCounted (s t : State) (responses linkChanges stopAllChanges : U32) : Prop where
  responses : t.notices.dev.responses = s.notices.dev.responses + responses
  linkChanges : t.notices.dev.linkChanges = s.notices.dev.linkChanges + linkChanges
  stopAllChanges : t.notices.dev.stopAllChanges = s.notices.dev.stopAllChanges + stopAllChanges
  bit : t.notices.attention.getLsbD 16 = true

/-- The Notice Unit's parts that a device count leaves. -/
structure DeviceNoticesKept (s t : State) : Prop where
  chans : t.notices.chan = s.notices.chan
  bits : ∀ i, i ≠ 16 → t.notices.attention.getLsbD i = s.notices.attention.getLsbD i
  attnEnable : t.notices.attnEnable = s.notices.attnEnable
  paceTime : t.notices.paceTime = s.notices.paceTime

/-- A device request answered with reply r, by which nothing changes but its slot, its response count and the Notice Unit. -/
structure OnlyDeviceAnswered (s t : State) (tag kind : Nat) (r : Reply) : Prop where
  answered : Answered t deviceSlot tag kind r
  counted : DeviceCounted s t 1 0 0
  chans : t.chans = s.chans
  links : t.links = s.links
  pairs : t.pairs = s.pairs
  arb : t.arb = s.arb
  device : DeviceKept s t
  notices : DeviceNoticesKept s t
  slots : ∀ n, n ≠ deviceSlot → t.slot n = s.slot n
  store : StoreKept s t [slotArea deviceSlot, devNoticeArea]

end Sys2Proof.Machine
end

