-- ==== Sys2Proof/WellFormed.lean ====
section
/-!
DEFINITION. When a command's operands are those of its row. Request parameters need no check: the part judges them itself and
answers BAD_VALUE (R190). A command that fails the check still has a meaning (the machine is total); a well-formed one is one
its sender can issue.
-/

namespace Sys2Proof

/-- The window offsets of the registers that act on a write: CONTROL, POST, ATTENTION and PACE (R176). -/
def actingRegister (a : Nat) : Bool :=
  (0x4 ≤ a && a < 0x8) || (0xC ≤ a && a < 0x18)

/-- The operands are those of the row. SOFT_RESET is a write of CONTROL with bit 0 set and ATTN_ENABLE_WRITE one with bit 0
clear (R176); REGISTER_WRITE_OTHER lies in the window and touches no acting register; a STRAY_POST code is outside the ranges
of R179 unless the post is taken in STARTING, which the command alone does not show, so any code is well-formed. -/
def WellFormed : Instr → Bool
  | .softReset value => value.getLsbD 0
  | .attnEnableWrite value => !value.getLsbD 0
  | .registerWriteOther offset bytes _ =>
      decide (offset + bytes.length ≤ Config.windowSize)
        && (List.range (min bytes.length 0x18)).all fun i => !actingRegister (offset + i)
  | _ => true

end Sys2Proof
end

