-- ==== Sys2Proof/Certificates/Slice0/Obligations.lean ====
section
/-!
DEFINITION. The statements for the provers. Each docstring names the rules it rests on; a clause that is the model's own choice
names its log entry.
-/

open Sys2Proof Sys2Proof.Machine

/-! ### The step -/

/-- 00_scope section 4.5: a step takes the command at the front of the queue and runs it on the rest. -/
def Obligations.StepRunsTheFrontCommand : Prop :=
  ∀ (i : Instr) (rest : List Instr) (s : State), s.pending = i :: rest → step s = exec i { s with pending := rest }

/-- Log 9 (DESIGN CHOICE): on an empty queue, with no expiry due, only a RUNNING pace timer counts 10 µs; it expires by R188 when its
count reaches the pace time. -/
def Obligations.AnEmptyQueueCountsTenMicroseconds : Prop :=
  ∀ s : State, s.pending = [] → s.arb.intervalDue = false →
    (∀ c, ((s.chan c).linkHold.running && (s.chan c).linkHold.due) = false) →
    (s.notices.pace = none → step s = .next s) ∧
    ∀ k, s.notices.pace = some k → step s = .next
      (let n := { s.notices with pace := some (k + 1) }
      { s with notices := if s.notices.paceTime ≤ k + 1 then n.expire else n })

/-- No command ends in a fault or a refusal, for nothing the spec describes stops the part; and a command acts on everything but the
queue. -/
def Obligations.EveryCommandCompletesAndKeepsTheQueue : Prop :=
  ∀ (i : Instr) (s : State), ∃ t, exec i s = .next t ∧ t.pending = s.pending

/-! ### Invariants -/

/-- The machine after power-on reset is sound, at any levels of the lines, and its pools are as R145 and R146 have them. -/
def Obligations.PowerOnIsSound : Prop :=
  ∀ stopAll linkOk : Bool, (State.powerOn stopAll linkOk).Ok ∧ (State.powerOn stopAll linkOk).LogsOk

/-- Every step keeps a sound state sound: the stage is driven only in RUNNING outside a chop (R2), totals and times keep their ranges
(R22, R34, R35, R64, R66, R111), a limit set in force is one that both passes of R96 accept, the store keeps its canonical form, the
wanted-power table is well formed (R132), the pace time has 16 bits (R176), and the sample timer runs exactly in READY (R164, R177). -/
def Obligations.StepKeepsTheStateSound : Prop := ∀ s t : State, s.Ok → step s = .next t → t.Ok

/-- R145, R146, R154, R8: every step keeps every channel's pools sound: at most one FILLING pool, one whenever the part owns a pool, the
WAITING pool empty, no pool over its 256 slots, and a latch that holds a record only while there is no FILLING pool; and it keeps
RUNNING channels without a hold cause. -/
def Obligations.StepKeepsThePoolsSound : Prop := ∀ s t : State, s.LogsOk → step s = .next t → t.LogsOk

/-- R175: but for a power-on and a host write, no command changes a byte of the Plan Areas or of the free area. -/
def Obligations.PlanAreasAndFreeAreaAreTheHosts : Prop :=
  ∀ (i : Instr) (s t : State), s.LogsOk → (∀ a b, i ≠ .powerOnReset a b) → (∀ o l w, i ≠ .registerWriteOther o l w) →
    exec i s = .next t → ∀ a, (0x8000 ≤ a ∧ a < 0x28000) ∨ 0x68000 ≤ a → t.store.read a = s.store.read a

/-- R166, R53, R123, R167, R192, R2: at an expiry of the running sample timer, from a sound state, each link in service is sent the
DEMAND frame of the period opened. It carries the range of the active plan of the channel that conducts it (range 0 without one), that
channel's demand, or its pair share, clamped to the span of the range, and DRIVE where that is not 0; a value that the clamp changes is
counted. A nonzero demand is carried only of a channel that is RUNNING outside a chop. The frame's reading of the demand comes after the
handling of the period's missed samples, or before it where the operand says so (log 7, DESIGN CHOICE). -/
def Obligations.FramesDriveOnlyWhileRunning : Prop :=
  ∀ (sched : Schedule) (s : State), s.Ok → s.timerRunning = true → ∃ t, exec (.sampleTimerExpiry sched) s = .next t ∧
    ∀ c, (s.link c).state = .inService →
      let read := if sched.readFirst.getLsbD (s.conductor c).val then s.takeDue else t
      let conductor := read.chan (s.conductor c)
      let range : Fin 3 := match conductor.active with | some p => p.header.range | none => 0
      let d : Int :=
        if s.follows c then conductor.demand.tdiv 2
        else if s.leads c then conductor.demand - conductor.demand.tdiv 2
        else conductor.demand
      let v := max (-Config.span range) (min (Config.span range) d)
      let f : FrameRecord := ⟨s.sampleIndex + 1, .demand, decide (v ≠ 0), range, v⟩
      (t.link c).frame = some f ∧ (t.link c).wire = some f.encode ∧
      (t.link c).clamped = (if v ≠ d then (s.link c).clamped + 1 else (s.link c).clamped) ∧
      (v ≠ 0 → conductor.st = .running ∧ conductor.chop = none)

/-! ### Registers and resets -/

/-- Section 10.2, R175, R176: what the host reads of the registers in any state, whole, and after power-on reset and soft reset; a read of
the window elsewhere than at a register or in the Shared Store is 0. A host write that touches no acting register writes those of its
bytes that lie in the Shared Store, also where it runs across the store's edge, and no other byte of it; nothing else changes but what a
load in execution has read by then (R27; log 5, DESIGN CHOICE) and, in STARTING, the note of what the initialisation leaves (R177, log 6),
and nothing at all where no byte lies in the store. That REGISTER_WRITE_OTHER carries the writes of the store too is log 4 (DESIGN
CHOICE). -/
def Obligations.TheWindowReadsAndWritesAsLaidOut : Prop :=
  (∀ s : State, s.readRegister 0x000 = 0x4C4A0110#32 ∧ s.readRegister 0x004 = (if s.notices.attnEnable then 2#32 else 0#32) ∧
    (s.readRegister 0x008).toNat =
      (if s.phase = .ready then 1 else 0) + (if s.stopAll then 2 else 0) + (if s.linkOk then 4 else 0) ∧
    s.readRegister 0x00C = 0 ∧ (s.readRegister 0x010).toNat = s.notices.attention.toNat ∧
    (s.Ok → (s.readRegister 0x014).toNat = s.notices.paceTime)) ∧
  (∀ s : State, (∃ a b, s = State.powerOn a b) ∨ (∃ r : State, s = r.softReset) →
    s.readRegister 0x000 = 0x4C4A0110#32 ∧ s.readRegister 0x004 = 0 ∧
    (s.readRegister 0x008).toNat = (if s.stopAll then 2 else 0) + (if s.linkOk then 4 else 0) ∧ s.readRegister 0x00C = 0 ∧
    s.readRegister 0x010 = 0 ∧ s.readRegister 0x014 = 100) ∧
  (∀ (s : State) (a : Nat), (0x18 ≤ a ∧ a < 0x100000) ∨ 0x200000 ≤ a → s.readWindow a = 0) ∧
  (∀ (s : State) (a : Nat), a < 0x100000 → s.readWindow (0x100000 + a) = s.store.read a) ∧
  ∀ (o : Nat) (l : List Byte) (w : HostTiming) (s : State), WellFormed (.registerWriteOther o l w) = true →
    ∃ t, exec (.registerWriteOther o l w) s = .next t ∧
      (∀ a, t.store.read a =
        if o ≤ 0x100000 + a ∧ 0x100000 + a < o + l.length then l.getD (0x100000 + a - o) 0 else s.store.read a) ∧
      (∀ c, t.chan c = { s.chan c with load := (t.chan c).load }) ∧ (∀ c, (s.chan c).load = none → (t.chan c).load = none) ∧
      t = { s with store := t.store, chans := t.chans, initKept := t.initKept } ∧
      (s.phase = .ready → t.initKept = s.initKept) ∧ (o + l.length ≤ 0x100000 → t = s)

/-- R177 with the power-on values of R23, R51, R54, R70, R119, R131, R174, R189: POWER_ON_RESET completes in STARTING, the lines at
their levels, the sample timer stopped, every channel DISABLED with nothing loaded, the calibration at its defaults, every link
SILENT, every pair SEPARATE; the queue is kept. The figures of the empty evaluation summary are the model's (log 47, DESIGN CHOICE). -/
def Obligations.PowerOnResetSetsThePowerOnValues : Prop :=
  ∀ (a b : Bool) (s : State), ∃ t, exec (.powerOnReset a b) s = .next t ∧
    t.phase = .starting ∧ t.timerRunning = false ∧ t.sampleIndex = 0 ∧ t.stopAll = a ∧ t.linkOk = b ∧ t.pending = s.pending ∧
    (∀ n, t.slot n = ⟨none, false⟩) ∧ t.strayPost = 0 ∧ t.strayRelease = 0 ∧ t.notices = .reset ∧ t.arb = .reset b ∧
    (∀ k, (t.pair k).ganged = false ∧ (t.pair k).mismatch = 0) ∧ (∀ c, (t.link c).state = .silent ∧ (t.link c).frame = none) ∧
    ∀ c, (t.chan c).st = .disabled ∧ (t.chan c).demand = 0 ∧ (t.chan c).hold.isEmpty = true ∧ (t.chan c).active = none ∧
      (t.chan c).staged = .empty ∧ (t.chan c).limits = none ∧ (t.chan c).cal = .reset ∧ (t.chan c).lifeSet = .zero ∧
      (t.chan c).fault.first = none ∧ (t.chan c).log.latch = none ∧ (t.chan c).log.filling = some .a ∧
      (t.chan c).log.nextSeq = 0

/-- R177: INITIALISATION_COMPLETE in STARTING completes: READY, the sample timer runs, the device header, the Notice Records, the
slots and the pool headers are written, and no other byte of the store. In READY it has nothing to complete (log 6). -/
def Obligations.InitialisationCompleteBringsReady : Prop :=
  (∀ s : State, s.phase = .starting → s.initKept = [] → ∃ t, exec .initialisationComplete s = .next t ∧
    t = { s with store := t.store, phase := .ready, timerRunning := true } ∧
    t.store.readBytes 0 4 = leBytes 4 0x4C4A0110 ∧ t.store.readBytes 32 4 = leBytes 4 s.initCount.toNat ∧
    (∀ a, 0x1000 ≤ a → a < 0x3200 → t.store.read a = 0) ∧
    t.store.readBytes Config.devNotice 64 = s.notices.dev.bytes ∧
    (∀ c : Chan, t.store.readBytes (Config.chanNotice c) 64 = (s.notices.chan[c]).bytes ∧
      t.store.readBytes (Config.headerBase c .a) 32 = (PoolHeader.reset .filling).bytes ∧
      t.store.readBytes (Config.headerBase c .b) 32 = (PoolHeader.reset .waiting).bytes) ∧
    StoreKept s t [(0, 256), (0x100, 64), (0x200, 1024), (0x1000, 0x2200), (0x4000, 1024)]) ∧
  ∀ s : State, s.phase = .ready → exec .initialisationComplete s = .next s

/-- R178: SOFT_RESET completes in STARTING with every request abandoned, every channel at its reset values but for its Calibration
Table and lifetime set, every pair SEPARATE, a drive-off frame on every link that was not SILENT, the store, the lines and the queue
as they were. The figures of the empty evaluation summary are the model's (log 47, DESIGN CHOICE). -/
def Obligations.SoftResetKeepsCalibrationAndLifetime : Prop :=
  ∀ (v : U32) (s : State), v.getLsbD 0 = true → ∃ t, exec (.softReset v) s = .next t ∧
    t.phase = .starting ∧ t.initCount = s.initCount + 1 ∧ t.timerRunning = false ∧ t.sampleIndex = 0 ∧ t.store = s.store ∧
    t.stopAll = s.stopAll ∧ t.linkOk = s.linkOk ∧ t.pending = s.pending ∧ (∀ n, t.slot n = ⟨none, false⟩) ∧ t.strayPost = 0 ∧
    t.strayRelease = 0 ∧ t.notices = .reset ∧ t.arb = .reset s.linkOk ∧ (∀ k, t.pair k = .reset) ∧
    (∀ c, t.chan c = { Channel.reset with cal := (s.chan c).cal, lifeSet := (s.chan c).lifeSet }) ∧
    ∀ c, t.link c = { Link.reset with
      wire := if (s.link c).state = .silent then (s.link c).wire
        else some (FrameRecord.encode ⟨s.sampleIndex, .demand, false, 0, 0⟩) }

/-! ### Register writes -/

/-- R176, R187, R188: a write of CONTROL with SOFT_RESET clear sets ATTN_ENABLE to bit 1, clearing message-owed where it clears it; a
write of ATTENTION clears the bits written as 1 and leaves the others. Neither changes anything else. -/
def Obligations.ControlAndAttentionWrites : Prop :=
  (∀ (v : U32) (s : State), v.getLsbD 0 = false → exec (.attnEnableWrite v) s = .next { s with
    notices := { s.notices with attnEnable := v.getLsbD 1, owed := s.notices.owed && v.getLsbD 1 } }) ∧
  ∀ (v : U32) (s : State), ∃ t, exec (.attentionClear v) s = .next t ∧
    (∀ i, i < 17 → t.notices.attention.getLsbD i = (s.notices.attention.getLsbD i && !v.getLsbD i)) ∧
    t = { s with notices := { s.notices with attention := t.notices.attention } }

/-- R176, R188: a write of PACE replaces the pace time by its bits 15 to 0 and lets a running timer whose count is at or above it
expire at once. At expiry the timer stops; an owed message is no longer owed and is sent if ATTN_ENABLE and a bit are set, which
starts the timer again if the pace time is not 0. A STOPPED timer does not expire. That the row PACE_TIMER_EXPIRY acts whatever the
count is log 10 (DESIGN CHOICE). -/
def Obligations.PaceTimeAndPaceTimerExpiry : Prop :=
  let expired := fun (n : NoticeUnit) =>
    if n.owed = true ∧ n.attnEnable = true ∧ n.attention ≠ 0 then
      { n with owed := false, sent := n.sent + 1, pace := if n.paceTime = 0 then none else some 0 }
    else { n with owed := false, pace := none }
  (∀ (v : U32) (s : State), exec (.paceWrite v) s = .next
    (let n := { s.notices with paceTime := v.toNat % 65536 }
    { s with notices := match s.notices.pace with
      | none => n
      | some k => if v.toNat % 65536 ≤ k then expired n else n })) ∧
  (∀ (s : State) (k : Nat), s.notices.pace = some k → exec .paceTimerExpiry s = .next { s with notices := expired s.notices }) ∧
  ∀ s : State, s.notices.pace = none → exec .paceTimerExpiry s = .next s

/-! ### Posts -/

/-- R180: a post of slot n taken in READY with the latch FREE. If the state field is not POSTED the post is stray and the slot stands.
If it is POSTED, the request half is copied into the latch, TAKEN is written, and the request is examined and handed to its owner; a
result given at the take is written and the latch freed within it. A host write after the take leaves the copy. R183, order 1: a kind code
that is no request of the slot's class, unknown or of the other class, is answered UNKNOWN_REQUEST with the code as detail, and nothing
else changes. -/
def Obligations.SlotPostTakesAPostedRequest : Prop :=
  (∀ (n : SlotIx) (s : State), SlotFree s n → s.stateField n ≠ statePosted →
    exec (.slotPost n) s = .next { s with strayPost := s.strayPost + 1 }) ∧
  (∀ (n : SlotIx) (s : State), SlotFree s n → s.stateField n = statePosted →
    exec (.slotPost n) s = .next
      (let half := s.store.readBytes (Config.slotBase n) 128
      let r := ((s.modSlot n fun sl => { sl with latch := some half }).putStateField n stateTaken).dispatch n half
      match r.2 with
      | some reply => r.1.complete n reply
      | none => r.1)) ∧
  (∀ (c : Chan) (s : State), SlotFree s (chanSlot c) → s.stateField (chanSlot c) = statePosted →
    let half := s.store.readBytes (Config.slotBase (chanSlot c)) 128
    let kind := reqKindCode half
    kind = 0 ∨ 16 < kind → ∃ t, exec (.slotPost (chanSlot c)) s = .next t ∧
      OnlyAnswered s t c (reqTag half) kind ⟨.unknownRequest, leBytes 2 kind, []⟩) ∧
  (∀ s : State, SlotFree s deviceSlot → s.stateField deviceSlot = statePosted →
    let half := s.store.readBytes (Config.slotBase deviceSlot) 128
    let kind := reqKindCode half
    kind < 32 ∨ 34 < kind → ∃ t, exec (.slotPost deviceSlot) s = .next t ∧
      OnlyDeviceAnswered s t (reqTag half) kind ⟨.unknownRequest, leBytes 2 kind, []⟩) ∧
  ∀ (o : Nat) (l : List Byte) (w : HostTiming) (s t : State), exec (.registerWriteOther o l w) s = .next t → t.slots = s.slots

/-- R182: a post of a slot whose latch holds a request sets its pending-post flag, or leaves it set, and does nothing else; the
completion of the request takes the pending post as a new post of the slot. -/
def Obligations.PostsOfAnOccupiedSlotArePending : Prop :=
  (∀ (n : SlotIx) (s : State), s.phase = .ready → (s.slot n).latch.isSome = true →
    exec (.slotPost n) s = .next (s.modSlot n fun sl => { sl with pendingPost := true })) ∧
  ∀ (n : SlotIx) (s : State) (r : Reply), (s.slot n).latch.isSome = true → (s.slot n).pendingPost = true →
    s.complete n r = ((s.finish n r).modSlot n fun sl => { sl with pendingPost := false }).take n

/-- R181, stages 1 to 4: the completion of a request writes the response half, writes DONE over TAKEN and nothing over another state,
counts the response and frees the latch. -/
def Obligations.CompletionWritesTheResponse : Prop :=
  ∀ (c : Chan) (s : State) (half : List Byte) (r : Reply), (s.slot (chanSlot c)).latch = some half → r.payload.length ≤ 364 →
    r.detail.length ≤ 8 →
    let t := s.finish (chanSlot c) r
    t.store.readBytes (responseBase (chanSlot c)) 384 = r.half (reqTag half) (reqKindCode half) ∧
    t.stateField (chanSlot c) = (if s.stateField (chanSlot c) = stateTaken then stateDone else s.stateField (chanSlot c)) ∧
    t.slot (chanSlot c) = { s.slot (chanSlot c) with latch := none } ∧ Counted s t c 1 0 0 ∧ (∀ d, t.chan d = s.chan d) ∧
    t.links = s.links ∧ t.pairs = s.pairs ∧ t.arb = s.arb ∧ DeviceKept s t ∧ NoticesKept s t c ∧
    (∀ m, m ≠ chanSlot c → t.slot m = s.slot m) ∧ StoreKept s t [slotArea (chanSlot c), noticeArea c]

/-- R179: in STARTING every post, and in READY every post whose code is 17 to 31 or 80 and above, counts as stray and does nothing
else; in READY the other codes are the posts of slots, the releases and the ABORT posts. That the row of a stray post acts as those rows for
their codes, every row of a post going through the one decode, is log 13 (DEDUCED). -/
def Obligations.PostCodesDecode : Prop :=
  (∀ (code : U32) (s : State), s.phase = .starting ∨ (17 ≤ code.toNat ∧ code.toNat < 32) ∨ 80 ≤ code.toNat →
    exec (.strayPost code) s = .next { s with strayPost := s.strayPost + 1 }) ∧
  (∀ (n : SlotIx) (s : State), exec (.strayPost (BitVec.ofNat 32 n.val)) s = exec (.slotPost n) s) ∧
  (∀ (c : Chan) (p : PoolId) (s : State),
    exec (.strayPost (BitVec.ofNat 32 (32 + 2 * c.val + Config.poolNo p))) s = exec (.poolRelease c p) s) ∧
  (∀ (c : Chan) (s : State), exec (.strayPost (BitVec.ofNat 32 (64 + c.val))) s = exec (.abort c) s) ∧
  (∀ (n : SlotIx) (s : State), s.phase = .starting → exec (.slotPost n) s = .next { s with strayPost := s.strayPost + 1 }) ∧
  (∀ (c : Chan) (p : PoolId) (s : State), s.phase = .starting →
    exec (.poolRelease c p) s = .next { s with strayPost := s.strayPost + 1 }) ∧
  ∀ (c : Chan) (s : State), s.phase = .starting → exec (.abort c) s = .next { s with strayPost := s.strayPost + 1 }

/-- Section 11.5: the 32 bytes of a one-slot record without kind-specific bits or flags: kind, upper nibble, channel, slot count, step
index, sequence number and plan time, then a body, and zeros. -/
def plainRecord (ch : Channel) (c : Chan) (kind upper : Nat) (seq : U32) (body : List Byte) : List Byte :=
  leBytes 1 (kind + 16 * upper) ++ leBytes 1 (c.val + 16) ++ leBytes 1 (ch.seqr.position % 64) ++ leBytes 1 0 ++ leBytes 4 seq.toNat ++
    leBytes 6 (min ch.planTime (2 ^ 48 - 1)) ++ body ++ List.replicate (18 - body.length) 0

/-- R153, R156, R157: in READY, the release of a pool that the host owns gives it to the part with its used slots, sequence numbers and
close reason cleared, WAITING beside a FILLING pool and FILLING otherwise; a held record is then written into it, under its own number,
after the GAP record of a pending loss under the next one, the latch becomes EMPTY, and LOG_FULL leaves the set of a channel in a plan
state, its RELEASE record following. The header counts what was written. The release of a pool of the part counts as a stray release and
does nothing else. -/
def Obligations.PoolReleaseReturnsThePool : Prop :=
  (∀ (c : Chan) (p : PoolId) (s : State), s.phase = .ready → ((s.chan c).log.pool p).owner = .part →
    exec (.poolRelease c p) s = .next { s with strayRelease := s.strayRelease + 1 }) ∧
  (∀ (c : Chan) (p : PoolId) (s : State), s.phase = .ready → ((s.chan c).log.pool p).owner = .host →
    (s.chan c).log.latch = none → ∃ t, exec (.poolRelease c p) s = .next t ∧
      let side : PartSide := if (s.chan c).log.filling.isSome then .waiting else .filling
      let h : PoolHeader := { (s.chan c).log.pool p with
        owner := .part, side := side, used := 0, firstSeq := 0, lastSeq := 0, reason := .none }
      t = { s.modChan c fun ch => { ch with log := ch.log.setPool p h } with store := t.store } ∧
      t.store.readBytes (Config.headerBase c p) 32 = h.bytes ∧ StoreKept s t [(Config.headerBase c p, 32)]) ∧
  ∀ (c : Chan) (p : PoolId) (s : State) (r : Record), s.phase = .ready → (s.chan c).log.Ok →
    ((s.chan c).log.pool p).owner = .host → (s.chan c).log.latch = some r → ∃ t, exec (.poolRelease c p) s = .next t ∧
      let ch := s.chan c
      let base := Config.poolBase c p
      let gap := if ch.log.pendingLoss.isSome then 1 else 0
      let leaves := ch.st.inPlan && ch.hold.logFull
      let second : U32 := ch.log.nextSeq + BitVec.ofNat 32 gap
      let h := (t.chan c).log.pool p
      t.store.readBytes (base + 32 * gap) (32 * r.slots) = r.bytes ∧
      (∀ first count, ch.log.pendingLoss = some (first, count) →
        t.store.readBytes base 32 = plainRecord ch c 5 0 ch.log.nextSeq (leBytes 4 first.toNat ++ leBytes 4 count.toNat)) ∧
      (leaves = true → t.store.readBytes (base + 32 * (gap + r.slots)) 32 = plainRecord ch c 3 4 second (leBytes 1 0)) ∧
      h.used = gap + r.slots + (if leaves then 1 else 0) ∧ h.firstSeq = (if gap = 1 then ch.log.nextSeq else r.seq) ∧
      h.lastSeq = (if leaves then second else r.seq) ∧ h.reason = .none ∧ h.gen = (ch.log.pool p).gen ∧
      t.store.readBytes (Config.headerBase c p) 32 = h.bytes ∧
      (t.chan c).log.nextSeq = second + (if leaves then 1 else 0) ∧
      (t.chan c).log.latch = none ∧ (t.chan c).log.filling = some p ∧ (t.chan c).log.pendingLoss = none ∧
      0 < h.used ∧ (ch.st.inPlan = true → (t.chan c).hold.logFull = false) ∧
      (t.chan c).hold.linkDown = ch.hold.linkDown ∧ Frame s t c (logAreas c) ∧
      t.link c = s.link c ∧ t.slot (chanSlot c) = s.slot (chanSlot c) ∧ t.pair (pairOf c) = s.pair (pairOf c)

/-- R49: what the end of a plan leaves of a channel: IDLE, no plan, the hold-cause set empty, the link-hold timer stopped and cleared,
no step entered, no contact check and no learning; everything that STATUS reports of the ended plan, the staged plan and the limits
stand. That the contact check's counts stand is log 22 (DEDUCED). -/
def PlanEnded (ch ch' : Channel) : Prop :=
  ∃ az log, az.phase = .idle ∧ ch' = { ch with
    st := .idle
    demand := if ch.st = .running then 0 else ch.demand
    chop := if ch.st = .running then none else ch.chop
    hold := ⟨false, false⟩
    linkHold := ⟨false, 0, false⟩
    stepEntered := false
    active := none
    seqr := { ch.seqr with loops := [] }
    contact := { ch.contact with inProgress := false }
    az := az
    log := log }

/-- R18, R128: an ABORT post in READY ends the plan of its channel, or of the leader for a FOLLOWER, and counts the change of state; a
channel that is in no plan state makes the post stray and nothing else. -/
def Obligations.AbortEndsThePlan : Prop :=
  (∀ (c : Chan) (s : State), s.phase = .ready →
    let d := if (s.chan c).st = .follower then leaderOf (pairOf c) else c
    (s.chan d).st.inPlan = true → (s.chan d).log.Ok → ∃ t, exec (.abort c) s = .next t ∧ PlanEnded (s.chan d) (t.chan d) ∧
      Counted s t d 0 1 0 ∧ t.arb.wanted[d] = (if (s.chan d).st = .running then ⟨.none, 0⟩ else s.arb.wanted[d]) ∧
      Frame s t d (logAreas d) ∧ t.links = s.links ∧ t.slots = s.slots ∧ t.pairs = s.pairs) ∧
  ∀ (c : Chan) (s : State), s.phase = .ready →
    let d := if (s.chan c).st = .follower then leaderOf (pairOf c) else c
    (s.chan d).st.inPlan = false → exec (.abort c) s = .next { s with strayPost := s.strayPost + 1 }

/-! ### Requests

Each request row is the host's exchange of section 10.4 (log 3): the request half written into the slot, and the slot posted. -/

/-- R128: the requests that a FOLLOWER's slot refuses with FOLLOWER, with their kind codes. -/
def followerRefuses (c : Chan) (tag : U32) (limits : LimitWords) (index quantity direction mode step : Byte) (threshold : U32) :
    List (Instr × Nat) :=
  [(.enable c tag, 1), (.disable c tag, 2), (.loadPlan c tag, 3), (.start c tag, 4), (.pause c tag, 5), (.resume c tag, 6),
    (.stop c tag, 7), (.faultAck c tag, 8), (.setLimits c tag limits, 9),
    (.setWatch c tag index quantity direction mode threshold, 11), (.clearWatch c tag index, 12), (.jump c tag step, 13),
    (.flush c tag, 14)]

/-- R128, R183: a FOLLOWER's slot answers every channel request but SET_CAL, STATUS and COUNTERS with FOLLOWER, and nothing else
changes. -/
def Obligations.FollowerSlotRefusesRequests : Prop :=
  ∀ (c : Chan) (tag : U32) (limits : LimitWords) (index quantity direction mode step : Byte) (threshold : U32) (s : State),
    SlotFree s (chanSlot c) → (s.chan c).st = .follower →
    ∀ q ∈ followerRefuses c tag limits index quantity direction mode step threshold,
      ∃ t, exec q.1 s = .next t ∧ OnlyAnswered s t c tag.toNat q.2 (.plain .follower)

/-- R3 to R5, R13 to R15, R17, R114, R48: requests in a state that does not accept them are answered with REFUSED_STATE, and nothing
else changes; SET_LIMITS is refused in DISABLED alone. START and RESUME in a state that accepts them are answered with the first refusal
that applies: STOP_ALL_ACTIVE, NO_PLAN, NO_LIMITS, NO_LINK, or STOP_ALL_ACTIVE, FAULT_NOT_ACKED. That JUMP is judged by the state before its step index,
so that an index which R48 refuses is REFUSED_STATE there too, is log 31 (DEDUCED). -/
def Obligations.RequestsAreRefusedByState : Prop :=
  ∀ (c : Chan) (tag : U32) (limits : LimitWords) (step : Byte) (s : State), SlotFree s (chanSlot c) → (s.chan c).st ≠ .follower →
    let answers := fun (i : Instr) (kind : Nat) (r : Result) =>
      ∃ t, exec i s = .next t ∧ OnlyAnswered s t c tag.toNat kind (.plain r)
    let refused := fun (i : Instr) (kind : Nat) => answers i kind .refusedState
    ((s.chan c).st ≠ .disabled → refused (.enable c tag) 1) ∧
    ((s.chan c).st.inPlan = true ∨ ((s.chan c).st = .idle ∧ s.leads c = true) → refused (.disable c tag) 2) ∧
    ((s.chan c).st ≠ .idle → refused (.start c tag) 4) ∧
    ((s.chan c).st ≠ .running → (s.chan c).st ≠ .held → refused (.pause c tag) 5) ∧
    ((s.chan c).st ≠ .paused → (s.chan c).st ≠ .tripped → refused (.resume c tag) 6) ∧
    ((s.chan c).st.inPlan = false → refused (.stop c tag) 7) ∧
    ((s.chan c).st ≠ .tripped → refused (.faultAck c tag) 8) ∧
    ((s.chan c).st = .disabled → refused (.setLimits c tag limits) 9) ∧
    ((s.chan c).st ≠ .running → (s.chan c).st ≠ .paused → refused (.jump c tag step) 13) ∧
    ((s.chan c).st = .idle → s.stopAll = true → answers (.start c tag) 4 .stopAllActive) ∧
    ((s.chan c).st = .idle → s.stopAll = false → (∀ p, (s.chan c).staged ≠ .valid p) → answers (.start c tag) 4 .noPlan) ∧
    (∀ p, (s.chan c).st = .idle → s.stopAll = false → (s.chan c).staged = .valid p → (s.chan c).limitsLoaded = false →
      answers (.start c tag) 4 .noLimits) ∧
    (∀ p, (s.chan c).st = .idle → s.stopAll = false → (s.chan c).staged = .valid p → (s.chan c).limitsLoaded = true →
      s.arb.linkSet = false → answers (.start c tag) 4 .noLink) ∧
    ((s.chan c).st = .paused ∨ (s.chan c).st = .tripped → s.stopAll = true → answers (.resume c tag) 6 .stopAllActive) ∧
    (∀ l, (s.chan c).st = .tripped → s.stopAll = false → (s.chan c).limits = some l → l.resumePolicy = .afterAck →
      (s.chan c).fault.acked = false → answers (.resume c tag) 6 .faultNotAcked)

/-- R3, R172: ENABLE in DISABLED stays in execution, TAKEN, and begins the bring-up: the link in BRING_UP with no PROBE sent and no
frame recorded, the silence count zero (R64). The channel stays DISABLED. -/
def Obligations.EnableBeginsTheBringUp : Prop :=
  ∀ (c : Chan) (tag : U32) (s : State), SlotFree s (chanSlot c) → (s.chan c).st = .disabled →
    ∃ t, exec (.enable c tag) s = .next t ∧ Executing t (chanSlot c) (requestHalf .enable tag []) ∧
      t.link c = { s.link c with state := .bringUp, bringUp := 0, frame := none, received := false } ∧
      t.chan c = { s.chan c with silence := 0, silenceReached := false } ∧ t.notices = s.notices ∧ t.arb = s.arb ∧
      t.pairs = s.pairs ∧ Frame s t c [slotArea (chanSlot c)]

/-- R4: DISABLE in IDLE, but for the leader of a GANGED pair, makes the channel DISABLED and its link SILENT and counts the change; in
DISABLED it changes nothing. Both complete with DONE; the staged plan, limits, calibration and watch points are kept. -/
def Obligations.DisableSilencesTheLink : Prop :=
  (∀ (c : Chan) (tag : U32) (s : State), SlotFree s (chanSlot c) → (s.chan c).st = .idle → s.leads c = false →
    ∃ t, exec (.disable c tag) s = .next t ∧ Answered t (chanSlot c) tag.toNat 2 (.plain .done) ∧ Counted s t c 1 1 0 ∧
      t.chan c = { s.chan c with st := .disabled, silence := 0, silenceReached := false } ∧
      t.link c = { s.link c with state := .silent } ∧ t.arb = s.arb ∧ t.pairs = s.pairs ∧
      Frame s t c [slotArea (chanSlot c), noticeArea c]) ∧
  ∀ (c : Chan) (tag : U32) (s : State), SlotFree s (chanSlot c) → (s.chan c).st = .disabled →
    ∃ t, exec (.disable c tag) s = .next t ∧ OnlyAnswered s t c tag.toNat 2 (.plain .done)

/-- R26: LOAD_PLAN discards what is staged, makes the slot LOADING and stays in execution; nothing of the active plan changes. -/
def Obligations.LoadPlanBeginsLoading : Prop :=
  ∀ (c : Chan) (tag : U32) (s : State), SlotFree s (chanSlot c) → (s.chan c).st ≠ .follower →
    ∃ t, exec (.loadPlan c tag) s = .next t ∧ Executing t (chanSlot c) (requestHalf .loadPlan tag []) ∧
      t.chan c = { s.chan c with staged := .loading, load := some ⟨none, [], false⟩ } ∧ t.notices = s.notices ∧ t.arb = s.arb ∧
      t.pairs = s.pairs ∧ t.link c = s.link c ∧ Frame s t c [slotArea (chanSlot c)]

/-- R29, R21: the end of a load, its reading made complete: without a fault the plan is staged, VALID, or discarded where the channel
became FOLLOWER meanwhile, and the request completes with DONE, the step count and the label; with one the slot is EMPTY and it
completes with BAD_PLAN, the reason and the step index. With no load in execution there is nothing to end. -/
def Obligations.LoadCompletionStagesOrReportsTheFault : Prop :=
  (∀ (c : Chan) (s : State) (ld : Load) (half : List Byte), (s.chan c).load = some ld →
    s.slot (chanSlot c) = ⟨some half, false⟩ → s.stateField (chanSlot c) = stateTaken →
    ∃ t, exec (.loadCompletion c) s = .next t ∧ Counted s t c 1 0 0 ∧ t.links = s.links ∧ t.pairs = s.pairs ∧ t.arb = s.arb ∧
      Frame s t c [slotArea (chanSlot c), noticeArea c] ∧
      match (Load.read s.store c 65 ld).finish with
      | .plan p =>
        t.chan c = { s.chan c with load := none, staged := if ld.discard then .empty else .valid p } ∧
        Answered t (chanSlot c) (reqTag half) (reqKindCode half)
          ⟨.done, leBytes 1 p.steps.length ++ [0, 0, 0] ++ leBytes 4 p.header.label.toNat, []⟩
      | .fault f ix =>
        t.chan c = { s.chan c with load := none, staged := .empty } ∧
        Answered t (chanSlot c) (reqTag half) (reqKindCode half) ⟨.badPlan, leBytes 1 f.code ++ leBytes 1 ix, []⟩) ∧
  ∀ (c : Chan) (s : State), (s.chan c).load = none → exec (.loadCompletion c) s = .next s

/-- R28: a copy, its conditions read by their count, in which the three passes find no fault has a plan: the step count is 1 to 64,
the plan has a step for each step read and the label of the header, and every step but a LOOP step has a condition and a log interval. -/
def Obligations.FaultlessCopyIsAPlan : Prop :=
  ∀ (h : RawHeader) (steps : List RawStep), (∀ st ∈ steps, st.conds.length = condsRead st.nConds) → planFault h steps = none →
    1 ≤ h.count ∧ h.count ≤ 64 ∧ ∃ p, rawPlan h steps = some p ∧ p.steps.length = steps.length ∧ p.header.label = h.label ∧
      ∀ (j : Nat) (st : Step), p.steps[j]? = some st → st.body.isLoop = false → 1 ≤ st.conds.length ∧ st.logInterval ≠ 0

/-- R5, R6: START with every condition met takes the staged plan: the channel is in CHECKING with the contact check begun, plan time,
cycle count and plan totals zero, position 0 with no step entered, every check WITHIN, and the hold causes that stand; the request
completes with DONE and one change of state is counted. -/
def Obligations.StartBeginsThePlan : Prop :=
  ∀ (c : Chan) (tag : U32) (s : State) (p : Plan), SlotFree s (chanSlot c) → (s.chan c).log.Ok → (s.chan c).st = .idle →
    s.stopAll = false → (s.chan c).staged = .valid p → (s.chan c).limitsLoaded = true → s.arb.linkSet = true →
    ∃ t, exec (.start c tag) s = .next t ∧ Answered t (chanSlot c) tag.toNat 4 (.plain .done) ∧ Counted s t c 1 1 0 ∧
      (t.chan c).hold.linkDown = !s.linkOk ∧ ((s.chan c).log.latch.isSome = true → (t.chan c).hold.logFull = true) ∧
      (t.chan c).linkHold = ⟨!s.linkOk, 0, false⟩ ∧
      (∃ log hold linkHold, t.chan c = { s.chan c with
        st := .checking
        active := some p
        staged := .empty
        demand := 0
        planTime := 0
        planSet := .zero
        stepEntered := false
        seqr := { (s.chan c).seqr with position := 0, loops := [], cycle := 0, retRef := none }
        hold := hold
        linkHold := linkHold
        checks := ⟨false, false, false, false, false⟩
        hits := 0
        window := 0
        chop := none
        contact := ⟨true, 0, 0⟩
        reg := { (s.chan c).reg with integ := 0, level := 5, climb := false, restartMark := false }
        watches := (s.chan c).watches.map fun w => { w with prev := none }
        log := log }) ∧
      t.pair (pairOf c) = (if s.leads c then { s.pair (pairOf c) with mismatch := 0 } else s.pair (pairOf c)) ∧
      t.link c = s.link c ∧ t.arb = s.arb ∧ Frame s t c (slotArea (chanSlot c) :: logAreas c)

/-- R13, R11: PAUSE in RUNNING or HELD makes the channel PAUSED and completes with DONE; from RUNNING the demand becomes 0, a chop is
ended and the Arbiter is told that nothing is wanted; the hold causes and the link-hold timer run on. -/
def Obligations.PauseStopsTheDrive : Prop :=
  ∀ (c : Chan) (tag : U32) (s : State), SlotFree s (chanSlot c) → (s.chan c).log.Ok →
    (s.chan c).st = .running ∨ (s.chan c).st = .held →
    ∃ t, exec (.pause c tag) s = .next t ∧ Answered t (chanSlot c) tag.toNat 5 (.plain .done) ∧ Counted s t c 1 1 0 ∧
      (t.chan c).hold.linkDown = (s.chan c).hold.linkDown ∧ ((s.chan c).hold.logFull = true → (t.chan c).hold.logFull = true) ∧
      (∃ az log hold, t.chan c = { s.chan c with
        st := .paused
        demand := if (s.chan c).st = .running then 0 else (s.chan c).demand
        chop := if (s.chan c).st = .running then none else (s.chan c).chop
        az := az
        log := log
        hold := hold }) ∧
      t.arb.wanted[c] = (if (s.chan c).st = .running then ⟨.none, 0⟩ else s.arb.wanted[c]) ∧
      t.link c = s.link c ∧ t.pairs = s.pairs ∧ Frame s t c (slotArea (chanSlot c) :: logAreas c)

/-- R14, R12: RESUME in PAUSED with STOP_ALL released leads to RUNNING if no hold cause stands, and to HELD otherwise; in RUNNING an
interrupted step goes on with a regulator restart and its qualify counters zero, and a step not yet entered is entered at the
position. -/
def Obligations.ResumeContinuesAPausedChannel : Prop :=
  ∀ (c : Chan) (tag : U32) (s : State) (st : Step), SlotFree s (chanSlot c) → (s.chan c).log.Ok → (s.chan c).st = .paused →
    s.stopAll = false → (s.chan c).curStep = some st →
    ∃ t, exec (.resume c tag) s = .next t ∧ Answered t (chanSlot c) tag.toNat 6 (.plain .done) ∧ Counted s t c 1 1 0 ∧
      (t.chan c).st = (if (t.chan c).hold.isEmpty then .running else .held) ∧
      (t.chan c).hold.linkDown = (s.chan c).hold.linkDown ∧ ((s.chan c).hold.logFull = true → (t.chan c).hold.logFull = true) ∧
      ((t.chan c).st = .running → (s.chan c).stepEntered = true → (t.chan c).reg.integ = 0 ∧
        (t.chan c).seqr = { (s.chan c).seqr with qualify := [0, 0, 0, 0] } ∧ (t.chan c).stepSet = (s.chan c).stepSet) ∧
      ((t.chan c).st = .running → (s.chan c).stepEntered = false → (t.chan c).stepEntered = true ∧
        (t.chan c).seqr.position = (s.chan c).seqr.position ∧ (t.chan c).seqr.stepTime = 0 ∧ (t.chan c).stepSet = .zero) ∧
      ((t.chan c).st = .held → (t.chan c).seqr = (s.chan c).seqr ∧ (t.chan c).reg = (s.chan c).reg) ∧
      (∃ hold stepEntered seqr stepSet reg blanking az log, t.chan c = { s.chan c with
        st := (t.chan c).st
        hold := hold
        stepEntered := stepEntered
        seqr := seqr
        stepSet := stepSet
        reg := reg
        blanking := blanking
        az := az
        log := log }) ∧
      t.link c = s.link c ∧ t.pairs = s.pairs ∧ Frame s t c (slotArea (chanSlot c) :: logAreas c)

/-- R15, R106, R115: RESUME in TRIPPED, STOP_ALL released and no acknowledgement missing, leads to CHECKING with the contact check
begun; the link-hold timer starts from zero where LINK_DOWN stands, the fault record is kept. -/
def Obligations.ResumeRechecksATrippedChannel : Prop :=
  ∀ (c : Chan) (tag : U32) (s : State), SlotFree s (chanSlot c) → (s.chan c).log.Ok → (s.chan c).st = .tripped →
    s.stopAll = false → (∀ l, (s.chan c).limits = some l → l.resumePolicy = .afterAck → (s.chan c).fault.acked = true) →
    ∃ t, exec (.resume c tag) s = .next t ∧ Answered t (chanSlot c) tag.toNat 6 (.plain .done) ∧ Counted s t c 1 1 0 ∧
      (t.chan c).hold.linkDown = (s.chan c).hold.linkDown ∧ ((s.chan c).hold.logFull = true → (t.chan c).hold.logFull = true) ∧
      (∃ log hold, t.chan c = { s.chan c with
        st := .checking
        contact := ⟨true, 0, 0⟩
        linkHold := ⟨(s.chan c).hold.linkDown, 0, false⟩
        log := log
        hold := hold }) ∧
      t.arb = s.arb ∧ t.link c = s.link c ∧ t.pairs = s.pairs ∧ Frame s t c (slotArea (chanSlot c) :: logAreas c)

/-- R17, R49: STOP in a plan state ends the plan and completes with DONE; the staged plan, a load, plan time and the plan totals are
kept. -/
def Obligations.StopEndsThePlan : Prop :=
  ∀ (c : Chan) (tag : U32) (s : State), SlotFree s (chanSlot c) → (s.chan c).log.Ok → (s.chan c).st.inPlan = true →
    ∃ t, exec (.stop c tag) s = .next t ∧ Answered t (chanSlot c) tag.toNat 7 (.plain .done) ∧ Counted s t c 1 1 0 ∧
      PlanEnded (s.chan c) (t.chan c) ∧
      t.arb.wanted[c] = (if (s.chan c).st = .running then ⟨.none, 0⟩ else s.arb.wanted[c]) ∧
      t.link c = s.link c ∧ t.pairs = s.pairs ∧ Frame s t c (slotArea (chanSlot c) :: logAreas c)

/-- R114: FAULT_ACK in TRIPPED sets ACKED and completes with DONE and the fault record; nothing else of the channel changes. -/
def Obligations.FaultAckMarksTheRecord : Prop :=
  ∀ (c : Chan) (tag : U32) (s : State), SlotFree s (chanSlot c) → (s.chan c).st = .tripped →
    ∃ t, exec (.faultAck c tag) s = .next t ∧
      t.chan c = { s.chan c with fault := { (s.chan c).fault with acked := true } } ∧
      Answered t (chanSlot c) tag.toNat 8 ⟨.done, [], payload { (s.chan c).fault with acked := true }.items⟩ ∧
      Counted s t c 1 0 0 ∧ t.arb = s.arb ∧ t.link c = s.link c ∧ t.pairs = s.pairs ∧
      Frame s t c [slotArea (chanSlot c), noticeArea c]

/-- The parameters of SET_LIMITS as signed numbers, in the order of the table of section 5.1. -/
def limitValues (w : LimitWords) : List Int :=
  [w.vMax.toInt, w.vMin.toInt, w.iMax.toInt, w.iSoft.toInt, w.chopOff.toInt, w.softWindow.toInt, w.softMax.toInt,
    w.blankTime.toInt, w.tMax.toInt, w.tStart.toInt, w.slope.toInt, w.iFloor.toInt, w.iRunMax.toInt, w.vCmin.toInt,
    w.vCmax.toInt, w.filterTime.toInt, w.silenceLimit.toInt, w.linkHoldMax.toInt, w.resumePolicy.toInt, w.priority.toInt,
    w.pairTol.toInt]

/-- R96, R97: SET_LIMITS outside DISABLED and FOLLOWER: a set in which both passes find no fault replaces the limit set whole and
completes with DONE and the set; the first fault found completes it with BAD_VALUE naming the field, and nothing else changes. -/
def Obligations.SetLimitsReplacesTheSetWhole : Prop :=
  ∀ (c : Chan) (tag : U32) (w : LimitWords) (s : State), SlotFree s (chanSlot c) → (s.chan c).st ≠ .disabled →
    (s.chan c).st ≠ .follower →
    let f := fun n => (limitValues w).getD n 0
    (limitFault f = none → ∃ t, exec (.setLimits c tag w) s = .next t ∧
      t.chan c = { s.chan c with limits := some (limitSetOf f), limitsLoaded := true } ∧ (limitSetOf f).Ok ∧
      Answered t (chanSlot c) tag.toNat 9 ⟨.done, [], payload (limitSetOf f).items⟩ ∧ Counted s t c 1 0 0 ∧ t.arb = s.arb ∧
      t.link c = s.link c ∧ t.pairs = s.pairs ∧ Frame s t c [slotArea (chanSlot c), noticeArea c]) ∧
    ∀ n, limitFault f = some n → ∃ t, exec (.setLimits c tag w) s = .next t ∧
      OnlyAnswered s t c tag.toNat 9 ⟨.badValue, leBytes 2 (0x10 + 4 * n), []⟩

/-- R57, R58: SET_CAL in any state: accepted, the named record is replaced, learning by R58, and its record answered; a field out of
its range completes it with BAD_VALUE naming the field, and nothing else changes. -/
def Obligations.SetCalReplacesTheRecord : Prop :=
  ∀ (c : Chan) (tag : U32) (record mode learnRequest : Byte) (offset gain learnLimit : U32) (s : State),
    SlotFree s (chanSlot c) →
    let p : CalParams := ⟨record.toNat, mode.toNat, learnRequest != 0, offset.toInt, gain.toInt, learnLimit.toInt⟩
    (p.fault = none → ∃ t, exec (.setCal c tag record mode learnRequest offset gain learnLimit) s = .next t ∧
      t.chan c = { s.chan c with
        cal := (s.chan c).cal.set p
        az := if calRange p.record = some (s.chan (s.conductor c)).range then (s.chan c).az.discard else (s.chan c).az } ∧
      Answered t (chanSlot c) tag.toNat 10 ⟨.done, [], payload (((s.chan c).cal.set p).recordItems p.record)⟩ ∧
      Counted s t c 1 0 0 ∧ t.arb = s.arb ∧ t.link c = s.link c ∧ t.pairs = s.pairs ∧
      Frame s t c [slotArea (chanSlot c), noticeArea c]) ∧
    ∀ o, p.fault = some o → ∃ t, exec (.setCal c tag record mode learnRequest offset gain learnLimit) s = .next t ∧
      OnlyAnswered s t c tag.toNat 10 ⟨.badValue, leBytes 2 o, []⟩

/-- R160, R162: SET_WATCH with valid parameters configures watch point n afresh: no previous value, not latched, hit count 0;
CLEAR_WATCH re-arms it. Both complete with DONE and change no other watch point; an index above 2 is BAD_VALUE. -/
def Obligations.WatchPointsAreSetAndRearmed : Prop :=
  ∀ (c : Chan) (tag : U32) (s : State), SlotFree s (chanSlot c) → (s.chan c).st ≠ .follower →
    let answered := fun (t : State) (kind : Nat) => Answered t (chanSlot c) tag.toNat kind (.plain .done) ∧ Counted s t c 1 0 0 ∧
      t.arb = s.arb ∧ t.link c = s.link c ∧ t.pairs = s.pairs ∧ Frame s t c [slotArea (chanSlot c), noticeArea c]
    (∀ (index quantity direction mode : Byte) (threshold : U32) (n : Fin 3) (q : WatchQuantity) (d : WatchDir) (m : WatchMode),
      index.toNat = n.val → WatchQuantity.ofCode quantity.toNat = some q → WatchDir.ofCode direction.toNat = some d →
      WatchMode.ofCode mode.toNat = some m →
      ∃ t, exec (.setWatch c tag index quantity direction mode threshold) s = .next t ∧ answered t 11 ∧
        t.chan c = { s.chan c with watches := (s.chan c).watches.set n ⟨q, d, m, threshold.toInt, none, false, 0⟩ }) ∧
    (∀ (index : Byte) (n : Fin 3), index.toNat = n.val → ∃ t, exec (.clearWatch c tag index) s = .next t ∧ answered t 12 ∧
      t.chan c = { s.chan c with
        watches := (s.chan c).watches.set n { (s.chan c).watches[n] with latched := false } }) ∧
    ∀ (index quantity direction mode : Byte) (threshold : U32), 2 < index.toNat →
      (∃ t, exec (.setWatch c tag index quantity direction mode threshold) s = .next t ∧
        OnlyAnswered s t c tag.toNat 11 ⟨.badValue, leBytes 2 0x10, []⟩) ∧
      ∃ t, exec (.clearWatch c tag index) s = .next t ∧ OnlyAnswered s t c tag.toNat 12 ⟨.badValue, leBytes 2 0x10, []⟩

/-- R48: JUMP in RUNNING or PAUSED to a step that is no LOOP step enters it at once with the loop stack pruned and the demand 0, and
completes with DONE; the state stands, but that a record made on the way may have held a RUNNING channel (R155). A target that is no
such step is BAD_VALUE. -/
def Obligations.JumpEntersTheNamedStep : Prop :=
  (∀ (c : Chan) (tag : U32) (step : Byte) (s : State) (p : Plan) (st : Step), SlotFree s (chanSlot c) → (s.chan c).log.Ok →
    (s.chan c).st = .running ∨ (s.chan c).st = .paused → (s.chan c).active = some p → p.steps[step.toNat]? = some st →
    st.body.isLoop = false →
    ∃ t, exec (.jump c tag step) s = .next t ∧ Answered t (chanSlot c) tag.toNat 13 (.plain .done) ∧
      ((t.chan c).st = (s.chan c).st ∨ ((s.chan c).st = .running ∧ (t.chan c).st = .held ∧ (t.chan c).hold.logFull = true)) ∧
      Counted s t c 1 (if (t.chan c).st = (s.chan c).st then 0 else 1) 0 ∧
      (t.chan c).stepEntered = true ∧ (t.chan c).demand = 0 ∧ (t.chan c).seqr.position = step.toNat ∧
      (t.chan c).seqr.loops = p.prune step.toNat (s.chan c).seqr.loops ∧ (t.chan c).seqr.stepTime = 0 ∧
      (t.chan c).seqr.qualify = [0, 0, 0, 0] ∧ (t.chan c).seqr.retRef = (s.chan c).seqr.retRef ∧
      (t.chan c).stepSet = .zero ∧ (t.chan c).reg.cvPhase = false ∧
      (∃ hold stepEntered seqr stepSet reg blanking chop az log, t.chan c = { s.chan c with
        st := (t.chan c).st
        demand := 0
        hold := hold
        stepEntered := stepEntered
        seqr := seqr
        stepSet := stepSet
        reg := reg
        blanking := blanking
        chop := chop
        az := az
        log := log }) ∧
      t.link c = s.link c ∧ t.pairs = s.pairs ∧ Frame s t c (slotArea (chanSlot c) :: logAreas c)) ∧
  ∀ (c : Chan) (tag : U32) (step : Byte) (s : State), SlotFree s (chanSlot c) →
    (s.chan c).st = .running ∨ (s.chan c).st = .paused → (s.chan c).jumpOk step.toNat = false →
    ∃ t, exec (.jump c tag step) s = .next t ∧ OnlyAnswered s t c tag.toNat 13 ⟨.badValue, leBytes 2 0x10, []⟩

/-- R158: FLUSH hands over a FILLING pool that holds a record and names it and its generation; with an empty FILLING pool, or none, it
says so and nothing else changes. All complete with DONE. -/
def Obligations.FlushHandsOverTheFillingPool : Prop :=
  ∀ (c : Chan) (tag : U32) (s : State), SlotFree s (chanSlot c) → (s.chan c).st ≠ .follower →
    (∀ p, (s.chan c).log.filling = some p → 0 < ((s.chan c).log.pool p).used → ∃ t, exec (.flush c tag) s = .next t ∧
      let l := (s.chan c).log
      let h := { l.pool p with owner := .host, reason := .flush, gen := (l.pool p).gen + 1 }
      let l1 := l.setPool p h
      let q := otherPool p
      t.chan c = { s.chan c with
        log := if (l.pool q).owner = .part then l1.setPool q { l.pool q with side := .filling } else l1 } ∧
      Answered t (chanSlot c) tag.toNat 14 ⟨.done, [0] ++ leBytes 1 (Config.poolNo p) ++ [0, 0] ++ leBytes 4 h.gen.toNat, []⟩ ∧
      (t.notices.chan[c]).handovers = (s.notices.chan[c]).handovers + 1 ∧ Counted s t c 1 0 0 ∧
      t.store.readBytes (Config.headerBase c p) 32 = h.bytes ∧ t.arb = s.arb ∧ t.link c = s.link c ∧ t.pairs = s.pairs ∧
      Frame s t c [slotArea (chanSlot c), noticeArea c, (Config.headerBase c .a, 64)]) ∧
    (∀ p, (s.chan c).log.filling = some p → ((s.chan c).log.pool p).used = 0 → ∃ t, exec (.flush c tag) s = .next t ∧
      OnlyAnswered s t c tag.toNat 14 ⟨.done, [1], []⟩) ∧
    ((s.chan c).log.filling = none → ∃ t, exec (.flush c tag) s = .next t ∧
      OnlyAnswered s t c tag.toNat 14 ⟨.done, [2], []⟩)

/-- R184, R185, R191: STATUS and COUNTERS, in every channel state, complete with DONE and what they report; only COUNTERS with its
CLEAR flag changes anything else, and it sets the counters it reports to zero. -/
def Obligations.StatusAndCountersReport : Prop :=
  ∀ (c : Chan) (tag : U32) (s : State), SlotFree s (chanSlot c) →
    (∀ sect : Byte, ∃ t, exec (.status c tag sect) s = .next t ∧
      OnlyAnswered s t c tag.toNat 15 ⟨.done, [], s.snapshot c sect.toNat⟩) ∧
    (∃ t, exec (.counters c tag 0) s = .next t ∧ OnlyAnswered s t c tag.toNat 16 ⟨.done, [], payload (s.counterItems c)⟩) ∧
    ∀ clear : Byte, clear ≠ 0 → ∃ t, exec (.counters c tag clear) s = .next t ∧
      Answered t (chanSlot c) tag.toNat 16 ⟨.done, [], payload (s.counterItems c)⟩ ∧ Counted s t c 1 0 0 ∧
      t.chan c = (s.chan c).clearCounters ∧
      t.link c = { s.link c with
        unsolicited := 0, parity := 0, kind := 0, index := 0, duplicate := 0, sent := 0, clamped := 0 } ∧
      t.pair (pairOf c) = (if isEven c then { s.pair (pairOf c) with missedCtr := 0 } else s.pair (pairOf c)) ∧
      t.arb = s.arb ∧ Frame s t c [slotArea (chanSlot c), noticeArea c]

/-! ### Device requests -/

/-- R133: SET_LINK within the ranges replaces the settings, sets the link-set record, starts the interval again from 0, evaluates and
completes with DONE, the settings and the summary; the first field out of its range completes it with BAD_VALUE and nothing else
changes. -/
def Obligations.SetLinkReplacesTheSettings : Prop :=
  ∀ (tag imp exp int : U32) (s : State), SlotFree s deviceSlot →
    let l : LinkSettings := ⟨imp.toNat, exp.toNat, int.toNat⟩
    (l.importLimit ≤ 2000000 → l.exportLimit ≤ 2000000 → 10 ≤ l.interval → l.interval ≤ 1000 →
      ∃ t, exec (.setLink tag imp exp int) s = .next t ∧
        t.arb = Arbiter.evaluate { s.arb with settings := some l, linkSet := true, timer := some 0 } s.prio l ∧
        Answered t deviceSlot tag.toNat 32 ⟨.done, [], payload (l.items ++ t.arb.summary.items)⟩ ∧ DeviceCounted s t 1 0 0 ∧
        t.chans = s.chans ∧ t.links = s.links ∧ t.pairs = s.pairs ∧ DeviceKept s t ∧ DeviceNoticesKept s t ∧
        (∀ n, n ≠ deviceSlot → t.slot n = s.slot n) ∧ StoreKept s t [slotArea deviceSlot, devNoticeArea]) ∧
    let bad := fun (o : Nat) => ∃ t, exec (.setLink tag imp exp int) s = .next t ∧
      OnlyDeviceAnswered s t tag.toNat 32 ⟨.badValue, leBytes 2 o, []⟩
    (2000000 < l.importLimit → bad 0x10) ∧ (l.importLimit ≤ 2000000 → 2000000 < l.exportLimit → bad 0x14) ∧
      (l.importLimit ≤ 2000000 → l.exportLimit ≤ 2000000 → l.interval < 10 ∨ 1000 < l.interval → bad 0x18)

/-- R120, R121: SET_PAIR ON of two IDLE channels gangs them: the odd one becomes FOLLOWER with nothing staged, the assembly empty, the
mismatch count and the leader's silence count zero, the held pair quantities formed. SET_PAIR OFF of a GANGED pair whose leader is IDLE
separates them. Each counts the follower's change of state and completes with DONE. -/
def Obligations.SetPairGangsAndSeparates : Prop :=
  ∀ (tag : U32) (pair : Byte) (k : PairIx) (s : State), SlotFree s deviceSlot → pair.toNat = k.val →
    let l := leaderOf k
    let f := followerOf k
    let elsewhere := fun (t : State) =>
      Answered t deviceSlot tag.toNat 33 ⟨.done, leBytes 1 l.val ++ leBytes 1 f.val, []⟩ ∧
      t.notices.dev = { s.notices.dev with responses := s.notices.dev.responses + 1 } ∧
      t.notices.chan[f] = { s.notices.chan[f] with stateChanges := (s.notices.chan[f]).stateChanges + 1 } ∧
      (∀ d : Chan, d ≠ f → t.notices.chan[d] = s.notices.chan[d]) ∧ (∀ d, d ≠ l → d ≠ f → t.chan d = s.chan d) ∧
      t.chan l = { s.chan l with silence := 0, silenceReached := false } ∧ (∀ j, j ≠ k → t.pair j = s.pair j) ∧
      t.links = s.links ∧ DeviceKept s t ∧ (∀ n, n ≠ deviceSlot → t.slot n = s.slot n) ∧
      StoreKept s t [slotArea deviceSlot, devNoticeArea, noticeArea f]
    ((s.chan l).st = .idle → (s.chan f).st = .idle → ∃ t, exec (.setPair tag pair 1) s = .next t ∧ elsewhere t ∧
      t.chan f = { s.chan f with
        st := .follower
        staged := .empty
        load := (s.chan f).load.map fun ld => { ld with discard := true } } ∧
      t.pair k = { s.pair k with
        ganged := true
        assembly := none
        mismatch := 0
        held := ⟨(s.chan l).held.v, (s.chan l).held.i + (s.chan f).held.i, max (s.chan l).held.t (s.chan f).held.t,
          (t.pair k).held.clamp⟩ } ∧
      t.arb.wanted[f] = ⟨.none, 0⟩ ∧ ArbiterKept s t f) ∧
    ((s.chan l).st = .idle → (s.pair k).ganged = true → (s.chan f).st = .follower →
      ∃ t, exec (.setPair tag pair 0) s = .next t ∧ elsewhere t ∧ t.chan f = { s.chan f with st := .idle } ∧
        t.pair k = { s.pair k with ganged := false, assembly := none, mismatch := 0 } ∧ t.arb = s.arb)

/-- R120, R121: SET_PAIR with a pair above 7 or a setting that is neither ON nor OFF is BAD_VALUE; ON with a channel of the pair not
IDLE, or OFF with its leader not IDLE, is REFUSED_STATE; OFF of a SEPARATE pair whose leader is IDLE completes with DONE. Nothing else
changes. -/
def Obligations.SetPairRefusals : Prop :=
  ∀ (tag : U32) (pair setting : Byte) (s : State), SlotFree s deviceSlot →
    let answers := fun (r : Reply) => ∃ t, exec (.setPair tag pair setting) s = .next t ∧ OnlyDeviceAnswered s t tag.toNat 33 r
    (7 < pair.toNat → answers ⟨.badValue, leBytes 2 0x10, []⟩) ∧
    ∀ k : PairIx, pair.toNat = k.val →
      (1 < setting.toNat → answers ⟨.badValue, leBytes 2 0x11, []⟩) ∧
      (setting = 1 → (s.chan (leaderOf k)).st ≠ .idle ∨ (s.chan (followerOf k)).st ≠ .idle → answers (.plain .refusedState)) ∧
      (setting = 0 → (s.chan (leaderOf k)).st ≠ .idle → answers (.plain .refusedState)) ∧
      (setting = 0 → (s.chan (leaderOf k)).st = .idle → (s.pair k).ganged = false →
        answers ⟨.done, leBytes 1 (leaderOf k).val ++ leBytes 1 (followerOf k).val, []⟩)

/-- R185, R143: DEVICE_COUNTERS completes with DONE and the device status, settings and counters; with its CLEAR flag the stray,
attention and Arbiter counters become zero. The response's own count comes after the clear: where it raises the device's ATTENTION bit
with ATTN_ENABLE set, one message is sent if the pace timer is STOPPED, and one deferred if it is RUNNING with none owed (R188). -/
def Obligations.DeviceCountersReport : Prop :=
  (∀ (tag : U32) (s : State), SlotFree s deviceSlot → ∃ t, exec (.deviceCounters tag 0) s = .next t ∧
    OnlyDeviceAnswered s t tag.toNat 34 ⟨.done, [], payload s.deviceItems⟩) ∧
  ∀ (tag : U32) (clear : Byte) (s : State), SlotFree s deviceSlot → clear ≠ 0 →
    ∃ t, exec (.deviceCounters tag clear) s = .next t ∧
      Answered t deviceSlot tag.toNat 34 ⟨.done, [], payload s.deviceItems⟩ ∧ DeviceCounted s t 1 0 0 ∧
      t.strayPost = 0 ∧ t.strayRelease = 0 ∧
      t.arb = { s.arb with evals := 0, importCuts := 0, exportCuts := 0, linkDowns := 0 } ∧
      let rise := s.notices.attnEnable && !s.notices.attention.getLsbD 16
      t.notices.sent = (if rise && s.notices.pace.isNone then 1 else 0) ∧
      t.notices.deferred = (if rise && s.notices.pace.isSome && !s.notices.owed then 1 else 0) ∧
      DeviceKept { s with strayPost := 0, strayRelease := 0 } t ∧ DeviceNoticesKept s t ∧ t.chans = s.chans ∧ t.links = s.links ∧
      t.pairs = s.pairs ∧ (∀ n, n ≠ deviceSlot → t.slot n = s.slot n) ∧ StoreKept s t [slotArea deviceSlot, devNoticeArea]

/-! ### The sample timer and the links -/

/-- R164, R166, R170, R172: an expiry of the running sample timer advances the index and begins a period: a DEMAND frame on each link
in service, a PROBE on each link in bring-up below its limit, none on a silent one; each channel in service whose period closes
unanswered has a missed report counted; and a channel with nothing due and nothing missed only counts its plan time (R22) and its
link-hold timer (R10), whose expiry is due at the link hold maximum in ms (log 8, DESIGN CHOICE). A stopped timer does not expire. The
orders inside an expiry are operands (log 7).

R63 to R65, R67, R112: a missed sample of a SEPARATE channel advances its silence count and its counter; taken in RUNNING it is added with
the held values; at the silence limit it trips with STAGE_SILENT, the record with the held values, or in TRIPPED is a later fault, once in
a run of silence (the marker of that run is the model's, log 17). That record's plan time is the one before the expiry's own count (log 14,
DEDUCED; the worked case of section 5.10.3 has it so). R137: the interval timer counts the expiry, from 0 again where its own
was due (log 8). -/
def Obligations.SampleTimerExpiryBeginsAPeriod : Prop :=
  (∀ (sched : Schedule) (s : State), s.timerRunning = false → exec (.sampleTimerExpiry sched) s = .next s) ∧
  ∀ (sched : Schedule) (s : State), s.timerRunning = true → ∃ t, exec (.sampleTimerExpiry sched) s = .next t ∧
    t.sampleIndex = s.sampleIndex + 1 ∧ t.phase = s.phase ∧ t.stopAll = s.stopAll ∧ t.linkOk = s.linkOk ∧
    t.timerRunning = true ∧
    (∀ c, (s.link c).state = .inService → ∃ f n, f.index = s.sampleIndex + 1 ∧ f.kind = .demand ∧
      t.link c = { s.link c with
        frame := some f, received := false, sent := (s.link c).sent + 1, clamped := n, wire := some f.encode }) ∧
    (∀ c, (s.link c).state = .bringUp → (s.link c).bringUp < 100 →
      let f : FrameRecord := ⟨s.sampleIndex + 1, .probe, false, 0, 0⟩
      t.link c = { s.link c with
        frame := some f
        received := false
        sent := (s.link c).sent + 1
        bringUp := (s.link c).bringUp + 1
        wire := some f.encode }) ∧
    (∀ c, (s.link c).state = .silent → t.link c = s.link c) ∧
    (s.arb.timer = none → t.arb.timer = none) ∧
    (∀ l k, s.arb.settings = some l → s.arb.timer = some k → t.arb.timer = some (if l.interval ≤ k then 1 else k + 1)) ∧
    (∀ c, (s.link c).misses = true → (t.chan c).missedCtr = (s.chan c).missedCtr + 1) ∧
    (∀ c, (s.link c).misses = true → (s.pair (pairOf c)).ganged = false → (s.chan c).linkHold.due = false →
      let ch := s.chan c
      let ch' := t.chan c
      let n := min (ch.silence + 1) 65535
      let faults := fun (t : State) => (t.notices.chan[c]).faults
      ch'.silence = n ∧ ch'.held = ch.held ∧
      ch'.planSet = (if ch.st = .running then ch.planSet.add ch.held.v ch.held.i else ch.planSet) ∧
      ch'.lifeSet = (if ch.st = .running then ch.lifeSet.add ch.held.v ch.held.i else ch.lifeSet) ∧
      ∀ l, ch.limits = some l →
        (l.silenceLimit ≤ n → ch.st.tripable = true →
          ch'.st = .tripped ∧ ch'.demand = (if ch.st = .running then 0 else ch.demand) ∧
          ch'.fault = ⟨some .stageSilent, [], ch.planTime, ch.seqr.position, ch.stepEntered, ch.seqr.cycle, ch.held.v, ch.held.i,
            ch.held.t, false, 0, none⟩ ∧
          ch'.tripCtr = ch.tripCtr + 1 ∧ faults t = faults s + 1) ∧
        (l.silenceLimit ≤ n → ch.st = .tripped → ch.silenceReached = false →
          ch'.st = .tripped ∧ faults t = faults s + 1 ∧ ch'.fault = { ch.fault with
            laterCount := min (ch.fault.laterCount + 1) 65535, lastLater := some .stageSilent, acked := false }) ∧
        (ch.st = .tripped → n < l.silenceLimit ∨ ch.silenceReached = true →
          ch'.st = .tripped ∧ faults t = faults s ∧ ch'.fault = ch.fault)) ∧
    ∀ c, (s.link c).misses = false → (s.link c).atLimit = false → (s.pair (pairOf c)).ganged = false →
      (s.chan c).linkHold.due = false → t.chan c = { s.chan c with
        planTime := if (s.chan c).st.inPlan then min ((s.chan c).planTime + 1) (2 ^ 48 - 1) else (s.chan c).planTime
        linkHold :=
          let k := (s.chan c).linkHold
          if k.running then ⟨true, k.count + 1, match (s.chan c).limits with
            | some l => decide (l.linkHoldMax * 1000 ≤ k.count + 1)
            | none => false⟩
          else k }

/-- R173, R172: a bring-up whose 100 PROBE frames are sent ends SILENT, its ENABLE answered NO_STAGE, the channel DISABLED; below that
BRING_UP_LIMIT has no effect (log 11). A valid response carrying READY completes a bring-up: IN_SERVICE, the channel IDLE with the
response's corrected values held and its silence count zero, the ENABLE answered DONE; one without READY only counts as received. -/
def Obligations.BringUpEndsInServiceOrSilent : Prop :=
  (∀ (c : Chan) (s : State) (half : List Byte), (s.link c).state = .bringUp → 100 ≤ (s.link c).bringUp →
    s.slot (chanSlot c) = ⟨some half, false⟩ → s.stateField (chanSlot c) = stateTaken →
    ∃ t, exec (.bringUpLimit c) s = .next t ∧ t.link c = { s.link c with state := .silent } ∧ t.chan c = s.chan c ∧
      Answered t (chanSlot c) (reqTag half) (reqKindCode half) (.plain .noStage) ∧ Counted s t c 1 0 0 ∧ t.arb = s.arb ∧
      t.pairs = s.pairs ∧ Frame s t c [slotArea (chanSlot c), noticeArea c]) ∧
  (∀ (c : Chan) (s : State), (s.link c).state ≠ .bringUp ∨ (s.link c).bringUp < 100 → exec (.bringUpLimit c) s = .next s) ∧
  (∀ (c : Chan) (frame : BitVec 96) (late : Bool) (s : State), (s.link c).state = .bringUp → (s.link c).examine frame = none →
    frame.getLsbD 72 = false →
    exec (.responseFrame c frame late) s = .next (s.modLink c fun l => { l with received := true })) ∧
  ∀ (c : Chan) (frame : BitVec 96) (late : Bool) (s : State) (half : List Byte), (s.link c).state = .bringUp →
    (s.link c).examine frame = none → frame.getLsbD 72 = true → (s.chan c).st = .disabled →
    s.slot (chanSlot c) = ⟨some half, false⟩ → s.stateField (chanSlot c) = stateTaken →
    ∃ t f, (s.link c).frame = some f ∧ exec (.responseFrame c frame late) s = .next t ∧
      t.link c = { s.link c with state := .inService, received := true } ∧
      Answered t (chanSlot c) (reqTag half) (reqKindCode half) (.plain .done) ∧ Counted s t c 1 1 0 ∧
      (t.chan c).st = .idle ∧ (t.chan c).held = (s.chan c).cal.correct (Response.ofFrame frame) f.range ∧
      (∃ clampCtr faultCtr hotCtr hot, t.chan c = { s.chan c with
        st := .idle
        held := (t.chan c).held
        silence := 0
        silenceReached := false
        clampCtr := clampCtr
        stageFaultCtr := faultCtr
        stageHotCtr := hotCtr
        stageHot := hot }) ∧
      t.arb = s.arb ∧ t.pairs = s.pairs ∧ Frame s t c [slotArea (chanSlot c), noticeArea c]

/-- R168: a response frame is discarded at the first check it fails, the cause's counter of its link incremented, and nothing else
changes; one that passes all five is a valid response. -/
def Obligations.ResponseFramesAreExaminedInOrder : Prop :=
  ∀ (c : Chan) (frame : BitVec 96) (late : Bool) (s : State),
    let l := s.link c
    let even := !oddOnes 96 frame.toNat
    let kind := frame.toNat % 16
    let index : BitVec 8 := BitVec.ofNat 8 (frame.toNat / 16 % 256)
    let discarded := fun (f : Link → Link) => exec (.responseFrame c frame late) s = .next (s.modLink c f)
    (l.state = .silent → discarded fun l => { l with unsolicited := l.unsolicited + 1 }) ∧
    (l.state ≠ .silent → even = false → discarded fun l => { l with parity := l.parity + 1 }) ∧
    (l.state ≠ .silent → even = true → kind ≠ 10 → discarded fun l => { l with kind := l.kind + 1 }) ∧
    (l.state ≠ .silent → even = true → kind = 10 → (∀ f, l.frame = some f → f.index ≠ index) →
      discarded fun l => { l with index := l.index + 1 }) ∧
    (∀ f, l.state ≠ .silent → even = true → kind = 10 → l.frame = some f → f.index = index → l.received = true →
      discarded fun l => { l with duplicate := l.duplicate + 1 }) ∧
    ∀ f, l.state ≠ .silent → even = true → kind = 10 → l.frame = some f → f.index = index → l.received = false →
      l.examine frame = none

/-- R169, R63, R64, R67: a valid response on a link in service of a SEPARATE pair is corrected under the frame's range; its values are
held, the silence count becomes zero, and a channel that took it in RUNNING adds it to its plan and lifetime sets. In a state that is no
plan state only the report's own counts and markers change besides. -/
def Obligations.ValidSamplesAreHeldAndAccumulated : Prop :=
  ∀ (c : Chan) (frame : BitVec 96) (late : Bool) (s : State) (f : FrameRecord), (s.link c).state = .inService →
    (s.link c).examine frame = none → (s.link c).frame = some f → (s.pair (pairOf c)).ganged = false → (s.chan c).log.Ok →
    let r := Response.ofFrame frame
    let x := (s.chan c).cal.correct r f.range
    ∃ t, exec (.responseFrame c frame late) s = .next t ∧ t.link c = { s.link c with received := true } ∧
      (t.chan c).held = x ∧ (t.chan c).silence = 0 ∧ (t.chan c).stageHot = r.hot ∧
      (t.chan c).planSet = (if (s.chan c).st = .running then (s.chan c).planSet.add x.v x.i else (s.chan c).planSet) ∧
      (t.chan c).lifeSet = (if (s.chan c).st = .running then (s.chan c).lifeSet.add x.v x.i else (s.chan c).lifeSet) ∧
      ((s.chan c).st.inPlan = false → t.arb = s.arb ∧ t.notices = s.notices ∧ t.store = s.store ∧
        t.chan c = { s.chan c with
          held := x
          silence := 0
          silenceReached := false
          clampCtr := if x.anyClamp then (s.chan c).clampCtr + 1 else (s.chan c).clampCtr
          stageFaultCtr := if r.fault then (s.chan c).stageFaultCtr + 1 else (s.chan c).stageFaultCtr
          stageHotCtr := if r.hot then (s.chan c).stageHotCtr + 1 else (s.chan c).stageHotCtr
          stageHot := r.hot }) ∧
      Frame s t c (logAreas c) ∧ t.pairs = s.pairs ∧ t.slots = s.slots

/-- R99, R101, R109 to R111: a valid sample that violates a hard check, or reports FAULT, trips a channel in CHECKING, RUNNING, PAUSED
or HELD: TRIPPED, the first violated check in the order of R99 with STAGE_FAULT last as first cause and the others coincident, the
fault record with the sample's values, plan time and step, no drive, the trip counted and noticed. R100, R112, R113: in TRIPPED each
condition that passes from WITHIN to VIOLATED on the sample is a later fault, in that order, counted and noticed, the acknowledgement
cleared, and nothing else of the fault record, the state or the Arbiter changes; one that stays VIOLATED is none. The check states are set
from the sample either way. -/
def Obligations.AViolatedCheckTrips : Prop :=
  ∀ (c : Chan) (frame : BitVec 96) (late : Bool) (s : State) (f : FrameRecord) (l : LimitSet), (s.link c).state = .inService →
    (s.link c).examine frame = none → (s.link c).frame = some f → (s.pair (pairOf c)).ganged = false → (s.chan c).log.Ok →
    (s.chan c).Ok → (s.chan c).limits = some l →
    let r := Response.ofFrame frame
    let x := (s.chan c).cal.correct r f.range
    let now : Checks :=
      ⟨decide (l.vMax < x.v), decide (x.v < l.vMin), decide (l.iMax < x.i.natAbs), decide (l.tMax < x.t), r.fault⟩
    let old := (s.chan c).checks
    ((s.chan c).st = .checking ∨ (s.chan c).st = .running ∨ (s.chan c).st = .paused ∨ (s.chan c).st = .held →
      ∀ (k : Cause) (rest : List Cause),
        (if l.vMax < x.v then [Cause.overVoltage] else []) ++ (if x.v < l.vMin then [Cause.underVoltage] else [])
          ++ (if l.iMax < x.i.natAbs then [Cause.overCurrent] else []) ++ (if l.tMax < x.t then [Cause.overTemp] else [])
          ++ (if r.fault then [Cause.stageFault] else []) = k :: rest →
        ∃ t, exec (.responseFrame c frame late) s = .next t ∧ (t.chan c).st = .tripped ∧ (t.chan c).demand = 0 ∧ (t.chan c).checks = now ∧
          (t.chan c).fault = ⟨some k, rest, (s.chan c).planTime, (s.chan c).seqr.position, (s.chan c).stepEntered,
            (s.chan c).seqr.cycle, x.v, x.i, x.t, false, 0, none⟩ ∧
          (t.chan c).tripCtr = (s.chan c).tripCtr + 1 ∧ (t.chan c).hits = 0 ∧ (t.chan c).window = 0 ∧
          (t.chan c).contact.inProgress = false ∧ (t.chan c).linkHold = ⟨false, 0, false⟩ ∧
          (t.notices.chan[c]).faults = (s.notices.chan[c]).faults + 1 ∧
          (t.notices.chan[c]).stateChanges = (s.notices.chan[c]).stateChanges + 1 ∧ t.arb.wanted[c] = ⟨.none, 0⟩ ∧
          Frame s t c (logAreas c)) ∧
    ((s.chan c).st = .tripped →
      let risen := (if now.overVoltage && !old.overVoltage then [Cause.overVoltage] else [])
        ++ (if now.underVoltage && !old.underVoltage then [Cause.underVoltage] else [])
        ++ (if now.overCurrent && !old.overCurrent then [Cause.overCurrent] else [])
        ++ (if now.overTemp && !old.overTemp then [Cause.overTemp] else [])
        ++ (if now.stageFault && !old.stageFault then [Cause.stageFault] else [])
      ∃ t, exec (.responseFrame c frame late) s = .next t ∧ (t.chan c).st = .tripped ∧ (t.chan c).checks = now ∧
        (t.chan c).fault = (match risen.getLast? with
          | none => (s.chan c).fault
          | some last => { (s.chan c).fault with
              laterCount := min ((s.chan c).fault.laterCount + risen.length) 65535, lastLater := some last, acked := false }) ∧
        (t.notices.chan[c]).faults = (s.notices.chan[c]).faults + BitVec.ofNat 32 risen.length ∧
        (t.chan c).tripCtr = (s.chan c).tripCtr ∧ (t.chan c).demand = (s.chan c).demand ∧ t.arb = s.arb ∧
        Frame s t c (logAreas c))

/-! ### Pair samples -/

/-- What the arrival of a valid report of corrected values x leaves of a channel (R55, R63, R101); `own` says that the channel's own
silence count counts its own samples (R64; not so for the leader of a GANGED pair, R125). -/
def ReportedChannel (ch : Channel) (r : Response) (x : Corrected) (own : Bool) : Channel :=
  { ch with
    held := x
    silence := if own then 0 else ch.silence
    silenceReached := !own && ch.silenceReached
    clampCtr := if x.clampV || x.clampI || x.clampT1 || x.clampT2 then ch.clampCtr + 1 else ch.clampCtr
    stageFaultCtr := if r.fault then ch.stageFaultCtr + 1 else ch.stageFaultCtr
    stageHotCtr := if r.hot then ch.stageHotCtr + 1 else ch.stageHotCtr
    stageHot := r.hot }

/-- R124 to R127: a valid response on a link of a GANGED pair whose assembly is EMPTY is corrected, held and counted in its own channel,
waits in the assembly, and is not handled. The second half of the index forms the pair sample: the assembly is EMPTY, the pair quantities
are held (the leader's voltage, the sum of the currents, the highest temperature, SENSE_CLAMP if any of the eight values is marked,
log 29), the leader's silence count becomes zero, a leader in RUNNING adds the pair voltage and current to its plan totals and the follower
its own held values to its lifetime totals (R71), the mismatch count of a leader in a plan state is judged, the count of 10 trips a
leader that no other check trips with PAIR_MISMATCH and the pair quantities; the follower's state and demand stand. At an expiry a pair
sample not formed is missed: the waiting half is discarded, the pair missed-sample counter and the leader's silence count advance, the
held pair quantities and the mismatch count stand, and a leader in RUNNING adds the held quantities; one that was formed is not missed.
That one is missed at the end of every period without a formed one is log 28 (DEDUCED). That the odd channel's own
report sets its own silence count to zero while it is FOLLOWER, and the leader's own report leaves the leader's, is log 27 (DEDUCED). That
the last STAGE_HOT flag of each channel is that of its own half is log 53 (DESIGN CHOICE). -/
def Obligations.PairSamplesAreFormedOrMissed : Prop :=
  (∀ (c : Chan) (frame : BitVec 96) (late : Bool) (s : State) (f : FrameRecord), (s.link c).state = .inService →
    (s.link c).examine frame = none → (s.link c).frame = some f → (s.pair (pairOf c)).ganged = true →
    let k := pairOf c
    let r := Response.ofFrame frame
    let x := (s.chan c).cal.correct r f.range
    ((s.pair k).assembly = none → ∃ t, exec (.responseFrame c frame late) s = .next t ∧
      t.pair k = { s.pair k with assembly := some ⟨c, ⟨r.index, x, r.ready, r.fault, r.hot, r.i, f.drive, f.range⟩⟩ } ∧
      t.chan c = ReportedChannel (s.chan c) r x (!isEven c) ∧ t.link c = { s.link c with received := true } ∧ t.arb = s.arb ∧
      t.notices = s.notices ∧ t.slots = s.slots ∧ t.store = s.store ∧ Frame s t c []) ∧
    ∀ h : Half, (s.pair k).assembly = some h → h.chan ≠ c → h.sample.index = r.index →
      let lead := leaderOf k
      let foll := followerOf k
      let lv := if isEven c then x else h.sample.val
      let fv := if isEven c then h.sample.val else x
      let apart : Int := (lv.v - fv.v).natAbs
      ∃ t, exec (.responseFrame c frame late) s = .next t ∧ t.link c = { s.link c with received := true } ∧ (t.chan c).held = x ∧
        (∃ mismatch, t.pair k = { s.pair k with
          assembly := none
          formed := true
          held := ⟨lv.v, lv.i + fv.i, max lv.t fv.t, lv.clampV || lv.clampI || lv.clampT1 || lv.clampT2 || fv.clampV || fv.clampI
            || fv.clampT1 || fv.clampT2⟩
          mismatch := mismatch }) ∧
        (t.pair k).mismatch = (match (s.chan lead).limits with
          | some l =>
            if (s.chan lead).st.inPlan = true then (if l.pairTol < apart then min ((s.pair k).mismatch + 1) 10 else 0)
            else (s.pair k).mismatch
          | none => (s.pair k).mismatch) ∧
        (t.chan lead).silence = 0 ∧
        (t.chan lead).planSet =
          (if (s.chan lead).st = .running then (s.chan lead).planSet.add lv.v (lv.i + fv.i) else (s.chan lead).planSet) ∧
        (t.chan foll).lifeSet =
          (if (s.chan lead).st = .running then (s.chan foll).lifeSet.add (t.chan foll).held.v (t.chan foll).held.i
          else (s.chan foll).lifeSet) ∧
        (t.chan foll).st = (s.chan foll).st ∧ (t.chan foll).demand = (s.chan foll).demand ∧
        (t.chan foll).fault = (s.chan foll).fault ∧ (t.chan foll).planSet = (s.chan foll).planSet ∧
        ∀ l, (s.chan lead).limits = some l → (s.chan lead).st.tripable = true → lv.v ≤ l.vMax → l.vMin ≤ lv.v →
          ((lv.i + fv.i).natAbs : Int) ≤ l.iMax → max lv.t fv.t ≤ l.tMax → r.fault = false → h.sample.fault = false →
          l.pairTol < apart → 9 ≤ (s.pair k).mismatch →
          (t.chan lead).st = .tripped ∧ (t.chan lead).demand = (if (s.chan lead).st = .running then 0 else (s.chan lead).demand) ∧
          (t.chan lead).fault = ⟨some .pairMismatch, [], (s.chan lead).planTime, (s.chan lead).seqr.position,
            (s.chan lead).stepEntered, (s.chan lead).seqr.cycle, lv.v, lv.i + fv.i, max lv.t fv.t, false, 0, none⟩) ∧
  ∀ (sched : Schedule) (s : State) (k : PairIx), s.LogsOk → s.timerRunning = true → (s.pair k).ganged = true →
    (s.link (leaderOf k)).state = .inService → (s.link (followerOf k)).state = .inService →
    (s.chan (leaderOf k)).linkHold.due = false →
    let lead := leaderOf k
    let h := (s.pair k).held
    ∃ t, exec (.sampleTimerExpiry sched) s = .next t ∧
      ((s.pair k).formed = false →
        t.pair k = { s.pair k with assembly := none, missedCtr := (s.pair k).missedCtr + 1 } ∧
        (t.chan lead).silence = min ((s.chan lead).silence + 1) 65535 ∧
        (t.chan lead).planSet =
          (if (s.chan lead).st = .running then (s.chan lead).planSet.add h.v h.i else (s.chan lead).planSet)) ∧
      ((s.pair k).formed = true → t.pair k = { s.pair k with formed := false } ∧
        (t.chan lead).silence = (s.chan lead).silence ∧ (t.chan lead).planSet = (s.chan lead).planSet)

/-! ### Regulation and totals -/

/-- The setpoint magnitude of a step that has a direction, and the setpoint with its sign (R75, R77). -/
def setpointOf (body : StepBody) (v : Int) : Option (Int × Int) :=
  match body with
  | .cc i => some (i.natAbs, i)
  | .cccv i _ => some (i.natAbs, i)
  | .cp p => some (((p.natAbs * 1000000 / (max v 1000).toNat : Nat) : Int), p)
  | _ => none

/-- R73, R75 to R82, R84, R85: at a regulation stage of a CC, CP or CCCV step under a limit set of R96, S is the setpoint magnitude
clamped to I_run_max, D the derated limit, B the budget cap of a grant in watts, and the ceiling the least of them. The demand has the
sign of the setpoint and as magnitude the lesser of step magnitude and ceiling, which for a CCCV step is the integrator after its update,
held within 0 and the ceiling. DERATED and BUDGET_LIMITED, their counters, CLAMPED and the CV phase follow R82, R77, R78 and R85; the
terms are formed anew, whatever the last stage formed. A REST step demands 0. And R74: on a missed sample the standing demand, its sign
kept, and the integrator are reduced to the least of the terms, and nothing else changes; that a REST step has none but D and B is
log 21 (DEDUCED). -/
def Obligations.CeilingIsTheLeastTerm : Prop :=
  let derated := fun (l : LimitSet) (t : Int) => max l.iFloor (l.iRunMax - max 0 (t - l.tStart) * l.slope)
  let cap := fun (g : Grant) (v : Int) => match g with
    | .full => none
    | .watts w => some (((w * 1000000 / (max v 1000).toNat : Nat) : Int))
  let least := fun (x : Int) (b : Option Int) => match b with
    | none => x
    | some y => min x y
  (∀ (ch : Channel) (v t : Int) (g : Grant) (p : Plan) (st : Step) (l : LimitSet) (mag setpoint : Int), ch.active = some p →
    ch.curStep = some st → ch.limits = some l → l.Ok → setpointOf st.body v = some (mag, setpoint) →
    let ch' := ch.regulate v t g
    ∃ r, ch'.reg.last = some r ∧ r.s = min mag l.iRunMax ∧ r.d = derated l t ∧ r.b = cap g v ∧ r.c = least (min r.s r.d) r.b ∧
      let m := if st.body.isCccv then ch'.reg.integ else min mag r.c
      ch'.demand = setpoint.sign * m ∧ 0 ≤ m ∧ m ≤ r.c ∧
      (r.derated = true ↔ m = r.c ∧ r.d < r.s ∧ ∀ b, r.b = some b → r.d ≤ b) ∧
      (r.budget = true ↔ m = r.c ∧ ∃ b, r.b = some b ∧ b < r.s ∧ b ≤ r.d) ∧
      ch'.reg.deratedCtr = (if r.derated then ch.reg.deratedCtr + 1 else ch.reg.deratedCtr) ∧
      ch'.reg.budgetCtr = (if r.budget then ch.reg.budgetCtr + 1 else ch.reg.budgetCtr) ∧
      (ch'.reg.clamped = true ↔ ch.reg.clamped = true ∨ l.iRunMax < mag ∨
        ∃ i target, st.body = .cccv i target ∧ (target < l.vMin ∨ l.vMax < target)) ∧
      (st.body.isCccv = false → ch'.reg.integ = ch.reg.integ ∧ ch'.reg.cvPhase = ch.reg.cvPhase) ∧
      (∀ i target, st.body = .cccv i target →
        let e := errorOf st.body.dir (max l.vMin (min l.vMax target)) v
        let d := nearest (e * p.header.kb * 2 ^ (ch'.reg.level - 1)) 4096
        ch'.reg.integ = max 0 (min r.c (ch.reg.integ + d)) ∧ ch'.reg.cvPhase = (ch.reg.cvPhase || decide (d < 0))) ∧
      ∀ old, ({ ch with reg := { ch.reg with last := old } }.regulate v t g).reg.last = some r) ∧
  (∀ (ch : Channel) (v t : Int) (g : Grant) (p : Plan) (st : Step) (l : LimitSet), ch.active = some p → ch.curStep = some st →
    ch.limits = some l → st.body = .rest →
    (ch.regulate v t g).demand = 0 ∧ (ch.regulate v t g).reg.integ = ch.reg.integ) ∧
  ∀ (ch : Channel) (v t : Int) (g : Grant) (st : Step) (l : LimitSet), ch.curStep = some st → ch.limits = some l → l.Ok →
    let s := match setpointOf st.body v with
      | some (mag, _) => min mag l.iRunMax
      | none => derated l t
    let m := least (min s (derated l t)) (cap g v)
    ch.bound v t g = { ch with
      demand := ch.demand.sign * min (ch.demand.natAbs : Int) m
      reg := { ch.reg with integ := min ch.reg.integ m } }

/-- R86: the band level of a band ratio in percent. -/
def bandOf (r : Nat) : Nat :=
  if 90 ≤ r then 7 else if 60 ≤ r then 6 else if 40 ≤ r then 5 else if 20 ≤ r then 4 else if 10 ≤ r then 3 else if 5 ≤ r then 2 else 1

/-- R90: a regulator restart under a plan header: the integrator 0, counted; the level, the climb-down flag and the restart marker by
the gain mode and level-hold. The CV-phase flag and the rest stand. -/
def Restarted (h : PlanHeader) (g g' : Regulator) : Prop :=
  g' = { g with
    integ := 0
    restartCtr := g.restartCtr + 1
    level := if h.levelHold then g.level else if h.gainMode = .sevenLevel then 7 else h.high
    climb := if h.gainMode = .twoLevel then g.climb else !h.levelHold
    restartMark := !h.levelHold }

/-- R88, R89: the level of a regulation stage in gain modes TWO_LEVEL and FIXED on a sample of band ratio r other than the restart
sample, and what a regulator restart without level-hold does to it; and a regulation stage of a CCCV step uses the selection of its
band ratio, the error of R83 against the window of R25.

R86, R87: in SEVEN_LEVEL the level is the band level clamped to LL to UL while the climb-down flag is clear; while it is set, a band level
above UL is the level, and another clears the flag and is clamped. R91: on the restart sample the level and the flags stand but for the
restart marker, which is cleared. R90: what a restart does in each mode, with level-hold and without, and that a step entry restarts the
regulator for a CCCV step, and an entry to RUNNING that continues a step restarts it whatever the kind of the step. -/
def Obligations.TwoLevelAndFixedSchedules : Prop :=
  (∀ (g : Regulator) (h : PlanHeader) (r : Nat), g.restartMark = false →
    (h.gainMode = .twoLevel → (g.select h r).climb = g.climb ∧
      (g.select h r).level = (if 75 ≤ r then h.high else if r < 25 then h.low else g.level) ∧
      (h.levelHold = false → (g.restart h).level = h.high)) ∧
    (h.gainMode = .fixed →
      (g.climb = true → r < 25 → (g.select h r).climb = false ∧ (g.select h r).level = h.low) ∧
      (g.climb = true → 25 ≤ r → (g.select h r).climb = true ∧ (g.select h r).level = h.high) ∧
      (g.climb = false → (g.select h r).climb = false ∧ (g.select h r).level = h.low) ∧
      (h.levelHold = false → (g.restart h).climb = true ∧ (g.restart h).level = h.high)) ∧
    (h.gainMode = .sevenLevel →
      (g.climb = true → h.ul < bandOf r → g.select h r = { g with level := bandOf r }) ∧
      (g.climb = false ∨ bandOf r ≤ h.ul →
        g.select h r = { g with climb := false, level := max h.ll (min h.ul (bandOf r)) }))) ∧
  (∀ (g : Regulator) (h : PlanHeader) (r : Nat), g.restartMark = true → g.select h r = { g with restartMark := false }) ∧
  (∀ (g : Regulator) (h : PlanHeader), Restarted h g (g.restart h)) ∧
  (∀ (s : State) (c : Chan) (n : Nat) (p : Plan) (st : Step), (s.chan c).active = some p → p.steps[n]? = some st →
    let g := (s.chan c).reg
    let g' := ((s.enterStep c n false).chan c).reg
    (st.body.isCccv = true → Restarted p.header { g with clamped := false, cvPhase := false } g') ∧
    (st.body.isCccv = false → g' = { g with clamped := false, cvPhase := false })) ∧
  (∀ (s : State) (c : Chan) (held : Bool) (p : Plan), (s.chan c).active = some p → (s.chan c).stepEntered = true →
    Restarted p.header (s.chan c).reg ((s.enterRunning c held).chan c).reg) ∧
  ∀ (ch : Channel) (v t : Int) (g : Grant) (p : Plan) (st : Step) (l : LimitSet) (i target : Int), ch.active = some p →
    ch.curStep = some st → st.body = .cccv i target → ch.limits = some l →
    let e := errorOf st.body.dir (targetInForce l target) v
    let chosen := ch.reg.select p.header (e.natAbs * 100 / p.header.window)
    (ch.regulate v t g).reg.level = chosen.level ∧ (ch.regulate v t g).reg.climb = chosen.climb ∧
    (ch.regulate v t g).reg.restartMark = false

/-- R68: while no whole part would pass its range, a sample adds |I| µC to the charge of its direction and V × |I| nJ to the energy of
its direction exactly, whole part and remainder together, the remainder below a whole mJ; a sample of current 0 adds nothing; and the
step, plan and lifetime sets are added to independently. -/
def Obligations.AccumulationIsExact : Prop :=
  (∀ (a : Acc) (v i : Int), a.Ok → 0 ≤ v → a.chIn + i.natAbs ≤ top64 → a.chOut + i.natAbs ≤ top64 →
    a.enIn + (a.enInRem + v.toNat * i.natAbs) / 1000000 ≤ top64 →
    a.enOut + (a.enOutRem + v.toNat * i.natAbs) / 1000000 ≤ top64 →
    let b := a.add v i
    b.enInRem < 1000000 ∧ b.enOutRem < 1000000 ∧ b.saturated = a.saturated ∧
    (0 < i → b.chIn = a.chIn + i.natAbs ∧ b.chOut = a.chOut ∧ b.enOut = a.enOut ∧ b.enOutRem = a.enOutRem ∧
      b.enIn * 1000000 + b.enInRem = a.enIn * 1000000 + a.enInRem + v.toNat * i.natAbs) ∧
    (i < 0 → b.chOut = a.chOut + i.natAbs ∧ b.chIn = a.chIn ∧ b.enIn = a.enIn ∧ b.enInRem = a.enInRem ∧
      b.enOut * 1000000 + b.enOutRem = a.enOut * 1000000 + a.enOutRem + v.toNat * i.natAbs) ∧ (i = 0 → b = a)) ∧
  ∀ (ch : Channel) (x : Input) (tripped : Bool), (ch.accumulate x tripped).stepSet = ch.stepSet.add x.v x.i ∧
    (ch.accumulate x tripped).planSet = ch.planSet.add x.v x.i ∧ (ch.accumulate x tripped).lifeSet = ch.lifeSet.add x.v x.i

/-- Sequence numbers issued less those of records written, lost and held in the latch. -/
def ledger (l : Logger) : U32 := l.nextSeq - l.written - l.lost - (if l.latch.isSome then 1 else 0)

/-- R36: the value of an end condition's quantity and the figure compared with it; none where the condition does not hold whatever the
values: a CURRENT_MAG condition of a CCCV step before CV phase (R37), a VOLT_DROP one before the peak is set. -/
def conditionValue (ch : Channel) (st : Step) (x : Input) (e : EndCond) : Option (Int × Int) :=
  let charge : Nat := match st.body.dir with
    | .charge => ch.stepSet.chIn
    | .discharge => ch.stepSet.chOut
    | .none => 0
  let energy : Nat := match st.body.dir with
    | .charge => ch.stepSet.enIn
    | .discharge => ch.stepSet.enOut
    | .none => 0
  match e.quantity with
  | .stepTime => some (ch.seqr.stepTime, e.threshold)
  | .voltage => some (x.v, e.threshold)
  | .currentMag => if st.body.isCccv && !ch.reg.cvPhase then none else some (x.i.natAbs, e.threshold)
  | .stepCharge => some (charge, e.threshold * 1000)
  | .stepEnergy => some (energy, e.threshold * 1000)
  | .temperature => some (x.t, e.threshold)
  | .voltDrop => ch.seqr.peak.map fun p => (p - x.v, e.threshold)
  | .planCycles => some (ch.seqr.cycle, e.threshold)

/-- R36: whether an end condition holds on a sample. -/
def ConditionHolds (ch : Channel) (st : Step) (x : Input) (e : EndCond) : Prop :=
  ∃ value figure, conditionValue ch st x e = some (value, figure) ∧
    ((e.comparison = .atLeast ∧ figure ≤ value) ∨ (e.comparison = .atMost ∧ value ≤ figure))

/-- R38: whether an end condition whose qualify counter stands at q is met on a sample: a STEP_TIME condition where it holds, another on
a valid sample on which its counter reaches its qualify count. -/
def ConditionMet (ch : Channel) (st : Step) (x : Input) (e : EndCond) (q : Nat) : Prop :=
  ConditionHolds ch st x e ∧ (e.quantity = .stepTime ∨ (x.valid = true ∧ e.qualify ≤ q + 1))

/-- R49: no plan, IDLE, no step entered, the loop stack empty; the staged plan stands. -/
def EndedAtStep (ch ch' : Channel) : Prop :=
  ch'.st = .idle ∧ ch'.active = none ∧ ch'.stepEntered = false ∧ ch'.seqr.loops = [] ∧ ch'.staged = ch.staged

/-- R45, R31, R32, R33: what follows a step end that names index m, by GOTO or not: a staged switch for a VALID plan of mode AT_STEP_END,
with step 0 of the new plan entered and the loop stack empty; else the step that the arrivals at LOOP steps lead to is entered, or the
plan ends past the last step. That 65 arrivals suffice is log 35 (DEDUCED). -/
def FollowsIndex (p : Plan) (ch ch' : Channel) (goto : Bool) (m : Nat) : Prop :=
  (∀ p' st0, ch.staged = .valid p' → p'.header.switchMode = .atStepEnd → p'.steps[0]? = some st0 →
    ch'.active = some p' ∧ ch'.staged = .empty ∧ ch'.seqr.loops = [] ∧ ch'.seqr.position = 0 ∧ ch'.seqr.stepTime = 0 ∧
    ch'.stepSet = .zero ∧ ch'.stepEntered = true) ∧
  ((∀ p', ch.staged = .valid p' → p'.header.switchMode = .nextStart) →
    let q := p.resolve 65 (if goto then p.prune m ch.seqr.loops else ch.seqr.loops) m
    (q.2 = none → EndedAtStep ch ch') ∧
    ∀ n, q.2 = some n → ch'.active = some p ∧ ch'.staged = ch.staged ∧ ch'.seqr.loops = q.1 ∧ ch'.seqr.position = n ∧
      ch'.seqr.stepTime = 0 ∧ ch'.stepSet = .zero ∧ ch'.stepEntered = true ∧ ch'.seqr.qualify = [0, 0, 0, 0])

/-- R34, R36, R67, R102, R105: the accumulation stage of a sample that a channel of no GANGED pair took in RUNNING: the step active time,
the peak, the three accumulator sets, the blanking count and the soft window, which stands on the sample that trips the channel; and on
one that does not, auto-zero in a REST step carrying AUTO_ZERO. -/
def AccumulationStage : Prop :=
  ∀ (s : State) (c : Chan) (x : Input) (st : Step) (l : LimitSet), s.leads c = false → (s.chan c).curStep = some st →
    (s.chan c).limits = some l →
    let full := decide (l.softWindow ≤ (s.chan c).window + 1)
    let trips := decide ((s.chan c).st = .tripped)
    let added := s.modChan c fun ch => { ch with
      seqr := { ch.seqr with
        stepTime := min (ch.seqr.stepTime + 1) (2 ^ 32 - 1)
        peak := if x.valid then some (match ch.seqr.peak with
          | some p => max p x.v
          | none => x.v) else ch.seqr.peak
        firstDue := false }
      stepSet := ch.stepSet.add x.v x.i
      planSet := ch.planSet.add x.v x.i
      lifeSet := ch.lifeSet.add x.v x.i
      blanking := if ch.blanking.running then ⟨true, ch.blanking.count + 1⟩ else ch.blanking
      window := if trips then ch.window else if full then 0 else ch.window + 1
      hits := if trips then ch.hits else if full then 0 else ch.hits }
    s.accumulate c x = if !trips && st.azRest then added.autoZero c c x.own else added

/-- R73, R74, R135, R149: the stages after accumulation: the end conditions and any step end; then, of a channel still RUNNING, on a valid
sample outside a chop the wanted power delivered with the sample's voltage and a regulation stage, on a missed one the bounding of the
demand, and in a chop neither; then, where no step ended, the SAMPLE record. The grant read is the one that stands, before or after the
evaluation that the step end caused (R80; the order is an operand, log 7, DESIGN CHOICE). -/
def DriveStages : Prop :=
  ∀ (s : State) (c : Chan) (x : Input) (first late : Bool),
    let e := s.endConditions c x
    let u := e.1
    let g := if late then s.arb.grants[c] else u.arb.grants[c]
    let r := if x.valid = false then u.modChan c fun ch => ch.bound x.v x.t g
      else if (u.chan c).chop = none then
        (u.deliver c ((u.chan c).wants x.v)).modChan c fun ch => ch.regulate x.v x.t g
      else u
    ((u.chan c).st ≠ .running → s.drive c x first late = u) ∧
    ((u.chan c).st = .running → e.2 = true → s.drive c x first late = r) ∧
    ((u.chan c).st = .running → e.2 = false → s.drive c x first late = r.sampleRecord c x first)

/-- R149, section 11.5: the record stage: a SAMPLE record where a trigger applies, FIRST, INTERVAL on a multiple of the log interval, or
DELTA on a valid sample by the log voltage delta from the logged voltage; its 32 bytes hold the triggers and flags, the values of the
sample or the held ones, the demand after regulation and the step active time; its voltage becomes the logged one, and the report of a
latch entry is taken (R155). The flags on a missed sample, HELD_VALUE and SENSE_CLAMP but no STAGE_HOT, DERATED or BUDGET_LIMITED, are
log 16 (DEDUCED). -/
def RecordStage : Prop :=
  ∀ (s : State) (c : Chan) (x : Input) (first : Bool) (p : Plan) (st : Step), (s.chan c).active = some p →
    (s.chan c).curStep = some st →
    let ch := s.chan c
    let interval := decide (st.logInterval ∣ ch.seqr.stepTime)
    let delta := x.valid && decide (p.header.logDelta ≠ 0) && match ch.loggedV with
      | some w => decide (p.header.logDelta ≤ (x.v - w).natAbs)
      | none => false
    let terms : Bool × Bool := match ch.reg.last with
      | some r => if x.valid = true ∧ ch.chop = none then (r.derated, r.budget) else (false, false)
      | none => (false, false)
    let flag := fun (n : Nat) (b : Bool) => if b then 2 ^ n else 0
    let flags := flag 0 first + flag 1 interval + flag 2 delta + flag 3 (!x.valid) + flag 4 x.clamp + flag 5 terms.1 +
      flag 6 terms.2 + flag 7 (x.valid && x.hot)
    let bytes := fun (seq : U32) => leBytes 1 1 ++ leBytes 1 (c.val + 16) ++ leBytes 1 (ch.seqr.position % 64) ++ leBytes 1 flags ++
      leBytes 4 seq.toNat ++ leBytes 6 (min ch.planTime (2 ^ 48 - 1)) ++ leBytes 3 (fieldS 24 x.v) ++ leBytes 3 (fieldS 24 x.i) ++
      leBytes 3 (fieldS 24 ch.demand) ++ leBytes 2 (fieldS 16 x.t1) ++ leBytes 2 (fieldS 16 x.t2) ++ leBytes 4 ch.seqr.stepTime ++
      leBytes 1 0
    s.sampleRecord c x first =
      if first || interval || delta then
        ((s.emit c .sample 1 bytes).modChan c fun ch => { ch with loggedV := some x.v }).settle c
      else s

/-- R155, R8, R9: the report of a latch entry is taken: LOG_FULL joins the hold causes of a channel in a plan state, and a RUNNING one
becomes HELD with demand 0 and nothing wanted; without a report nothing changes. -/
def ReportsAreTaken : Prop :=
  ∀ (s : State) (c : Chan),
    let ch := s.chan c
    let t := s.settle c
    (ch.log.report = false → t = s) ∧
    (ch.log.report = true → ch.st.inPlan = false ∨ ch.hold.logFull = true →
      t = s.modChan c fun ch => { ch with log := { ch.log with report := false } }) ∧
    (ch.log.report = true → ch.st.inPlan = true → ch.hold.logFull = false →
      (t.chan c).hold = { ch.hold with logFull := true } ∧ (t.chan c).st = (if ch.st = .running then .held else ch.st) ∧
      (ch.st = .running → (t.chan c).demand = 0 ∧ t.arb.wanted[c] = ⟨.none, 0⟩) ∧ (t.chan c).seqr = ch.seqr ∧
      (t.chan c).stepSet = ch.stepSet)

/-- R52, R98, R67, R37, R73, R149, R161: a valid response on a link in service of a SEPARATE pair runs the stages of the handling in
their order on the channel that has reported it: the protection judgement, and for a sample taken in RUNNING the accumulation, and where
the channel is then still RUNNING the end conditions, regulation and the SAMPLE record, and last the watch points. What these stages do:
AccumulationStage, DriveStages, RecordStage, ReportsAreTaken, and the three watch points in index order. The model's own: the order of
the evaluation against the reading of the grant is an operand (log 7, DESIGN CHOICE); a missed sample's record flags (log 16), no end
conditions on a channel that its LEARN record has made HELD (log 20) and the 65 arrivals (log 35) are DEDUCED.

R37 to R39: the end conditions of a step are judged by R36 and R38; the first one met ends the step, and without one only their counters
change. R39 to R45: an action TRIP trips with PLAN_TRIP at the target, END_PLAN ends the plan, NEXT and GOTO capture the retention
reference (R43) and go on to the index named, or to what a retention check that fires names (R44). R46, R45: arrivals at LOOP steps use,
push and remove the top entry of the loop stack, and are resolved in turn.

R59 to R61: in a qualifying rest, past 500 ms, the code of a valid sample whose frame did not drive begins a collection; each further one
is added; a missed sample or a driven frame starts it again; the 64th makes the clamped nearest mean the learned offset, sets the marker,
ends the collection and is counted.

R161: a watch point takes the value as its previous one; a crossing is a hit, and a reported one is noticed, latching in LATCH.

R148: generating a record takes the next sequence number, which the record carries, written, latched or lost; a GAP written before it
takes the one after (R157); and issued numbers keep step with records written, lost and held, also when a released pool takes the held
record (R156). -/
def Obligations.StepEndsLearningWatchesAndRecords : Prop :=
  (∀ (c : Chan) (frame : BitVec 96) (late : Bool) (s : State) (f : FrameRecord), (s.link c).state = .inService →
    (s.link c).examine frame = none → (s.link c).frame = some f → (s.pair (pairOf c)).ganged = false →
    let r := Response.ofFrame frame
    let x := (s.chan c).cal.correct r f.range
    let clamp := x.clampV || x.clampI || x.clampT1 || x.clampT2
    let i : Input := ⟨true, x.v, x.i, x.t1, x.t2, x.t, clamp, r.fault, r.hot, none, some (r.i, f.drive), none⟩
    let s1 := (s.modLink c fun l => { l with received := true }).setChan c (ReportedChannel (s.chan c) r x true)
    let judged := s1.protect c i
    let added := if (s.chan c).st = .running then judged.accumulate c i else judged
    let driven := if (s.chan c).st = .running ∧ (added.chan c).st = .running then
        added.drive c i (judged.chan c).seqr.firstDue late
      else added
    exec (.responseFrame c frame late) s = .next (driven.watchAll c i)) ∧
  AccumulationStage ∧ DriveStages ∧ RecordStage ∧ ReportsAreTaken ∧
  (∀ (s : State) (c : Chan) (x : Input), s.watchAll c x =
    if x.valid = true ∧ (s.chan c).st.inPlan = true then ((s.watch c x 0).watch c x 1).watch c x 2 else s) ∧
  (∀ (s : State) (c : Chan) (x : Input) (st : Step), (s.chan c).curStep = some st →
    let ch := s.chan c
    let counters := ch.qualifyNext st x st.conds ch.seqr.qualify
    let s1 := s.modChan c fun ch => { ch with seqr := { ch.seqr with qualify := counters } }
    (∀ (n : Nat) (e : EndCond) (q : Nat), st.conds[n]? = some e → ch.seqr.qualify[n]? = some q → counters[n]? = some (
      if e.quantity = .stepTime ∨ x.valid = false then q
      else if (ch.condHolds st x e) = true then min (q + 1) 255 else 0)) ∧
    (∀ e, ch.condHolds st x e = true ↔ ConditionHolds ch st x e) ∧
    ((∀ (n : Nat) (e : EndCond) (q : Nat), st.conds[n]? = some e → ch.seqr.qualify[n]? = some q → ¬ ConditionMet ch st x e q) →
      s.endConditions c x = (s1, false)) ∧
    ∀ (n : Nat) (e : EndCond) (q : Nat), st.conds[n]? = some e → ch.seqr.qualify[n]? = some q → ConditionMet ch st x e q →
      (∀ (m : Nat) (e' : EndCond) (q' : Nat), m < n → st.conds[m]? = some e' → ch.seqr.qualify[m]? = some q' → ¬ ConditionMet ch st x e' q') →
      s.endConditions c x = (s1.endStep c st n e x.v x.i x.t, true)) ∧
  (∀ (s : State) (c : Chan) (st : Step) (p : Plan) (n : Nat) (e : EndCond) (v i w : Int), (s.chan c).active = some p →
    let ch := s.chan c
    let ch' := (s.endStep c st n e v i w).chan c
    let charge := ch.stepSet.charge st.body.dir
    let ref := if st.captureRef then (if charge = 0 then none else some charge) else ch.seqr.retRef
    (e.action = .trip → ch'.st = .tripped ∧ ch'.seqr.position = e.target ∧ ch'.seqr.loops = p.prune e.target ch.seqr.loops ∧
      ch'.stepEntered = false ∧ ch'.seqr.retRef = ch.seqr.retRef ∧ ch'.fault.first = some .planTrip ∧
      ch'.fault.stepIndex = ch.seqr.position) ∧
    (e.action = .endPlan → EndedAtStep ch ch' ∧ ch'.seqr.retRef = ch.seqr.retRef) ∧
    ∀ (goto : Bool) (m : Nat),
      (e.action = .next ∧ goto = false ∧ m = ch.seqr.position + 1) ∨ (e.action = .goto ∧ goto = true ∧ m = e.target) →
      ch'.seqr.retRef = ref ∧
      ((∀ r q, st.retention = some r → ref = some q → r.threshold < charge * 1000 / q) → FollowsIndex p ch ch' goto m) ∧
      ∀ r q, st.retention = some r → ref = some q → charge * 1000 / q ≤ r.threshold →
        match r.action with
        | .next => FollowsIndex p ch ch' false (ch.seqr.position + 1)
        | .goto => FollowsIndex p ch ch' true r.target
        | .endPlan => EndedAtStep ch ch') ∧
  ((∀ (loops : List (Nat × Nat)) (j left target count : Nat), arrive (loops ++ [(j, left)]) j target count =
      if 0 < left then (loops ++ [(j, left - 1)], target) else (loops, j + 1)) ∧
    (∀ (loops : List (Nat × Nat)) (j target count : Nat), (∀ e, loops.getLast? = some e → e.1 ≠ j) →
      arrive loops j target count = if 0 < count - 1 then (loops ++ [(j, count - 1 - 1)], target) else (loops, j + 1)) ∧
    ∀ (p : Plan) (fuel : Nat) (loops : List (Nat × Nat)) (n : Nat),
      (p.steps.length ≤ n → p.resolve (fuel + 1) loops n = (loops, none)) ∧
      (∀ st, p.steps[n]? = some st → st.body.isLoop = false → p.resolve (fuel + 1) loops n = (loops, some n)) ∧
      ∀ st target count, p.steps[n]? = some st → st.body = .loop target count →
        p.resolve (fuel + 1) loops n = p.resolve fuel (arrive loops n target count).1 (arrive loops n target count).2) ∧
  (∀ (s : State) (c x : Chan) (own : Option (Int × Bool)),
    let ch := s.chan x
    let ch' := (s.autoZero c x own).chan x
    let r := ch.cal.cur (s.chan c).range
    let qualifies := (r.mode = .learnEvery ∨ (r.mode = .learnOnce ∧ r.pending = true)) ∧ r.limit ≠ 0 ∧ ch.az.learned = false
    (ch.az.phase = .idle → s.autoZero c x own = s) ∧
    (∀ code, ch.az.phase = .waiting → own = some (code, false) →
      (qualifies → 500 < (s.chan c).seqr.stepTime → ch' = { ch with az := ⟨.collecting, code, 1, ch.az.learned⟩ }) ∧
      (¬ qualifies ∨ (s.chan c).seqr.stepTime ≤ 500 → s.autoZero c x own = s)) ∧
    (ch.az.phase = .collecting → own = none ∨ (∃ code, own = some (code, true)) →
      ch' = { ch with az := ⟨.collecting, 0, 0, ch.az.learned⟩ }) ∧
    ∀ code, ch.az.phase = .collecting → own = some (code, false) →
      (ch.az.count + 1 < 64 → ch' = { ch with az := ⟨.collecting, ch.az.sum + code, ch.az.count + 1, ch.az.learned⟩ }) ∧
      (64 ≤ ch.az.count + 1 →
        ch'.cal = ch.cal.setCur (s.chan c).range { r with
          learned := some (max (-r.limit) (min r.limit (nearest (ch.az.sum + code) 64)))
          pending := if r.mode = .learnOnce then false else r.pending } ∧
        ch'.az.learned = true ∧ ch'.az.phase = .idle ∧ ch'.learnCtr = ch.learnCtr + 1)) ∧
  (∀ (s : State) (c : Chan) (x : Input) (n : Fin 3),
    let ch := s.chan c
    let w := ch.watches[n]
    let t := s.watch c x n
    let w' := (t.chan c).watches[n]
    let value : Option Int := match w.quantity with
      | .none => none
      | .voltage => some x.v
      | .planNetCharge => some (((ch.planSet.chIn : Int) - ch.planSet.chOut).tdiv 1000)
      | .cycleCount => some ch.seqr.cycle
      | .temperature => some x.t
    (value = none → t = s) ∧
    ∀ y, value = some y →
      (w.prev = none → w' = { w with prev := some y } ∧ t.notices = s.notices ∧ t.store = s.store) ∧
      ∀ z, w.prev = some z →
        let crossing := (w.dir = .rising ∧ z < w.threshold ∧ w.threshold ≤ y) ∨
          (w.dir = .falling ∧ w.threshold < z ∧ y ≤ w.threshold)
        let hits := fun (t : State) => (t.notices.chan[c]).watchHits
        (¬ crossing → w' = { w with prev := some y } ∧ t.notices = s.notices ∧ t.store = s.store) ∧
        (crossing → w.mode = .every → w' = { w with prev := some y, hits := w.hits + 1 } ∧ hits t = hits s + 1 ∧
          t.notices.attention.getLsbD c.val = true) ∧
        (crossing → w.mode = .latch → w.latched = false →
          w' = { w with prev := some y, hits := w.hits + 1, latched := true } ∧ hits t = hits s + 1 ∧
          t.notices.attention.getLsbD c.val = true) ∧
        (crossing → w.mode = .latch → w.latched = true →
          w' = { w with prev := some y, hits := w.hits + 1 } ∧ t.notices = s.notices ∧ t.store = s.store)) ∧
  (∀ (s : State) (c : Chan) (kind : RecKind) (slots : Nat) (mk : U32 → List Byte),
    let t := s.emit c kind slots mk
    let l := (s.chan c).log
    let l' := (t.chan c).log
    let gap : U32 := l'.gaps - l.gaps
    ledger l' = ledger l ∧ l'.nextSeq = l.nextSeq + 1 + gap ∧ (gap = 0 ∨ gap = 1) ∧
    ((∃ p, l'.written = l.written + 1 + gap ∧ l'.lost = l.lost ∧ l'.latch = l.latch ∧ (l'.pool p).lastSeq = l.nextSeq ∧
        t.store.readBytes (Config.poolBase c p + ((l'.pool p).used - slots) * 32) (mk l.nextSeq).length = mk l.nextSeq) ∨
      (gap = 0 ∧ l'.written = l.written ∧ l'.lost = l.lost ∧ l.latch = none ∧
        l'.latch = some ⟨kind, l.nextSeq, slots, mk l.nextSeq⟩) ∨
      (gap = 0 ∧ l'.written = l.written ∧ l'.lost = l.lost + 1 ∧ l'.latch = l.latch ∧
        l'.pendingLoss = some (match l.pendingLoss with
          | none => (l.nextSeq, 1)
          | some (first, count) => (first, count + 1))))) ∧
  ∀ (s : State) (c : Chan) (p : PoolId), ledger ((s.writeOut c p).chan c).log = ledger (s.chan c).log

/-! ### Ends of counted times (log 11) -/

/-- R102, R104, R105: CHOP_END ends a chop of a RUNNING channel whose count has reached the off-time, with a regulator restart;
BLANKING_EXPIRY stops a blanking timer that has reached the blanking time; SOFT_WINDOW_EXPIRY sets the hit count and the window to zero
when the window is full. Each acts only when its condition holds (log 11) and changes nothing else. -/
def Obligations.ChopBlankingAndWindowEnds : Prop :=
  ∀ (c : Chan) (s : State) (l : LimitSet), (s.chan c).limits = some l →
    (∀ k p, (s.chan c).st = .running → (s.chan c).chop = some k → l.chopOff ≤ k → (s.chan c).active = some p →
      exec (.chopEnd c) s = .next (s.modChan c fun ch => { ch with chop := none, reg := ch.reg.restart p.header })) ∧
    ((s.chan c).st ≠ .running ∨ (∀ k, (s.chan c).chop = some k → k < l.chopOff) → exec (.chopEnd c) s = .next s) ∧
    ((s.chan c).st = .running → (s.chan c).blanking.running = true → l.blankTime ≤ (s.chan c).blanking.count →
      exec (.blankingExpiry c) s = .next (s.modChan c fun ch => { ch with blanking := { ch.blanking with running := false } })) ∧
    ((s.chan c).st ≠ .running ∨ (s.chan c).blanking.running = false ∨ (s.chan c).blanking.count < l.blankTime →
      exec (.blankingExpiry c) s = .next s) ∧
    ((s.chan c).st = .running → l.softWindow ≤ (s.chan c).window →
      exec (.softWindowExpiry c) s = .next (s.modChan c fun ch => { ch with hits := 0, window := 0 })) ∧
    ((s.chan c).st ≠ .running ∨ (s.chan c).window < l.softWindow → exec (.softWindowExpiry c) s = .next s)

/-! ### Trips outside a sample -/

/-- R110, R111: what a trip of a cause with no coincident one leaves of a channel. That the contact check's counts stand is log 22
(DEDUCED). -/
def Tripped (ch ch' : Channel) (cause : Cause) (v i t : Int) : Prop :=
  ∃ az log hold, hold.linkDown = ch.hold.linkDown ∧ (ch.hold.logFull = true → hold.logFull = true) ∧ ch' = { ch with
    st := .tripped
    demand := if ch.st = .running then 0 else ch.demand
    chop := if ch.st = .running then none else ch.chop
    contact := { ch.contact with inProgress := false }
    linkHold := ⟨false, 0, false⟩
    hits := 0
    window := 0
    fault := ⟨some cause, [], ch.planTime, ch.seqr.position, ch.stepEntered, ch.seqr.cycle, v, i, t, false, 0, none⟩
    tripCtr := ch.tripCtr + 1
    hold := hold
    az := az
    log := log }

/-- No hard check is violated by a sample and its status carries no FAULT; it is no pair sample, whose voltages are judged too (R99,
R101, R127). -/
def ChecksPass (l : LimitSet) (x : Input) : Prop :=
  x.v ≤ l.vMax ∧ l.vMin ≤ x.v ∧ (x.i.natAbs : Int) ≤ l.iMax ∧ x.t ≤ l.tMax ∧ x.fault = false ∧ x.followerV = none

/-- R108, R109, R117: a contact check in progress whose timer has reached five times the filter time trips with CONTACT_FAIL, and a
link-hold timer whose expiry is due (log 8, DESIGN CHOICE) with LINK_LOST, each with the held values; without its condition neither row has
an effect (logs 8, 11, DESIGN CHOICE).

R107, R108: at the protection judgement of a valid sample in CHECKING on which no check trips the channel, an in-window voltage counts and
another clears the count; the filter time reached is a pass, to RUNNING, or to HELD under a hold cause; else five times the filter time on
the timer, the sample counted, is a trip; else the check goes on. A missed sample below the silence limit advances the timer alone, and
does not pass (log 46, DESIGN CHOICE). That the counts stand when the check ends is log 22 (DEDUCED).

R103, R104: at the protection judgement of a valid sample taken in RUNNING on which no check trips the channel, a current above I_soft,
with no chop after the advance of one and the blanking timer STOPPED or at its time, is a hit: up to the soft count maximum a chop begins
with demand 0, above it the channel trips with SOFT_REPEAT; a sample without a hit changes neither hits nor demand, and a chop in progress
advances by one, or ends with a regulator restart. -/
def Obligations.ContactChecksSoftLimitAndLinkHold : Prop :=
  (∀ (c : Chan) (s : State) (l : LimitSet), (s.chan c).log.Ok → (s.chan c).st = .checking →
    (s.chan c).contact.inProgress = true → (s.chan c).limits = some l → 5 * l.filterTime ≤ (s.chan c).contact.timer →
    ∃ t, exec (.contactCheckFail c) s = .next t ∧
      Tripped (s.chan c) (t.chan c) .contactFail (s.lastVit c).1 (s.lastVit c).2.1 (s.lastVit c).2.2 ∧ Counted s t c 0 1 1 ∧
      t.arb.wanted[c] = ⟨.none, 0⟩ ∧ Frame s t c (logAreas c) ∧ t.links = s.links ∧ t.slots = s.slots ∧ t.pairs = s.pairs) ∧
  (∀ (c : Chan) (s : State), (s.chan c).st ≠ .checking ∨ (s.chan c).contact.inProgress = false ∨ (s.chan c).limits = none ∨
      (∃ l, (s.chan c).limits = some l ∧ (s.chan c).contact.timer < 5 * l.filterTime) →
    exec (.contactCheckFail c) s = .next s) ∧
  (∀ (c : Chan) (s : State), (s.chan c).log.Ok →
    (s.chan c).st = .checking ∨ (s.chan c).st = .running ∨ (s.chan c).st = .paused ∨ (s.chan c).st = .held →
    (s.chan c).linkHold.running = true → (s.chan c).linkHold.due = true →
    ∃ t, exec (.linkHoldExpiry c) s = .next t ∧
      Tripped (s.chan c) (t.chan c) .linkLost (s.lastVit c).1 (s.lastVit c).2.1 (s.lastVit c).2.2 ∧ Counted s t c 0 1 1 ∧
      t.arb.wanted[c] = ⟨.none, 0⟩ ∧ Frame s t c (logAreas c) ∧ t.links = s.links ∧ t.slots = s.slots ∧ t.pairs = s.pairs) ∧
  (∀ (c : Chan) (s : State), (s.chan c).linkHold.running = false ∨ (s.chan c).linkHold.due = false ∨
      (s.chan c).st.tripable = false →
    exec (.linkHoldExpiry c) s = .next s) ∧
  (∀ (s : State) (c : Chan) (l : LimitSet) (x : Input), (s.chan c).st = .checking → (s.chan c).contact.inProgress = true →
    (s.chan c).limits = some l →
    let k := (s.chan c).contact
    let n := if l.vCmin ≤ x.v ∧ x.v ≤ l.vCmax then k.inWindow + 1 else 0
    let ch' := (s.protect c x).chan c
    let failed := ch'.st = .tripped ∧ ch'.fault.first = some .contactFail ∧ ch'.fault.coincident = [] ∧ ch'.fault.v = x.v ∧
      ch'.fault.i = x.i ∧ ch'.fault.t = x.t ∧ ch'.contact.inProgress = false
    (x.valid = true → ChecksPass l x →
      (l.filterTime ≤ n → ch'.contact = ⟨false, n, k.timer + 1⟩ ∧
        ch'.st = (if (s.chan c).hold.logFull = false ∧ (s.chan c).hold.linkDown = false then .running else .held)) ∧
      (n < l.filterTime → 5 * l.filterTime ≤ k.timer + 1 → failed) ∧
      (n < l.filterTime → k.timer + 1 < 5 * l.filterTime →
        ch' = { s.chan c with checks := ⟨false, false, false, false, false⟩, contact := ⟨true, n, k.timer + 1⟩ })) ∧
    (x.valid = false → (s.chan c).silence < l.silenceLimit →
      (5 * l.filterTime ≤ k.timer + 1 → failed) ∧
      (k.timer + 1 < 5 * l.filterTime → ch' = { s.chan c with contact := ⟨true, k.inWindow, k.timer + 1⟩ }))) ∧
  ∀ (s : State) (c : Chan) (l : LimitSet) (x : Input), (s.chan c).st = .running → (s.chan c).limits = some l → x.valid = true →
    ChecksPass l x →
    let ch := s.chan c
    let stopped := ch.blanking.running = false ∨ l.blankTime ≤ ch.blanking.count
    let ch1 := { ch with
      checks := ⟨false, false, false, false, false⟩
      blanking := if l.blankTime ≤ ch.blanking.count then { ch.blanking with running := false } else ch.blanking }
    let ch' := (s.protect c x).chan c
    (l.iSoft < x.i.natAbs → stopped → ch.chop = none →
      (ch.hits + 1 ≤ l.softMax →
        ch' = { ch1 with hits := ch.hits + 1, chop := some 0, demand := 0, chopCtr := ch.chopCtr + 1 }) ∧
      (l.softMax < ch.hits + 1 → ch'.st = .tripped ∧ ch'.fault.first = some .softRepeat ∧ ch'.fault.coincident = [] ∧
        ch'.fault.v = x.v ∧ ch'.fault.i = x.i ∧ ch'.fault.t = x.t ∧ ch'.chop = none ∧ ch'.demand = 0 ∧ ch'.hits = 0)) ∧
    ((x.i.natAbs : Int) ≤ l.iSoft ∨ ¬ stopped → ch.chop = none → ch' = ch1) ∧
    (∀ k, ch.chop = some k → k + 1 < l.chopOff → ch' = { ch1 with chop := some (k + 1) }) ∧
    ∀ k p, ch.chop = some k → l.chopOff ≤ k + 1 → ch.active = some p → (x.i.natAbs : Int) ≤ l.iSoft ∨ ¬ stopped →
      ch' = { ch1 with chop := none, reg := ch.reg.restart p.header }

/-! ### The lines -/

/-- R19, R116: the assertion of STOP_ALL trips every channel in CHECKING, RUNNING, PAUSED or HELD with EXTERNAL_STOP and the held values,
is a later fault in TRIPPED, and acts on no other channel; the release changes no channel. Each edge is counted in the device record;
a line already at the level has no edge (log 12). -/
def Obligations.StopAllTripsEveryActiveChannel : Prop :=
  (∀ s : State, s.LogsOk → s.stopAll = false → ∃ t, exec .stopAllAssert s = .next t ∧
    DeviceKept { s with stopAll := true } t ∧
    t.notices.dev = { s.notices.dev with stopAllChanges := s.notices.dev.stopAllChanges + 1 } ∧
    t.notices.attention.getLsbD 16 = true ∧ t.links = s.links ∧ t.slots = s.slots ∧ t.pairs = s.pairs ∧
    (∀ c, (s.chan c).st.tripable = true →
      Tripped (s.chan c) (t.chan c) .externalStop (s.lastVit c).1 (s.lastVit c).2.1 (s.lastVit c).2.2 ∧
      (t.notices.chan[c]).faults = (s.notices.chan[c]).faults + 1) ∧
    (∀ c, (s.chan c).st = .tripped → (t.notices.chan[c]).faults = (s.notices.chan[c]).faults + 1 ∧
      ∃ az log hold, t.chan c = { s.chan c with
        az := az
        log := log
        hold := hold
        fault := { (s.chan c).fault with
          laterCount := min ((s.chan c).fault.laterCount + 1) 65535, lastLater := some .externalStop, acked := false } }) ∧
    (∀ c, (s.chan c).st.inPlan = false → ∃ az, t.chan c = { s.chan c with az := az }) ∧
    StoreKept s t (devNoticeArea :: allChans.flatMap logAreas)) ∧
  (∀ s : State, s.stopAll = true → ∃ t, exec .stopAllRelease s = .next t ∧ DeviceKept { s with stopAll := false } t ∧
    DeviceCounted s t 0 0 1 ∧ DeviceNoticesKept s t ∧ t.chans = s.chans ∧ t.links = s.links ∧ t.slots = s.slots ∧
    t.pairs = s.pairs ∧ t.arb = s.arb ∧ StoreKept s t [devNoticeArea]) ∧
  (∀ s : State, s.stopAll = true → exec .stopAllAssert s = .next s) ∧
  ∀ s : State, s.stopAll = false → exec .stopAllRelease s = .next s

/-- R20, R8 to R10: at the falling edge of LINK_OK every channel in a plan state has LINK_DOWN, a RUNNING one becomes HELD with demand 0,
and the link-hold timer starts but in TRIPPED; at the rising edge LINK_DOWN leaves every set and a HELD channel whose set is empty
becomes RUNNING. Each edge is counted in the device record; a line already at the level has no edge (log 12). -/
def Obligations.LinkEdgesHoldAndRelease : Prop :=
  let whole := fun (s t : State) (ok : Bool) => DeviceKept { s with linkOk := ok } t ∧
    t.notices.dev = { s.notices.dev with linkChanges := s.notices.dev.linkChanges + 1 } ∧
    t.notices.attention.getLsbD 16 = true ∧ t.links = s.links ∧ t.slots = s.slots ∧ t.pairs = s.pairs ∧
    (∀ c, (s.chan c).st.inPlan = false → ∃ az, t.chan c = { s.chan c with az := az }) ∧
    StoreKept s t (devNoticeArea :: allChans.flatMap logAreas)
  (∀ s : State, s.LogsOk → s.linkOk = true → ∃ t, exec .linkOkFall s = .next t ∧ whole s t false ∧
    ∀ c, (s.chan c).st.inPlan = true → (t.chan c).hold.linkDown = true ∧
      ((s.chan c).hold.linkDown = false →
        (t.chan c).st = (if (s.chan c).st = .running then .held else (s.chan c).st) ∧
        ((s.chan c).st = .running → (t.chan c).demand = 0 ∧ t.arb.wanted[c] = ⟨.none, 0⟩) ∧
        ((s.chan c).st ≠ .tripped → (t.chan c).linkHold = ⟨true, 0, false⟩) ∧
        ((s.chan c).st = .tripped → (t.chan c).linkHold = (s.chan c).linkHold) ∧
        (t.chan c).seqr = (s.chan c).seqr ∧ (t.chan c).stepSet = (s.chan c).stepSet ∧
        (t.chan c).planSet = (s.chan c).planSet)) ∧
  (∀ s : State, s.LogsOk → s.linkOk = false → ∃ t, exec .linkOkRise s = .next t ∧ whole s t true ∧
    ∀ c, (s.chan c).st.inPlan = true → (t.chan c).hold.linkDown = false ∧
      ((s.chan c).hold.linkDown = true →
        (s.chan c).st ≠ .running ∧
        (t.chan c).st = (if (s.chan c).st = .held ∧ (t.chan c).hold.isEmpty = true then .running else (s.chan c).st) ∧
        (t.chan c).linkHold = ⟨false, 0, false⟩ ∧ (t.chan c).planSet = (s.chan c).planSet)) ∧
  (∀ s : State, s.linkOk = false → exec .linkOkFall s = .next s) ∧ ∀ s : State, s.linkOk = true → exec .linkOkRise s = .next s

/-! ### The Arbiter -/

/-- R142, R137: the Arbiter's falling edge clears the link-up flag and makes every grant 0 W at once; its rising edge sets the flag and
evaluates, or grants FULL to all while no settings are present. The interval timer's expiry starts its count again and evaluates; before
the interval is counted the row has no effect (log 8, DESIGN CHOICE). That the Arbiter's taking of an edge acts in every state, also
towards the level that its flag has already, is log 12 (DESIGN CHOICE). -/
def Obligations.ArbiterEdgesAndInterval : Prop :=
  (∀ s : State, exec (.arbiterLinkEdge false) s = .next { s with
    arb := { s.arb with linkUp := false, grants := Vector.replicate 16 (.watts 0) } }) ∧
  (∀ s : State, s.arb.settings = none → exec (.arbiterLinkEdge true) s = .next { s with
    arb := { s.arb with linkUp := true, grants := Vector.replicate 16 .full } }) ∧
  (∀ (s : State) (l : LinkSettings), s.arb.settings = some l → exec (.arbiterLinkEdge true) s = .next { s with
    arb := Arbiter.evaluate { s.arb with linkUp := true } s.prio l }) ∧
  (∀ (s : State) (l : LinkSettings) (k : Nat), s.arb.settings = some l → s.arb.timer = some k → l.interval ≤ k →
    exec .intervalTimerExpiry s = .next { s with arb := Arbiter.evaluate { s.arb with timer := some 0 } s.prio l }) ∧
  ∀ s : State, s.arb.intervalDue = false → exec .intervalTimerExpiry s = .next s

/-- What a grant counts as (R138). -/
def Grant.counts (g : Grant) (w : Nat) : Nat :=
  match g with
  | .full => w
  | .watts n => n

/-- The power that the grants allow in a direction (R138). -/
def allowed (a : Arbiter) (dir : WantDir) : Nat :=
  (allChans.map fun c => if a.wanted[c].dir = dir then Grant.counts a.grants[c] a.wanted[c].mag else 0).sum

/-- R134: the wanted power of a channel at voltage v: nothing outside RUNNING and in a REST step; in a CC or CCCV step the power of the
setpoint current, at most I_run_max, rounded up; in a CP step the lesser of |P| and the CP equivalent of I_run_max, rounded up. -/
def WantedPower : Prop :=
  let up := fun (m n : Nat) => n ≤ m * 1000000 ∧ m * 1000000 < n + 1000000
  ∀ (ch : Channel) (v : Int) (st : Step) (l : LimitSet), ch.curStep = some st → ch.limits = some l → l.Ok → 0 ≤ v →
    let w := ch.wants v
    let toward := fun (setpoint : Int) => w.dir = if w.mag = 0 then .none else if 0 < setpoint then .charge else .discharge
    (ch.st ≠ .running → w = ⟨.none, 0⟩) ∧
    (st.body = .rest → w = ⟨.none, 0⟩) ∧
    (ch.st = .running → ∀ i : Int, st.body = .cc i ∨ (∃ target, st.body = .cccv i target) →
      up w.mag (min i.natAbs l.iRunMax.toNat * v.toNat) ∧ toward i) ∧
    (ch.st = .running → ∀ p : Int, st.body = .cp p →
      (∃ m, up m (l.iRunMax.toNat * max v.toNat 1000) ∧ w.mag = min p.natAbs m) ∧ toward p)

/-- R139, R140: the wanted power of the channels of one direction and one priority class. -/
def classTotal (a : Arbiter) (dir : WantDir) (k : Nat) : Nat :=
  (allChans.map fun c => if a.wanted[c].dir = dir ∧ a.classes[c] = k then a.wanted[c].mag else 0).sum

/-- R139, R140: the grants of a cut by an excess of x: FULL to a channel that does not want power in the direction cut; to one that does,
0 W where the totals of its class and of the classes taken before it (2, then 1, then 0) fall short of the excess, its part by the
class fraction where its class is the one that the excess ends in, and FULL where the excess ends in an earlier class. -/
def CutBy (a : Arbiter) (dir : WantDir) (x : Nat) : Prop :=
  ∀ c : Chan,
    let w := a.wanted[c]
    let total := classTotal a dir a.classes[c]
    let before := if a.classes[c] = 0 then classTotal a dir 2 + classTotal a dir 1
      else if a.classes[c] = 1 then classTotal a dir 2 else 0
    (w.dir ≠ dir → a.grants[c] = .full) ∧
    (w.dir = dir → 0 < w.mag →
      (x ≤ before → a.grants[c] = .full) ∧
      (before < x → x ≤ before + total →
        a.grants[c] = .watts (w.mag * ((total - (x - before)) * 1024 / total) / 1024)) ∧
      (before + total < x → a.grants[c] = .watts 0))

/-- R134: what a channel wants (WantedPower). R138 to R140, R142, R143: an evaluation with the link-up flag set has outcome WITHIN,
IMPORT_CUT or EXPORT_CUT by where N lies, counts it, reads the classes, and grants FULL to all, or cuts the channels of the one direction by the excess, class by class. So the charging
power that the grants allow less the discharging power wanted does not exceed the import limit, nor the discharging power allowed less the
charging power wanted the export limit; no grant counts for more than is wanted; the summary and the counters record it. With the flag
clear every grant is 0 W, the outcome LINK_DOWN. That the power counted against the granted one is the wanted power of the other direction
is log 43 (DEDUCED). -/
def Obligations.GrantsKeepTheLinkLimits : Prop :=
  WantedPower ∧ ∀ (a : Arbiter) (prio : Chan → Option Nat) (l : LinkSettings), (∀ c : Chan, a.classes[c] ≤ 2) →
    (∀ c n, prio c = some n → n ≤ 2) →
    let b := a.evaluate prio l
    let n := b.summary.net
    b.evals = a.evals + 1 ∧ b.wanted = a.wanted ∧ b.settings = a.settings ∧ b.timer = a.timer ∧ b.linkSet = a.linkSet ∧
    b.linkUp = a.linkUp ∧
    b.summary.sPlus = a.total .charge (fun _ => true) ∧ b.summary.sMinus = a.total .discharge (fun _ => true) ∧
    n = (b.summary.sPlus : Int) - b.summary.sMinus ∧
    (a.linkUp = true →
      (∀ c : Chan, b.classes[c] = if a.wanted[c].dir = .none then a.classes[c] else (prio c).getD a.classes[c]) ∧
      b.linkDowns = a.linkDowns ∧
      (-(l.exportLimit : Int) ≤ n → n ≤ l.importLimit → b.summary.outcome = .within ∧ b.importCuts = a.importCuts ∧
        b.exportCuts = a.exportCuts ∧ ∀ c : Chan, b.grants[c] = .full) ∧
      (l.importLimit < n → b.summary.outcome = .importCut ∧ b.importCuts = a.importCuts + 1 ∧ b.exportCuts = a.exportCuts ∧
        CutBy b .charge (n - l.importLimit).toNat) ∧
      (n < -(l.exportLimit : Int) → b.summary.outcome = .exportCut ∧ b.importCuts = a.importCuts ∧
        b.exportCuts = a.exportCuts + 1 ∧ CutBy b .discharge (-(l.exportLimit : Int) - n).toNat) ∧
      (allowed b .charge : Int) - b.summary.sMinus ≤ l.importLimit ∧
      (allowed b .discharge : Int) - b.summary.sPlus ≤ l.exportLimit ∧
      ∀ c : Chan, Grant.counts b.grants[c] b.wanted[c].mag ≤ b.wanted[c].mag) ∧
    (a.linkUp = false → b.summary.outcome = .linkDown ∧ b.linkDowns = a.linkDowns + 1 ∧ b.importCuts = a.importCuts ∧
      b.exportCuts = a.exportCuts ∧ b.classes = a.classes ∧ ∀ c : Chan, b.grants[c] = .watts 0)

/-! ### Frames on the wire -/

/-- R167, R192: the 64 bits of a demand frame: kind in bits 0 to 3, index in 4 to 11, DRIVE in 12, range in 13 and 14, demand in 15 to
36, the check nibble, the sum of index, range, DRIVE and demand mod 16, in 37 to 40, zeros to 62, and an even number of
ones in all. And R123: the two shares of a pair demand sum to it, differ by at most 1, and the leader's is not the lesser in
magnitude. -/
def Obligations.DemandFramesAndPairShares : Prop :=
  (∀ d : Int, leaderShare d + followerShare d = d ∧ (leaderShare d - followerShare d).natAbs ≤ 1 ∧
    (followerShare d).natAbs ≤ (leaderShare d).natAbs ∧ (followerShare d).natAbs = d.natAbs / 2) ∧
  ∀ f : FrameRecord, -(2 ^ 21 : Int) ≤ f.demand → f.demand < 2 ^ 21 →
    let w := f.encode.toNat
    w % 16 = (match f.kind with | .demand => 5 | .probe => 6) ∧ w / 2 ^ 4 % 256 = f.index.toNat ∧
    w / 2 ^ 12 % 2 = (if f.drive then 1 else 0) ∧ w / 2 ^ 13 % 4 = f.range.val ∧
    toSigned 22 (w / 2 ^ 15 % 2 ^ 22) = f.demand ∧
    ((w / 2 ^ 37 % 16 : Nat) : Int) = (f.index.toNat + f.range.val + (if f.drive then 1 else 0) + f.demand) % 16 ∧
    w / 2 ^ 41 % 2 ^ 22 = 0 ∧ oddOnes 64 w = false
end

