-- ==== Sys2Proof/Laws/Mem.lean ====
section
/-!
SUPPORT. The Shared Store: what a read gives after each write, and that every write keeps the canonical form.
-/

namespace Sys2Proof.Machine

/-! ### Reads -/

theorem Mem.read_erase_self (m : Mem) (a : Nat) : (m.erase a).read a = Mem.unlisted := by
  induction m with
  | nil => rfl
  | cons e m ih =>
    unfold Mem.erase at *
    by_cases h : e.1 = a
    · simpa [List.filter_cons, h] using ih
    · simpa [List.filter_cons, h, Mem.read, Ne.symm h] using ih

theorem Mem.read_erase_ne (m : Mem) {a b : Nat} (h : b ≠ a) : (m.erase a).read b = m.read b := by
  induction m with
  | nil => rfl
  | cons e m ih =>
    unfold Mem.erase at *
    by_cases h1 : e.1 = a
    · simp [h1, ih, Mem.read, h]
    · simp [h1, Mem.read, ih]

theorem Mem.read_insert_self (m : Mem) (a : Nat) (v : Byte) (h : ∀ e ∈ m, e.1 ≠ a) : (Mem.insert m a v).read a = v := by
  induction m with
  | nil => simp [Mem.insert, Mem.read]
  | cons e m ih =>
    obtain ⟨b, w⟩ := e
    have hb : b ≠ a := h (b, w) (by simp)
    have := ih fun e he => h e (by simp [he])
    unfold Mem.insert
    split
    · simp [Mem.read]
    · simp [Mem.read, Ne.symm hb, this]

theorem Mem.read_insert_ne (m : Mem) {a b : Nat} (v : Byte) (h : b ≠ a) : (Mem.insert m a v).read b = m.read b := by
  induction m with
  | nil => simp [Mem.insert, Mem.read, h]
  | cons e m ih =>
    obtain ⟨k, w⟩ := e
    unfold Mem.insert
    split
    · simp [Mem.read, h]
    · simp [Mem.read, ih]

theorem Mem.erase_ne (m : Mem) (a : Nat) : ∀ e ∈ m.erase a, e.1 ≠ a := by
  intro e he
  simpa using (List.mem_filter.mp he).2

/-- A byte reads as it was written. -/
@[simp] theorem Mem.read_write_self (m : Mem) (a : Nat) (v : Byte) : (m.write a v).read a = v := by
  unfold Mem.write
  split
  · next h => rw [h]; exact Mem.read_erase_self m a
  · exact Mem.read_insert_self _ a v (Mem.erase_ne m a)

/-- A write leaves every other byte. -/
theorem Mem.read_write_ne (m : Mem) {a b : Nat} (v : Byte) (h : b ≠ a) : (m.write a v).read b = m.read b := by
  unfold Mem.write
  split
  · exact Mem.read_erase_ne m h
  · rw [Mem.read_insert_ne _ v h]; exact Mem.read_erase_ne m h

/-- Bytes written leave every byte outside them. -/
theorem Mem.read_writeBytes_ne (m : Mem) (a b : Nat) (l : List Byte) (h : b < a ∨ a + l.length ≤ b) :
    (m.writeBytes a l).read b = m.read b := by
  induction l generalizing m a with
  | nil => rfl
  | cons v l ih =>
    simp only [Mem.writeBytes, List.length_cons] at *
    rw [ih _ _ (by omega), Mem.read_write_ne m v (by omega)]

/-- Bytes written read as they were written. -/
theorem Mem.read_writeBytes (m : Mem) (a k : Nat) (l : List Byte) (h : k < l.length) :
    (m.writeBytes a l).read (a + k) = l[k] := by
  induction l generalizing m a k with
  | nil => simp at h
  | cons v l ih =>
    simp only [Mem.writeBytes]
    cases k with
    | zero => rw [Mem.read_writeBytes_ne _ _ _ _ (by omega)]; simp
    | succ k =>
      have := ih (m.write a v) (a + 1) k (by simpa using h)
      simpa [Nat.add_assoc, Nat.add_comm 1 k] using this

@[simp] theorem Mem.readBytes_length (m : Mem) (a n : Nat) : (m.readBytes a n).length = n := by
  induction n generalizing a with
  | zero => rfl
  | succ n ih => simp [Mem.readBytes, ih]

/-- Bytes read one by one. -/
theorem Mem.readBytes_congr (m m' : Mem) (a n : Nat) (h : ∀ b, a ≤ b → b < a + n → m'.read b = m.read b) :
    m'.readBytes a n = m.readBytes a n := by
  induction n generalizing a with
  | zero => rfl
  | succ n ih =>
    simp only [Mem.readBytes]
    rw [h a (by omega) (by omega), ih (a + 1) fun b h1 h2 => h b (by omega) (by omega)]

/-- What was written is what is read back. -/
theorem Mem.readBytes_writeBytes (m : Mem) (a : Nat) (l : List Byte) : (m.writeBytes a l).readBytes a l.length = l := by
  induction l generalizing m a with
  | nil => rfl
  | cons v l ih =>
    simp only [Mem.writeBytes, List.length_cons, Mem.readBytes]
    rw [Mem.read_writeBytes_ne _ _ _ _ (by omega), Mem.read_write_self, ih]

/-- The first n of the bytes written read back. -/
theorem Mem.readBytes_writeBytes_take (m : Mem) (a n : Nat) (l : List Byte) (h : n ≤ l.length) :
    (m.writeBytes a l).readBytes a n = l.take n := by
  induction n generalizing m a l with
  | zero => simp [Mem.readBytes]
  | succ n ih =>
    cases l with
    | nil => simp at h
    | cons v l =>
      simp only [Mem.writeBytes, Mem.readBytes, List.take_succ_cons]
      rw [Mem.read_writeBytes_ne _ _ _ _ (by omega), Mem.read_write_self, ih _ _ _ (by simpa using h)]

/-- Bytes written elsewhere do not change what is read. -/
theorem Mem.readBytes_writeBytes_ne (m : Mem) (a b n : Nat) (l : List Byte) (h : b + n ≤ a ∨ a + l.length ≤ b) :
    (m.writeBytes a l).readBytes b n = m.readBytes b n :=
  Mem.readBytes_congr _ _ _ _ fun k h1 h2 => Mem.read_writeBytes_ne _ _ _ _ (by omega)

/-- Clearing leaves every byte outside. -/
theorem Mem.read_clear_ne (m : Mem) (a n b : Nat) (h : b < a ∨ a + n ≤ b) : (m.clear a n).read b = m.read b := by
  induction m with
  | nil => rfl
  | cons e m ih =>
    unfold Mem.clear at *
    by_cases h1 : e.1 < a ∨ a + n ≤ e.1
    · simp [h1, Mem.read, ih]
    · have : b ≠ e.1 := fun hb => h1 (hb ▸ h)
      simp [h1, Mem.read, ih, this]

/-- Cleared bytes read as unlisted. -/
theorem Mem.read_clear (m : Mem) (a n b : Nat) (h1 : a ≤ b) (h2 : b < a + n) : (m.clear a n).read b = Mem.unlisted := by
  induction m with
  | nil => rfl
  | cons e m ih =>
    unfold Mem.clear at *
    by_cases h : e.1 < a ∨ a + n ≤ e.1
    · have : b ≠ e.1 := by omega
      simp [h, Mem.read, ih, this]
    · simp [h, ih]

/-! ### The canonical form -/

theorem Mem.wfFrom_mono {n k : Nat} {m : Mem} (h : Mem.wfFrom n m = true) (hk : k ≤ n) : Mem.wfFrom k m = true := by
  cases m with
  | nil => rfl
  | cons e m =>
    simp only [Mem.wfFrom, Bool.and_eq_true, decide_eq_true_eq] at *
    exact ⟨⟨by omega, h.1.2⟩, h.2⟩

theorem Mem.wfFrom_filter (p : Host.Cell → Bool) {n : Nat} {m : Mem} (h : Mem.wfFrom n m = true) :
    Mem.wfFrom n (m.filter p) = true := by
  induction m generalizing n with
  | nil => rfl
  | cons e m ih =>
    simp only [Mem.wfFrom, Bool.and_eq_true, decide_eq_true_eq] at h
    by_cases hp : p e = true
    · simp only [List.filter_cons, hp, if_true, Mem.wfFrom, Bool.and_eq_true, decide_eq_true_eq]
      exact ⟨h.1, ih h.2⟩
    · simp only [List.filter_cons, hp]
      exact Mem.wfFrom_mono (ih h.2) (by omega)

theorem Mem.wfFrom_insert {n a : Nat} {m : Mem} {v : Byte} (h : Mem.wfFrom n m = true) (hn : n ≤ a) (hv : v ≠ Mem.unlisted)
    (ha : ∀ e ∈ m, e.1 ≠ a) : Mem.wfFrom n (Mem.insert m a v) = true := by
  induction m generalizing n with
  | nil => simp [Mem.insert, Mem.wfFrom, hn, hv]
  | cons e m ih =>
    obtain ⟨b, w⟩ := e
    have hb : b ≠ a := ha (b, w) (by simp)
    simp only [Mem.wfFrom, Bool.and_eq_true, decide_eq_true_eq] at h
    unfold Mem.insert
    split
    · simp only [Mem.wfFrom, Bool.and_eq_true, decide_eq_true_eq, bne_iff_ne, ne_eq]
      exact ⟨⟨hn, hv⟩, ⟨by omega, by simpa using h.1.2⟩, h.2⟩
    · simp only [Mem.wfFrom, Bool.and_eq_true, decide_eq_true_eq]
      exact ⟨h.1, ih h.2 (by omega) fun e he => ha e (by simp [he])⟩

theorem Mem.wf_write {m : Mem} (h : Mem.wf m = true) (a : Nat) (v : Byte) : Mem.wf (m.write a v) = true := by
  unfold Mem.write
  split
  · exact Mem.wfFrom_filter _ h
  · next hv => exact Mem.wfFrom_insert (Mem.wfFrom_filter _ h) (Nat.zero_le _) hv (Mem.erase_ne m a)

theorem Mem.wf_writeBytes {m : Mem} (h : Mem.wf m = true) (a : Nat) (l : List Byte) :
    Mem.wf (m.writeBytes a l) = true := by
  induction l generalizing m a with
  | nil => exact h
  | cons v l ih => exact ih (Mem.wf_write h a v) _

theorem Mem.wf_clear {m : Mem} (h : Mem.wf m = true) (a n : Nat) : Mem.wf (m.clear a n) = true :=
  Mem.wfFrom_filter _ h

end Sys2Proof.Machine
end

