-- ==== Sys2Proof/Laws/State.lean ====
section
/-!
SUPPORT. What each primitive update of the state leaves, field by field, and what reads its own part after it.
-/

namespace Sys2Proof.Machine

/-! ### modChan -/

@[simp] theorem State.modChan_phase (s : State) (c : Chan) (f : Channel → Channel) : (s.modChan c f).phase = s.phase := rfl
@[simp] theorem State.modChan_initCount (s : State) (c : Chan) (f : Channel → Channel) : (s.modChan c f).initCount = s.initCount := rfl
@[simp] theorem State.modChan_store (s : State) (c : Chan) (f : Channel → Channel) : (s.modChan c f).store = s.store := rfl
@[simp] theorem State.modChan_stopAll (s : State) (c : Chan) (f : Channel → Channel) : (s.modChan c f).stopAll = s.stopAll := rfl
@[simp] theorem State.modChan_linkOk (s : State) (c : Chan) (f : Channel → Channel) : (s.modChan c f).linkOk = s.linkOk := rfl
@[simp] theorem State.modChan_initKept (s : State) (c : Chan) (f : Channel → Channel) : (s.modChan c f).initKept = s.initKept := rfl
@[simp] theorem State.modChan_slots (s : State) (c : Chan) (f : Channel → Channel) : (s.modChan c f).slots = s.slots := rfl
@[simp] theorem State.modChan_strayPost (s : State) (c : Chan) (f : Channel → Channel) : (s.modChan c f).strayPost = s.strayPost := rfl
@[simp] theorem State.modChan_strayRelease (s : State) (c : Chan) (f : Channel → Channel) : (s.modChan c f).strayRelease = s.strayRelease := rfl
@[simp] theorem State.modChan_notices (s : State) (c : Chan) (f : Channel → Channel) : (s.modChan c f).notices = s.notices := rfl
@[simp] theorem State.modChan_timerRunning (s : State) (c : Chan) (f : Channel → Channel) : (s.modChan c f).timerRunning = s.timerRunning := rfl
@[simp] theorem State.modChan_sampleIndex (s : State) (c : Chan) (f : Channel → Channel) : (s.modChan c f).sampleIndex = s.sampleIndex := rfl
@[simp] theorem State.modChan_links (s : State) (c : Chan) (f : Channel → Channel) : (s.modChan c f).links = s.links := rfl
@[simp] theorem State.modChan_arb (s : State) (c : Chan) (f : Channel → Channel) : (s.modChan c f).arb = s.arb := rfl
@[simp] theorem State.modChan_pairs (s : State) (c : Chan) (f : Channel → Channel) : (s.modChan c f).pairs = s.pairs := rfl
@[simp] theorem State.modChan_pending (s : State) (c : Chan) (f : Channel → Channel) : (s.modChan c f).pending = s.pending := rfl

/-! ### setChan -/

@[simp] theorem State.setChan_phase (s : State) (c : Chan) (ch : Channel) : (s.setChan c ch).phase = s.phase := rfl
@[simp] theorem State.setChan_initCount (s : State) (c : Chan) (ch : Channel) : (s.setChan c ch).initCount = s.initCount := rfl
@[simp] theorem State.setChan_store (s : State) (c : Chan) (ch : Channel) : (s.setChan c ch).store = s.store := rfl
@[simp] theorem State.setChan_stopAll (s : State) (c : Chan) (ch : Channel) : (s.setChan c ch).stopAll = s.stopAll := rfl
@[simp] theorem State.setChan_linkOk (s : State) (c : Chan) (ch : Channel) : (s.setChan c ch).linkOk = s.linkOk := rfl
@[simp] theorem State.setChan_initKept (s : State) (c : Chan) (ch : Channel) : (s.setChan c ch).initKept = s.initKept := rfl
@[simp] theorem State.setChan_slots (s : State) (c : Chan) (ch : Channel) : (s.setChan c ch).slots = s.slots := rfl
@[simp] theorem State.setChan_strayPost (s : State) (c : Chan) (ch : Channel) : (s.setChan c ch).strayPost = s.strayPost := rfl
@[simp] theorem State.setChan_strayRelease (s : State) (c : Chan) (ch : Channel) : (s.setChan c ch).strayRelease = s.strayRelease := rfl
@[simp] theorem State.setChan_notices (s : State) (c : Chan) (ch : Channel) : (s.setChan c ch).notices = s.notices := rfl
@[simp] theorem State.setChan_timerRunning (s : State) (c : Chan) (ch : Channel) : (s.setChan c ch).timerRunning = s.timerRunning := rfl
@[simp] theorem State.setChan_sampleIndex (s : State) (c : Chan) (ch : Channel) : (s.setChan c ch).sampleIndex = s.sampleIndex := rfl
@[simp] theorem State.setChan_links (s : State) (c : Chan) (ch : Channel) : (s.setChan c ch).links = s.links := rfl
@[simp] theorem State.setChan_arb (s : State) (c : Chan) (ch : Channel) : (s.setChan c ch).arb = s.arb := rfl
@[simp] theorem State.setChan_pairs (s : State) (c : Chan) (ch : Channel) : (s.setChan c ch).pairs = s.pairs := rfl
@[simp] theorem State.setChan_pending (s : State) (c : Chan) (ch : Channel) : (s.setChan c ch).pending = s.pending := rfl

/-! ### modLog -/

@[simp] theorem State.modLog_phase (s : State) (c : Chan) (f : Logger → Logger) : (s.modLog c f).phase = s.phase := rfl
@[simp] theorem State.modLog_initCount (s : State) (c : Chan) (f : Logger → Logger) : (s.modLog c f).initCount = s.initCount := rfl
@[simp] theorem State.modLog_store (s : State) (c : Chan) (f : Logger → Logger) : (s.modLog c f).store = s.store := rfl
@[simp] theorem State.modLog_stopAll (s : State) (c : Chan) (f : Logger → Logger) : (s.modLog c f).stopAll = s.stopAll := rfl
@[simp] theorem State.modLog_linkOk (s : State) (c : Chan) (f : Logger → Logger) : (s.modLog c f).linkOk = s.linkOk := rfl
@[simp] theorem State.modLog_initKept (s : State) (c : Chan) (f : Logger → Logger) : (s.modLog c f).initKept = s.initKept := rfl
@[simp] theorem State.modLog_slots (s : State) (c : Chan) (f : Logger → Logger) : (s.modLog c f).slots = s.slots := rfl
@[simp] theorem State.modLog_strayPost (s : State) (c : Chan) (f : Logger → Logger) : (s.modLog c f).strayPost = s.strayPost := rfl
@[simp] theorem State.modLog_strayRelease (s : State) (c : Chan) (f : Logger → Logger) : (s.modLog c f).strayRelease = s.strayRelease := rfl
@[simp] theorem State.modLog_notices (s : State) (c : Chan) (f : Logger → Logger) : (s.modLog c f).notices = s.notices := rfl
@[simp] theorem State.modLog_timerRunning (s : State) (c : Chan) (f : Logger → Logger) : (s.modLog c f).timerRunning = s.timerRunning := rfl
@[simp] theorem State.modLog_sampleIndex (s : State) (c : Chan) (f : Logger → Logger) : (s.modLog c f).sampleIndex = s.sampleIndex := rfl
@[simp] theorem State.modLog_links (s : State) (c : Chan) (f : Logger → Logger) : (s.modLog c f).links = s.links := rfl
@[simp] theorem State.modLog_arb (s : State) (c : Chan) (f : Logger → Logger) : (s.modLog c f).arb = s.arb := rfl
@[simp] theorem State.modLog_pairs (s : State) (c : Chan) (f : Logger → Logger) : (s.modLog c f).pairs = s.pairs := rfl
@[simp] theorem State.modLog_pending (s : State) (c : Chan) (f : Logger → Logger) : (s.modLog c f).pending = s.pending := rfl

/-! ### modLink -/

@[simp] theorem State.modLink_phase (s : State) (c : Chan) (f : Link → Link) : (s.modLink c f).phase = s.phase := rfl
@[simp] theorem State.modLink_initCount (s : State) (c : Chan) (f : Link → Link) : (s.modLink c f).initCount = s.initCount := rfl
@[simp] theorem State.modLink_store (s : State) (c : Chan) (f : Link → Link) : (s.modLink c f).store = s.store := rfl
@[simp] theorem State.modLink_stopAll (s : State) (c : Chan) (f : Link → Link) : (s.modLink c f).stopAll = s.stopAll := rfl
@[simp] theorem State.modLink_linkOk (s : State) (c : Chan) (f : Link → Link) : (s.modLink c f).linkOk = s.linkOk := rfl
@[simp] theorem State.modLink_initKept (s : State) (c : Chan) (f : Link → Link) : (s.modLink c f).initKept = s.initKept := rfl
@[simp] theorem State.modLink_slots (s : State) (c : Chan) (f : Link → Link) : (s.modLink c f).slots = s.slots := rfl
@[simp] theorem State.modLink_strayPost (s : State) (c : Chan) (f : Link → Link) : (s.modLink c f).strayPost = s.strayPost := rfl
@[simp] theorem State.modLink_strayRelease (s : State) (c : Chan) (f : Link → Link) : (s.modLink c f).strayRelease = s.strayRelease := rfl
@[simp] theorem State.modLink_notices (s : State) (c : Chan) (f : Link → Link) : (s.modLink c f).notices = s.notices := rfl
@[simp] theorem State.modLink_timerRunning (s : State) (c : Chan) (f : Link → Link) : (s.modLink c f).timerRunning = s.timerRunning := rfl
@[simp] theorem State.modLink_sampleIndex (s : State) (c : Chan) (f : Link → Link) : (s.modLink c f).sampleIndex = s.sampleIndex := rfl
@[simp] theorem State.modLink_arb (s : State) (c : Chan) (f : Link → Link) : (s.modLink c f).arb = s.arb := rfl
@[simp] theorem State.modLink_chans (s : State) (c : Chan) (f : Link → Link) : (s.modLink c f).chans = s.chans := rfl
@[simp] theorem State.modLink_pairs (s : State) (c : Chan) (f : Link → Link) : (s.modLink c f).pairs = s.pairs := rfl
@[simp] theorem State.modLink_pending (s : State) (c : Chan) (f : Link → Link) : (s.modLink c f).pending = s.pending := rfl

/-! ### modSlot -/

@[simp] theorem State.modSlot_phase (s : State) (n : SlotIx) (f : Slot → Slot) : (s.modSlot n f).phase = s.phase := rfl
@[simp] theorem State.modSlot_initCount (s : State) (n : SlotIx) (f : Slot → Slot) : (s.modSlot n f).initCount = s.initCount := rfl
@[simp] theorem State.modSlot_store (s : State) (n : SlotIx) (f : Slot → Slot) : (s.modSlot n f).store = s.store := rfl
@[simp] theorem State.modSlot_stopAll (s : State) (n : SlotIx) (f : Slot → Slot) : (s.modSlot n f).stopAll = s.stopAll := rfl
@[simp] theorem State.modSlot_linkOk (s : State) (n : SlotIx) (f : Slot → Slot) : (s.modSlot n f).linkOk = s.linkOk := rfl
@[simp] theorem State.modSlot_initKept (s : State) (n : SlotIx) (f : Slot → Slot) : (s.modSlot n f).initKept = s.initKept := rfl
@[simp] theorem State.modSlot_strayPost (s : State) (n : SlotIx) (f : Slot → Slot) : (s.modSlot n f).strayPost = s.strayPost := rfl
@[simp] theorem State.modSlot_strayRelease (s : State) (n : SlotIx) (f : Slot → Slot) : (s.modSlot n f).strayRelease = s.strayRelease := rfl
@[simp] theorem State.modSlot_notices (s : State) (n : SlotIx) (f : Slot → Slot) : (s.modSlot n f).notices = s.notices := rfl
@[simp] theorem State.modSlot_timerRunning (s : State) (n : SlotIx) (f : Slot → Slot) : (s.modSlot n f).timerRunning = s.timerRunning := rfl
@[simp] theorem State.modSlot_sampleIndex (s : State) (n : SlotIx) (f : Slot → Slot) : (s.modSlot n f).sampleIndex = s.sampleIndex := rfl
@[simp] theorem State.modSlot_links (s : State) (n : SlotIx) (f : Slot → Slot) : (s.modSlot n f).links = s.links := rfl
@[simp] theorem State.modSlot_arb (s : State) (n : SlotIx) (f : Slot → Slot) : (s.modSlot n f).arb = s.arb := rfl
@[simp] theorem State.modSlot_chans (s : State) (n : SlotIx) (f : Slot → Slot) : (s.modSlot n f).chans = s.chans := rfl
@[simp] theorem State.modSlot_pairs (s : State) (n : SlotIx) (f : Slot → Slot) : (s.modSlot n f).pairs = s.pairs := rfl
@[simp] theorem State.modSlot_pending (s : State) (n : SlotIx) (f : Slot → Slot) : (s.modSlot n f).pending = s.pending := rfl

/-! ### modPair -/

@[simp] theorem State.modPair_phase (s : State) (k : PairIx) (f : Pair → Pair) : (s.modPair k f).phase = s.phase := rfl
@[simp] theorem State.modPair_initCount (s : State) (k : PairIx) (f : Pair → Pair) : (s.modPair k f).initCount = s.initCount := rfl
@[simp] theorem State.modPair_store (s : State) (k : PairIx) (f : Pair → Pair) : (s.modPair k f).store = s.store := rfl
@[simp] theorem State.modPair_stopAll (s : State) (k : PairIx) (f : Pair → Pair) : (s.modPair k f).stopAll = s.stopAll := rfl
@[simp] theorem State.modPair_linkOk (s : State) (k : PairIx) (f : Pair → Pair) : (s.modPair k f).linkOk = s.linkOk := rfl
@[simp] theorem State.modPair_initKept (s : State) (k : PairIx) (f : Pair → Pair) : (s.modPair k f).initKept = s.initKept := rfl
@[simp] theorem State.modPair_slots (s : State) (k : PairIx) (f : Pair → Pair) : (s.modPair k f).slots = s.slots := rfl
@[simp] theorem State.modPair_strayPost (s : State) (k : PairIx) (f : Pair → Pair) : (s.modPair k f).strayPost = s.strayPost := rfl
@[simp] theorem State.modPair_strayRelease (s : State) (k : PairIx) (f : Pair → Pair) : (s.modPair k f).strayRelease = s.strayRelease := rfl
@[simp] theorem State.modPair_notices (s : State) (k : PairIx) (f : Pair → Pair) : (s.modPair k f).notices = s.notices := rfl
@[simp] theorem State.modPair_timerRunning (s : State) (k : PairIx) (f : Pair → Pair) : (s.modPair k f).timerRunning = s.timerRunning := rfl
@[simp] theorem State.modPair_sampleIndex (s : State) (k : PairIx) (f : Pair → Pair) : (s.modPair k f).sampleIndex = s.sampleIndex := rfl
@[simp] theorem State.modPair_links (s : State) (k : PairIx) (f : Pair → Pair) : (s.modPair k f).links = s.links := rfl
@[simp] theorem State.modPair_arb (s : State) (k : PairIx) (f : Pair → Pair) : (s.modPair k f).arb = s.arb := rfl
@[simp] theorem State.modPair_chans (s : State) (k : PairIx) (f : Pair → Pair) : (s.modPair k f).chans = s.chans := rfl
@[simp] theorem State.modPair_pending (s : State) (k : PairIx) (f : Pair → Pair) : (s.modPair k f).pending = s.pending := rfl

/-! ### modArb -/

@[simp] theorem State.modArb_phase (s : State) (f : Arbiter → Arbiter) : (s.modArb f).phase = s.phase := rfl
@[simp] theorem State.modArb_initCount (s : State) (f : Arbiter → Arbiter) : (s.modArb f).initCount = s.initCount := rfl
@[simp] theorem State.modArb_store (s : State) (f : Arbiter → Arbiter) : (s.modArb f).store = s.store := rfl
@[simp] theorem State.modArb_stopAll (s : State) (f : Arbiter → Arbiter) : (s.modArb f).stopAll = s.stopAll := rfl
@[simp] theorem State.modArb_linkOk (s : State) (f : Arbiter → Arbiter) : (s.modArb f).linkOk = s.linkOk := rfl
@[simp] theorem State.modArb_initKept (s : State) (f : Arbiter → Arbiter) : (s.modArb f).initKept = s.initKept := rfl
@[simp] theorem State.modArb_slots (s : State) (f : Arbiter → Arbiter) : (s.modArb f).slots = s.slots := rfl
@[simp] theorem State.modArb_strayPost (s : State) (f : Arbiter → Arbiter) : (s.modArb f).strayPost = s.strayPost := rfl
@[simp] theorem State.modArb_strayRelease (s : State) (f : Arbiter → Arbiter) : (s.modArb f).strayRelease = s.strayRelease := rfl
@[simp] theorem State.modArb_notices (s : State) (f : Arbiter → Arbiter) : (s.modArb f).notices = s.notices := rfl
@[simp] theorem State.modArb_timerRunning (s : State) (f : Arbiter → Arbiter) : (s.modArb f).timerRunning = s.timerRunning := rfl
@[simp] theorem State.modArb_sampleIndex (s : State) (f : Arbiter → Arbiter) : (s.modArb f).sampleIndex = s.sampleIndex := rfl
@[simp] theorem State.modArb_links (s : State) (f : Arbiter → Arbiter) : (s.modArb f).links = s.links := rfl
@[simp] theorem State.modArb_chans (s : State) (f : Arbiter → Arbiter) : (s.modArb f).chans = s.chans := rfl
@[simp] theorem State.modArb_pairs (s : State) (f : Arbiter → Arbiter) : (s.modArb f).pairs = s.pairs := rfl
@[simp] theorem State.modArb_pending (s : State) (f : Arbiter → Arbiter) : (s.modArb f).pending = s.pending := rfl

/-! ### writeStore -/

@[simp] theorem State.writeStore_phase (s : State) (a : Nat) (l : List Byte) : (s.writeStore a l).phase = s.phase := rfl
@[simp] theorem State.writeStore_initCount (s : State) (a : Nat) (l : List Byte) : (s.writeStore a l).initCount = s.initCount := rfl
@[simp] theorem State.writeStore_stopAll (s : State) (a : Nat) (l : List Byte) : (s.writeStore a l).stopAll = s.stopAll := rfl
@[simp] theorem State.writeStore_linkOk (s : State) (a : Nat) (l : List Byte) : (s.writeStore a l).linkOk = s.linkOk := rfl
@[simp] theorem State.writeStore_initKept (s : State) (a : Nat) (l : List Byte) : (s.writeStore a l).initKept = s.initKept := rfl
@[simp] theorem State.writeStore_slots (s : State) (a : Nat) (l : List Byte) : (s.writeStore a l).slots = s.slots := rfl
@[simp] theorem State.writeStore_strayPost (s : State) (a : Nat) (l : List Byte) : (s.writeStore a l).strayPost = s.strayPost := rfl
@[simp] theorem State.writeStore_strayRelease (s : State) (a : Nat) (l : List Byte) : (s.writeStore a l).strayRelease = s.strayRelease := rfl
@[simp] theorem State.writeStore_notices (s : State) (a : Nat) (l : List Byte) : (s.writeStore a l).notices = s.notices := rfl
@[simp] theorem State.writeStore_timerRunning (s : State) (a : Nat) (l : List Byte) : (s.writeStore a l).timerRunning = s.timerRunning := rfl
@[simp] theorem State.writeStore_sampleIndex (s : State) (a : Nat) (l : List Byte) : (s.writeStore a l).sampleIndex = s.sampleIndex := rfl
@[simp] theorem State.writeStore_links (s : State) (a : Nat) (l : List Byte) : (s.writeStore a l).links = s.links := rfl
@[simp] theorem State.writeStore_arb (s : State) (a : Nat) (l : List Byte) : (s.writeStore a l).arb = s.arb := rfl
@[simp] theorem State.writeStore_chans (s : State) (a : Nat) (l : List Byte) : (s.writeStore a l).chans = s.chans := rfl
@[simp] theorem State.writeStore_pairs (s : State) (a : Nat) (l : List Byte) : (s.writeStore a l).pairs = s.pairs := rfl
@[simp] theorem State.writeStore_pending (s : State) (a : Nat) (l : List Byte) : (s.writeStore a l).pending = s.pending := rfl

/-! ### deliver -/

@[simp] theorem State.deliver_phase (s : State) (c : Chan) (w : Wanted) : (s.deliver c w).phase = s.phase := rfl
@[simp] theorem State.deliver_initCount (s : State) (c : Chan) (w : Wanted) : (s.deliver c w).initCount = s.initCount := rfl
@[simp] theorem State.deliver_store (s : State) (c : Chan) (w : Wanted) : (s.deliver c w).store = s.store := rfl
@[simp] theorem State.deliver_stopAll (s : State) (c : Chan) (w : Wanted) : (s.deliver c w).stopAll = s.stopAll := rfl
@[simp] theorem State.deliver_linkOk (s : State) (c : Chan) (w : Wanted) : (s.deliver c w).linkOk = s.linkOk := rfl
@[simp] theorem State.deliver_initKept (s : State) (c : Chan) (w : Wanted) : (s.deliver c w).initKept = s.initKept := rfl
@[simp] theorem State.deliver_slots (s : State) (c : Chan) (w : Wanted) : (s.deliver c w).slots = s.slots := rfl
@[simp] theorem State.deliver_strayPost (s : State) (c : Chan) (w : Wanted) : (s.deliver c w).strayPost = s.strayPost := rfl
@[simp] theorem State.deliver_strayRelease (s : State) (c : Chan) (w : Wanted) : (s.deliver c w).strayRelease = s.strayRelease := rfl
@[simp] theorem State.deliver_notices (s : State) (c : Chan) (w : Wanted) : (s.deliver c w).notices = s.notices := rfl
@[simp] theorem State.deliver_timerRunning (s : State) (c : Chan) (w : Wanted) : (s.deliver c w).timerRunning = s.timerRunning := rfl
@[simp] theorem State.deliver_sampleIndex (s : State) (c : Chan) (w : Wanted) : (s.deliver c w).sampleIndex = s.sampleIndex := rfl
@[simp] theorem State.deliver_links (s : State) (c : Chan) (w : Wanted) : (s.deliver c w).links = s.links := rfl
@[simp] theorem State.deliver_chans (s : State) (c : Chan) (w : Wanted) : (s.deliver c w).chans = s.chans := rfl
@[simp] theorem State.deliver_pairs (s : State) (c : Chan) (w : Wanted) : (s.deliver c w).pairs = s.pairs := rfl
@[simp] theorem State.deliver_pending (s : State) (c : Chan) (w : Wanted) : (s.deliver c w).pending = s.pending := rfl

/-! ### bumpChan -/

@[simp] theorem State.bumpChan_phase (s : State) (c : Chan) (k : ChanCount) : (s.bumpChan c k).phase = s.phase := rfl
@[simp] theorem State.bumpChan_initCount (s : State) (c : Chan) (k : ChanCount) : (s.bumpChan c k).initCount = s.initCount := rfl
@[simp] theorem State.bumpChan_stopAll (s : State) (c : Chan) (k : ChanCount) : (s.bumpChan c k).stopAll = s.stopAll := rfl
@[simp] theorem State.bumpChan_linkOk (s : State) (c : Chan) (k : ChanCount) : (s.bumpChan c k).linkOk = s.linkOk := rfl
@[simp] theorem State.bumpChan_initKept (s : State) (c : Chan) (k : ChanCount) : (s.bumpChan c k).initKept = s.initKept := rfl
@[simp] theorem State.bumpChan_slots (s : State) (c : Chan) (k : ChanCount) : (s.bumpChan c k).slots = s.slots := rfl
@[simp] theorem State.bumpChan_strayPost (s : State) (c : Chan) (k : ChanCount) : (s.bumpChan c k).strayPost = s.strayPost := rfl
@[simp] theorem State.bumpChan_strayRelease (s : State) (c : Chan) (k : ChanCount) : (s.bumpChan c k).strayRelease = s.strayRelease := rfl
@[simp] theorem State.bumpChan_timerRunning (s : State) (c : Chan) (k : ChanCount) : (s.bumpChan c k).timerRunning = s.timerRunning := rfl
@[simp] theorem State.bumpChan_sampleIndex (s : State) (c : Chan) (k : ChanCount) : (s.bumpChan c k).sampleIndex = s.sampleIndex := rfl
@[simp] theorem State.bumpChan_links (s : State) (c : Chan) (k : ChanCount) : (s.bumpChan c k).links = s.links := rfl
@[simp] theorem State.bumpChan_arb (s : State) (c : Chan) (k : ChanCount) : (s.bumpChan c k).arb = s.arb := rfl
@[simp] theorem State.bumpChan_chans (s : State) (c : Chan) (k : ChanCount) : (s.bumpChan c k).chans = s.chans := rfl
@[simp] theorem State.bumpChan_pairs (s : State) (c : Chan) (k : ChanCount) : (s.bumpChan c k).pairs = s.pairs := rfl
@[simp] theorem State.bumpChan_pending (s : State) (c : Chan) (k : ChanCount) : (s.bumpChan c k).pending = s.pending := rfl

/-! ### bumpDev -/

@[simp] theorem State.bumpDev_phase (s : State) (k : DevCount) : (s.bumpDev k).phase = s.phase := rfl
@[simp] theorem State.bumpDev_initCount (s : State) (k : DevCount) : (s.bumpDev k).initCount = s.initCount := rfl
@[simp] theorem State.bumpDev_stopAll (s : State) (k : DevCount) : (s.bumpDev k).stopAll = s.stopAll := rfl
@[simp] theorem State.bumpDev_linkOk (s : State) (k : DevCount) : (s.bumpDev k).linkOk = s.linkOk := rfl
@[simp] theorem State.bumpDev_initKept (s : State) (k : DevCount) : (s.bumpDev k).initKept = s.initKept := rfl
@[simp] theorem State.bumpDev_slots (s : State) (k : DevCount) : (s.bumpDev k).slots = s.slots := rfl
@[simp] theorem State.bumpDev_strayPost (s : State) (k : DevCount) : (s.bumpDev k).strayPost = s.strayPost := rfl
@[simp] theorem State.bumpDev_strayRelease (s : State) (k : DevCount) : (s.bumpDev k).strayRelease = s.strayRelease := rfl
@[simp] theorem State.bumpDev_timerRunning (s : State) (k : DevCount) : (s.bumpDev k).timerRunning = s.timerRunning := rfl
@[simp] theorem State.bumpDev_sampleIndex (s : State) (k : DevCount) : (s.bumpDev k).sampleIndex = s.sampleIndex := rfl
@[simp] theorem State.bumpDev_links (s : State) (k : DevCount) : (s.bumpDev k).links = s.links := rfl
@[simp] theorem State.bumpDev_arb (s : State) (k : DevCount) : (s.bumpDev k).arb = s.arb := rfl
@[simp] theorem State.bumpDev_chans (s : State) (k : DevCount) : (s.bumpDev k).chans = s.chans := rfl
@[simp] theorem State.bumpDev_pairs (s : State) (k : DevCount) : (s.bumpDev k).pairs = s.pairs := rfl
@[simp] theorem State.bumpDev_pending (s : State) (k : DevCount) : (s.bumpDev k).pending = s.pending := rfl

/-! ### Parts that an update leaves -/

@[simp] theorem State.modChan_link (s : State) (c : Chan) (f : Channel → Channel) (d : Chan) : (s.modChan c f).link d = s.link d := rfl
@[simp] theorem State.modChan_slot (s : State) (c : Chan) (f : Channel → Channel) (m : SlotIx) : (s.modChan c f).slot m = s.slot m := rfl
@[simp] theorem State.modChan_pair (s : State) (c : Chan) (f : Channel → Channel) (j : PairIx) : (s.modChan c f).pair j = s.pair j := rfl
@[simp] theorem State.modChan_leads (s : State) (c : Chan) (f : Channel → Channel) (d : Chan) : (s.modChan c f).leads d = s.leads d := rfl
@[simp] theorem State.modChan_follows (s : State) (c : Chan) (f : Channel → Channel) (d : Chan) : (s.modChan c f).follows d = s.follows d := rfl
@[simp] theorem State.modChan_conductor (s : State) (c : Chan) (f : Channel → Channel) (d : Chan) : (s.modChan c f).conductor d = s.conductor d := rfl

@[simp] theorem State.setChan_link (s : State) (c : Chan) (ch : Channel) (d : Chan) : (s.setChan c ch).link d = s.link d := rfl
@[simp] theorem State.setChan_slot (s : State) (c : Chan) (ch : Channel) (m : SlotIx) : (s.setChan c ch).slot m = s.slot m := rfl
@[simp] theorem State.setChan_pair (s : State) (c : Chan) (ch : Channel) (j : PairIx) : (s.setChan c ch).pair j = s.pair j := rfl
@[simp] theorem State.setChan_leads (s : State) (c : Chan) (ch : Channel) (d : Chan) : (s.setChan c ch).leads d = s.leads d := rfl
@[simp] theorem State.setChan_follows (s : State) (c : Chan) (ch : Channel) (d : Chan) : (s.setChan c ch).follows d = s.follows d := rfl
@[simp] theorem State.setChan_conductor (s : State) (c : Chan) (ch : Channel) (d : Chan) : (s.setChan c ch).conductor d = s.conductor d := rfl

@[simp] theorem State.modLog_link (s : State) (c : Chan) (f : Logger → Logger) (d : Chan) : (s.modLog c f).link d = s.link d := rfl
@[simp] theorem State.modLog_slot (s : State) (c : Chan) (f : Logger → Logger) (m : SlotIx) : (s.modLog c f).slot m = s.slot m := rfl
@[simp] theorem State.modLog_pair (s : State) (c : Chan) (f : Logger → Logger) (j : PairIx) : (s.modLog c f).pair j = s.pair j := rfl
@[simp] theorem State.modLog_leads (s : State) (c : Chan) (f : Logger → Logger) (d : Chan) : (s.modLog c f).leads d = s.leads d := rfl
@[simp] theorem State.modLog_follows (s : State) (c : Chan) (f : Logger → Logger) (d : Chan) : (s.modLog c f).follows d = s.follows d := rfl
@[simp] theorem State.modLog_conductor (s : State) (c : Chan) (f : Logger → Logger) (d : Chan) : (s.modLog c f).conductor d = s.conductor d := rfl

@[simp] theorem State.modLink_chan (s : State) (c : Chan) (f : Link → Link) (d : Chan) : (s.modLink c f).chan d = s.chan d := rfl
@[simp] theorem State.modLink_slot (s : State) (c : Chan) (f : Link → Link) (m : SlotIx) : (s.modLink c f).slot m = s.slot m := rfl
@[simp] theorem State.modLink_pair (s : State) (c : Chan) (f : Link → Link) (j : PairIx) : (s.modLink c f).pair j = s.pair j := rfl
@[simp] theorem State.modLink_leads (s : State) (c : Chan) (f : Link → Link) (d : Chan) : (s.modLink c f).leads d = s.leads d := rfl
@[simp] theorem State.modLink_follows (s : State) (c : Chan) (f : Link → Link) (d : Chan) : (s.modLink c f).follows d = s.follows d := rfl
@[simp] theorem State.modLink_conductor (s : State) (c : Chan) (f : Link → Link) (d : Chan) : (s.modLink c f).conductor d = s.conductor d := rfl

@[simp] theorem State.modSlot_chan (s : State) (n : SlotIx) (f : Slot → Slot) (d : Chan) : (s.modSlot n f).chan d = s.chan d := rfl
@[simp] theorem State.modSlot_link (s : State) (n : SlotIx) (f : Slot → Slot) (d : Chan) : (s.modSlot n f).link d = s.link d := rfl
@[simp] theorem State.modSlot_pair (s : State) (n : SlotIx) (f : Slot → Slot) (j : PairIx) : (s.modSlot n f).pair j = s.pair j := rfl
@[simp] theorem State.modSlot_leads (s : State) (n : SlotIx) (f : Slot → Slot) (d : Chan) : (s.modSlot n f).leads d = s.leads d := rfl
@[simp] theorem State.modSlot_follows (s : State) (n : SlotIx) (f : Slot → Slot) (d : Chan) : (s.modSlot n f).follows d = s.follows d := rfl
@[simp] theorem State.modSlot_conductor (s : State) (n : SlotIx) (f : Slot → Slot) (d : Chan) : (s.modSlot n f).conductor d = s.conductor d := rfl

@[simp] theorem State.modPair_chan (s : State) (k : PairIx) (f : Pair → Pair) (d : Chan) : (s.modPair k f).chan d = s.chan d := rfl
@[simp] theorem State.modPair_link (s : State) (k : PairIx) (f : Pair → Pair) (d : Chan) : (s.modPair k f).link d = s.link d := rfl
@[simp] theorem State.modPair_slot (s : State) (k : PairIx) (f : Pair → Pair) (m : SlotIx) : (s.modPair k f).slot m = s.slot m := rfl

@[simp] theorem State.modArb_chan (s : State) (f : Arbiter → Arbiter) (d : Chan) : (s.modArb f).chan d = s.chan d := rfl
@[simp] theorem State.modArb_link (s : State) (f : Arbiter → Arbiter) (d : Chan) : (s.modArb f).link d = s.link d := rfl
@[simp] theorem State.modArb_slot (s : State) (f : Arbiter → Arbiter) (m : SlotIx) : (s.modArb f).slot m = s.slot m := rfl
@[simp] theorem State.modArb_pair (s : State) (f : Arbiter → Arbiter) (j : PairIx) : (s.modArb f).pair j = s.pair j := rfl
@[simp] theorem State.modArb_leads (s : State) (f : Arbiter → Arbiter) (d : Chan) : (s.modArb f).leads d = s.leads d := rfl
@[simp] theorem State.modArb_follows (s : State) (f : Arbiter → Arbiter) (d : Chan) : (s.modArb f).follows d = s.follows d := rfl
@[simp] theorem State.modArb_conductor (s : State) (f : Arbiter → Arbiter) (d : Chan) : (s.modArb f).conductor d = s.conductor d := rfl

@[simp] theorem State.writeStore_chan (s : State) (a : Nat) (l : List Byte) (d : Chan) : (s.writeStore a l).chan d = s.chan d := rfl
@[simp] theorem State.writeStore_link (s : State) (a : Nat) (l : List Byte) (d : Chan) : (s.writeStore a l).link d = s.link d := rfl
@[simp] theorem State.writeStore_slot (s : State) (a : Nat) (l : List Byte) (m : SlotIx) : (s.writeStore a l).slot m = s.slot m := rfl
@[simp] theorem State.writeStore_pair (s : State) (a : Nat) (l : List Byte) (j : PairIx) : (s.writeStore a l).pair j = s.pair j := rfl
@[simp] theorem State.writeStore_leads (s : State) (a : Nat) (l : List Byte) (d : Chan) : (s.writeStore a l).leads d = s.leads d := rfl
@[simp] theorem State.writeStore_follows (s : State) (a : Nat) (l : List Byte) (d : Chan) : (s.writeStore a l).follows d = s.follows d := rfl
@[simp] theorem State.writeStore_conductor (s : State) (a : Nat) (l : List Byte) (d : Chan) : (s.writeStore a l).conductor d = s.conductor d := rfl

@[simp] theorem State.deliver_chan (s : State) (c : Chan) (w : Wanted) (d : Chan) : (s.deliver c w).chan d = s.chan d := rfl
@[simp] theorem State.deliver_link (s : State) (c : Chan) (w : Wanted) (d : Chan) : (s.deliver c w).link d = s.link d := rfl
@[simp] theorem State.deliver_slot (s : State) (c : Chan) (w : Wanted) (m : SlotIx) : (s.deliver c w).slot m = s.slot m := rfl
@[simp] theorem State.deliver_pair (s : State) (c : Chan) (w : Wanted) (j : PairIx) : (s.deliver c w).pair j = s.pair j := rfl
@[simp] theorem State.deliver_leads (s : State) (c : Chan) (w : Wanted) (d : Chan) : (s.deliver c w).leads d = s.leads d := rfl
@[simp] theorem State.deliver_follows (s : State) (c : Chan) (w : Wanted) (d : Chan) : (s.deliver c w).follows d = s.follows d := rfl
@[simp] theorem State.deliver_conductor (s : State) (c : Chan) (w : Wanted) (d : Chan) : (s.deliver c w).conductor d = s.conductor d := rfl

@[simp] theorem State.bumpChan_chan (s : State) (c : Chan) (k : ChanCount) (d : Chan) : (s.bumpChan c k).chan d = s.chan d := rfl
@[simp] theorem State.bumpChan_link (s : State) (c : Chan) (k : ChanCount) (d : Chan) : (s.bumpChan c k).link d = s.link d := rfl
@[simp] theorem State.bumpChan_slot (s : State) (c : Chan) (k : ChanCount) (m : SlotIx) : (s.bumpChan c k).slot m = s.slot m := rfl
@[simp] theorem State.bumpChan_pair (s : State) (c : Chan) (k : ChanCount) (j : PairIx) : (s.bumpChan c k).pair j = s.pair j := rfl
@[simp] theorem State.bumpChan_leads (s : State) (c : Chan) (k : ChanCount) (d : Chan) : (s.bumpChan c k).leads d = s.leads d := rfl
@[simp] theorem State.bumpChan_follows (s : State) (c : Chan) (k : ChanCount) (d : Chan) : (s.bumpChan c k).follows d = s.follows d := rfl
@[simp] theorem State.bumpChan_conductor (s : State) (c : Chan) (k : ChanCount) (d : Chan) : (s.bumpChan c k).conductor d = s.conductor d := rfl

@[simp] theorem State.bumpDev_chan (s : State) (k : DevCount) (d : Chan) : (s.bumpDev k).chan d = s.chan d := rfl
@[simp] theorem State.bumpDev_link (s : State) (k : DevCount) (d : Chan) : (s.bumpDev k).link d = s.link d := rfl
@[simp] theorem State.bumpDev_slot (s : State) (k : DevCount) (m : SlotIx) : (s.bumpDev k).slot m = s.slot m := rfl
@[simp] theorem State.bumpDev_pair (s : State) (k : DevCount) (j : PairIx) : (s.bumpDev k).pair j = s.pair j := rfl
@[simp] theorem State.bumpDev_leads (s : State) (k : DevCount) (d : Chan) : (s.bumpDev k).leads d = s.leads d := rfl
@[simp] theorem State.bumpDev_follows (s : State) (k : DevCount) (d : Chan) : (s.bumpDev k).follows d = s.follows d := rfl
@[simp] theorem State.bumpDev_conductor (s : State) (k : DevCount) (d : Chan) : (s.bumpDev k).conductor d = s.conductor d := rfl

/-! ### Reading what was updated -/

@[simp] theorem State.chan_setChan_self (s : State) (c : Chan) (ch : Channel) : (s.setChan c ch).chan c = ch := by
  simp [State.setChan, State.chan]

theorem State.chan_setChan_ne (s : State) {c d : Chan} (ch : Channel) (h : d ≠ c) : (s.setChan c ch).chan d = s.chan d := by
  have : (c : Nat) ≠ d := fun e => h (Fin.ext e.symm)
  simp [State.setChan, State.chan, Vector.getElem_set_ne, this]

@[simp] theorem State.chan_modChan_self (s : State) (c : Chan) (f : Channel → Channel) :
    (s.modChan c f).chan c = f (s.chan c) := by
  simp [State.modChan]

theorem State.chan_modChan_ne (s : State) {c d : Chan} (f : Channel → Channel) (h : d ≠ c) :
    (s.modChan c f).chan d = s.chan d := State.chan_setChan_ne s _ h

/-- A channel after one channel is changed. -/
theorem State.chan_modChan (s : State) (c d : Chan) (f : Channel → Channel) :
    (s.modChan c f).chan d = if d = c then f (s.chan d) else s.chan d := by
  by_cases h : d = c
  · subst h; simp
  · simp [h, State.chan_modChan_ne s f h]

@[simp] theorem State.link_modLink_self (s : State) (c : Chan) (f : Link → Link) : (s.modLink c f).link c = f (s.link c) := by
  simp [State.modLink, State.link]

theorem State.link_modLink_ne (s : State) {c d : Chan} (f : Link → Link) (h : d ≠ c) : (s.modLink c f).link d = s.link d := by
  have : (c : Nat) ≠ d := fun e => h (Fin.ext e.symm)
  simp [State.modLink, State.link, Vector.getElem_set_ne, this]

@[simp] theorem State.slot_modSlot_self (s : State) (n : SlotIx) (f : Slot → Slot) : (s.modSlot n f).slot n = f (s.slot n) := by
  simp [State.modSlot, State.slot]

theorem State.slot_modSlot_ne (s : State) {n m : SlotIx} (f : Slot → Slot) (h : m ≠ n) : (s.modSlot n f).slot m = s.slot m := by
  have : (n : Nat) ≠ m := fun e => h (Fin.ext e.symm)
  simp [State.modSlot, State.slot, Vector.getElem_set_ne, this]

@[simp] theorem State.pair_modPair_self (s : State) (k : PairIx) (f : Pair → Pair) : (s.modPair k f).pair k = f (s.pair k) := by
  simp [State.modPair, State.pair]

theorem State.pair_modPair_ne (s : State) {k j : PairIx} (f : Pair → Pair) (h : j ≠ k) : (s.modPair k f).pair j = s.pair j := by
  have : (k : Nat) ≠ j := fun e => h (Fin.ext e.symm)
  simp [State.modPair, State.pair, Vector.getElem_set_ne, this]

@[simp] theorem State.modArb_arb (s : State) (f : Arbiter → Arbiter) : (s.modArb f).arb = f s.arb := rfl

@[simp] theorem State.writeStore_store (s : State) (a : Nat) (l : List Byte) : (s.writeStore a l).store = s.store.writeBytes a l := rfl

end Sys2Proof.Machine
end

