-- ==== Sys2Proof/Laws/Keeps.lean ====
section
/-!
SUPPORT. What the operations of one channel's event can do to the rest of the machine, said once: they keep the interface, the
slots, the links, the queue and the store's slots and Plan Areas, and a sound state stays sound.
-/

namespace Sys2Proof.Machine

/-- The store's Request Slots and Plan Areas (R175). -/
def SlotOrPlan (a : Nat) : Prop := (0x600 ≤ a ∧ a < 0x4000) ∨ (0x8000 ≤ a ∧ a < 0x28000)

/-- s is what an event of the channels, the Arbiter, the Logger or the Notice Unit has made of s₀. -/
structure Keeps (s₀ s : State) : Prop where
  phase : s.phase = s₀.phase
  initCount : s.initCount = s₀.initCount
  stopAll : s.stopAll = s₀.stopAll
  linkOk : s.linkOk = s₀.linkOk
  initKept : s.initKept = s₀.initKept
  slots : s.slots = s₀.slots
  strayPost : s.strayPost = s₀.strayPost
  strayRelease : s.strayRelease = s₀.strayRelease
  timerRunning : s.timerRunning = s₀.timerRunning
  sampleIndex : s.sampleIndex = s₀.sampleIndex
  links : s.links = s₀.links
  pending : s.pending = s₀.pending
  mem : ∀ a, SlotOrPlan a → s.store.read a = s₀.store.read a
  ok : s₀.Ok → s.Ok

variable {s₀ s : State} {c d : Chan}

theorem Keeps.refl (s : State) : Keeps s s :=
  ⟨rfl, rfl, rfl, rfl, rfl, rfl, rfl, rfl, rfl, rfl, rfl, rfl, fun _ _ => rfl, id⟩

theorem Keeps.trans {s₁ s₂ s₃ : State} (h : Keeps s₁ s₂) (k : Keeps s₂ s₃) : Keeps s₁ s₃ :=
  ⟨k.phase.trans h.phase, k.initCount.trans h.initCount, k.stopAll.trans h.stopAll, k.linkOk.trans h.linkOk,
    k.initKept.trans h.initKept, k.slots.trans h.slots, k.strayPost.trans h.strayPost, k.strayRelease.trans h.strayRelease,
    k.timerRunning.trans h.timerRunning, k.sampleIndex.trans h.sampleIndex, k.links.trans h.links, k.pending.trans h.pending,
    fun a ha => (k.mem a ha).trans (h.mem a ha), fun o => k.ok (h.ok o)⟩

/-! ### Primitive updates -/

theorem Keeps.modChan (h : Keeps s₀ s) (c : Chan) (f : Channel → Channel) (hf : (s.chan c).Ok → (f (s.chan c)).Ok) :
    Keeps s₀ (s.modChan c f) :=
  h.trans
    ⟨rfl, rfl, rfl, rfl, rfl, rfl, rfl, rfl, rfl, rfl, rfl, rfl, fun _ _ => rfl, fun o =>
      ⟨o.store, fun d => by
        rw [State.chan_modChan]
        split
        · next e => rw [e]; exact hf (o.chans c)
        · exact o.chans d, o.wanted, o.paceTime, o.timer⟩⟩

theorem Keeps.modPair (h : Keeps s₀ s) (k : PairIx) (f : Pair → Pair) : Keeps s₀ (s.modPair k f) :=
  h.trans
    ⟨rfl, rfl, rfl, rfl, rfl, rfl, rfl, rfl, rfl, rfl, rfl, rfl, fun _ _ => rfl, fun o =>
      ⟨o.store, o.chans, o.wanted, o.paceTime, o.timer⟩⟩

theorem Keeps.modArb (h : Keeps s₀ s) (f : Arbiter → Arbiter)
    (hf : (∀ c : Chan, (s.arb.wanted[c]).Ok) → ∀ c : Chan, ((f s.arb).wanted[c]).Ok) : Keeps s₀ (s.modArb f) :=
  h.trans
    ⟨rfl, rfl, rfl, rfl, rfl, rfl, rfl, rfl, rfl, rfl, rfl, rfl, fun _ _ => rfl, fun o =>
      ⟨o.store, o.chans, hf o.wanted, o.paceTime, o.timer⟩⟩

theorem Keeps.writeStore (h : Keeps s₀ s) (a : Nat) (l : List Byte)
    (ha : ∀ b, SlotOrPlan b → b < a ∨ a + l.length ≤ b) : Keeps s₀ (s.writeStore a l) :=
  h.trans
    ⟨rfl, rfl, rfl, rfl, rfl, rfl, rfl, rfl, rfl, rfl, rfl, rfl,
      fun b hb => Mem.read_writeBytes_ne _ _ _ _ (ha b hb), fun o =>
      ⟨Mem.wf_writeBytes o.store _ _, o.chans, o.wanted, o.paceTime, o.timer⟩⟩

theorem Keeps.setNotices (h : Keeps s₀ s) (n : NoticeUnit) (hn : n.paceTime = s.notices.paceTime) :
    Keeps s₀ { s with notices := n } :=
  h.trans
    ⟨rfl, rfl, rfl, rfl, rfl, rfl, rfl, rfl, rfl, rfl, rfl, rfl, fun _ _ => rfl, fun o =>
      ⟨o.store, o.chans, o.wanted, by show n.paceTime < _; rw [hn]; exact o.paceTime, o.timer⟩⟩

/-! ### Sound channels -/

/-- A change of a channel that leaves all that soundness speaks of. -/
theorem Channel.Ok.same {ch ch' : Channel} (h : ch.Ok) (h1 : ch'.demand = ch.demand) (h2 : ch'.st = ch.st)
    (h3 : ch'.chop = ch.chop) (h4 : ch'.stepSet = ch.stepSet) (h5 : ch'.planSet = ch.planSet) (h6 : ch'.lifeSet = ch.lifeSet)
    (h7 : ch'.planTime = ch.planTime) (h8 : ch'.seqr.stepTime = ch.seqr.stepTime) (h9 : ch'.seqr.cycle = ch.seqr.cycle)
    (h10 : ch'.silence = ch.silence) (h11 : ch'.fault.laterCount = ch.fault.laterCount) (h12 : ch'.limits = ch.limits)
    (h13 : ch'.limitsLoaded = ch.limitsLoaded) : ch'.Ok :=
  ⟨by unfold Channel.Driven; rw [h1, h2, h3]; exact h.driven, h4 ▸ h.stepSet, h5 ▸ h.planSet, h6 ▸ h.lifeSet, h7 ▸ h.planTime,
    h8 ▸ h.stepTime, h9 ▸ h.cycle, h10 ▸ h.silence, h11 ▸ h.later, h12 ▸ h.limits, by rw [h12, h13]; exact h.loaded⟩

/-- A channel whose demand is 0 is sound whatever its state. -/
theorem Channel.Ok.undriven {ch ch' : Channel} (h : ch.Ok) (h1 : ch'.demand = 0)
    (h4 : ch'.stepSet = ch.stepSet) (h5 : ch'.planSet = ch.planSet) (h6 : ch'.lifeSet = ch.lifeSet)
    (h7 : ch'.planTime = ch.planTime) (h8 : ch'.seqr.stepTime = ch.seqr.stepTime) (h9 : ch'.seqr.cycle = ch.seqr.cycle)
    (h10 : ch'.silence = ch.silence) (h11 : ch'.fault.laterCount = ch.fault.laterCount) (h12 : ch'.limits = ch.limits)
    (h13 : ch'.limitsLoaded = ch.limitsLoaded) : ch'.Ok :=
  ⟨fun e => absurd h1 e, h4 ▸ h.stepSet, h5 ▸ h.planSet, h6 ▸ h.lifeSet, h7 ▸ h.planTime,
    h8 ▸ h.stepTime, h9 ▸ h.cycle, h10 ▸ h.silence, h11 ▸ h.later, h12 ▸ h.limits, by rw [h12, h13]; exact h.loaded⟩

theorem Channel.Ok.demand_zero {ch : Channel} (h : ch.Ok) (hst : ch.st ≠ .running) : ch.demand = 0 :=
  Classical.byContradiction fun e => hst (h.driven e).1

theorem Channel.Ok.log (ch : Channel) (l : Logger) (h : ch.Ok) : Channel.Ok { ch with log := l } :=
  h.same rfl rfl rfl rfl rfl rfl rfl rfl rfl rfl rfl rfl rfl

theorem Keeps.modLog (h : Keeps s₀ s) (c : Chan) (f : Logger → Logger) : Keeps s₀ (s.modLog c f) :=
  h.modChan c _ fun o => o.log _ _

theorem satSucc_le (n x : Nat) : satSucc n x ≤ Config.top n := Nat.min_le_right _ _

theorem Acc.Ok.zero : Acc.zero.Ok := ⟨by decide, by decide, by decide, by decide, by decide, by decide⟩

/-! ### The Notice Unit -/

@[simp] theorem NoticeUnit.send_paceTime (n : NoticeUnit) : n.send.paceTime = n.paceTime := rfl

@[simp] theorem NoticeUnit.rise_paceTime (n : NoticeUnit) : n.rise.paceTime = n.paceTime := by
  unfold NoticeUnit.rise; repeat' split
  all_goals rfl

@[simp] theorem NoticeUnit.setBit_paceTime (n : NoticeUnit) (i : Nat) : (n.setBit i).paceTime = n.paceTime := by
  unfold NoticeUnit.setBit; split
  · rfl
  · simp

@[simp] theorem NoticeUnit.expire_paceTime (n : NoticeUnit) : n.expire.paceTime = n.paceTime := by
  unfold NoticeUnit.expire; dsimp only; repeat' split
  all_goals rfl

@[simp] theorem NoticeUnit.judge_paceTime (n : NoticeUnit) : n.judge.paceTime = n.paceTime := by
  unfold NoticeUnit.judge; repeat' split
  all_goals simp

@[simp] theorem leBytes_length (n v : Nat) : (leBytes n v).length = n := by
  induction n generalizing v with
  | zero => rfl
  | succ n ih => simp [leBytes, ih]

theorem ChanCount.offset_le (k : ChanCount) : k.offset ≤ 0x10 := by cases k <;> decide

theorem DevCount.offset_le (k : DevCount) : k.offset ≤ 0x8 := by cases k <;> decide

theorem Keeps.bumpChan (h : Keeps s₀ s) (c : Chan) (k : ChanCount) : Keeps s₀ (s.bumpChan c k) := by
  unfold State.bumpChan
  dsimp only
  refine (h.writeStore _ _ ?_).setNotices _ (by simp)
  intro b hb
  have := ChanCount.offset_le k
  have := c.isLt
  simp only [leBytes_length, Config.chanNotice]
  unfold SlotOrPlan at hb
  omega

theorem Keeps.bumpDev (h : Keeps s₀ s) (k : DevCount) : Keeps s₀ (s.bumpDev k) := by
  unfold State.bumpDev
  dsimp only
  refine (h.writeStore _ _ ?_).setNotices _ (by simp)
  intro b hb
  have := DevCount.offset_le k
  simp only [leBytes_length, Config.devNotice]
  unfold SlotOrPlan at hb
  omega

/-- A change of channel state keeps a sound state if it goes to RUNNING or finds the demand 0. -/
theorem Keeps.setSt (h : Keeps s₀ s) (c : Chan) (st : ChState)
    (hd : (s.chan c).Ok → (s.chan c).demand = 0 ∨ st = .running) : Keeps s₀ (s.setSt c st) := by
  unfold State.setSt
  split
  · exact h
  · refine (h.modChan c _ fun o => ?_).bumpChan c _
    rcases hd o with e | e
    · exact o.undriven e rfl rfl rfl rfl rfl rfl rfl rfl rfl rfl
    · exact ⟨fun k => ⟨e, (o.driven k).2⟩, o.stepSet, o.planSet, o.lifeSet, o.planTime, o.stepTime, o.cycle, o.silence, o.later,
        o.limits, o.loaded⟩

/-! ### The Arbiter -/

theorem Wanted.mk'_ok (dir : StepDir) (mag : Nat) : (Wanted.mk' dir mag).Ok := by
  unfold Wanted.mk' Wanted.Ok
  split
  · simp
  · next h => cases dir <;> simp [h]

theorem Wanted.nothing_ok : Wanted.nothing.Ok := by simp [Wanted.nothing, Wanted.Ok]

theorem stepWants_ok (body : StepBody) (i v : Int) : (stepWants body i v).Ok := by
  cases body <;> simp only [stepWants]
  · exact Wanted.nothing_ok
  · exact Wanted.mk'_ok _ _
  · exact Wanted.mk'_ok _ _
  · exact Wanted.mk'_ok _ _
  · exact Wanted.nothing_ok

/-- R132, R134: a channel delivers well-formed wanted power. -/
theorem Channel.wants_ok (ch : Channel) (v : Int) : (ch.wants v).Ok := by
  unfold Channel.wants
  split
  · exact stepWants_ok _ _ _
  · exact Wanted.nothing_ok

@[simp] theorem Arbiter.evaluate_wanted (a : Arbiter) (p : Chan → Option Nat) (l : LinkSettings) :
    (a.evaluate p l).wanted = a.wanted := by
  unfold Arbiter.evaluate; dsimp only; split <;> rfl

theorem Keeps.evaluate (h : Keeps s₀ s) : Keeps s₀ s.evaluate := by
  unfold State.evaluate
  split
  · exact h.modArb _ fun o c => by simpa using o c
  · exact h

theorem Keeps.deliver (h : Keeps s₀ s) (c : Chan) (w : Wanted) (hw : w.Ok) : Keeps s₀ (s.deliver c w) := by
  refine h.modArb _ fun o d => ?_
  by_cases e : (c : Nat) = d
  · have : c = d := Fin.ext e
    subst this
    simpa using hw
  · simpa [Vector.getElem_set_ne, e] using o d

theorem Keeps.notify (h : Keeps s₀ s) (c : Chan) : Keeps s₀ (s.notify c) :=
  (h.deliver c _ (Channel.wants_ok _ _)).evaluate

/-! ### The Result Logger -/

@[simp] theorem padTo_length (n : Nat) (l : List Byte) (h : l.length ≤ n) : (padTo n l).length = n := by
  simp [padTo]; omega

@[simp] theorem PoolHeader.bytes_length (h : PoolHeader) : h.bytes.length = 32 := by
  unfold PoolHeader.bytes; rw [padTo_length]; simp

theorem Keeps.putHeader (h : Keeps s₀ s) (c : Chan) (p : PoolId) (hd : PoolHeader) : Keeps s₀ (s.putHeader c p hd) := by
  refine (h.modLog c _).writeStore _ _ ?_
  intro b hb
  have := c.isLt
  have : Config.poolNo p ≤ 1 := by cases p <;> decide
  simp only [PoolHeader.bytes_length, Config.headerBase]
  unfold SlotOrPlan at hb
  omega

theorem Keeps.writeRecord (h : Keeps s₀ s) (c : Chan) (p : PoolId) (r : Record) : Keeps s₀ (s.writeRecord c p r) := by
  refine ((h.writeStore _ _ ?_).modLog c _).putHeader c p _
  intro b hb
  simp only [Config.poolBase]
  unfold SlotOrPlan at hb
  omega

theorem Keeps.handover (h : Keeps s₀ s) (c : Chan) (p : PoolId) (r : CloseReason) : Keeps s₀ (s.handover c p r) := by
  unfold State.handover
  dsimp only
  split
  · exact ((h.putHeader c p _).putHeader c _ _).bumpChan c _
  · exact (h.putHeader c p _).bumpChan c _

theorem Keeps.closePool (h : Keeps s₀ s) (c : Chan) (r : CloseReason) : Keeps s₀ (s.closePool c r) := by
  unfold State.closePool
  split
  · split
    · exact h.handover c _ r
    · exact h
  · exact h

theorem Keeps.writeGap (h : Keeps s₀ s) (c : Chan) (p : PoolId) : Keeps s₀ (s.writeGap c p) := by
  unfold State.writeGap
  dsimp only
  split
  · exact h
  · exact (h.modLog c _).writeRecord c p _

theorem Keeps.placeIn (h : Keeps s₀ s) (c : Chan) (p : PoolId) (r : Record) : Keeps s₀ (s.placeIn c p r) := by
  unfold State.placeIn
  dsimp only
  split
  · exact ((h.writeGap c p).writeRecord c p r).handover c p _
  · exact (h.writeGap c p).writeRecord c p r

theorem Keeps.place (h : Keeps s₀ s) (c : Chan) (policy : LossPolicy) (r : Record) : Keeps s₀ (s.place c policy r) := by
  unfold State.place
  dsimp only
  split
  · split
    · exact h.placeIn c _ r
    · split
      · exact (h.handover c _ _).placeIn c _ r
      · exact (h.handover c _ _).modLog c _
  · exact h.modLog c _

theorem Keeps.emit (h : Keeps s₀ s) (c : Chan) (k : RecKind) (n : Nat) (mk : U32 → List Byte) : Keeps s₀ (s.emit c k n mk) :=
  (h.modLog c _).place c _ _

theorem Keeps.emitEvent (h : Keeps s₀ s) (c a : Chan) (k f : Nat) (b : List Byte) : Keeps s₀ (s.emitEvent c a k f b) := by
  unfold State.emitEvent
  exact h.emit c _ _ _

end Sys2Proof.Machine
end

