-- ==== Sys2Proof/Laws/KeepsChannel.lean ====
section
/-!
SUPPORT. The Channel Engine's transitions keep what an event of a channel keeps (Laws/Keeps).
-/

namespace Sys2Proof.Machine

variable {s₀ s : State} {c d : Chan}

/-- Soundness does not speak of auto-zero. -/
theorem Channel.Ok.az (ch : Channel) (a : AutoZero) (h : ch.Ok) : Channel.Ok { ch with az := a } :=
  h.same rfl rfl rfl rfl rfl rfl rfl rfl rfl rfl rfl rfl rfl

theorem Keeps.modAz (h : Keeps s₀ s) (c : Chan) (f : AutoZero → AutoZero) : Keeps s₀ (s.modAz c f) := by
  unfold State.modAz
  dsimp only
  split
  · exact (h.modChan c _ fun o => o.az _ _).modChan _ _ fun o => o.az _ _
  · exact h.modChan c _ fun o => o.az _ _

/-- A change of auto-zero leaves the other parts of every channel. -/
theorem State.modAz_chan_same (s : State) (c d : Chan) (f : AutoZero → AutoZero) :
    ∃ a, (s.modAz c f).chan d = { s.chan d with az := a } := by
  unfold State.modAz
  dsimp only
  split
  · rw [State.chan_modChan]
    split
    · rw [State.chan_modChan]; split
      · exact ⟨_, rfl⟩
      · exact ⟨_, rfl⟩
    · rw [State.chan_modChan]; split
      · exact ⟨_, rfl⟩
      · exact ⟨(s.chan d).az, rfl⟩
  · rw [State.chan_modChan]; split
    · exact ⟨_, rfl⟩
    · exact ⟨(s.chan d).az, rfl⟩

theorem Keeps.departLocal (h : Keeps s₀ s) (c : Chan) : Keeps s₀ (s.departLocal c) :=
  (h.modChan c _ fun o => o.undriven rfl rfl rfl rfl rfl rfl rfl rfl rfl rfl rfl).modAz c _

/-- R11, R2: after a departure the demand is 0. -/
@[simp] theorem State.departLocal_demand (s : State) (c : Chan) : ((s.departLocal c).chan c).demand = 0 := by
  unfold State.departLocal
  obtain ⟨a, ha⟩ := State.modAz_chan_same (s.modChan c fun ch => { ch with demand := 0, chop := none }) c c AutoZero.discard
  rw [ha]; simp

theorem Keeps.moveTo (h : Keeps s₀ s) (c : Chan) (st : ChState) : Keeps s₀ (s.moveTo c st) := by
  unfold State.moveTo
  split
  · exact ((h.departLocal c).setSt c st fun _ => Or.inl (by simp)).notify c
  · next e => exact h.setSt c st fun o => Or.inl (o.demand_zero e)

theorem Channel.restart_ok (ch : Channel) (h : ch.Ok) : ch.restart.Ok := by
  unfold Channel.restart
  split
  · exact h.same rfl rfl rfl rfl rfl rfl rfl rfl rfl rfl rfl rfl rfl
  · exact h

theorem Channel.enterStep_ok (ch : Channel) (n : Nat) (st : Step) (r : Bool) (h : ch.Ok) : (ch.enterStep n st r).Ok := by
  have key : ∀ ch' : Channel, ch'.demand = ch.demand → ch'.st = ch.st → ch'.chop = ch.chop → ch'.stepSet = .zero →
      ch'.planSet = ch.planSet → ch'.lifeSet = ch.lifeSet → ch'.planTime = ch.planTime → ch'.seqr.stepTime = 0 →
      ch'.seqr.cycle = (if st.cycleMark then satSucc 32 ch.seqr.cycle else ch.seqr.cycle) → ch'.silence = ch.silence →
      ch'.fault = ch.fault → ch'.limits = ch.limits → ch'.limitsLoaded = ch.limitsLoaded → ch'.Ok := by
    intro ch' h1 h2 h3 h4 h5 h6 h7 h8 h9 h10 h11 h12 h13
    refine ⟨by unfold Channel.Driven; rw [h1, h2, h3]; exact h.driven, h4 ▸ Acc.Ok.zero, h5 ▸ h.planSet, h6 ▸ h.lifeSet,
      h7 ▸ h.planTime, by rw [h8]; exact Nat.zero_le _, ?_, h10 ▸ h.silence, by rw [h11]; exact h.later, h12 ▸ h.limits,
      by rw [h12, h13]; exact h.loaded⟩
    rw [h9]; split
    · exact satSucc_le _ _
    · exact h.cycle
  unfold Channel.enterStep
  dsimp only
  split
  · unfold Channel.restart
    split
    · exact key _ rfl rfl rfl rfl rfl rfl rfl rfl rfl rfl rfl rfl rfl
    · exact key _ rfl rfl rfl rfl rfl rfl rfl rfl rfl rfl rfl rfl rfl
  · exact key _ rfl rfl rfl rfl rfl rfl rfl rfl rfl rfl rfl rfl rfl

theorem Keeps.notifyEntry (h : Keeps s₀ s) (c : Chan) : Keeps s₀ (s.notifyEntry c) := by
  unfold State.notifyEntry
  split
  · exact h
  · exact h.notify c

theorem Keeps.enterStep (h : Keeps s₀ s) (c : Chan) (n : Nat) (r : Bool) : Keeps s₀ (s.enterStep c n r) := by
  unfold State.enterStep
  split
  · exact ((h.modChan c _ fun o => Channel.enterStep_ok _ _ _ _ o).modAz c _).notifyEntry c
  · exact h

theorem Keeps.enterRunning (h : Keeps s₀ s) (c : Chan) (r : Bool) : Keeps s₀ (s.enterRunning c r) := by
  unfold State.enterRunning
  dsimp only
  have k := (h.setSt c .running fun _ => Or.inr rfl).modChan c
    (fun ch => { ch with seqr := { ch.seqr with qualify := [0, 0, 0, 0] } })
    fun o => o.same rfl rfl rfl rfl rfl rfl rfl rfl rfl rfl rfl rfl rfl
  split
  · exact (k.modChan c _ fun o => Channel.restart_ok _ o).notify c
  · exact k.enterStep c _ _

theorem Keeps.joinCause (h : Keeps s₀ s) (c : Chan) (k : HoldCause) : Keeps s₀ (s.joinCause c k) := by
  unfold State.joinCause
  dsimp only
  have k1 := h.modChan c (fun ch => { ch with hold := ch.hold.put k true })
    fun o => o.same rfl rfl rfl rfl rfl rfl rfl rfl rfl rfl rfl rfl rfl
  split
  · exact (k1.moveTo c _).emitEvent c _ _ _ _
  · exact k1.emitEvent c _ _ _ _

theorem Keeps.settle (h : Keeps s₀ s) (c : Chan) : Keeps s₀ (s.settle c) := by
  unfold State.settle
  dsimp only
  split
  · split
    · exact (h.modLog c _).joinCause c _
    · exact h.modLog c _
  · exact h

theorem Keeps.event (h : Keeps s₀ s) (c a : Chan) (k f : Nat) (b : List Byte) : Keeps s₀ (s.event c a k f b) :=
  (h.emitEvent c a k f b).settle c

theorem Keeps.joinLinkDown (h : Keeps s₀ s) (c : Chan) : Keeps s₀ (s.joinLinkDown c) := by
  unfold State.joinLinkDown
  dsimp only
  split
  · exact ((h.modChan c _ fun o => o.same rfl rfl rfl rfl rfl rfl rfl rfl rfl rfl rfl rfl rfl).joinCause c _).settle c
  · exact h

/-- A channel with a hold cause taken out is as sound. -/
theorem Channel.Ok.release (ch : Channel) (k : HoldCause) (t : LinkHold) (h : ch.Ok) :
    Channel.Ok { ch with hold := ch.hold.put k false, linkHold := t } :=
  h.same rfl rfl rfl rfl rfl rfl rfl rfl rfl rfl rfl rfl rfl

theorem Keeps.leaveCause (h : Keeps s₀ s) (c : Chan) (k : HoldCause) : Keeps s₀ (s.leaveCause c k) := by
  have key : ∀ f : Channel → Channel, ((s.chan c).Ok → (f (s.chan c)).Ok) →
      Keeps s₀ ((s.modChan c f).event c c subRelease 0 (leBytes 1 k.code)) := fun f hf => (h.modChan c f hf).event c c _ _ _
  unfold State.leaveCause
  dsimp only
  by_cases hc : ((s.chan c).st.inPlan && (s.chan c).hold.has k) = true
  · rw [if_pos hc]
    have k1 := key (fun ch => { ch with
        hold := ch.hold.put k false
        linkHold := if k = .linkDown then .stopped else ch.linkHold }) fun o => Channel.Ok.release _ k _ o
    revert k1
    generalize State.event _ c c subRelease 0 (leBytes 1 k.code) = s2
    intro k1
    split
    · exact k1.enterRunning c _
    · exact k1
  · rw [if_neg hc]; exact h

theorem Channel.tripLocal_ok (ch : Channel) (k : Cause) (l : List Cause) (v i t : Int) (e : Option Nat) (h : ch.Ok) :
    (ch.tripLocal k l v i t e).Ok :=
  ⟨h.driven, h.stepSet, h.planSet, h.lifeSet, h.planTime, h.stepTime, h.cycle, h.silence, Nat.zero_le _, h.limits, h.loaded⟩

theorem Keeps.trip (h : Keeps s₀ s) (c : Chan) (k : Cause) (l : List Cause) (v i t : Int) (e : Option Nat) :
    Keeps s₀ (s.trip c k l v i t e) := by
  unfold State.trip
  dsimp only
  have k1 : ∀ s1 : State, Keeps s₀ s1 → ((s1.chan c).Ok → (s1.chan c).demand = 0) →
      Keeps s₀ ((((s1.setSt c .tripped).modChan c fun ch => ch.tripLocal k l v i t e).event c c subTrip 0
        (tripBody k l v i t)).closePool c .trip |>.bumpChan c .faults |>.notify c) := fun s1 h1 hd =>
    ((((((h1.setSt c .tripped fun o => Or.inl (hd o)).modChan c _ fun o => Channel.tripLocal_ok _ _ _ _ _ _ _ o).event c c _ _
      _).closePool c _).bumpChan c _).notify c)
  split
  · exact k1 _ (h.departLocal c) fun _ => by simp
  · next hr => exact k1 _ h fun o => o.demand_zero hr

theorem Keeps.laterFault (h : Keeps s₀ s) (c : Chan) (k : Cause) (v i t : Int) : Keeps s₀ (s.laterFault c k v i t) := by
  unfold State.laterFault
  exact ((h.modChan c _ fun o =>
    ⟨o.driven, o.stepSet, o.planSet, o.lifeSet, o.planTime, o.stepTime, o.cycle, o.silence, satSucc_le _ _, o.limits,
      o.loaded⟩).event c c _ _ _).bumpChan c _

theorem Keeps.tripHeld (h : Keeps s₀ s) (c : Chan) (k : Cause) : Keeps s₀ (s.tripHeld c k) := by
  unfold State.tripHeld
  dsimp only
  split
  · exact h.trip c _ _ _ _ _ _
  · exact h

theorem Keeps.emitStepEnd (h : Keeps s₀ s) (c : Chan) (st : Step) (r : StepReason) (o : StepOutcome) (v i t : Int) :
    Keeps s₀ (s.emitStepEnd c st r o v i t) := by
  unfold State.emitStepEnd
  dsimp only
  split
  · split
    · exact (h.emit c _ _ _).closePool c _
    · exact h.emit c _ _ _
  · exact h.emit c _ _ _

theorem Keeps.endStepBy (h : Keeps s₀ s) (c : Chan) (r : StepReason) : Keeps s₀ (s.endStepBy c r) := by
  unfold State.endStepBy
  dsimp only
  split
  · split
    · exact h.emitStepEnd c _ _ _ _ _ _
    · exact h
  · exact h

theorem Channel.endPlan_ok (ch : Channel) (h : ch.Ok) : ch.endPlan.Ok :=
  h.same rfl rfl rfl rfl rfl rfl rfl rfl rfl rfl rfl rfl rfl

theorem Keeps.endPlan (h : Keeps s₀ s) (c : Chan) (r : PlanReason) : Keeps s₀ (s.endPlan c r) := by
  unfold State.endPlan
  dsimp only
  have k1 := ((h.emit c .planEnd 2 (planEndBytes (s.chan c) c r)).closePool c .planEnd).moveTo c .idle
  exact ((k1.modChan c Channel.endPlan (Channel.endPlan_ok _)).modAz c _).settle c

theorem Keeps.switchPlan (h : Keeps s₀ s) (c : Chan) : Keeps s₀ (s.switchPlan c) := by
  unfold State.switchPlan
  dsimp only
  split
  · have k1 : ∀ p, Keeps s₀ (s.modChan c fun ch => ch.switchTo p) := fun p =>
      h.modChan c (fun ch => ch.switchTo p) fun o => o.same rfl rfl rfl rfl rfl rfl rfl rfl rfl rfl rfl rfl rfl
    refine Keeps.enterStep ?_ c _ _
    refine Keeps.emitEvent ?_ c _ _ _ _
    exact k1 _
  · exact h

theorem Keeps.follow (h : Keeps s₀ s) (c : Chan) (f : Follow) : Keeps s₀ (s.follow c f) := by
  have k : ∀ l, Keeps s₀ (s.modChan c fun ch => { ch with seqr := { ch.seqr with loops := l } }) := fun l =>
    h.modChan c _ fun o => o.same rfl rfl rfl rfl rfl rfl rfl rfl rfl rfl rfl rfl rfl
  unfold State.follow
  dsimp only
  split
  · exact h.endPlan c _
  · split
    · exact (k _).enterStep c _ _
    · exact (k _).endPlan c _
  · exact h

theorem Keeps.endStepTrip (h : Keeps s₀ s) (c : Chan) (st : Step) (n : Nat) (e : EndCond) (v i t : Int) :
    Keeps s₀ (s.endStepTrip c st n e v i t) := by
  unfold State.endStepTrip
  exact ((h.emitStepEnd c _ _ _ _ _ _).modChan c _ fun o =>
    o.same rfl rfl rfl rfl rfl rfl rfl rfl rfl rfl rfl rfl rfl).trip c _ _ _ _ _ _

theorem Keeps.endStep (h : Keeps s₀ s) (c : Chan) (st : Step) (n : Nat) (e : EndCond) (v i t : Int) :
    Keeps s₀ (s.endStep c st n e v i t) := by
  unfold State.endStep
  dsimp only
  split
  · exact h.endStepTrip c _ _ _ _ _ _
  · have k : ∀ (r : StepReason) (o : StepOutcome) (q : Option Nat), Keeps s₀ ((s.emitStepEnd c st r o v i t).modChan c fun ch =>
        { ch with seqr := { ch.seqr with retRef := q } }) := fun r o q =>
      (h.emitStepEnd c st r o v i t).modChan c _ fun o => o.same rfl rfl rfl rfl rfl rfl rfl rfl rfl rfl rfl rfl rfl
    split
    · exact ((k _ _ _).switchPlan c).settle c
    · exact ((k _ _ _).follow c _).settle c

end Sys2Proof.Machine
end

