-- ==== Sys2Proof/Laws/KeepsHandling.lean ====
section
/-!
SUPPORT. The handling of a sample keeps what an event of a channel keeps (Laws/Keeps): accumulation, the protection judgement, end
conditions, regulation, records and watch points.
-/

namespace Sys2Proof.Machine

variable {s₀ s : State} {c d : Chan}

/-! ### Accumulation and auto-zero -/

/-- R66, R69: an addition leaves an accumulator set in its ranges. -/
theorem Acc.Ok.add {a : Acc} (h : a.Ok) (v i : Int) : (a.add v i).Ok := by
  unfold Acc.add
  dsimp only
  split
  · exact ⟨Nat.min_le_right _ _, h.chOut, Nat.min_le_right _ _, h.enOut, Nat.mod_lt _ (by decide), h.enOutRem⟩
  · split
    · exact ⟨h.chIn, Nat.min_le_right _ _, h.enIn, Nat.min_le_right _ _, h.enInRem, Nat.mod_lt _ (by decide)⟩
    · exact h

theorem Channel.accumulate_ok (ch : Channel) (x : Input) (t : Bool) (h : ch.Ok) : (ch.accumulate x t).Ok :=
  ⟨h.driven, h.stepSet.add _ _, h.planSet.add _ _, h.lifeSet.add _ _, h.planTime, satSucc_le _ _, h.cycle, h.silence, h.later,
    h.limits, h.loaded⟩

theorem Channel.learn_ok (ch : Channel) (r : Fin 3) (h : ch.Ok) : (ch.learn r).Ok :=
  h.same rfl rfl rfl rfl rfl rfl rfl rfl rfl rfl rfl rfl rfl

theorem Keeps.learn (h : Keeps s₀ s) (c x : Chan) (r : Fin 3) : Keeps s₀ (s.learn c x r) := by
  unfold State.learn
  exact ((h.modChan x _ fun o => Channel.learn_ok _ _ o).modChan c _ fun o =>
    o.same rfl rfl rfl rfl rfl rfl rfl rfl rfl rfl rfl rfl rfl).event c _ _ _ _

theorem Keeps.autoZero (h : Keeps s₀ s) (c x : Chan) (own : Option (Int × Bool)) : Keeps s₀ (s.autoZero c x own) := by
  unfold State.autoZero
  dsimp only
  split
  · exact (h.modChan x _ fun o => o.az _ _).learn c x _
  · exact h.modChan x _ fun o => o.az _ _

theorem Keeps.accumulate (h : Keeps s₀ s) (c : Chan) (x : Input) : Keeps s₀ (s.accumulate c x) := by
  have key : ∀ s2 : State, Keeps s₀ s2 → Keeps s₀ (match (s.chan c).curStep with
      | some st =>
        if !decide ((s.chan c).st = .tripped) && st.azRest then
          if s.leads c ∧ ((s2.autoZero c c x.own).chan c).st = .running then
            (s2.autoZero c c x.own).autoZero c (followerOf (pairOf c)) x.follower
          else s2.autoZero c c x.own
        else s2
      | none => s2) := by
    intro s2 k
    split
    · split
      · split
        · exact (k.autoZero c c _).autoZero c _ _
        · exact k.autoZero c c _
      · exact k
    · exact k
  unfold State.accumulate
  refine key _ ?_
  have k := h.modChan c (fun ch => ch.accumulate x (decide ((s.chan c).st = .tripped))) fun o => Channel.accumulate_ok _ _ _ o
  split
  · exact k.modChan _ _ fun o =>
      ⟨o.driven, o.stepSet, o.planSet, o.lifeSet.add _ _, o.planTime, o.stepTime, o.cycle, o.silence, o.later, o.limits, o.loaded⟩
  · exact k

/-! ### The protection judgement -/

theorem Keeps.judgeMismatch (h : Keeps s₀ s) (c : Chan) (l : LimitSet) (x : Input) : Keeps s₀ (s.judgeMismatch c l x) := by
  unfold State.judgeMismatch
  split
  · exact h.modPair _ _
  · exact h

theorem Keeps.laterFaults (h : Keeps s₀ s) (c : Chan) (x : Input) (l : List Cause) : Keeps s₀ (s.laterFaults c x l) := by
  induction l generalizing s with
  | nil => exact h
  | cons k ks ih => exact ih (h.laterFault c k _ _ _)

theorem Keeps.judgeChecks (h : Keeps s₀ s) (c : Chan) (l : LimitSet) (x : Input) : Keeps s₀ (s.judgeChecks c l x) := by
  have k := (h.modChan c (fun ch => { ch with checks := l.judge x }) fun o =>
    o.same rfl rfl rfl rfl rfl rfl rfl rfl rfl rfl rfl rfl rfl).judgeMismatch c l x
  unfold State.judgeChecks
  dsimp only
  split
  · split
    · exact k
    · exact k.trip c _ _ _ _ _ _
  · exact k.laterFaults c x _

theorem Keeps.judgeSilence (h : Keeps s₀ s) (c : Chan) (l : LimitSet) (x : Input) : Keeps s₀ (s.judgeSilence c l x) := by
  have k := h.modChan c (fun ch => { ch with silenceReached := true }) fun o =>
    o.same rfl rfl rfl rfl rfl rfl rfl rfl rfl rfl rfl rfl rfl
  unfold State.judgeSilence
  dsimp only
  split
  · split
    · exact k.trip c _ _ _ _ _ _
    · split
      · exact k
      · exact k.laterFault c _ _ _ _
  · exact h

theorem Channel.blankingExpiry_ok (ch : Channel) (l : LimitSet) (h : ch.Ok) : (ch.blankingExpiry l).Ok := by
  unfold Channel.blankingExpiry
  split
  · exact h.same rfl rfl rfl rfl rfl rfl rfl rfl rfl rfl rfl rfl rfl
  · exact h

/-- R104: a chop ends at a demand of 0. -/
theorem Channel.endChop_ok (ch : Channel) (h : ch.Ok) (hc : ch.chop.isSome) : ch.endChop.Ok := by
  have hd : ch.demand = 0 := Classical.byContradiction fun e => by
    have := (h.driven e).2; rw [this] at hc; exact absurd hc (by decide)
  exact Channel.restart_ok _ (h.undriven hd rfl rfl rfl rfl rfl rfl rfl rfl rfl rfl)

theorem Channel.advanceChop_ok (ch : Channel) (l : LimitSet) (h : ch.Ok) : (ch.advanceChop l).Ok := by
  unfold Channel.advanceChop
  split
  · next k e =>
    have hd : ch.demand = 0 := Classical.byContradiction fun n => by
      have := (h.driven n).2; rw [this] at e; exact absurd e (by simp)
    split
    · exact ch.endChop_ok h (by rw [e]; rfl)
    · exact h.undriven hd rfl rfl rfl rfl rfl rfl rfl rfl rfl rfl
  · exact h

theorem Keeps.hit (h : Keeps s₀ s) (c : Chan) (l : LimitSet) (x : Input) : Keeps s₀ (s.hit c l x) := by
  unfold State.hit
  dsimp only
  split
  · exact h.modChan c _ fun o => o.undriven rfl rfl rfl rfl rfl rfl rfl rfl rfl rfl rfl
  · exact (h.modChan c _ fun o => o.same rfl rfl rfl rfl rfl rfl rfl rfl rfl rfl rfl rfl rfl).trip c _ _ _ _ _ _

theorem Keeps.judgeSoft (h : Keeps s₀ s) (c : Chan) (l : LimitSet) (x : Input) : Keeps s₀ (s.judgeSoft c l x) := by
  have k := h.modChan c (fun ch => ch.advanceChop l) fun o => Channel.advanceChop_ok _ _ o
  unfold State.judgeSoft
  dsimp only
  split
  · exact k.hit c l x
  · exact k

theorem Keeps.contactPass (h : Keeps s₀ s) (c : Chan) : Keeps s₀ (s.contactPass c) := by
  have k := h.modChan c (fun ch => { ch with contact := { ch.contact with inProgress := false } }) fun o =>
    o.same rfl rfl rfl rfl rfl rfl rfl rfl rfl rfl rfl rfl rfl
  unfold State.contactPass
  dsimp only
  split
  · exact k.enterRunning c _
  · exact k.moveTo c _

theorem Keeps.judgeContact (h : Keeps s₀ s) (c : Chan) (l : LimitSet) (x : Input) : Keeps s₀ (s.judgeContact c l x) := by
  have k := h.modChan c (fun ch => { ch with contact := (s.chan c).contact.count l x }) fun o =>
    o.same rfl rfl rfl rfl rfl rfl rfl rfl rfl rfl rfl rfl rfl
  unfold State.judgeContact
  dsimp only
  split
  · exact k.contactPass c
  · split
    · exact k.trip c _ _ _ _ _ _
    · exact k

theorem Keeps.protect (h : Keeps s₀ s) (c : Chan) (x : Input) : Keeps s₀ (s.protect c x) := by
  have key : ∀ (l : LimitSet) (s0 : State), Keeps s₀ s0 →
      Keeps s₀ (if x.valid then s0.judgeChecks c l x else s0.judgeSilence c l x) := by
    intro l s0 k
    split
    · exact k.judgeChecks c l x
    · exact k.judgeSilence c l x
  unfold State.protect
  split
  · exact h
  · next l _ =>
    dsimp only
    split
    · have k0 : Keeps s₀ (if (s.chan c).st = .running then s.modChan c fun ch => ch.blankingExpiry l else s) := by
        split
        · exact h.modChan c _ fun o => Channel.blankingExpiry_ok _ _ o
        · exact h
      have k1 := key l _ k0
      revert k1
      generalize (if x.valid then _ else _ : State) = s1
      intro k1
      split
      · exact k1
      · split
        · exact k1.judgeSoft c l x
        · split
          · exact k1.judgeContact c l x
          · exact k1
    · exact h

/-! ### End conditions and regulation -/

theorem Keeps.endConditions (h : Keeps s₀ s) (c : Chan) (x : Input) : Keeps s₀ (s.endConditions c x).1 := by
  unfold State.endConditions
  dsimp only
  split
  · next st _ =>
    have k := h.modChan c (fun ch => { ch with
        seqr := { ch.seqr with qualify := ch.qualifyNext st x st.conds ch.seqr.qualify } }) fun o =>
      o.same rfl rfl rfl rfl rfl rfl rfl rfl rfl rfl rfl rfl rfl
    split
    · exact k.endStep c _ _ _ _ _ _
    · exact k
  · exact h

/-- R2: a channel RUNNING outside a chop may take any demand. -/
theorem Channel.Ok.drivenBy {ch ch' : Channel} (h : ch.Ok) (hs : ch.st = .running) (hc : ch.chop = none) (h2 : ch'.st = ch.st)
    (h3 : ch'.chop = ch.chop) (h4 : ch'.stepSet = ch.stepSet) (h5 : ch'.planSet = ch.planSet) (h6 : ch'.lifeSet = ch.lifeSet)
    (h7 : ch'.planTime = ch.planTime) (h8 : ch'.seqr.stepTime = ch.seqr.stepTime) (h9 : ch'.seqr.cycle = ch.seqr.cycle)
    (h10 : ch'.silence = ch.silence) (h11 : ch'.fault.laterCount = ch.fault.laterCount) (h12 : ch'.limits = ch.limits)
    (h13 : ch'.limitsLoaded = ch.limitsLoaded) : ch'.Ok :=
  ⟨fun _ => ⟨h2.trans hs, h3.trans hc⟩, h4 ▸ h.stepSet, h5 ▸ h.planSet, h6 ▸ h.lifeSet,
    h7 ▸ h.planTime, h8 ▸ h.stepTime, h9 ▸ h.cycle, h10 ▸ h.silence, h11 ▸ h.later, h12 ▸ h.limits, by rw [h12, h13]; exact h.loaded⟩

theorem Channel.regulate_ok (ch : Channel) (v t : Int) (g : Grant) (h : ch.Ok) (hs : ch.st = .running) (hc : ch.chop = none) :
    (ch.regulate v t g).Ok := by
  unfold Channel.regulate
  split
  · split
    · exact h.drivenBy hs hc rfl rfl rfl rfl rfl rfl rfl rfl rfl rfl rfl rfl
    · exact h.drivenBy hs hc rfl rfl rfl rfl rfl rfl rfl rfl rfl rfl rfl rfl
  · exact h

theorem setpointMag_nonneg {body : StepBody} {v m : Int} (h : setpointMag body v = some m) : 0 ≤ m := by
  cases body with
  | cc i => cases h; exact Int.natCast_nonneg _
  | cccv i _ => cases h; exact Int.natCast_nonneg _
  | cp p => cases h; exact Int.natCast_nonneg _
  | rest => cases h
  | loop _ _ => cases h

theorem deratedLimit_nonneg {l : LimitSet} (h : l.Ok) (t : Int) : 0 ≤ deratedLimit l t :=
  Int.le_trans h.iFloor.1 (Int.le_max_left _ _)

theorem budgetCap_nonneg {g : Grant} {v b : Int} (h : budgetCap g v = some b) : 0 ≤ b := by
  cases g with
  | full => cases h
  | watts w => cases h; exact Int.natCast_nonneg _

/-- R74: the least limiting term of a set in force is not negative. -/
theorem leastTerm_nonneg {l : LimitSet} (h : l.Ok) (body : StepBody) (v t : Int) (g : Grant) : 0 ≤ leastTerm l body v t g := by
  have hd := deratedLimit_nonneg h t
  have key : ∀ m : Int, 0 ≤ m → 0 ≤ minOpt m (budgetCap g v) := by
    intro m hm
    cases hb : budgetCap g v with
    | none => exact hm
    | some b => have := budgetCap_nonneg hb; simp only [minOpt]; omega
  unfold leastTerm
  refine key _ ?_
  cases hm : setpointMag body v with
  | none => exact hd
  | some m =>
    have := setpointMag_nonneg hm
    have := h.iRunMax.1
    show 0 ≤ min (min m l.iRunMax) (deratedLimit l t)
    omega

/-- R74: bounding never drives a channel whose demand is 0. -/
theorem Channel.bound_ok (ch : Channel) (v t : Int) (g : Grant) (h : ch.Ok) : (ch.bound v t g).Ok := by
  unfold Channel.bound
  split
  · next st l _ el =>
    dsimp only
    have hl := leastTerm_nonneg (h.limits l el) st.body v t g
    by_cases hd : ch.demand = 0
    · refine h.undriven ?_ rfl rfl rfl rfl rfl rfl rfl rfl rfl rfl
      show (if _ then _ else _) = (0 : Int)
      rw [hd, if_neg]
      simp only [Int.natAbs_zero]
      omega
    · have := h.driven hd
      exact h.drivenBy this.1 this.2 rfl rfl rfl rfl rfl rfl rfl rfl rfl rfl rfl rfl
  · exact h

theorem Keeps.regulate (h : Keeps s₀ s) (c : Chan) (x : Input) (g : Grant) (hs : (s.chan c).st = .running) :
    Keeps s₀ (s.regulate c x g) := by
  unfold State.regulate
  split
  · split
    · next hc =>
      refine (h.deliver c _ (Channel.wants_ok _ _)).modChan c _ fun o => ?_
      exact Channel.regulate_ok _ _ _ _ o hs (by simpa using hc)
    · exact h
  · exact h.modChan c _ fun o => Channel.bound_ok _ _ _ _ o

theorem Keeps.sampleRecord (h : Keeps s₀ s) (c : Chan) (x : Input) (f : Bool) : Keeps s₀ (s.sampleRecord c x f) := by
  unfold State.sampleRecord
  dsimp only
  split
  · exact ((h.emit c _ _ _).modChan c _ fun o => o.same rfl rfl rfl rfl rfl rfl rfl rfl rfl rfl rfl rfl rfl).settle c
  · exact h

/-! ### Watch points and the handling -/

theorem Keeps.watch (h : Keeps s₀ s) (c : Chan) (x : Input) (n : Fin 3) : Keeps s₀ (s.watch c x n) := by
  unfold State.watch
  dsimp only
  split
  · exact h
  · have k : ∀ w, Keeps s₀ (s.modChan c fun ch => { ch with watches := ch.watches.set n w }) := fun w =>
      h.modChan c _ fun o => o.same rfl rfl rfl rfl rfl rfl rfl rfl rfl rfl rfl rfl rfl
    split
    · exact ((k _).event c c _ _ _).bumpChan c _
    · exact k _

theorem Keeps.watchAll (h : Keeps s₀ s) (c : Chan) (x : Input) : Keeps s₀ (s.watchAll c x) := by
  unfold State.watchAll
  split
  · exact ((h.watch c x 0).watch c x 1).watch c x 2
  · exact h

theorem Keeps.drive (h : Keeps s₀ s) (c : Chan) (x : Input) (f e : Bool) : Keeps s₀ (s.drive c x f e) := by
  have k := h.endConditions c x
  unfold State.drive
  dsimp only
  split
  · next hr =>
    have k1 := k.regulate c x (if e then s.arb.grants[c] else (s.endConditions c x).1.arb.grants[c]) hr
    split
    · exact k1
    · exact k1.sampleRecord c x f
  · exact k

/-- R98, R67, R37, R73, R149, R161: the handling of a sample. -/
theorem Keeps.handle (h : Keeps s₀ s) (c : Chan) (x : Input) (e : Bool) : Keeps s₀ (s.handle c x e) := by
  have k1 := h.protect c x
  unfold State.handle
  dsimp only
  generalize s.protect c x = s1 at k1 ⊢
  refine Keeps.watchAll ?_ c x
  have k2 : Keeps s₀ (if decide ((s.chan c).st = .running) = true then s1.accumulate c x else s1) := by
    split
    · exact k1.accumulate c x
    · exact k1
  generalize (if decide ((s.chan c).st = .running) = true then s1.accumulate c x else s1) = s2 at k2 ⊢
  split
  · exact k2.drive c x _ _
  · exact k2

/-! ### Reports -/

theorem Channel.report_ok (ch : Channel) (x : Sample) (h : ch.Ok) : (ch.report x).Ok :=
  h.same rfl rfl rfl rfl rfl rfl rfl rfl rfl rfl rfl rfl rfl

theorem Channel.heard_ok (ch : Channel) (h : ch.Ok) : ch.heard.Ok :=
  ⟨h.driven, h.stepSet, h.planSet, h.lifeSet, h.planTime, h.stepTime, h.cycle, Nat.zero_le _, h.later, h.limits, h.loaded⟩

theorem Channel.miss_ok (ch : Channel) (h : ch.Ok) : ch.miss.Ok :=
  ⟨h.driven, h.stepSet, h.planSet, h.lifeSet, h.planTime, h.stepTime, h.cycle, satSucc_le _ _, h.later, h.limits, h.loaded⟩

theorem Keeps.heard (h : Keeps s₀ s) (c : Chan) : Keeps s₀ (s.modChan c Channel.heard) :=
  h.modChan c _ fun o => Channel.heard_ok _ o

theorem Keeps.assemble (h : Keeps s₀ s) (c : Chan) (x : Sample) (e : Bool) : Keeps s₀ (s.assemble c x e) := by
  unfold State.assemble
  dsimp only
  split
  · exact h.modPair _ _
  · split
    · exact ((h.modPair _ _).heard _).handle _ _ _
    · exact h.modPair _ _

theorem Keeps.validReport (h : Keeps s₀ s) (c : Chan) (r : Response) (f : FrameRecord) (e : Bool) :
    Keeps s₀ (s.validReport c r f e) := by
  have k1 := h.modChan c (fun ch => ch.report (s.correctSample c r f)) fun o => Channel.report_ok _ _ o
  unfold State.validReport
  dsimp only
  have k2 : Keeps s₀ (if s.leads c = true then s.modChan c fun ch => ch.report (s.correctSample c r f)
      else (s.modChan c fun ch => ch.report (s.correctSample c r f)).modChan c Channel.heard) := by
    split
    · exact k1
    · exact k1.heard c
  split
  · exact k2.assemble c _ _
  · exact k2.handle c _ _

theorem Keeps.missedReport (h : Keeps s₀ s) (c : Chan) : Keeps s₀ (s.missedReport c) := by
  have k := h.modChan c (fun ch => { ch with missedCtr := ch.missedCtr + 1 }) fun o =>
    o.same rfl rfl rfl rfl rfl rfl rfl rfl rfl rfl rfl rfl rfl
  unfold State.missedReport
  dsimp only
  split
  · exact k
  · exact k.modChan c _ fun o => Channel.miss_ok _ o

theorem Keeps.missedPair (h : Keeps s₀ s) (k : PairIx) (e : Bool) : Keeps s₀ (s.missedPair k e) := by
  unfold State.missedPair
  exact ((h.modPair k _).modChan _ _ fun o => Channel.miss_ok _ o).handle _ _ _

end Sys2Proof.Machine
end

