-- ==== Sys2Proof/Laws/Serves.lean ====
section
/-!
SUPPORT. What the take of a request by its owner can do to the rest of the machine, said once (`Serves`): it keeps the slots, the
lines, the queue and the store's Request Slots and Plan Areas, and a sound state stays sound. And what the slot protocol as a whole
keeps (`Holds`).
-/

namespace Sys2Proof.Machine

/-- s is what an owner's work on a request has made of s₀: Laws/Keeps with the links and the stray counts left free. -/
structure Serves (s₀ s : State) : Prop where
  phase : s.phase = s₀.phase
  initCount : s.initCount = s₀.initCount
  stopAll : s.stopAll = s₀.stopAll
  linkOk : s.linkOk = s₀.linkOk
  initKept : s.initKept = s₀.initKept
  slots : s.slots = s₀.slots
  timerRunning : s.timerRunning = s₀.timerRunning
  sampleIndex : s.sampleIndex = s₀.sampleIndex
  pending : s.pending = s₀.pending
  mem : ∀ a, SlotOrPlan a → s.store.read a = s₀.store.read a
  ok : s₀.Ok → s.Ok

/-- s is what a post or a period has made of s₀: Serves with the slots and their bytes left free. -/
structure Holds (s₀ s : State) : Prop where
  phase : s.phase = s₀.phase
  initCount : s.initCount = s₀.initCount
  stopAll : s.stopAll = s₀.stopAll
  linkOk : s.linkOk = s₀.linkOk
  initKept : s.initKept = s₀.initKept
  timerRunning : s.timerRunning = s₀.timerRunning
  sampleIndex : s.sampleIndex = s₀.sampleIndex
  pending : s.pending = s₀.pending
  ok : s₀.Ok → s.Ok

variable {s₀ s : State} {c d : Chan}

theorem Keeps.serves (h : Keeps s₀ s) : Serves s₀ s :=
  ⟨h.phase, h.initCount, h.stopAll, h.linkOk, h.initKept, h.slots, h.timerRunning, h.sampleIndex, h.pending, h.mem, h.ok⟩

theorem Serves.holds (h : Serves s₀ s) : Holds s₀ s :=
  ⟨h.phase, h.initCount, h.stopAll, h.linkOk, h.initKept, h.timerRunning, h.sampleIndex, h.pending, h.ok⟩

theorem Keeps.holds (h : Keeps s₀ s) : Holds s₀ s := h.serves.holds

theorem Serves.refl (s : State) : Serves s s := (Keeps.refl s).serves

theorem Holds.refl (s : State) : Holds s s := (Keeps.refl s).holds

theorem Serves.trans {s₁ s₂ s₃ : State} (h : Serves s₁ s₂) (k : Serves s₂ s₃) : Serves s₁ s₃ :=
  ⟨k.phase.trans h.phase, k.initCount.trans h.initCount, k.stopAll.trans h.stopAll, k.linkOk.trans h.linkOk,
    k.initKept.trans h.initKept, k.slots.trans h.slots, k.timerRunning.trans h.timerRunning, k.sampleIndex.trans h.sampleIndex,
    k.pending.trans h.pending, fun a ha => (k.mem a ha).trans (h.mem a ha), fun o => k.ok (h.ok o)⟩

theorem Holds.trans {s₁ s₂ s₃ : State} (h : Holds s₁ s₂) (k : Holds s₂ s₃) : Holds s₁ s₃ :=
  ⟨k.phase.trans h.phase, k.initCount.trans h.initCount, k.stopAll.trans h.stopAll, k.linkOk.trans h.linkOk,
    k.initKept.trans h.initKept, k.timerRunning.trans h.timerRunning, k.sampleIndex.trans h.sampleIndex,
    k.pending.trans h.pending, fun o => k.ok (h.ok o)⟩

theorem Serves.keeps (h : Serves s₀ s) {t : State} (k : Keeps s t) : Serves s₀ t := h.trans k.serves

theorem Holds.keeps (h : Holds s₀ s) {t : State} (k : Keeps s t) : Holds s₀ t := h.trans k.holds

theorem Holds.serves (h : Holds s₀ s) {t : State} (k : Serves s t) : Holds s₀ t := h.trans k.holds

/-! ### Parts that soundness does not speak of -/

theorem Serves.modLink (h : Serves s₀ s) (c : Chan) (f : Link → Link) : Serves s₀ (s.modLink c f) :=
  h.trans ⟨rfl, rfl, rfl, rfl, rfl, rfl, rfl, rfl, rfl, fun _ _ => rfl, fun o => ⟨o.store, o.chans, o.wanted, o.paceTime, o.timer⟩⟩

theorem Holds.modLink (h : Holds s₀ s) (c : Chan) (f : Link → Link) : Holds s₀ (s.modLink c f) :=
  h.serves ((Serves.refl s).modLink c f)

theorem Holds.modSlot (h : Holds s₀ s) (n : SlotIx) (f : Slot → Slot) : Holds s₀ (s.modSlot n f) :=
  h.trans ⟨rfl, rfl, rfl, rfl, rfl, rfl, rfl, rfl, fun o => ⟨o.store, o.chans, o.wanted, o.paceTime, o.timer⟩⟩

theorem Holds.writeStore (h : Holds s₀ s) (a : Nat) (l : List Byte) : Holds s₀ (s.writeStore a l) :=
  h.trans ⟨rfl, rfl, rfl, rfl, rfl, rfl, rfl, rfl, fun o => ⟨Mem.wf_writeBytes o.store _ _, o.chans, o.wanted, o.paceTime, o.timer⟩⟩

theorem Holds.stray (h : Holds s₀ s) : Holds s₀ s.stray :=
  h.trans ⟨rfl, rfl, rfl, rfl, rfl, rfl, rfl, rfl, fun o => ⟨o.store, o.chans, o.wanted, o.paceTime, o.timer⟩⟩

/-! ### Channel requests -/

theorem Keeps.startHolds (h : Keeps s₀ s) (c : Chan) : Keeps s₀ (s.startHolds c) := by
  unfold State.startHolds
  dsimp only
  have k : Keeps s₀ (if (s.chan c).hold.linkDown = true then s.event c c subHold 0 (leBytes 1 HoldCause.linkDown.code) else s) := by
    split
    · exact h.event c _ _ _ _
    · exact h
  generalize (if (s.chan c).hold.linkDown = true then _ else _ : State) = s1 at k ⊢
  split
  · exact k.event c _ _ _ _
  · exact k

theorem Channel.start_ok (ch : Channel) (p : Plan) (b : Bool) (h : ch.Ok) : (ch.start p b).Ok :=
  ⟨fun e => absurd rfl e, h.stepSet, Acc.Ok.zero, h.lifeSet, Nat.zero_le _, h.stepTime, Nat.zero_le _, h.silence, h.later, h.limits,
    h.loaded⟩

theorem Keeps.startPlan (h : Keeps s₀ s) (c : Chan) (p : Plan) : Keeps s₀ (s.startPlan c p) := by
  have k := h.modChan c (fun ch => ch.start p (!s.linkOk)) fun o => Channel.start_ok _ _ _ o
  unfold State.startPlan
  dsimp only
  refine ((?_ : Keeps s₀ _).moveTo c _).startHolds c
  split
  · exact k.modPair _ _
  · exact k

theorem Keeps.reqStart (h : Keeps s₀ s) (c : Chan) : Keeps s₀ (s.reqStart c).1 := by
  unfold State.reqStart
  dsimp only
  split
  · exact h
  · split
    · exact h
    · split
      · split
        · exact h
        · split
          · exact h
          · exact h.startPlan c _
      · exact h

theorem Keeps.reqPause (h : Keeps s₀ s) (c : Chan) : Keeps s₀ (s.reqPause c).1 := by
  unfold State.reqPause
  dsimp only
  split
  · exact (h.moveTo c _).event c _ _ _ _
  · exact h

theorem Keeps.resumePaused (h : Keeps s₀ s) (c : Chan) : Keeps s₀ (s.resumePaused c) := by
  unfold State.resumePaused
  split
  · exact h.enterRunning c _
  · exact h.moveTo c _

theorem Keeps.reqResume (h : Keeps s₀ s) (c : Chan) : Keeps s₀ (s.reqResume c).1 := by
  unfold State.reqResume
  dsimp only
  split
  · split
    · exact h
    · exact (h.event c _ _ _ _).resumePaused c
  · split
    · exact h
    · split
      · exact h
      · exact ((h.moveTo c _).modChan c _ fun o => o.same rfl rfl rfl rfl rfl rfl rfl rfl rfl rfl rfl rfl rfl).event c _ _ _ _
  · exact h

theorem Keeps.reqStop (h : Keeps s₀ s) (c : Chan) : Keeps s₀ (s.reqStop c).1 := by
  unfold State.reqStop
  split
  · exact (h.endStepBy c _).endPlan c _
  · exact h

theorem Keeps.reqFaultAck (h : Keeps s₀ s) (c : Chan) : Keeps s₀ (s.reqFaultAck c).1 := by
  unfold State.reqFaultAck
  split
  · exact h.modChan c (fun ch => { ch with fault := { ch.fault with acked := true } }) fun o => o.same rfl rfl rfl rfl rfl rfl rfl rfl rfl rfl rfl rfl rfl
  · exact h

theorem Keeps.jumpTo (h : Keeps s₀ s) (c : Chan) (n : Nat) : Keeps s₀ (s.jumpTo c n) := by
  unfold State.jumpTo
  exact (((h.endStepBy c _).modChan c _ fun o => o.undriven rfl rfl rfl rfl rfl rfl rfl rfl rfl rfl rfl).enterStep c _ _).settle c

theorem Keeps.reqJump (h : Keeps s₀ s) (c : Chan) (half : List Byte) : Keeps s₀ (s.reqJump c half).1 := by
  unfold State.reqJump
  dsimp only
  split
  · split
    · exact h.jumpTo c _
    · exact h
  · exact h

/-! ### SET_LIMITS -/

theorem within_iff {lo hi x : Int} : within lo hi x = true ↔ lo ≤ x ∧ x ≤ hi := by simp [within]

/-- R96: a set of parameters without fault passes every check of the first pass and every comparison of the second. -/
theorem limitFault_none {f : Nat → Int} (h : limitFault f = none) : (∀ n, n < 21 → limitOk n (f n) = true) ∧ limitConflict f = none := by
  unfold limitFault at h
  split at h
  · cases h
  · next e =>
    refine ⟨fun n hn => ?_, h⟩
    have := List.find?_eq_none.mp e n (List.mem_range.mpr hn)
    simpa using this

/-- R96: the second pass finds no fault in consistent figures alone. -/
theorem limitConflict_none {f : Nat → Int} (h : limitConflict f = none) :
    f 1 < f 0 ∧ f 3 ≤ f 2 ∧ f 12 ≤ f 2 ∧ f 11 ≤ f 12 ∧ f 13 ≤ f 14 := by
  unfold limitConflict at h
  split at h
  · cases h
  · split at h
    · cases h
    · split at h
      · cases h
      · split at h
        · cases h
        · split at h
          · cases h
          · omega

/-- R96: the field of a code is one of the four filter times where the first pass passes it. -/
theorem filterTime_ok {x : Int} (h : limitOk 15 x = true) : x.toNat = 50 ∨ x.toNat = 100 ∨ x.toNat = 200 ∨ x.toNat = 400 := by
  simp only [limitOk, Bool.or_eq_true, decide_eq_true_eq] at h
  omega

/-- R96: an accepted SET_LIMITS loads a set that both passes accept. -/
theorem limitSetOf_ok {f : Nat → Int} (h : limitFault f = none) : (limitSetOf f).Ok := by
  obtain ⟨hk, hc⟩ := limitFault_none h
  obtain ⟨c1, c2, c3, c4, c5⟩ := limitConflict_none hc
  have h0 := within_iff.mp (show within 1 1000000 (f 0) = true from hk 0 (by decide))
  have h1 := within_iff.mp (show within 0 999999 (f 1) = true from hk 1 (by decide))
  have h2 := within_iff.mp (show within 1 1200000 (f 2) = true from hk 2 (by decide))
  have h3 := within_iff.mp (show within 1 1200000 (f 3) = true from hk 3 (by decide))
  have h4 := within_iff.mp (show within 1 255 (f 4) = true from hk 4 (by decide))
  have h5 := within_iff.mp (show within 100 10000 (f 5) = true from hk 5 (by decide))
  have h6 := within_iff.mp (show within 1 255 (f 6) = true from hk 6 (by decide))
  have h7 := within_iff.mp (show within 0 1000 (f 7) = true from hk 7 (by decide))
  have h8 := within_iff.mp (show within (-400) 1500 (f 8) = true from hk 8 (by decide))
  have h9 := within_iff.mp (show within (-400) 1500 (f 9) = true from hk 9 (by decide))
  have h10 := within_iff.mp (show within 0 100000 (f 10) = true from hk 10 (by decide))
  have h11 := within_iff.mp (show within 0 1200000 (f 11) = true from hk 11 (by decide))
  have h12 := within_iff.mp (show within 1 1200000 (f 12) = true from hk 12 (by decide))
  have h13 := within_iff.mp (show within 0 1000000 (f 13) = true from hk 13 (by decide))
  have h14 := within_iff.mp (show within 0 1000000 (f 14) = true from hk 14 (by decide))
  have h16 := within_iff.mp (show within 2 50 (f 16) = true from hk 16 (by decide))
  have h17 := within_iff.mp (show within 1 600 (f 17) = true from hk 17 (by decide))
  have h19 := within_iff.mp (show within 0 2 (f 19) = true from hk 19 (by decide))
  have h20 := within_iff.mp (show within 0 100000 (f 20) = true from hk 20 (by decide))
  exact ⟨h0, h1, h2, h3, (show 1 ≤ (f 4).toNat ∧ (f 4).toNat ≤ 255 by omega),
    (show 100 ≤ (f 5).toNat ∧ (f 5).toNat ≤ 10000 by omega), (show 1 ≤ (f 6).toNat ∧ (f 6).toNat ≤ 255 by omega),
    (show (f 7).toNat ≤ 1000 by omega), h8, h9, h10, h11, h12, h13, h14, filterTime_ok (hk 15 (by decide)),
    (show 2 ≤ (f 16).toNat ∧ (f 16).toNat ≤ 50 by omega), (show 1 ≤ (f 17).toNat ∧ (f 17).toNat ≤ 600 by omega),
    (show (f 19).toNat ≤ 2 by omega), h20, c1, c2, c3, c4, c5⟩

theorem Keeps.reqSetLimits (h : Keeps s₀ s) (c : Chan) (half : List Byte) : Keeps s₀ (s.reqSetLimits c half).1 := by
  unfold State.reqSetLimits
  dsimp only
  split
  · exact h
  · split
    · exact h
    · next e =>
      refine h.modChan c (fun ch => { ch with limits := some (limitSetOf (limitField half)), limitsLoaded := true }) fun o =>
        ⟨o.driven, o.stepSet, o.planSet, o.lifeSet, o.planTime, o.stepTime, o.cycle, o.silence, o.later, fun l hl => ?_, rfl⟩
      cases hl
      exact limitSetOf_ok e

/-! ### The other channel requests -/

theorem Keeps.reqSetCal (h : Keeps s₀ s) (c : Chan) (half : List Byte) : Keeps s₀ (s.reqSetCal c half).1 := by
  unfold State.reqSetCal
  dsimp only
  split
  · exact h
  · have k := h.modChan c (fun ch => { ch with cal := ch.cal.set (CalParams.ofHalf half) }) fun o =>
      o.same rfl rfl rfl rfl rfl rfl rfl rfl rfl rfl rfl rfl rfl
    show Keeps s₀ (State.discardLearning _ _ _)
    unfold State.discardLearning
    split
    · exact k.modChan c _ fun o => o.az _ _
    · exact k

theorem Channel.Ok.watches (ch : Channel) (w : Vector Watch 3) (h : ch.Ok) : Channel.Ok { ch with watches := w } :=
  h.same rfl rfl rfl rfl rfl rfl rfl rfl rfl rfl rfl rfl rfl

theorem Keeps.reqSetWatch (h : Keeps s₀ s) (c : Chan) (half : List Byte) : Keeps s₀ (s.reqSetWatch c half).1 := by
  unfold State.reqSetWatch
  have k : ∀ w : Channel → Vector Watch 3, Keeps s₀ (s.modChan c fun ch => { ch with watches := w ch }) := fun w =>
    h.modChan c _ fun o => Channel.Ok.watches _ _ o
  repeat' split
  all_goals first | exact h | (dsimp only [State.done]; exact k fun _ => _)

theorem Keeps.reqClearWatch (h : Keeps s₀ s) (c : Chan) (half : List Byte) : Keeps s₀ (s.reqClearWatch c half).1 := by
  unfold State.reqClearWatch
  have k : ∀ w : Channel → Vector Watch 3, Keeps s₀ (s.modChan c fun ch => { ch with watches := w ch }) := fun w =>
    h.modChan c _ fun o => Channel.Ok.watches _ _ o
  split
  · exact h
  · dsimp only [State.done]; exact k fun _ => _

theorem Keeps.reqFlush (h : Keeps s₀ s) (c : Chan) : Keeps s₀ (s.reqFlush c).1 := by
  unfold State.reqFlush
  dsimp only
  split
  · exact h
  · split
    · exact h.handover c _ _
    · exact h

theorem Serves.clearCounters (h : Serves s₀ s) (c : Chan) : Serves s₀ (s.clearCounters c) := by
  have k := (h.keeps ((Keeps.refl s).modChan c Channel.clearCounters fun o =>
    o.same rfl rfl rfl rfl rfl rfl rfl rfl rfl rfl rfl rfl rfl)).modLink c Link.clearCounters
  unfold State.clearCounters
  dsimp only
  split
  · exact k.keeps ((Keeps.refl _).modPair _ _)
  · exact k

/-! ### Enabling, disabling and loading -/

theorem Serves.reqEnable (h : Serves s₀ s) (c : Chan) : Serves s₀ (s.reqEnable c).1 := by
  unfold State.reqEnable
  split
  · exact (h.modLink c _).keeps ((Keeps.refl _).heard c)
  · exact h

theorem Serves.reqDisable (h : Serves s₀ s) (c : Chan) : Serves s₀ (s.reqDisable c).1 := by
  unfold State.reqDisable
  split
  · exact h
  · split
    · exact h
    · exact ((h.keeps ((Keeps.refl s).moveTo c _)).modLink c _).keeps ((Keeps.refl _).heard c)
  · exact h

theorem Keeps.reqLoad (h : Keeps s₀ s) (c : Chan) : Keeps s₀ (s.reqLoad c).1 :=
  h.modChan c (fun ch => { ch with staged := .loading, load := some ⟨none, [], false⟩ }) fun o => o.same rfl rfl rfl rfl rfl rfl rfl rfl rfl rfl rfl rfl rfl

/-! ### Device requests -/

theorem Keeps.reqSetLink (h : Keeps s₀ s) (half : List Byte) : Keeps s₀ (s.reqSetLink half).1 := by
  have k : ∀ l, Keeps s₀ (s.modArb fun a => { a with settings := some l, linkSet := true, timer := some 0 }) := fun _ =>
    h.modArb _ fun o => o
  unfold State.reqSetLink
  dsimp only
  split
  · exact h
  · exact (k _).evaluate

theorem Keeps.gang (h : Keeps s₀ s) (k : PairIx) : Keeps s₀ (s.gang k) := by
  unfold State.gang
  exact ((((h.modPair k _).moveTo _ _).modChan _ _ fun o =>
    o.same rfl rfl rfl rfl rfl rfl rfl rfl rfl rfl rfl rfl rfl).heard _).notify _

theorem Keeps.separate (h : Keeps s₀ s) (k : PairIx) : Keeps s₀ (s.separate k) := by
  unfold State.separate
  exact ((h.modPair k _).moveTo _ _).heard _

theorem Keeps.reqSetPair (h : Keeps s₀ s) (half : List Byte) : Keeps s₀ (s.reqSetPair half).1 := by
  unfold State.reqSetPair
  split
  · exact h
  · next k _ =>
    dsimp only
    split
    · split
      · exact h.gang k
      · exact h
    · split
      · show Keeps s₀ (if _ then _ else _)
        split
        · exact h.separate k
        · exact h
      · exact h
    · exact h

theorem Serves.clearDeviceCounters (h : Serves s₀ s) : Serves s₀ s.clearDeviceCounters :=
  h.trans ⟨rfl, rfl, rfl, rfl, rfl, rfl, rfl, rfl, rfl, fun _ _ => rfl, fun o => ⟨o.store, o.chans, o.wanted, o.paceTime, o.timer⟩⟩

/-! ### Dispatch -/

/-- R183: whatever request is examined, the part outside its owner keeps what Serves says. -/
theorem Serves.dispatch (h : Serves s₀ s) (n : SlotIx) (half : List Byte) : Serves s₀ (s.dispatch n half).1 := by
  have kr := Keeps.refl s
  unfold State.dispatch
  dsimp only
  split
  · next c _ =>
    split
    · exact h
    · next k _ =>
      split
      · exact h
      · cases k with
        | enable => exact h.reqEnable c
        | disable => exact h.reqDisable c
        | loadPlan => exact h.keeps (kr.reqLoad c)
        | start => exact h.keeps (kr.reqStart c)
        | pause => exact h.keeps (kr.reqPause c)
        | resume => exact h.keeps (kr.reqResume c)
        | stop => exact h.keeps (kr.reqStop c)
        | faultAck => exact h.keeps (kr.reqFaultAck c)
        | setLimits => exact h.keeps (kr.reqSetLimits c half)
        | setCal => exact h.keeps (kr.reqSetCal c half)
        | setWatch => exact h.keeps (kr.reqSetWatch c half)
        | clearWatch => exact h.keeps (kr.reqClearWatch c half)
        | jump => exact h.keeps (kr.reqJump c half)
        | flush => exact h.keeps (kr.reqFlush c)
        | status => exact h
        | counters =>
          show Serves s₀ (if _ then _ else _)
          split
          · exact h.clearCounters c
          · exact h
        | setLink => exact h
        | setPair => exact h
        | deviceCounters => exact h
  · split
    · exact h
    · next k _ =>
      cases k with
      | setLink => exact h.keeps (kr.reqSetLink half)
      | setPair => exact h.keeps (kr.reqSetPair half)
      | deviceCounters =>
        show Serves s₀ (if _ then _ else _)
        split
        · exact h.clearDeviceCounters
        · exact h
      | _ => exact h

/-! ### The slot protocol -/

theorem Holds.putStateField (h : Holds s₀ s) (n : SlotIx) (v : Nat) : Holds s₀ (s.putStateField n v) := h.writeStore _ _

theorem Holds.bumpResponses (h : Holds s₀ s) (n : SlotIx) : Holds s₀ (s.bumpResponses n) := by
  unfold State.bumpResponses
  split
  · exact h.keeps ((Keeps.refl s).bumpChan _ _)
  · exact h.keeps ((Keeps.refl s).bumpDev _)

theorem Holds.finish (h : Holds s₀ s) (n : SlotIx) (r : Reply) : Holds s₀ (s.finish n r) := by
  unfold State.finish
  dsimp only
  split
  · exact h
  · have k := h.writeStore (responseBase n)
    split
    · exact (((k _).putStateField n _).bumpResponses n).modSlot n _
    · exact ((k _).bumpResponses n).modSlot n _

theorem Holds.take (h : Holds s₀ s) (n : SlotIx) : Holds s₀ (s.take n) := by
  unfold State.take
  dsimp only
  split
  · have k := ((h.modSlot n fun sl => { sl with latch := some (s.store.readBytes (Config.slotBase n) requestHalfSize) }).putStateField
      n stateTaken)
    have k2 := k.serves ((Serves.refl _).dispatch n (s.store.readBytes (Config.slotBase n) requestHalfSize))
    split
    · exact k2.finish n _
    · exact k2
  · exact h.stray

theorem Holds.drain (h : Holds s₀ s) (n : SlotIx) : Holds s₀ (s.drain n) := by
  unfold State.drain
  split
  · exact (h.modSlot n _).take n
  · exact h

theorem Holds.postSlot (h : Holds s₀ s) (n : SlotIx) : Holds s₀ (s.postSlot n) := by
  unfold State.postSlot
  split
  · exact h.modSlot n _
  · exact (h.take n).drain n

theorem Holds.complete (h : Holds s₀ s) (n : SlotIx) (r : Reply) : Holds s₀ (s.complete n r) := (h.finish n r).drain n

theorem Keeps.advanceLoad (h : Keeps s₀ s) (c : Chan) (n : Nat) : Keeps s₀ (s.advanceLoad c n) :=
  h.modChan c _ fun o => o.same rfl rfl rfl rfl rfl rfl rfl rfl rfl rfl rfl rfl rfl

theorem Holds.completeLoad (h : Holds s₀ s) (c : Chan) : Holds s₀ (s.completeLoad c) := by
  unfold State.completeLoad
  dsimp only
  have k := h.keeps ((Keeps.refl s).advanceLoad c loadRecords)
  split
  · exact h
  · have k1 : ∀ g, Holds s₀ ((s.advanceLoad c loadRecords).modChan c fun ch => { ch with load := none, staged := g }) := fun g =>
      k.keeps ((Keeps.refl _).modChan c _ fun o => o.same rfl rfl rfl rfl rfl rfl rfl rfl rfl rfl rfl rfl rfl)
    split
    · exact (k1 _).complete _ _
    · exact (k1 _).complete _ _

theorem Holds.endBringUp (h : Holds s₀ s) (c : Chan) : Holds s₀ (s.endBringUp c) := (h.modLink c _).complete _ _

/-! ### Releases, ABORT and posts -/

theorem Keeps.writeOut (h : Keeps s₀ s) (c : Chan) (p : PoolId) : Keeps s₀ (s.writeOut c p) := by
  unfold State.writeOut
  split
  · exact h
  · exact ((h.modLog c _).placeIn c p _).leaveCause c _

theorem Holds.release (h : Holds s₀ s) (c : Chan) (p : PoolId) : Holds s₀ (s.release c p) := by
  unfold State.release
  dsimp only
  split
  · split
    · exact h.keeps (((Keeps.refl s).putHeader c p _).writeOut c p)
    · exact h.keeps ((Keeps.refl s).putHeader c p _)
  · exact h.trans ⟨rfl, rfl, rfl, rfl, rfl, rfl, rfl, rfl, fun o => ⟨o.store, o.chans, o.wanted, o.paceTime, o.timer⟩⟩

theorem Holds.abortPost (h : Holds s₀ s) (c : Chan) : Holds s₀ (s.abortPost c) := by
  have key : ∀ d, Holds s₀ (if (s.chan d).st.inPlan then s.endPlan d .aborted else s.stray) := fun d => by
    split
    · exact h.keeps ((Keeps.refl s).endPlan _ _)
    · exact h.stray
  exact key _

/-- R179: a post, whatever its code. -/
theorem Holds.takePost (h : Holds s₀ s) (code : Nat) : Holds s₀ (s.takePost code) := by
  unfold State.takePost
  split
  · exact h.stray
  · split
    · exact h.postSlot _
    · exact h.release _ _
    · exact h.abortPost _
    · exact h.stray

theorem Holds.hostRequest (h : Holds s₀ s) (n : SlotIx) (k : ReqKind) (t : U32) (l : List Byte) :
    Holds s₀ (s.hostRequest n k t l) := (h.writeStore _ _).takePost _

end Sys2Proof.Machine
end

