-- ==== Sys2Proof/Laws/Exchange.lean ====
section
/-!
SUPPORT. The host's exchange of a request (section 10.4, log 3) into a free slot, said once: what is read back of the request half, and
the dispatch and the completion that the exchange comes to.
-/

namespace Sys2Proof.Machine

variable {s : State} {n : SlotIx}

/-! ### Fields of a half -/

theorem ofLE_leBytes (n v : Nat) : ofLE (leBytes n v) = v % 256 ^ n := by
  induction n generalizing v with
  | zero => simp [leBytes, ofLE, Nat.mod_one]
  | succ n ih =>
    simp only [leBytes, ofLE, ih, BitVec.toNat_ofNat]
    have e : v % 256 ^ (n + 1) = v % 256 + 256 * (v / 256 % 256 ^ n) := by rw [Nat.pow_succ', Nat.mod_mul]
    exact e.symm

theorem ofLE_leBytes_lt {n v : Nat} (h : v < 256 ^ n) : ofLE (leBytes n v) = v := by
  rw [ofLE_leBytes, Nat.mod_eq_of_lt h]

theorem fieldAt_append_left (l m : List Byte) (o n : Nat) (h : o + n ≤ l.length) : fieldAt (l ++ m) o n = fieldAt l o n := by
  unfold fieldAt
  rw [List.drop_append_of_le_length (by omega), List.take_append_of_le_length (by rw [List.length_drop]; omega)]

theorem fieldAt_append_right (l m : List Byte) (o n : Nat) (h : l.length ≤ o) : fieldAt (l ++ m) o n = fieldAt m (o - l.length) n := by
  unfold fieldAt
  rw [List.drop_append, List.drop_eq_nil_of_le h, List.nil_append]

theorem fieldAt_leBytes (n v : Nat) (m : List Byte) : fieldAt (leBytes n v ++ m) 0 n = v % 256 ^ n := by
  rw [fieldAt_append_left _ _ _ _ (by simp)]
  unfold fieldAt
  rw [List.drop_zero, List.take_of_length_le (by simp), ofLE_leBytes]

/-- What stands before the parameters of a request half. -/
def requestHead (k : ReqKind) (tag : U32) : List Byte :=
  leBytes 4 statePosted ++ leBytes 2 k.code ++ leBytes 2 0 ++ leBytes 4 tag.toNat ++ leBytes 4 0

@[simp] theorem requestHead_length (k : ReqKind) (tag : U32) : (requestHead k tag).length = 16 := by simp [requestHead]

theorem requestHalf_eq (k : ReqKind) (tag : U32) (l : List Byte) :
    requestHalf k tag l = requestHead k tag ++ (l ++ List.replicate (112 - l.length) 0) := by
  unfold requestHalf padTo requestHalfSize
  rw [List.append_assoc]
  congr 2
  simp
  omega

theorem requestHalf_size (k : ReqKind) (tag : U32) (l : List Byte) (h : l.length ≤ 112) : (requestHalf k tag l).length = 128 := by
  rw [requestHalf_eq]
  simp
  omega

theorem requestHalf_state (k : ReqKind) (tag : U32) (l : List Byte) : fieldAt (requestHalf k tag l) 0 4 = statePosted := by
  rw [requestHalf_eq, fieldAt_append_left _ _ _ _ (by simp)]
  unfold requestHead
  simp only [List.append_assoc]
  rw [fieldAt_leBytes]
  rfl

theorem ReqKind.code_lt (k : ReqKind) : k.code < 256 ^ 2 := by cases k <;> decide

theorem requestHalf_kind (k : ReqKind) (tag : U32) (l : List Byte) : reqKindCode (requestHalf k tag l) = k.code := by
  unfold reqKindCode
  rw [requestHalf_eq, fieldAt_append_left _ _ _ _ (by simp)]
  unfold requestHead
  simp only [List.append_assoc]
  rw [fieldAt_append_right _ _ _ _ (by simp), leBytes_length, Nat.sub_self, fieldAt_leBytes, Nat.mod_eq_of_lt k.code_lt]

theorem requestHalf_tag (k : ReqKind) (tag : U32) (l : List Byte) : reqTag (requestHalf k tag l) = tag.toNat := by
  unfold reqTag
  rw [requestHalf_eq, fieldAt_append_left _ _ _ _ (by simp)]
  unfold requestHead
  simp only [List.append_assoc]
  rw [fieldAt_append_right _ _ _ _ (by simp), leBytes_length, fieldAt_append_right _ _ _ _ (by simp), leBytes_length,
    fieldAt_append_right _ _ _ _ (by simp), leBytes_length, show 8 - 4 - 2 - 2 = 0 from rfl, fieldAt_leBytes,
    Nat.mod_eq_of_lt (by have := tag.isLt; omega)]

/-- A parameter field of a request half is that field of the parameters. -/
theorem requestHalf_field (k : ReqKind) (tag : U32) (l : List Byte) (o n : Nat) (h : o + n ≤ l.length) :
    fieldAt (requestHalf k tag l) (0x10 + o) n = fieldAt l o n := by
  rw [requestHalf_eq, fieldAt_append_right _ _ _ _ (by simp), requestHead_length, show 16 + o - 16 = o by omega,
    fieldAt_append_left _ _ _ _ h]

/-! ### The exchange -/

theorem postOf_slot (n : SlotIx) : postOf n.val = .slot n := by
  unfold postOf
  rw [dif_pos n.isLt]

/-- R180: the state in which the request written into slot n is examined. -/
def State.taken (s : State) (n : SlotIx) (half : List Byte) : State :=
  ((s.writeStore (Config.slotBase n) half).modSlot n fun sl => { sl with latch := some half }).putStateField n stateTaken

theorem State.modSlot_slot_self (s : State) (n : SlotIx) (f : Slot → Slot) : (s.modSlot n f).slot n = f (s.slot n) := by
  simp

/-- Section 10.4, R180: a request exchanged with a free slot is taken at its post, examined, and completed where its owner completes it
at the take. -/
theorem State.hostRequest_eq (h : SlotFree s n) (k : ReqKind) (tag : U32) (l : List Byte) (hl : l.length ≤ 112) :
    s.hostRequest n k tag l =
      let half := requestHalf k tag l
      match ((s.taken n half).dispatch n half).2 with
      | some r => (((s.taken n half).dispatch n half).1.finish n r).drain n
      | none => ((s.taken n half).dispatch n half).1 := by
  have hs : (s.writeStore (Config.slotBase n) (requestHalf k tag l)).slot n = ⟨none, false⟩ := h.slot
  have hsize := requestHalf_size k tag l hl
  have hread : (s.writeStore (Config.slotBase n) (requestHalf k tag l)).store.readBytes (Config.slotBase n) requestHalfSize
      = requestHalf k tag l := by
    have := Mem.readBytes_writeBytes s.store (Config.slotBase n) (requestHalf k tag l)
    rw [hsize] at this
    exact this
  have hfield : (s.writeStore (Config.slotBase n) (requestHalf k tag l)).stateField n = statePosted := by
    unfold State.stateField
    rw [State.writeStore_store, Mem.readBytes_writeBytes_take _ _ _ _ (by rw [hsize]; decide)]
    have := requestHalf_state k tag l
    unfold fieldAt at this
    rwa [List.drop_zero] at this
  have hphase : (s.writeStore (Config.slotBase n) (requestHalf k tag l)).phase ≠ .starting := by
    show s.phase ≠ _
    rw [h.phase]; decide
  unfold State.hostRequest State.takePost
  rw [if_neg hphase, postOf_slot]
  dsimp only
  unfold State.postSlot
  rw [hs, if_neg (by decide)]
  unfold State.take
  rw [if_pos hfield]
  dsimp only
  rw [hread]
  have e : ((s.writeStore (Config.slotBase n) (requestHalf k tag l)).modSlot n fun sl =>
      { sl with latch := some (requestHalf k tag l) }).putStateField n stateTaken = s.taken n (requestHalf k tag l) := rfl
  rw [e]
  generalize hd : (s.taken n (requestHalf k tag l)).dispatch n (requestHalf k tag l) = d
  obtain ⟨t, r⟩ := d
  cases r with
  | some r => rfl
  | none =>
    have k1 := (Serves.refl (s.taken n (requestHalf k tag l))).dispatch n (requestHalf k tag l)
    rw [hd] at k1
    have hslot : t.slot n = ⟨some (requestHalf k tag l), false⟩ := by
      have h1 : t.slot n = (s.taken n (requestHalf k tag l)).slot n := by unfold State.slot; rw [k1.slots]
      rw [h1]
      have h2 : (s.taken n (requestHalf k tag l)).slot n = ((s.writeStore (Config.slotBase n) (requestHalf k tag l)).modSlot n
          fun sl => { sl with latch := some (requestHalf k tag l) }).slot n := rfl
      rw [h2, State.slot_modSlot_self, hs]
    show State.drain t n = t
    unfold State.drain
    rw [hslot]
    rfl

/-- R183: the request of channel c's slot reaches its owner, unless the channel is a FOLLOWER that may not take it. -/
theorem State.dispatch_channel (s : State) (c : Chan) (k : ReqKind) (half : List Byte) (hk : ReqKind.ofChannelCode k.code = some k)
    (hc : reqKindCode half = k.code) :
    s.dispatch (chanSlot c) half = if (s.chan c).st = .follower ∧ k.followerMay = false then (s, some (.plain .follower))
      else s.channelRequest c half k := by
  have hs : slotChan (chanSlot c) = some c := by
    unfold slotChan chanSlot
    rw [dif_pos c.isLt]
  unfold State.dispatch
  rw [hs]
  dsimp only
  rw [hc, hk]

/-- R183: the request of the device slot reaches its owner. -/
theorem State.dispatch_device (s : State) (k : ReqKind) (half : List Byte) (hk : ReqKind.ofDeviceCode k.code = some k)
    (hc : reqKindCode half = k.code) : s.dispatch deviceSlot half = s.deviceRequest half k := by
  have hs : slotChan deviceSlot = none := by decide
  unfold State.dispatch
  rw [hs]
  dsimp only
  rw [hc, hk]

/-! ### The taken request -/

@[simp] theorem State.taken_chan (s : State) (n : SlotIx) (half : List Byte) (d : Chan) : (s.taken n half).chan d = s.chan d := rfl
@[simp] theorem State.taken_chans (s : State) (n : SlotIx) (half : List Byte) : (s.taken n half).chans = s.chans := rfl
@[simp] theorem State.taken_links (s : State) (n : SlotIx) (half : List Byte) : (s.taken n half).links = s.links := rfl
@[simp] theorem State.taken_pairs (s : State) (n : SlotIx) (half : List Byte) : (s.taken n half).pairs = s.pairs := rfl
@[simp] theorem State.taken_arb (s : State) (n : SlotIx) (half : List Byte) : (s.taken n half).arb = s.arb := rfl
@[simp] theorem State.taken_notices (s : State) (n : SlotIx) (half : List Byte) : (s.taken n half).notices = s.notices := rfl
@[simp] theorem State.taken_stopAll (s : State) (n : SlotIx) (half : List Byte) : (s.taken n half).stopAll = s.stopAll := rfl
@[simp] theorem State.taken_linkOk (s : State) (n : SlotIx) (half : List Byte) : (s.taken n half).linkOk = s.linkOk := rfl
@[simp] theorem State.taken_leads (s : State) (n : SlotIx) (half : List Byte) (d : Chan) : (s.taken n half).leads d = s.leads d := rfl
@[simp] theorem State.taken_conductor (s : State) (n : SlotIx) (half : List Byte) (d : Chan) :
    (s.taken n half).conductor d = s.conductor d := rfl

theorem State.taken_slot (h : SlotFree s n) (half : List Byte) : (s.taken n half).slot n = ⟨some half, false⟩ := by
  have e : (s.taken n half).slot n = ((s.writeStore (Config.slotBase n) half).modSlot n
      fun sl => { sl with latch := some half }).slot n := rfl
  rw [e, State.slot_modSlot_self]
  have : (s.writeStore (Config.slotBase n) half).slot n = ⟨none, false⟩ := h.slot
  rw [this]

/-- R180: at the take the state field reads TAKEN. -/
theorem State.taken_stateField (s : State) (n : SlotIx) (half : List Byte) : (s.taken n half).stateField n = stateTaken := by
  have e : (s.taken n half).store = Mem.writeBytes (Mem.writeBytes s.store (Config.slotBase n) half) (Config.slotBase n)
      (leBytes 4 stateTaken) := rfl
  unfold State.stateField
  rw [e]
  have := Mem.readBytes_writeBytes (Mem.writeBytes s.store (Config.slotBase n) half) (Config.slotBase n) (leBytes 4 stateTaken)
  rw [leBytes_length] at this
  rw [this]
  rfl

end Sys2Proof.Machine
end

