-- ==== Sys2Proof/Laws/Logs.lean ====
section
/-!
SUPPORT. What the operations of a channel's event do to the pools (R145 to R159) and to the hold causes of RUNNING channels, said once
(`Logs`): sound pools stay sound, a record goes where its pool has room, and no byte of the Plan Areas or of the free area changes.
-/

namespace Sys2Proof.Machine

/-- The Plan Areas and the free area of the store (R175). -/
def HostArea (a : Nat) : Prop := (0x8000 ≤ a ∧ a < 0x28000) ∨ 0x68000 ≤ a

/-- Logger.Ok as it stands within an event: a report may stand, with the latch entry that it reports. -/
structure Logger.Sound (l : Logger) : Prop where
  poolA : l.poolA.Ok
  poolB : l.poolB.Ok
  one : ¬ (l.poolA.isFilling = true ∧ l.poolB.isFilling = true)
  owned : l.poolA.owner = .part ∨ l.poolB.owner = .part → l.filling.isSome = true
  latch : ∀ r, l.latch = some r → l.filling = none ∧ r.Fits
  report : l.report = true → l.latch.isSome = true

def State.LogsSound (s : State) : Prop := ∀ c, (s.chan c).log.Sound

def State.Unheld (s : State) : Prop := ∀ c, (s.chan c).st = .running → (s.chan c).hold.isEmpty = true

/-- s is what an event has made of s₀, as far as the pools go; the report of channel r may have been raised. -/
structure Logs (r : Option Chan) (s₀ s : State) : Prop where
  sound : s₀.LogsSound → s.LogsSound
  mem : s₀.LogsSound → ∀ a, HostArea a → s.store.read a = s₀.store.read a
  report : s₀.LogsSound → ∀ d, r ≠ some d → (s₀.chan d).log.report = false → (s.chan d).log.report = false
  unheld : s₀.LogsSound → s₀.Unheld → s.Unheld

variable {s₀ s : State} {r : Option Chan} {c d : Chan}

theorem Logs.refl (r : Option Chan) (s : State) : Logs r s s := ⟨id, fun _ _ _ => rfl, fun _ _ _ h => h, fun _ => id⟩

theorem Logs.trans {s₁ s₂ s₃ : State} (h : Logs r s₁ s₂) (k : Logs r s₂ s₃) : Logs r s₁ s₃ :=
  ⟨fun o => k.sound (h.sound o), fun o a ha => (k.mem (h.sound o) a ha).trans (h.mem o a ha),
    fun o d hd e => k.report (h.sound o) d hd (h.report o d hd e), fun o u => k.unheld (h.sound o) (h.unheld o u)⟩

/-- What holds of an event of sound pools may be shown for sound pools alone. -/
theorem Logs.of (h : s₀.LogsSound → Logs r s₀ s) : Logs r s₀ s :=
  ⟨fun o => (h o).sound o, fun o => (h o).mem o, fun o => (h o).report o, fun o => (h o).unheld o⟩

theorem Logs.any (h : Logs none s₀ s) (r : Option Chan) : Logs r s₀ s :=
  ⟨h.sound, h.mem, fun o d _ => h.report o d (by simp), h.unheld⟩

theorem Logs.then {s₁ s₂ s₃ : State} (h : Logs r s₁ s₂) (k : Logs none s₂ s₃) : Logs r s₁ s₃ := h.trans (k.any r)

theorem Logger.Sound.ok {l : Logger} (h : l.Sound) (hr : l.report = false) : l.Ok :=
  ⟨h.poolA, h.poolB, h.one, h.owned, h.latch, hr⟩

theorem Logger.Ok.sound {l : Logger} (h : l.Ok) : l.Sound :=
  ⟨h.poolA, h.poolB, h.one, h.owned, h.latch, fun e => absurd (h.report.symm.trans e) (by decide)⟩

/-- An event that raises no report keeps the pools as R145 and R146 have them. -/
theorem Logs.logsOk (h : Logs none s₀ s) (o : s₀.LogsOk) : s.LogsOk :=
  have k : s₀.LogsSound := fun c => (o.logs c).sound
  ⟨fun c => (h.sound k c).ok (h.report k c (by simp) (o.logs c).report), h.unheld k o.unheld⟩

/-! ### Changes of other parts -/

/-- A state with the same Loggers, channel states and hold causes. -/
theorem Logs.same {t : State} (h : Logs r s₀ s) (hl : ∀ d, (t.chan d).log = (s.chan d).log)
    (hu : ∀ d, (t.chan d).st = .running → (s.chan d).st = .running ∧ (t.chan d).hold = (s.chan d).hold)
    (hm : ∀ a, HostArea a → t.store.read a = s.store.read a) : Logs r s₀ t :=
  h.trans ⟨fun o d => by rw [hl d]; exact o d, fun _ => hm, fun _ d _ e => by rw [hl d]; exact e, fun _ o d e => by
    rw [(hu d e).2]; exact o d (hu d e).1⟩

theorem Logs.modChan (h : Logs r s₀ s) (c : Chan) (f : Channel → Channel) (h1 : (f (s.chan c)).log = (s.chan c).log)
    (h2 : (f (s.chan c)).st = (s.chan c).st) (h3 : (f (s.chan c)).hold = (s.chan c).hold) : Logs r s₀ (s.modChan c f) := by
  refine h.same (fun d => ?_) (fun d => ?_) fun _ _ => rfl
  · rw [State.chan_modChan]; split
    · next e => rw [e]; exact h1
    · rfl
  · rw [State.chan_modChan]; split
    · next e => rw [e]; exact fun k => ⟨h2.symm.trans k, h3⟩
    · exact fun k => ⟨k, rfl⟩

theorem Logs.chansSame {t : State} (h : Logs r s₀ s) (hc : t.chans = s.chans)
    (hm : ∀ a, HostArea a → t.store.read a = s.store.read a) : Logs r s₀ t :=
  have e : ∀ d, t.chan d = s.chan d := fun d => by unfold State.chan; rw [hc]
  h.same (fun d => by rw [e d]) (fun d k => by rw [e d] at k ⊢; exact ⟨k, rfl⟩) hm

theorem Logs.modPair (h : Logs r s₀ s) (k : PairIx) (f : Pair → Pair) : Logs r s₀ (s.modPair k f) :=
  h.chansSame rfl fun _ _ => rfl

theorem Logs.modArb (h : Logs r s₀ s) (f : Arbiter → Arbiter) : Logs r s₀ (s.modArb f) := h.chansSame rfl fun _ _ => rfl

theorem Logs.writeStore (h : Logs r s₀ s) (a : Nat) (l : List Byte) (ha : ∀ b, HostArea b → b < a ∨ a + l.length ≤ b) :
    Logs r s₀ (s.writeStore a l) :=
  h.chansSame rfl fun b hb => Mem.read_writeBytes_ne _ _ _ _ (ha b hb)

theorem Logs.bumpChan (h : Logs r s₀ s) (c : Chan) (k : ChanCount) : Logs r s₀ (s.bumpChan c k) := by
  refine h.chansSame rfl fun b hb => Mem.read_writeBytes_ne _ _ _ _ ?_
  have := ChanCount.offset_le k
  have := c.isLt
  simp only [leBytes_length, Config.chanNotice]
  unfold HostArea at hb
  omega

theorem Logs.bumpDev (h : Logs r s₀ s) (k : DevCount) : Logs r s₀ (s.bumpDev k) := by
  refine h.chansSame rfl fun b hb => Mem.read_writeBytes_ne _ _ _ _ ?_
  have := DevCount.offset_le k
  simp only [leBytes_length, Config.devNotice]
  unfold HostArea at hb
  omega

theorem Logs.evaluate (h : Logs r s₀ s) : Logs r s₀ s.evaluate := by
  unfold State.evaluate
  split
  · exact h.modArb _
  · exact h

theorem Logs.notify (h : Logs r s₀ s) (c : Chan) : Logs r s₀ (s.notify c) := (h.modArb _).evaluate

theorem Logs.notifyEntry (h : Logs r s₀ s) (c : Chan) : Logs r s₀ (s.notifyEntry c) := by
  unfold State.notifyEntry
  split
  · exact h
  · exact h.notify c

theorem Logs.modAz (h : Logs r s₀ s) (c : Chan) (f : AutoZero → AutoZero) : Logs r s₀ (s.modAz c f) := by
  unfold State.modAz
  dsimp only
  split
  · exact (h.modChan c _ rfl rfl rfl).modChan _ _ rfl rfl rfl
  · exact h.modChan c _ rfl rfl rfl

theorem Logs.departLocal (h : Logs r s₀ s) (c : Chan) : Logs r s₀ (s.departLocal c) := (h.modChan c _ rfl rfl rfl).modAz c _

/-- A change of channel state keeps hold causes out of RUNNING if RUNNING is entered without one. -/
theorem Logs.setSt (h : Logs r s₀ s) (c : Chan) (st : ChState) (hd : st = .running → (s.chan c).hold.isEmpty = true) :
    Logs r s₀ (s.setSt c st) := by
  unfold State.setSt
  split
  · exact h
  · have k : Logs r s (s.modChan c fun ch => { ch with st := st }) := by
      refine ⟨fun o d => ?_, fun _ _ _ => rfl, fun _ d _ e => ?_, fun _ o d e => ?_⟩
      · rw [State.chan_modChan]; split
        · exact o d
        · exact o d
      · rw [State.chan_modChan]; split
        · exact e
        · exact e
      · revert e
        rw [State.chan_modChan]; split
        · next e' => subst e'; exact fun e => hd e
        · exact fun e => o d e
    exact (h.trans k).bumpChan c _

theorem Logs.moveTo (h : Logs r s₀ s) (c : Chan) (st : ChState) (hst : st ≠ .running) : Logs r s₀ (s.moveTo c st) := by
  unfold State.moveTo
  split
  · exact ((h.departLocal c).setSt c st fun e => absurd e hst).notify c
  · exact h.setSt c st fun e => absurd e hst

theorem Logs.enterStep (h : Logs r s₀ s) (c : Chan) (n : Nat) (b : Bool) : Logs r s₀ (s.enterStep c n b) := by
  have key : ∀ (ch : Channel) st, (ch.enterStep n st b).log = ch.log ∧ (ch.enterStep n st b).st = ch.st
      ∧ (ch.enterStep n st b).hold = ch.hold := fun ch st => by
    unfold Channel.enterStep Channel.restart
    dsimp only
    repeat' split
    all_goals exact ⟨rfl, rfl, rfl⟩
  unfold State.enterStep
  split
  · exact ((h.modChan c _ (key _ _).1 (key _ _).2.1 (key _ _).2.2).modAz c _).notifyEntry c
  · exact h

theorem Channel.restart_same (ch : Channel) : ch.restart.log = ch.log ∧ ch.restart.st = ch.st ∧ ch.restart.hold = ch.hold := by
  unfold Channel.restart; split <;> exact ⟨rfl, rfl, rfl⟩

theorem Logs.enterRunning (h : Logs r s₀ s) (c : Chan) (b : Bool) (hd : (s.chan c).hold.isEmpty = true) :
    Logs r s₀ (s.enterRunning c b) := by
  unfold State.enterRunning
  dsimp only
  have k := (h.setSt c .running fun _ => hd).modChan c
    (fun ch => { ch with seqr := { ch.seqr with qualify := [0, 0, 0, 0] } }) rfl rfl rfl
  split
  · exact (k.modChan c _ (Channel.restart_same _).1 (Channel.restart_same _).2.1 (Channel.restart_same _).2.2).notify c
  · exact k.enterStep c _ _

/-! ### Pools -/

/-- A channel with another Logger. -/
def Channel.withLog (ch : Channel) (l : Logger) : Channel := { ch with log := l }

@[simp] theorem Channel.withLog_log (ch : Channel) (l : Logger) : (ch.withLog l).log = l := rfl

@[simp] theorem Channel.withLog_withLog (ch : Channel) (l m : Logger) : (ch.withLog l).withLog m = ch.withLog m := rfl

/-- A change of one Logger. -/
theorem Logs.change {t : State} {l : Logger} (h : Logs r s₀ s) (c : Chan)
    (hc : ∀ d, t.chan d = if d = c then (s.chan c).withLog l else s.chan d) (hl : s.LogsSound → l.Sound)
    (hr : s.LogsSound → r ≠ some c → (s.chan c).log.report = false → l.report = false)
    (hm : s.LogsSound → ∀ a, HostArea a → t.store.read a = s.store.read a) : Logs r s₀ t := by
  refine h.trans ⟨fun o d => ?_, hm, fun o d hd e => ?_, fun _ o d e => ?_⟩
  · rw [hc d]; split
    · exact hl o
    · exact o d
  · rw [hc d]; split
    · next e' => subst e'; exact hr o hd e
    · exact e
  · rw [hc d] at e ⊢
    split at e
    · next e' => simp only [if_pos e']; exact o c e
    · next e' => simp only [if_neg e']; exact o d e

theorem State.modLog_chan (s : State) (c d : Chan) (f : Logger → Logger) :
    (s.modLog c f).chan d = if d = c then (s.chan c).withLog (f (s.chan c).log) else s.chan d := by
  refine (State.chan_modChan _ _ _ _).trans ?_
  split
  · next e => rw [e]; rfl
  · rfl

theorem Logs.modLog (h : Logs r s₀ s) (c : Chan) (f : Logger → Logger) (hf : s.LogsSound → (f (s.chan c).log).Sound)
    (hr : s.LogsSound → r ≠ some c → (s.chan c).log.report = false → (f (s.chan c).log).report = false) :
    Logs r s₀ (s.modLog c f) :=
  h.change c (fun d => State.modLog_chan s c d f) hf hr fun _ _ _ => rfl

/-- A Logger with the same pools, latch and report is as sound. -/
theorem Logger.Sound.counts {l l' : Logger} (h : l.Sound) (h1 : l'.poolA = l.poolA) (h2 : l'.poolB = l.poolB)
    (h3 : l'.latch = l.latch) (h4 : l'.report = l.report) : l'.Sound := by
  have hf : l'.filling = l.filling := by unfold Logger.filling; rw [h1, h2]
  exact ⟨h1 ▸ h.poolA, h2 ▸ h.poolB, by rw [h1, h2]; exact h.one, by rw [h1, h2, hf]; exact h.owned,
    by rw [h3, hf]; exact h.latch, by rw [h3, h4]; exact h.report⟩

theorem Logger.filling_some {l : Logger} (h : l.Sound) {p : PoolId} (hp : l.filling = some p) :
    (l.pool p).isFilling = true ∧ (l.pool (otherPool p)).isFilling = false ∧ l.latch = none := by
  have hl : l.latch = none := by
    cases e : l.latch with
    | none => rfl
    | some r => have := (h.latch r e).1; rw [hp] at this; cases this
  unfold Logger.filling at hp
  split at hp
  · next e =>
    cases hp
    refine ⟨e, ?_, hl⟩
    cases e2 : l.poolB.isFilling
    · exact e2
    · exact absurd ⟨e, e2⟩ h.one
  · next e =>
    split at hp
    · next e2 => cases hp; exact ⟨e2, by simpa [Logger.pool, otherPool] using e, hl⟩
    · cases hp

theorem Logger.Sound.pool {l : Logger} (h : l.Sound) (p : PoolId) : (l.pool p).Ok := by
  cases p
  · exact h.poolA
  · exact h.poolB

theorem PoolHeader.isFilling_iff (h : PoolHeader) : h.isFilling = true ↔ h.owner = .part ∧ h.side = .filling := by
  simp [PoolHeader.isFilling]

theorem PoolHeader.isFilling_false {h : PoolHeader} (ho : h.owner = .host) : h.isFilling = false := by
  simp [PoolHeader.isFilling, ho]

/-- R152: a Logger after the handover of pool p. -/
def Logger.handedOver (l : Logger) (p : PoolId) (reason : CloseReason) : Logger :=
  let h := l.pool p
  let l1 := l.setPool p { h with reason := reason, gen := h.gen + 1, owner := .host }
  let hq := l.pool (otherPool p)
  if hq.owner = .part then l1.setPool (otherPool p) { hq with side := .filling } else l1

theorem Logger.pool_setPool_other (l : Logger) (p : PoolId) (h : PoolHeader) :
    (l.setPool p h).pool (otherPool p) = l.pool (otherPool p) := by cases p <;> rfl

@[simp] theorem Logger.pool_setPool (l : Logger) (p : PoolId) (h : PoolHeader) : (l.setPool p h).pool p = h := by cases p <;> rfl

theorem State.putHeader_chan (s : State) (c d : Chan) (p : PoolId) (h : PoolHeader) :
    (s.putHeader c p h).chan d = if d = c then (s.chan c).withLog ((s.chan c).log.setPool p h) else s.chan d :=
  State.modLog_chan s c d fun l => l.setPool p h

theorem headerArea (c : Chan) (p : PoolId) (h : PoolHeader) {b : Nat} (hb : HostArea b) :
    b < Config.headerBase c p ∨ Config.headerBase c p + h.bytes.length ≤ b := by
  have := c.isLt
  have : Config.poolNo p ≤ 1 := by cases p <;> decide
  simp only [PoolHeader.bytes_length, Config.headerBase]
  unfold HostArea at hb
  omega

theorem State.putHeader_mem (s : State) (c : Chan) (p : PoolId) (h : PoolHeader) {b : Nat} (hb : HostArea b) :
    (s.putHeader c p h).store.read b = s.store.read b := Mem.read_writeBytes_ne _ _ _ _ (headerArea c p h hb)

theorem State.handover_chan (s : State) (c d : Chan) (p : PoolId) (q : CloseReason) :
    (s.handover c p q).chan d = if d = c then (s.chan c).withLog ((s.chan c).log.handedOver p q) else s.chan d := by
  have e1 : ∀ x, (((s.putHeader c p x).chan c).log.pool (otherPool p)) = (s.chan c).log.pool (otherPool p) := fun x => by
    rw [State.putHeader_chan, if_pos rfl, Channel.withLog_log, Logger.pool_setPool_other]
  unfold State.handover Logger.handedOver
  dsimp only
  rw [e1, State.bumpChan_chan]
  split
  · rw [State.putHeader_chan, State.putHeader_chan, State.putHeader_chan, if_pos rfl]
    split <;> rfl
  · rw [State.putHeader_chan]

theorem State.handover_mem (s : State) (c : Chan) (p : PoolId) (q : CloseReason) {b : Nat} (hb : HostArea b) :
    (s.handover c p q).store.read b = s.store.read b := by
  have hn : ∀ t : State, (t.bumpChan c .handovers).store.read b = t.store.read b := fun t =>
    (Logs.bumpChan (Logs.chansSame (s := { t with chans := State.reset.chans }) (Logs.refl none _) rfl fun _ _ => rfl) c _).mem
      (fun d => (show ((State.reset.chan d).log).Sound from by
        have : (State.reset.chan d).log = Logger.reset := by simp [State.chan, State.reset, State.powerOn, Channel.reset]
        rw [this]
        exact ⟨⟨by decide, by decide⟩, ⟨by decide, by decide⟩, by decide, by decide, by simp [Logger.reset], by simp [Logger.reset]⟩))
      b hb
  unfold State.handover
  dsimp only
  rw [hn]
  split
  · rw [State.putHeader_mem _ _ _ _ hb, State.putHeader_mem _ _ _ _ hb]
  · rw [State.putHeader_mem _ _ _ _ hb]

/-- A pool that is not the FILLING one and that the part owns is WAITING and empty. -/
theorem PoolHeader.Ok.idle {h : PoolHeader} (o : h.Ok) (hf : h.isFilling = false) (ho : h.owner = .part) : h.used = 0 := by
  refine o.waiting ho ?_
  cases e : h.side
  · have := (PoolHeader.isFilling_iff h).mpr ⟨ho, e⟩; rw [hf] at this; cases this
  · rfl

/-- R152: a handover of the FILLING pool keeps the pools sound, and the pool that is FILLING after it is empty. -/
theorem Logger.handedOver_sound {l : Logger} (h : l.Sound) {p : PoolId} (hp : l.filling = some p) (q : CloseReason) :
    (l.handedOver p q).Sound ∧ ∀ n, (l.handedOver p q).filling = some n → ((l.handedOver p q).pool n).used = 0 := by
  obtain ⟨-, h2, h3⟩ := Logger.filling_some h hp
  have ha := h.poolA
  have hb := h.poolB
  have hrep : l.report = false := by
    cases e : l.report
    · rfl
    · have := h.report e; rw [h3] at this; cases this
  cases p
  · by_cases ho : l.poolB.owner = .part
    · have e : l.handedOver .a q = { l with
          poolA := { l.poolA with reason := q, gen := l.poolA.gen + 1, owner := .host }
          poolB := { l.poolB with side := .filling } } := if_pos ho
      have hu := hb.idle h2 ho
      have hf : (l.handedOver .a q).filling = some .b := by
        rw [e]; simp [Logger.filling, PoolHeader.isFilling, ho]
      refine ⟨⟨?_, ?_, ?_, fun _ => by rw [hf]; rfl, fun r k => ?_, fun k => ?_⟩, fun n k => ?_⟩
      · rw [e]; exact ⟨ha.used, fun e => by cases e⟩
      · rw [e]; exact ⟨hb.used, fun _ e => by cases e⟩
      · rw [e]; simp [PoolHeader.isFilling]
      · rw [e] at k; simp [h3] at k
      · rw [e] at k; simp [hrep] at k
      · rw [hf] at k; cases k; rw [e]; exact hu
    · have e : l.handedOver .a q = { l with
          poolA := { l.poolA with reason := q, gen := l.poolA.gen + 1, owner := .host } } := if_neg ho
      have hh : l.poolB.owner = .host := by cases e : l.poolB.owner <;> simp_all
      have hf : (l.handedOver .a q).filling = none := by
        rw [e]; simp [Logger.filling, PoolHeader.isFilling, hh]
      refine ⟨⟨?_, ?_, ?_, fun k => ?_, fun r k => ?_, fun k => ?_⟩, fun n k => ?_⟩
      · rw [e]; exact ⟨ha.used, fun e => by cases e⟩
      · rw [e]; exact hb
      · rw [e]; simp [PoolHeader.isFilling]
      · rw [e] at k; simp [hh] at k
      · rw [e] at k; simp [h3] at k
      · rw [e] at k; simp [hrep] at k
      · rw [hf] at k; cases k
  · by_cases ho : l.poolA.owner = .part
    · have e : l.handedOver .b q = { l with
          poolB := { l.poolB with reason := q, gen := l.poolB.gen + 1, owner := .host }
          poolA := { l.poolA with side := .filling } } := if_pos ho
      have hu := ha.idle h2 ho
      have hf : (l.handedOver .b q).filling = some .a := by
        rw [e]; simp [Logger.filling, PoolHeader.isFilling, ho]
      refine ⟨⟨?_, ?_, ?_, fun _ => by rw [hf]; rfl, fun r k => ?_, fun k => ?_⟩, fun n k => ?_⟩
      · rw [e]; exact ⟨ha.used, fun _ e => by cases e⟩
      · rw [e]; exact ⟨hb.used, fun e => by cases e⟩
      · rw [e]; simp [PoolHeader.isFilling]
      · rw [e] at k; simp [h3] at k
      · rw [e] at k; simp [hrep] at k
      · rw [hf] at k; cases k; rw [e]; exact hu
    · have e : l.handedOver .b q = { l with
          poolB := { l.poolB with reason := q, gen := l.poolB.gen + 1, owner := .host } } := if_neg ho
      have hh : l.poolA.owner = .host := by cases e : l.poolA.owner <;> simp_all
      have hf : (l.handedOver .b q).filling = none := by
        rw [e]; simp [Logger.filling, PoolHeader.isFilling, hh]
      refine ⟨⟨?_, ?_, ?_, fun k => ?_, fun r k => ?_, fun k => ?_⟩, fun n k => ?_⟩
      · rw [e]; exact ha
      · rw [e]; exact ⟨hb.used, fun e => by cases e⟩
      · rw [e]; simp [PoolHeader.isFilling]
      · rw [e] at k; simp [hh] at k
      · rw [e] at k; simp [h3] at k
      · rw [e] at k; simp [hrep] at k
      · rw [hf] at k; cases k

@[simp] theorem Logger.setPool_report (l : Logger) (p : PoolId) (h : PoolHeader) : (l.setPool p h).report = l.report := by
  cases p <;> rfl

@[simp] theorem Logger.handedOver_report (l : Logger) (p : PoolId) (q : CloseReason) : (l.handedOver p q).report = l.report := by
  unfold Logger.handedOver; dsimp only; split <;> simp

theorem Logs.handover (h : Logs r s₀ s) (c : Chan) (p : PoolId) (q : CloseReason)
    (hp : s.LogsSound → (s.chan c).log.filling = some p) : Logs r s₀ (s.handover c p q) :=
  h.change c (fun d => State.handover_chan s c d p q) (fun o => (Logger.handedOver_sound (o c) (hp o) q).1)
    (fun _ _ e => by simpa using e) fun _ _ hb => State.handover_mem _ _ _ _ hb

theorem Logs.closePool (h : Logs r s₀ s) (c : Chan) (q : CloseReason) : Logs r s₀ (s.closePool c q) := by
  unfold State.closePool
  split
  · next p e =>
    split
    · exact h.handover c p q fun _ => e
    · exact h
  · exact h

/-! ### Records -/

/-- R150: a Logger after a record is written into pool p. -/
def Logger.recorded (l : Logger) (p : PoolId) (x : Record) : Logger :=
  let h := l.pool p
  Logger.setPool { l with written := l.written + 1 } p
    { h with used := h.used + x.slots, firstSeq := if h.used = 0 then x.seq else h.firstSeq, lastSeq := x.seq }

theorem State.writeRecord_chan (s : State) (c d : Chan) (p : PoolId) (x : Record) :
    (s.writeRecord c p x).chan d = if d = c then (s.chan c).withLog ((s.chan c).log.recorded p x) else s.chan d := by
  unfold State.writeRecord Logger.recorded
  simp only [State.putHeader_chan, State.modLog_chan, State.writeStore_chan, if_true]
  by_cases hd : d = c <;> simp [hd]

@[simp] theorem Logger.recorded_report (l : Logger) (p : PoolId) (x : Record) : (l.recorded p x).report = l.report := by
  cases p <;> rfl

@[simp] theorem Logger.recorded_pendingLoss (l : Logger) (p : PoolId) (x : Record) : (l.recorded p x).pendingLoss = l.pendingLoss := by
  cases p <;> rfl

@[simp] theorem Logger.recorded_used (l : Logger) (p : PoolId) (x : Record) :
    ((l.recorded p x).pool p).used = (l.pool p).used + x.slots := by
  cases p <;> rfl

theorem Logger.recorded_filling (l : Logger) (p : PoolId) (x : Record) : (l.recorded p x).filling = l.filling := by
  cases p <;> rfl

theorem Logger.recorded_sound {l : Logger} (h : l.Sound) {p : PoolId} (hp : l.filling = some p) (x : Record)
    (hx : (l.pool p).used + x.slots ≤ Config.poolSlots) : (l.recorded p x).Sound := by
  have hf := Logger.filling_some h hp
  have hs := ((PoolHeader.isFilling_iff _).mp hf.1).2
  refine ⟨?_, ?_, ?_, ?_, ?_, ?_⟩
  · cases p
    · exact ⟨hx, fun _ e => by simp [Logger.pool] at hs; simp [Logger.recorded, Logger.pool, Logger.setPool, hs] at e⟩
    · exact h.poolA
  · cases p
    · exact h.poolB
    · exact ⟨hx, fun _ e => by simp [Logger.pool] at hs; simp [Logger.recorded, Logger.pool, Logger.setPool, hs] at e⟩
  · cases p <;> exact h.one
  · rw [Logger.recorded_filling]
    cases p <;> exact h.owned
  · rw [Logger.recorded_filling]
    cases p <;> exact h.latch
  · cases p <;> exact h.report

theorem State.writeRecord_mem (s : State) (c : Chan) (p : PoolId) (x : Record) (hx : x.Fits)
    (hu : ((s.chan c).log.pool p).used + x.slots ≤ Config.poolSlots) {b : Nat} (hb : HostArea b) :
    (s.writeRecord c p x).store.read b = s.store.read b := by
  unfold State.writeRecord
  dsimp only
  rw [State.putHeader_mem _ _ _ _ hb]
  refine Mem.read_writeBytes_ne _ _ _ _ ?_
  have := c.isLt
  have : Config.poolNo p ≤ 1 := by cases p <;> decide
  rw [hx.2]
  simp only [Config.poolBase, Config.recordSlot, Config.poolSlots] at *
  unfold HostArea at hb
  omega

theorem Logs.writeRecord (h : Logs r s₀ s) (c : Chan) (p : PoolId) (x : Record) (hx : s.LogsSound → x.Fits)
    (hp : s.LogsSound → (s.chan c).log.filling = some p)
    (hu : s.LogsSound → ((s.chan c).log.pool p).used + x.slots ≤ Config.poolSlots) : Logs r s₀ (s.writeRecord c p x) :=
  h.change c (fun d => State.writeRecord_chan s c d p x) (fun o => Logger.recorded_sound (o c) (hp o) x (hu o))
    (fun _ _ e => by simpa using e) fun o _ hb => State.writeRecord_mem _ _ _ _ (hx o) (hu o) hb

theorem gapBytes_fits (ch : Channel) (c : Chan) (q f n : U32) : (⟨.gap, q, 1, gapBytes ch c q f n⟩ : Record).Fits :=
  ⟨Or.inl rfl, by
    unfold gapBytes commonBytes
    rw [padTo_length]
    · rfl
    · simp⟩

/-- A pool with room for a record and for the GAP before it. -/
def Logger.Room (l : Logger) (p : PoolId) (x : Record) : Prop := l.filling = some p ∧ (l.pool p).used + l.need x ≤ Config.poolSlots

/-- R157: the GAP is written, or there is none; after it there is room for the record, and no loss is pending. -/
theorem Logs.writeGap (h : Logs r s₀ s) (c : Chan) (p : PoolId) (x : Record) (hr : s.LogsSound → (s.chan c).log.Room p x) :
    Logs r s₀ (s.writeGap c p) ∧ (s.LogsSound → ((s.writeGap c p).chan c).log.filling = some p
      ∧ (((s.writeGap c p).chan c).log.pool p).used + x.slots ≤ Config.poolSlots) := by
  unfold State.writeGap
  dsimp only
  split
  · next e =>
    refine ⟨h, fun o => ⟨(hr o).1, ?_⟩⟩
    have := (hr o).2
    simp only [Logger.need, e, Option.isSome_none] at this
    simpa using this
  · next f n e =>
    have room : s.LogsSound → ((s.chan c).log.pool p).used + (x.slots + 1) ≤ Config.poolSlots := fun o => by
      have := (hr o).2
      simpa [Logger.need, e] using this
    have eq : ((s.modLog c fun l => { l with nextSeq := l.nextSeq + 1, pendingLoss := none, gaps := l.gaps + 1 }).chan c).log
        = { (s.chan c).log with
            nextSeq := (s.chan c).log.nextSeq + 1, pendingLoss := none, gaps := (s.chan c).log.gaps + 1 } := by
      rw [State.modLog_chan, if_pos rfl]; rfl
    have pool : ∀ a b g, Logger.pool { (s.chan c).log with nextSeq := a, pendingLoss := b, gaps := g } p
        = (s.chan c).log.pool p := fun a b g => by cases p <;> rfl
    have fill : ∀ a b g, Logger.filling { (s.chan c).log with nextSeq := a, pendingLoss := b, gaps := g }
        = (s.chan c).log.filling := fun a b g => rfl
    have k := h.modLog c (fun l => { l with nextSeq := l.nextSeq + 1, pendingLoss := none, gaps := l.gaps + 1 })
      (fun o => (o c).counts rfl rfl rfl rfl) fun _ _ e => e
    have back : ∀ t : State, t.LogsSound → t = (s.modLog c fun l => { l with
        nextSeq := l.nextSeq + 1, pendingLoss := none, gaps := l.gaps + 1 }) → s.LogsSound := fun t ot et d => by
      have hd := ot d
      rw [et, State.modLog_chan] at hd
      split at hd
      · next ed => subst ed; exact hd.counts rfl rfl rfl rfl
      · exact hd
    refine ⟨k.writeRecord c p _ (fun _ => gapBytes_fits _ _ _ _ _) (fun o => ?_) (fun o => ?_), fun o => ⟨?_, ?_⟩⟩
    · rw [eq]; exact (hr (back _ o rfl)).1
    · have := room (back _ o rfl)
      rw [eq, pool]; simp only; omega
    · rw [State.writeRecord_chan, if_pos rfl]
      simp only [Channel.withLog_log, Logger.recorded_filling, eq]
      exact (hr o).1
    · rw [State.writeRecord_chan, if_pos rfl]
      simp only [Channel.withLog_log, Logger.recorded_used, eq, pool]
      have := room o
      omega

theorem Logs.placeIn (h : Logs r s₀ s) (c : Chan) (p : PoolId) (x : Record) (hx : x.Fits)
    (hr : s.LogsSound → (s.chan c).log.Room p x) : Logs r s₀ (s.placeIn c p x) := by
  refine h.trans (Logs.of fun o => ?_)
  obtain ⟨k1, k2⟩ := (Logs.refl r s).writeGap c p x hr
  have k3 := k1.writeRecord c p x (fun _ => hx) (fun _ => (k2 o).1) fun _ => (k2 o).2
  unfold State.placeIn
  dsimp only
  split
  · refine k3.handover c p .full fun _ => ?_
    rw [State.writeRecord_chan, if_pos rfl, Channel.withLog_log, Logger.recorded_filling]
    exact (k2 o).1
  · exact k3

/-- R154, R155: a record that falls due while no pool is FILLING. -/
theorem Logger.refuse_sound {l : Logger} (h : l.Sound) (q : LossPolicy) (x : Record) (hx : x.Fits) (hf : l.filling = none) :
    (l.refuse q x).Sound := by
  unfold Logger.refuse
  split
  · exact ⟨h.poolA, h.poolB, h.one, h.owned, fun y e => by cases e; exact ⟨hf, hx⟩, fun _ => rfl⟩
  · exact h.counts rfl rfl rfl rfl

theorem Record.need_le {x : Record} (hx : x.Fits) (l : Logger) : l.need x ≤ Config.poolSlots := by
  have : x.slots ≤ 2 := by rcases hx.1 with e | e <;> omega
  have : (if l.pendingLoss.isSome = true then 1 else 0) ≤ 1 := by split <;> omega
  unfold Logger.need Config.poolSlots
  omega

/-- R147 to R157: a record placed; only the channel's report may be raised. -/
theorem Logs.place (h : Logs (some c) s₀ s) (q : LossPolicy) (x : Record) (hx : x.Fits) : Logs (some c) s₀ (s.place c q x) := by
  refine h.trans (Logs.of fun o => ?_)
  have h := Logs.refl (some c) s
  unfold State.place
  dsimp only
  split
  · next p e =>
    split
    · next hroom => exact h.placeIn c p x hx fun _ => ⟨e, hroom⟩
    · have k := h.handover c p .full fun _ => e
      split
      · next n en =>
        refine k.placeIn c n x hx fun _ => ⟨en, ?_⟩
        have hu := (Logger.handedOver_sound (o c) e .full).2
        rw [State.handover_chan, if_pos rfl, Channel.withLog_log] at en ⊢
        rw [hu n en]
        have := Record.need_le hx ((s.chan c).log.handedOver p .full)
        simpa using this
      · next en => exact k.modLog c _ (fun o => Logger.refuse_sound (o c) q x hx en) fun _ e _ => absurd rfl e
  · next e => exact h.modLog c _ (fun o => Logger.refuse_sound (o c) q x hx e) fun _ e _ => absurd rfl e

end Sys2Proof.Machine
end

