-- ==== Sys2Proof/Laws/LogsChannel.lean ====
section
/-!
SUPPORT. The Channel Engine's transitions and the handling of a sample keep the pools sound (Laws/Logs): an operation that ends with
its reports acted on is said for `Logs none`, one that may leave the report of its channel standing for `Logs (some c)`.
-/

namespace Sys2Proof.Machine

variable {s₀ s : State} {r : Option Chan} {c d : Chan}

/-! ### Generating records -/

/-- R147, R148: a record of 32 bytes a slot is generated; only the channel's report may be raised. -/
theorem Logs.emit (h : Logs (some c) s₀ s) (k : RecKind) (n : Nat) (mk : U32 → List Byte)
    (hn : n = 1 ∨ n = 2) (hb : ∀ q, (mk q).length = 32 * n) : Logs (some c) s₀ (s.emit c k n mk) :=
  (h.modLog c _ (fun o => (o c).counts rfl rfl rfl rfl) fun _ _ e => e).place _ _ ⟨hn, hb _⟩

/-- The bytes before the body of a record. -/
@[simp] theorem commonBytes_length (k u : Nat) (c : Chan) (sl b1 st b2 f : Nat) (q : U32) (t : Nat) :
    (commonBytes k u c sl b1 st b2 f q t).length = 14 := by
  simp [commonBytes]

theorem Logs.emitEvent (h : Logs (some c) s₀ s) (a : Chan) (k f : Nat) (b : List Byte) (hb : b.length ≤ 18) :
    Logs (some c) s₀ (s.emitEvent c a k f b) := by
  unfold State.emitEvent
  refine h.emit _ _ _ (Or.inl rfl) fun q => ?_
  rw [padTo_length]
  simp
  omega

/-- R154: while the latch holds a record, a record is lost, and no report is raised. -/
theorem Logs.emit_latched (h : Logs r s₀ s) (c : Chan) (k : RecKind) (n : Nat) (mk : U32 → List Byte)
    (hl : s.LogsSound → (s.chan c).log.latch.isSome = true) : Logs r s₀ (s.emit c k n mk) := by
  refine h.trans (Logs.of fun o => ?_)
  obtain ⟨y, hy⟩ := Option.isSome_iff_exists.mp (hl o)
  have hf : (s.chan c).log.filling = none := ((o c).latch y hy).1
  have hf' : ((s.modLog c fun l => { l with nextSeq := l.nextSeq + 1 }).chan c).log.filling = none := by
    rw [State.modLog_chan, if_pos rfl]; exact hf
  unfold State.emit State.place
  dsimp only
  rw [hf']
  refine ((Logs.refl r s).modLog c _ (fun o => (o c).counts rfl rfl rfl rfl) fun _ _ e => e).modLog c _ (fun o1 => ?_) ?_
  all_goals
    rw [State.modLog_chan, if_pos rfl]
    unfold Logger.refuse
    rw [if_neg (by simp [hy])]
  · exact (o c).counts rfl rfl rfl rfl
  · exact fun _ _ e => e

/-! ### What a change of channel state leaves -/

/-- R11: the departure effects leave Loggers, states and hold causes. -/
theorem State.modAz_view (s : State) (c d : Chan) (f : AutoZero → AutoZero) :
    ((s.modAz c f).chan d).log = (s.chan d).log ∧ ((s.modAz c f).chan d).hold = (s.chan d).hold
      ∧ ((s.modAz c f).chan d).st = (s.chan d).st := by
  obtain ⟨a, ha⟩ := State.modAz_chan_same s c d f
  rw [ha]; exact ⟨rfl, rfl, rfl⟩

theorem State.notify_chan (s : State) (c d : Chan) : (s.notify c).chan d = s.chan d := by
  unfold State.notify State.evaluate
  split <;> rfl

theorem State.setSt_view (s : State) (c d : Chan) (st : ChState) :
    ((s.setSt c st).chan d).log = (s.chan d).log ∧ ((s.setSt c st).chan d).hold = (s.chan d).hold
      ∧ ((s.setSt c st).chan d).st = if d = c then st else (s.chan d).st := by
  unfold State.setSt
  split
  · next e => refine ⟨rfl, rfl, ?_⟩; split
              · next e' => rw [e', e]
              · rfl
  · simp only [State.bumpChan_chan, State.chan_modChan]
    split <;> exact ⟨rfl, rfl, rfl⟩

theorem State.departLocal_view (s : State) (c d : Chan) :
    ((s.departLocal c).chan d).log = (s.chan d).log ∧ ((s.departLocal c).chan d).hold = (s.chan d).hold
      ∧ ((s.departLocal c).chan d).st = (s.chan d).st := by
  unfold State.departLocal
  have h := State.modAz_view (s.modChan c fun ch => { ch with demand := 0, chop := none }) c d AutoZero.discard
  rw [h.1, h.2.1, h.2.2, State.chan_modChan]
  split <;> exact ⟨rfl, rfl, rfl⟩

/-- R1, R11: a change of channel state leaves Loggers and hold causes, and the states of the other channels. -/
theorem State.moveTo_view (s : State) (c d : Chan) (st : ChState) :
    ((s.moveTo c st).chan d).log = (s.chan d).log ∧ ((s.moveTo c st).chan d).hold = (s.chan d).hold
      ∧ ((s.moveTo c st).chan d).st = if d = c then st else (s.chan d).st := by
  unfold State.moveTo
  split
  · rw [State.notify_chan]
    have h := State.setSt_view (s.departLocal c) c d st
    have k := State.departLocal_view s c d
    rw [h.1, h.2.1, h.2.2, k.1, k.2.1, k.2.2]
    exact ⟨rfl, rfl, rfl⟩
  · exact State.setSt_view s c d st

/-- The store's Plan Areas and free area stand, whatever the pools. -/
theorem State.moveTo_mem (s : State) (c : Chan) (st : ChState) {a : Nat} (ha : HostArea a) :
    (s.moveTo c st).store.read a = s.store.read a := by
  have hb : ∀ (t : State) (k : ChanCount), (t.bumpChan c k).store.read a = t.store.read a := fun t k => by
    refine Mem.read_writeBytes_ne _ _ _ _ ?_
    have := ChanCount.offset_le k
    have := c.isLt
    simp only [leBytes_length, Config.chanNotice]
    unfold HostArea at ha
    omega
  have hs : ∀ t : State, (t.setSt c st).store.read a = t.store.read a := fun t => by
    unfold State.setSt
    split
    · rfl
    · exact hb _ _
  have hn : ∀ t : State, (t.notify c).store = t.store := fun t => by
    unfold State.notify State.evaluate
    split <;> rfl
  have hz : ∀ (t : State) f, (t.modAz c f).store = t.store := fun t f => by
    unfold State.modAz
    dsimp only
    split <;> rfl
  unfold State.moveTo
  split
  · rw [hn, hs]
    unfold State.departLocal
    rw [hz]
    rfl
  · exact hs s

/-! ### Hold causes -/

/-- A change of a channel that leaves its Logger and puts no hold cause into RUNNING. -/
theorem Logs.modHold (h : Logs r s₀ s) (c : Chan) (f : Channel → Channel) (hl : (f (s.chan c)).log = (s.chan c).log)
    (hu : ((s.chan c).st = .running → (s.chan c).hold.isEmpty = true) → (f (s.chan c)).st = .running →
      (f (s.chan c)).hold.isEmpty = true) : Logs r s₀ (s.modChan c f) := by
  refine h.trans ⟨fun o d => ?_, fun _ _ _ => rfl, fun _ d _ e => ?_, fun _ o d => ?_⟩
  · rw [State.chan_modChan]; split
    · next e => subst e; rw [hl]; exact o d
    · exact o d
  · rw [State.chan_modChan]; split
    · next e' => subst e'; rw [hl]; exact e
    · exact e
  · rw [State.chan_modChan]; split
    · next e' => subst e'; exact hu (o d)
    · exact o d

/-- R8, R9: a cause joins the set, and a RUNNING channel becomes HELD. -/
theorem Logs.hold (h : Logs r s₀ s) (c : Chan) (k : HoldCause) :
    Logs r s₀ (if ((s.modChan c fun ch => { ch with hold := ch.hold.put k true }).chan c).st = .running then
      (s.modChan c fun ch => { ch with hold := ch.hold.put k true }).moveTo c .held
      else s.modChan c fun ch => { ch with hold := ch.hold.put k true }) := by
  split
  · have v := fun d => State.moveTo_view (s.modChan c fun ch => { ch with hold := ch.hold.put k true }) c d .held
    have lg : ∀ d, (((s.modChan c fun ch => { ch with hold := ch.hold.put k true }).moveTo c .held).chan d).log
        = (s.chan d).log := fun d => by
      rw [(v d).1, State.chan_modChan]; split <;> rfl
    refine h.same lg (fun d e => ?_) fun a ha => State.moveTo_mem _ _ _ ha
    rw [(v d).2.2] at e
    rw [(v d).2.1]
    split at e
    · cases e
    · next hd => rw [State.chan_modChan_ne _ _ hd] at e ⊢; exact ⟨e, rfl⟩
  · next e => exact h.modHold c _ rfl fun _ k => absurd (by rw [State.chan_modChan_self]; exact k) e

theorem Logs.joinCause (h : Logs (some c) s₀ s) (k : HoldCause) : Logs (some c) s₀ (s.joinCause c k) := by
  unfold State.joinCause
  exact (h.hold c k).emitEvent c _ _ _ (by simp)

/-- R8: the latch of a channel stands while a cause joins. -/
theorem State.hold_log (s : State) (c : Chan) (k : HoldCause) :
    ((if ((s.modChan c fun ch => { ch with hold := ch.hold.put k true }).chan c).st = .running then
      (s.modChan c fun ch => { ch with hold := ch.hold.put k true }).moveTo c .held
      else s.modChan c fun ch => { ch with hold := ch.hold.put k true }).chan c).log = (s.chan c).log := by
  split
  · rw [(State.moveTo_view _ _ _ _).1, State.chan_modChan_self]
  · rw [State.chan_modChan_self]

/-- R155: after the report of a latch entry is acted on, none stands. -/
theorem Logs.settle (h : Logs (some c) s₀ s) : Logs none s₀ (s.settle c) := by
  have key : s.LogsSound → Logs (some c) s (s.settle c) ∧ ((s.settle c).chan c).log.report = false := fun o => by
    unfold State.settle
    dsimp only
    split
    · next hr =>
      have hl := (o c).report hr
      have k := (Logs.refl (some c) s).modLog c (fun l => { l with report := false })
        (fun o => ⟨(o c).poolA, (o c).poolB, (o c).one, (o c).owned, (o c).latch, fun e => by cases e⟩) fun _ _ _ => rfl
      have k0 := (Logs.refl none (s.modLog c fun l => { l with report := false }))
      have l1 : ((s.modLog c fun l => { l with report := false }).chan c).log.latch.isSome = true := by
        rw [State.modLog_chan, if_pos rfl]; exact hl
      have r1 : ((s.modLog c fun l => { l with report := false }).chan c).log.report = false := by
        rw [State.modLog_chan, if_pos rfl]; rfl
      split
      · have kj : Logs none (s.modLog c fun l => { l with report := false })
            ((s.modLog c fun l => { l with report := false }).joinCause c .logFull) := by
          unfold State.joinCause State.emitEvent
          exact (k0.hold c _).emit_latched c _ _ _ fun _ => by rw [State.hold_log]; exact l1
        exact ⟨k.then kj, kj.report (k.sound o) c (by simp) r1⟩
      · exact ⟨k, r1⟩
    · next hr => exact ⟨Logs.refl _ _, by simpa using hr⟩
  refine ⟨fun o => (key (h.sound o)).1.sound (h.sound o), fun o a ha => ((key (h.sound o)).1.mem (h.sound o) a ha).trans (h.mem o a ha),
    fun o d _ e => ?_, fun o u => (key (h.sound o)).1.unheld (h.sound o) (h.unheld o u)⟩
  by_cases hd : d = c
  · subst hd; exact (key (h.sound o)).2
  · have : some c ≠ some d := fun e => hd (Option.some.inj e).symm
    exact (key (h.sound o)).1.report (h.sound o) d this (h.report o d this e)

theorem Logs.event (h : Logs none s₀ s) (c a : Chan) (k f : Nat) (b : List Byte) (hb : b.length ≤ 18) :
    Logs none s₀ (s.event c a k f b) := ((h.any (some c)).emitEvent a k f b hb).settle

theorem Logs.joinLinkDown (h : Logs none s₀ s) (c : Chan) : Logs none s₀ (s.joinLinkDown c) := by
  unfold State.joinLinkDown
  dsimp only
  split
  · exact (((h.any (some c)).modChan c _ rfl rfl rfl).joinCause _).settle
  · exact h

theorem HoldSet.put_false_empty (h : HoldSet) (k : HoldCause) (he : h.isEmpty = true) : (h.put k false).isEmpty = true := by
  cases k <;> simp_all [HoldSet.isEmpty, HoldSet.put]

theorem Logs.leaveCause (h : Logs none s₀ s) (c : Chan) (k : HoldCause) : Logs none s₀ (s.leaveCause c k) := by
  have key := (h.modHold c (fun ch => { ch with
      hold := ch.hold.put k false
      linkHold := if k = .linkDown then .stopped else ch.linkHold }) rfl fun o e =>
    HoldSet.put_false_empty _ _ (o e)).event c c subRelease 0 (leBytes 1 k.code) (by simp)
  unfold State.leaveCause
  dsimp only
  split
  · revert key
    generalize State.event _ c c subRelease 0 (leBytes 1 k.code) = s2
    intro k1
    split
    · next e => exact k1.enterRunning c _ e.2
    · exact k1
  · exact h

/-! ### Trips, step ends and plan ends -/

theorem tripBody_length (k : Cause) (l : List Cause) (v i t : Int) : (tripBody k l v i t).length = 11 := by
  simp only [tripBody, List.length_append, leBytes_length]

theorem Logs.trip (h : Logs none s₀ s) (c : Chan) (k : Cause) (l : List Cause) (v i t : Int) (e : Option Nat) :
    Logs none s₀ (s.trip c k l v i t e) := by
  have key : ∀ s1 : State, Logs none s₀ s1 →
      Logs none s₀ ((((s1.setSt c .tripped).modChan c fun ch => ch.tripLocal k l v i t e).event c c subTrip 0
        (tripBody k l v i t)).closePool c .trip |>.bumpChan c .faults |>.notify c) := fun s1 h1 =>
    ((((((h1.setSt c .tripped fun e => by cases e).modChan c _ rfl rfl rfl).event c c _ _ _
      (by rw [tripBody_length]; decide)).closePool c _).bumpChan c _).notify c)
  unfold State.trip
  dsimp only
  split
  · exact key _ (h.departLocal c)
  · exact key _ h

theorem Logs.laterFault (h : Logs none s₀ s) (c : Chan) (k : Cause) (v i t : Int) : Logs none s₀ (s.laterFault c k v i t) := by
  unfold State.laterFault
  exact ((h.modChan c _ rfl rfl rfl).event c c _ _ _ (by rw [tripBody_length]; decide)).bumpChan c _

theorem Logs.tripHeld (h : Logs none s₀ s) (c : Chan) (k : Cause) : Logs none s₀ (s.tripHeld c k) := by
  unfold State.tripHeld
  dsimp only
  split
  · exact h.trip c _ _ _ _ _ _
  · exact h

theorem stepEndBytes_length (ch : Channel) (c : Chan) (st : Step) (q : StepReason) (o : StepOutcome) (v i t : Int) (n : U32) :
    (stepEndBytes ch c st q o v i t n).length = 32 * 2 := by
  unfold stepEndBytes
  dsimp only
  rw [padTo_length]
  simp [stepEndTail]

theorem planEndBytes_length (ch : Channel) (c : Chan) (q : PlanReason) (n : U32) : (planEndBytes ch c q n).length = 32 * 2 := by
  unfold planEndBytes
  dsimp only
  rw [padTo_length]
  simp

theorem sampleBytes_length (ch : Channel) (c : Chan) (f : SampleFlags) (v i a b : Int) (n : U32) :
    (sampleBytes ch c f v i a b n).length = 32 * 1 := by
  unfold sampleBytes
  rw [padTo_length]
  simp

theorem Logs.emitStepEnd (h : Logs (some c) s₀ s) (st : Step) (q : StepReason) (o : StepOutcome) (v i t : Int) :
    Logs (some c) s₀ (s.emitStepEnd c st q o v i t) := by
  have k := h.emit .stepEnd 2 (stepEndBytes (s.chan c) c st q o v i t) (Or.inr rfl) fun _ => stepEndBytes_length _ _ _ _ _ _ _ _ _
  unfold State.emitStepEnd
  dsimp only
  split
  · split
    · exact k.closePool c _
    · exact k
  · exact k

theorem Logs.endStepBy (h : Logs (some c) s₀ s) (q : StepReason) : Logs (some c) s₀ (s.endStepBy c q) := by
  unfold State.endStepBy
  dsimp only
  split
  · split
    · exact h.emitStepEnd _ _ _ _ _ _
    · exact h
  · exact h

theorem Channel.endPlan_log (ch : Channel) : ch.endPlan.log = ch.log := rfl

theorem Channel.endPlan_hold (ch : Channel) : ch.endPlan.hold.isEmpty = true := rfl

/-- R49: a plan end acts on every report. -/
theorem Logs.endPlan (h : Logs (some c) s₀ s) (q : PlanReason) : Logs none s₀ (s.endPlan c q) := by
  unfold State.endPlan
  have k := ((h.emit .planEnd 2 (planEndBytes (s.chan c) c q) (Or.inr rfl) fun _ => planEndBytes_length _ _ _ _).closePool c
    .planEnd).moveTo c .idle (by decide)
  exact ((k.modHold c Channel.endPlan (Channel.endPlan_log _) fun _ _ => Channel.endPlan_hold _).modAz c _).settle

theorem Logs.switchPlan (h : Logs (some c) s₀ s) : Logs (some c) s₀ (s.switchPlan c) := by
  unfold State.switchPlan
  dsimp only
  split
  · refine Logs.enterStep ?_ c _ _
    refine Logs.emitEvent ?_ c _ _ _ (by simp)
    exact h.modChan c _ rfl rfl rfl
  · exact h

theorem Logs.follow (h : Logs (some c) s₀ s) (f : Follow) : Logs (some c) s₀ (s.follow c f) := by
  have k : ∀ l, Logs (some c) s₀ (s.modChan c fun ch => { ch with seqr := { ch.seqr with loops := l } }) := fun l =>
    h.modChan c _ rfl rfl rfl
  unfold State.follow
  dsimp only
  split
  · exact (h.endPlan _).any _
  · split
    · exact (k _).enterStep c _ _
    · exact ((k _).endPlan _).any _
  · exact h

/-- R40: a step end that trips acts on every report: the trip's event comes after the step-end record. -/
theorem Logs.trip_mid (h : Logs (some c) s₀ s) (k : Cause) (l : List Cause) (v i t : Int) (e : Option Nat) :
    Logs none s₀ (s.trip c k l v i t e) := by
  have key : ∀ s1 : State, Logs (some c) s₀ s1 →
      Logs none s₀ ((((s1.setSt c .tripped).modChan c fun ch => ch.tripLocal k l v i t e).event c c subTrip 0
        (tripBody k l v i t)).closePool c .trip |>.bumpChan c .faults |>.notify c) := fun s1 h1 => by
    refine Logs.notify (Logs.bumpChan (Logs.closePool ?_ c _) c _) c
    exact (((h1.setSt c .tripped fun e => by cases e).modChan c _ rfl rfl rfl).emitEvent c _ _ _
      (by rw [tripBody_length]; decide)).settle
  unfold State.trip
  dsimp only
  split
  · exact key _ (h.departLocal c)
  · exact key _ h

theorem Logs.endStepTrip (h : Logs (some c) s₀ s) (st : Step) (n : Nat) (e : EndCond) (v i t : Int) :
    Logs none s₀ (s.endStepTrip c st n e v i t) := by
  unfold State.endStepTrip
  exact ((h.emitStepEnd _ _ _ _ _ _).modChan c _ rfl rfl rfl).trip_mid _ _ _ _ _ _

theorem Logs.endStep (h : Logs none s₀ s) (c : Chan) (st : Step) (n : Nat) (e : EndCond) (v i t : Int) :
    Logs none s₀ (s.endStep c st n e v i t) := by
  unfold State.endStep
  dsimp only
  split
  · exact (h.any _).endStepTrip _ _ _ _ _ _
  · have k : ∀ (q : StepReason) (o : StepOutcome) (x : Option Nat), Logs (some c) s₀ ((s.emitStepEnd c st q o v i t).modChan c
        fun ch => { ch with seqr := { ch.seqr with retRef := x } }) := fun q o x =>
      ((h.any (some c)).emitStepEnd st q o v i t).modChan c _ rfl rfl rfl
    split
    · exact ((k _ _ _).switchPlan).settle
    · exact ((k _ _ _).follow _).settle

/-! ### The handling of a sample -/

theorem learnBody_length (g : Fin 3) (n : Int) (p : Option Int) (u : Int) : (learnBody g n p u).length = 9 := by
  simp only [learnBody, List.length_append, leBytes_length]

theorem watchBody_length (n : Nat) (w : Watch) (p q : Int) (k : U32) : (watchBody n w p q k).length = 17 := by
  simp only [watchBody, List.length_append, leBytes_length]

theorem Logs.learn (h : Logs none s₀ s) (c x : Chan) (g : Fin 3) : Logs none s₀ (s.learn c x g) := by
  unfold State.learn
  exact ((h.modChan x _ rfl rfl rfl).modChan c _ rfl rfl rfl).event c _ _ _ _ (by rw [learnBody_length]; decide)

theorem Logs.autoZero (h : Logs none s₀ s) (c x : Chan) (own : Option (Int × Bool)) : Logs none s₀ (s.autoZero c x own) := by
  unfold State.autoZero
  dsimp only
  split
  · exact (h.modChan x _ rfl rfl rfl).learn c x _
  · exact h.modChan x _ rfl rfl rfl

theorem Logs.accumulate (h : Logs none s₀ s) (c : Chan) (x : Input) : Logs none s₀ (s.accumulate c x) := by
  have key : ∀ s2 : State, Logs none s₀ s2 → Logs none s₀ (match (s.chan c).curStep with
      | some st =>
        if !decide ((s.chan c).st = .tripped) && st.azRest then
          if s.leads c ∧ ((s2.autoZero c c x.own).chan c).st = .running then
            (s2.autoZero c c x.own).autoZero c (followerOf (pairOf c)) x.follower
          else s2.autoZero c c x.own
        else s2
      | none => s2) := by
    intro s2 k
    split
    · split
      · split
        · exact (k.autoZero c c _).autoZero c _ _
        · exact k.autoZero c c _
      · exact k
    · exact k
  unfold State.accumulate
  refine key _ ?_
  have k := h.modChan c (fun ch => ch.accumulate x (decide ((s.chan c).st = .tripped))) rfl rfl rfl
  split
  · exact k.modChan _ _ rfl rfl rfl
  · exact k

theorem Logs.judgeMismatch (h : Logs none s₀ s) (c : Chan) (l : LimitSet) (x : Input) : Logs none s₀ (s.judgeMismatch c l x) := by
  unfold State.judgeMismatch
  split
  · exact h.modPair _ _
  · exact h

theorem Logs.laterFaults (h : Logs none s₀ s) (c : Chan) (x : Input) (l : List Cause) : Logs none s₀ (s.laterFaults c x l) := by
  induction l generalizing s with
  | nil => exact h
  | cons k ks ih => exact ih (h.laterFault c k _ _ _)

theorem Logs.judgeChecks (h : Logs none s₀ s) (c : Chan) (l : LimitSet) (x : Input) : Logs none s₀ (s.judgeChecks c l x) := by
  have k := (h.modChan c (fun ch => { ch with checks := l.judge x }) rfl rfl rfl).judgeMismatch c l x
  unfold State.judgeChecks
  dsimp only
  split
  · split
    · exact k
    · exact k.trip c _ _ _ _ _ _
  · exact k.laterFaults c x _

theorem Logs.judgeSilence (h : Logs none s₀ s) (c : Chan) (l : LimitSet) (x : Input) : Logs none s₀ (s.judgeSilence c l x) := by
  have k := h.modChan c (fun ch => { ch with silenceReached := true }) rfl rfl rfl
  unfold State.judgeSilence
  dsimp only
  split
  · split
    · exact k.trip c _ _ _ _ _ _
    · split
      · exact k
      · exact k.laterFault c _ _ _ _
  · exact h

theorem Channel.blankingExpiry_same (ch : Channel) (l : LimitSet) :
    (ch.blankingExpiry l).log = ch.log ∧ (ch.blankingExpiry l).st = ch.st ∧ (ch.blankingExpiry l).hold = ch.hold := by
  unfold Channel.blankingExpiry; split <;> exact ⟨rfl, rfl, rfl⟩

theorem Channel.endChop_same (ch : Channel) : ch.endChop.log = ch.log ∧ ch.endChop.st = ch.st ∧ ch.endChop.hold = ch.hold :=
  Channel.restart_same _

theorem Channel.advanceChop_same (ch : Channel) (l : LimitSet) :
    (ch.advanceChop l).log = ch.log ∧ (ch.advanceChop l).st = ch.st ∧ (ch.advanceChop l).hold = ch.hold := by
  unfold Channel.advanceChop
  split
  · split
    · exact ch.endChop_same
    · exact ⟨rfl, rfl, rfl⟩
  · exact ⟨rfl, rfl, rfl⟩

/-- A change of a channel that keeps its Logger, state and hold causes. -/
theorem Logs.modSame (h : Logs r s₀ s) (c : Chan) (f : Channel → Channel)
    (e : (f (s.chan c)).log = (s.chan c).log ∧ (f (s.chan c)).st = (s.chan c).st ∧ (f (s.chan c)).hold = (s.chan c).hold) :
    Logs r s₀ (s.modChan c f) := h.modChan c f e.1 e.2.1 e.2.2

theorem Logs.hit (h : Logs none s₀ s) (c : Chan) (l : LimitSet) (x : Input) : Logs none s₀ (s.hit c l x) := by
  unfold State.hit
  dsimp only
  split
  · exact h.modChan c _ rfl rfl rfl
  · exact (h.modChan c _ rfl rfl rfl).trip c _ _ _ _ _ _

theorem Logs.judgeSoft (h : Logs none s₀ s) (c : Chan) (l : LimitSet) (x : Input) : Logs none s₀ (s.judgeSoft c l x) := by
  have k := h.modSame c (fun ch => ch.advanceChop l) (Channel.advanceChop_same _ _)
  unfold State.judgeSoft
  dsimp only
  split
  · exact k.hit c l x
  · exact k

theorem Logs.contactPass (h : Logs none s₀ s) (c : Chan) : Logs none s₀ (s.contactPass c) := by
  have k := h.modChan c (fun ch => { ch with contact := { ch.contact with inProgress := false } }) rfl rfl rfl
  unfold State.contactPass
  dsimp only
  split
  · next e => exact k.enterRunning c _ (by rw [State.chan_modChan_self]; exact e)
  · exact k.moveTo c _ (by decide)

theorem Logs.judgeContact (h : Logs none s₀ s) (c : Chan) (l : LimitSet) (x : Input) : Logs none s₀ (s.judgeContact c l x) := by
  have k := h.modChan c (fun ch => { ch with contact := (s.chan c).contact.count l x }) rfl rfl rfl
  unfold State.judgeContact
  dsimp only
  split
  · exact k.contactPass c
  · split
    · exact k.trip c _ _ _ _ _ _
    · exact k

theorem Logs.protect (h : Logs none s₀ s) (c : Chan) (x : Input) : Logs none s₀ (s.protect c x) := by
  have key : ∀ (l : LimitSet) (s0 : State), Logs none s₀ s0 →
      Logs none s₀ (if x.valid then s0.judgeChecks c l x else s0.judgeSilence c l x) := by
    intro l s0 k
    split
    · exact k.judgeChecks c l x
    · exact k.judgeSilence c l x
  unfold State.protect
  split
  · exact h
  · next l _ =>
    dsimp only
    split
    · have k0 : Logs none s₀ (if (s.chan c).st = .running then s.modChan c fun ch => ch.blankingExpiry l else s) := by
        split
        · exact h.modSame c _ (Channel.blankingExpiry_same _ _)
        · exact h
      have k1 := key l _ k0
      revert k1
      generalize (if x.valid then _ else _ : State) = s1
      intro k1
      split
      · exact k1
      · split
        · exact k1.judgeSoft c l x
        · split
          · exact k1.judgeContact c l x
          · exact k1
    · exact h

theorem Logs.endConditions (h : Logs none s₀ s) (c : Chan) (x : Input) : Logs none s₀ (s.endConditions c x).1 := by
  unfold State.endConditions
  dsimp only
  split
  · next st _ =>
    have k := h.modChan c (fun ch => { ch with
        seqr := { ch.seqr with qualify := ch.qualifyNext st x st.conds ch.seqr.qualify } }) rfl rfl rfl
    split
    · exact k.endStep c _ _ _ _ _ _
    · exact k
  · exact h

theorem Channel.regulate_same (ch : Channel) (v t : Int) (g : Grant) :
    (ch.regulate v t g).log = ch.log ∧ (ch.regulate v t g).st = ch.st ∧ (ch.regulate v t g).hold = ch.hold := by
  unfold Channel.regulate
  repeat' split
  all_goals exact ⟨rfl, rfl, rfl⟩

theorem Channel.bound_same (ch : Channel) (v t : Int) (g : Grant) :
    (ch.bound v t g).log = ch.log ∧ (ch.bound v t g).st = ch.st ∧ (ch.bound v t g).hold = ch.hold := by
  unfold Channel.bound
  split <;> exact ⟨rfl, rfl, rfl⟩

theorem Logs.regulate (h : Logs none s₀ s) (c : Chan) (x : Input) (g : Grant) : Logs none s₀ (s.regulate c x g) := by
  unfold State.regulate
  split
  · split
    · exact (h.modArb _).modSame c _ (Channel.regulate_same _ _ _ _)
    · exact h
  · exact h.modSame c _ (Channel.bound_same _ _ _ _)

theorem Logs.sampleRecord (h : Logs none s₀ s) (c : Chan) (x : Input) (f : Bool) : Logs none s₀ (s.sampleRecord c x f) := by
  unfold State.sampleRecord
  dsimp only
  split
  · exact (((h.any (some c)).emit _ _ _ (Or.inl rfl) fun _ => sampleBytes_length _ _ _ _ _ _ _ _).modChan c _ rfl rfl rfl).settle
  · exact h

theorem Logs.watch (h : Logs none s₀ s) (c : Chan) (x : Input) (n : Fin 3) : Logs none s₀ (s.watch c x n) := by
  unfold State.watch
  dsimp only
  split
  · exact h
  · have k : ∀ w, Logs none s₀ (s.modChan c fun ch => { ch with watches := ch.watches.set n w }) := fun w =>
      h.modChan c _ rfl rfl rfl
    split
    · exact ((k _).event c c _ _ _ (by rw [watchBody_length]; decide)).bumpChan c _
    · exact k _

theorem Logs.watchAll (h : Logs none s₀ s) (c : Chan) (x : Input) : Logs none s₀ (s.watchAll c x) := by
  unfold State.watchAll
  split
  · exact ((h.watch c x 0).watch c x 1).watch c x 2
  · exact h

theorem Logs.drive (h : Logs none s₀ s) (c : Chan) (x : Input) (f e : Bool) : Logs none s₀ (s.drive c x f e) := by
  have k := h.endConditions c x
  unfold State.drive
  dsimp only
  split
  · have k1 := k.regulate c x (if e then s.arb.grants[c] else (s.endConditions c x).1.arb.grants[c])
    split
    · exact k1
    · exact k1.sampleRecord c x f
  · exact k

/-- R98, R67, R37, R73, R149, R161: the handling of a sample. -/
theorem Logs.handle (h : Logs none s₀ s) (c : Chan) (x : Input) (e : Bool) : Logs none s₀ (s.handle c x e) := by
  have k1 := h.protect c x
  unfold State.handle
  dsimp only
  generalize s.protect c x = s1 at k1 ⊢
  refine Logs.watchAll ?_ c x
  have k2 : Logs none s₀ (if decide ((s.chan c).st = .running) = true then s1.accumulate c x else s1) := by
    split
    · exact k1.accumulate c x
    · exact k1
  generalize (if decide ((s.chan c).st = .running) = true then s1.accumulate c x else s1) = s2 at k2 ⊢
  split
  · exact k2.drive c x _ _
  · exact k2

theorem Logs.heard (h : Logs none s₀ s) (c : Chan) : Logs none s₀ (s.modChan c Channel.heard) := h.modChan c _ rfl rfl rfl

theorem Logs.assemble (h : Logs none s₀ s) (c : Chan) (x : Sample) (e : Bool) : Logs none s₀ (s.assemble c x e) := by
  unfold State.assemble
  dsimp only
  split
  · exact h.modPair _ _
  · split
    · exact ((h.modPair _ _).heard _).handle _ _ _
    · exact h.modPair _ _

theorem Logs.validReport (h : Logs none s₀ s) (c : Chan) (q : Response) (f : FrameRecord) (e : Bool) :
    Logs none s₀ (s.validReport c q f e) := by
  have k1 := h.modChan c (fun ch => ch.report (s.correctSample c q f)) rfl rfl rfl
  unfold State.validReport
  dsimp only
  have k2 : Logs none s₀ (if s.leads c = true then s.modChan c fun ch => ch.report (s.correctSample c q f)
      else (s.modChan c fun ch => ch.report (s.correctSample c q f)).modChan c Channel.heard) := by
    split
    · exact k1
    · exact k1.heard c
  split
  · exact k2.assemble c _ _
  · exact k2.handle c _ _

theorem Logs.missedReport (h : Logs none s₀ s) (c : Chan) : Logs none s₀ (s.missedReport c) := by
  have k := h.modChan c (fun ch => { ch with missedCtr := ch.missedCtr + 1 }) rfl rfl rfl
  unfold State.missedReport
  dsimp only
  split
  · exact k
  · exact k.modChan c _ rfl rfl rfl

theorem Logs.missedPair (h : Logs none s₀ s) (k : PairIx) (e : Bool) : Logs none s₀ (s.missedPair k e) := by
  unfold State.missedPair
  exact ((h.modPair k _).modChan _ _ rfl rfl rfl).handle _ _ _

end Sys2Proof.Machine
end

