-- ==== Sys2Proof/Laws/Local.lean ====
section
/-!
SUPPORT. What an event of one channel leaves of the rest of the machine (Safety's Frame), said once for the Channel Engine's operations
(`Local`), for channels whose pools are sound; and what generating a record leaves of the channel itself (`Recorded`, `Reported`).
-/

namespace Sys2Proof.Machine

/-- What an event of channel c has left of s₀. -/
structure LocalFacts (c : Chan) (s₀ s : State) : Prop where
  device : DeviceKept s₀ s
  others : OthersKept s₀ s c
  notices : NoticesKept s₀ s c
  arb : ArbiterKept s₀ s c
  links : s.links = s₀.links
  slots : s.slots = s₀.slots
  pairs : ∀ k, k ≠ pairOf c → s.pair k = s₀.pair k
  ganged : (s.pair (pairOf c)).ganged = (s₀.pair (pairOf c)).ganged
  store : StoreKept s₀ s (logAreas c)
  sound : (s.chan c).log.Sound

/-- s is what an event of channel c, its pools sound, has made of s₀. -/
def Local (c : Chan) (s₀ s : State) : Prop := (s₀.chan c).log.Sound → LocalFacts c s₀ s

variable {s₀ s : State} {c d : Chan}

theorem DeviceKept.refl (s : State) : DeviceKept s s := ⟨rfl, rfl, rfl, rfl, rfl, rfl, rfl, rfl, rfl, rfl⟩

theorem DeviceKept.trans {a b d : State} (h : DeviceKept a b) (k : DeviceKept b d) : DeviceKept a d :=
  ⟨k.phase.trans h.phase, k.initCount.trans h.initCount, k.stopAll.trans h.stopAll, k.linkOk.trans h.linkOk,
    k.initKept.trans h.initKept, k.strayPost.trans h.strayPost, k.strayRelease.trans h.strayRelease,
    k.timerRunning.trans h.timerRunning, k.sampleIndex.trans h.sampleIndex, k.pending.trans h.pending⟩

theorem NoticesKept.refl (s : State) (c : Chan) : NoticesKept s s c := ⟨fun _ _ => rfl, rfl, fun _ _ => rfl, rfl, rfl⟩

theorem NoticesKept.of {a b : State} (h : b.notices = a.notices) (c : Chan) : NoticesKept a b c := by
  refine ⟨fun _ _ => ?_, ?_, fun _ _ => ?_, ?_, ?_⟩ <;> rw [h]

theorem NoticesKept.trans {a b d : State} (h : NoticesKept a b c) (k : NoticesKept b d c) : NoticesKept a d c :=
  ⟨fun x hx => (k.chans x hx).trans (h.chans x hx), k.dev.trans h.dev, fun i hi => (k.bits i hi).trans (h.bits i hi),
    k.attnEnable.trans h.attnEnable, k.paceTime.trans h.paceTime⟩

theorem ArbiterKept.refl (s : State) (c : Chan) : ArbiterKept s s c := ⟨rfl, rfl, rfl, rfl, fun _ _ => rfl⟩

theorem ArbiterKept.of {a b : State} (h : b.arb = a.arb) (c : Chan) : ArbiterKept a b c := by
  refine ⟨?_, ?_, ?_, ?_, fun _ _ => ?_⟩ <;> rw [h]

theorem ArbiterKept.trans {a b d : State} (h : ArbiterKept a b c) (k : ArbiterKept b d c) : ArbiterKept a d c :=
  ⟨k.settings.trans h.settings, k.linkSet.trans h.linkSet, k.linkUp.trans h.linkUp, k.timer.trans h.timer,
    fun x hx => (k.wanted x hx).trans (h.wanted x hx)⟩

theorem StoreKept.refl (s : State) (l : List (Nat × Nat)) : StoreKept s s l := fun _ _ => rfl

theorem StoreKept.trans {a b d : State} {l : List (Nat × Nat)} (h : StoreKept a b l) (k : StoreKept b d l) : StoreKept a d l :=
  fun x hx => (k x hx).trans (h x hx)

theorem StoreKept.mono {a b : State} {l m : List (Nat × Nat)} (h : StoreKept a b l) (hm : ∀ x ∈ l, x ∈ m) : StoreKept a b m :=
  fun x hx => h x fun r hr => hx r (hm r hr)

/-- R122: whether c leads depends on its pair being GANGED. -/
theorem State.leads_congr {a b : State} (h : (b.pair (pairOf c)).ganged = (a.pair (pairOf c)).ganged) : b.leads c = a.leads c := by
  unfold State.leads; rw [h]

theorem OthersKept.trans {a b d : State} (h : OthersKept a b c) (k : OthersKept b d c) (hl : b.leads c = a.leads c) :
    OthersKept a d c := by
  intro x hx
  rcases h x hx with e | ⟨l, f, z, e⟩
  · rcases k x hx with e2 | ⟨l2, f2, z2, e2⟩
    · exact Or.inl (e2.trans e)
    · exact Or.inr ⟨hl ▸ l2, f2, z2, by rw [e2, e]⟩
  · rcases k x hx with e2 | ⟨l2, f2, z2, e2⟩
    · exact Or.inr ⟨l, f, z, by rw [e2, e]⟩
    · exact Or.inr ⟨l, f, z2, by rw [e2, e]⟩

theorem Local.refl (c : Chan) (s : State) : Local c s s := fun o =>
  ⟨.refl s, fun _ _ => Or.inl rfl, .refl s c, .refl s c, rfl, rfl, fun _ _ => rfl, rfl, .refl s _, o⟩

theorem Local.trans {a b d : State} (h : Local c a b) (k : Local c b d) : Local c a d := fun o =>
  have h := h o
  have k := k h.sound
  ⟨h.device.trans k.device, h.others.trans k.others (State.leads_congr h.ganged), h.notices.trans k.notices, h.arb.trans k.arb,
    k.links.trans h.links, k.slots.trans h.slots, fun j hj => (k.pairs j hj).trans (h.pairs j hj), k.ganged.trans h.ganged,
    h.store.trans k.store, k.sound⟩

theorem Local.of (h : (s₀.chan c).log.Sound → Local c s₀ s) : Local c s₀ s := fun o => h o o

/-- The frame of an event of channel c that reaches no slot and no link. -/
theorem Local.frame (h : Local c s₀ s) (o : (s₀.chan c).log.Ok) : Frame s₀ s c (logAreas c) :=
  have h := h o.sound
  ⟨h.device, h.others, h.notices, h.arb, fun d _ => by unfold State.link; rw [h.links], fun n _ => by unfold State.slot; rw [h.slots],
    h.pairs, h.store⟩

/-! ### Primitive updates -/

theorem Local.modChan (h : Local c s₀ s) (f : Channel → Channel) (hl : (f (s.chan c)).log = (s.chan c).log) :
    Local c s₀ (s.modChan c f) :=
  h.trans fun o => ⟨⟨rfl, rfl, rfl, rfl, rfl, rfl, rfl, rfl, rfl, rfl⟩, fun d hd => Or.inl (State.chan_modChan_ne _ _ hd), .of (by rfl) c,
    .of (by rfl) c, rfl, rfl, fun _ _ => rfl, rfl, .refl s _, by rw [State.chan_modChan_self, hl]; exact o⟩

theorem Local.modPair (h : Local c s₀ s) (f : Pair → Pair)
    (hg : (f (s.pair (pairOf c))).ganged = (s.pair (pairOf c)).ganged) : Local c s₀ (s.modPair (pairOf c) f) :=
  h.trans fun o => ⟨⟨rfl, rfl, rfl, rfl, rfl, rfl, rfl, rfl, rfl, rfl⟩, fun _ _ => Or.inl rfl, .of (by rfl) c, .of (by rfl) c, rfl, rfl,
    fun _ hk => State.pair_modPair_ne _ _ hk, by rw [State.pair_modPair_self]; exact hg, .refl s _, o⟩

@[simp] theorem NoticeUnit.send_attention (n : NoticeUnit) : n.send.attention = n.attention := rfl
@[simp] theorem NoticeUnit.send_attnEnable (n : NoticeUnit) : n.send.attnEnable = n.attnEnable := rfl
@[simp] theorem NoticeUnit.send_chan (n : NoticeUnit) : n.send.chan = n.chan := rfl
@[simp] theorem NoticeUnit.send_dev (n : NoticeUnit) : n.send.dev = n.dev := rfl

/-- R188: a bit rise leaves the counts, the bits, ATTN_ENABLE. -/
theorem NoticeUnit.rise_same (n : NoticeUnit) : n.rise.attention = n.attention ∧ n.rise.attnEnable = n.attnEnable
    ∧ n.rise.chan = n.chan ∧ n.rise.dev = n.dev := by
  unfold NoticeUnit.rise
  repeat' split
  all_goals exact ⟨rfl, rfl, rfl, rfl⟩

/-- R187: setting bit i leaves the counts, ATTN_ENABLE and the pace time, sets bit i, and leaves the other bits. -/
theorem NoticeUnit.setBit_same (n : NoticeUnit) (i : Nat) :
    (n.setBit i).attnEnable = n.attnEnable ∧ (n.setBit i).chan = n.chan ∧ (n.setBit i).dev = n.dev
      ∧ ∀ j, j ≠ i → (n.setBit i).attention.getLsbD j = n.attention.getLsbD j := by
  unfold NoticeUnit.setBit
  split
  · exact ⟨rfl, rfl, rfl, fun _ _ => rfl⟩
  · have h := NoticeUnit.rise_same { n with attention := n.attention ||| (1#17 <<< i) }
    rw [h.1, h.2.1, h.2.2.1, h.2.2.2]
    refine ⟨rfl, rfl, rfl, fun j hj => ?_⟩
    simp only [BitVec.getLsbD_or, BitVec.getLsbD_shiftLeft, BitVec.getLsbD_one]
    have : ¬ (i ≤ j ∧ j - i = 0) := fun e => hj (by omega)
    by_cases hij : j < i
    · simp [hij]
    · have : j - i ≠ 0 := fun e => this ⟨by omega, e⟩
      simp [this]

theorem NoticeUnit.setBit_bit (n : NoticeUnit) (i : Nat) (hi : i < 17) : (n.setBit i).attention.getLsbD i = true := by
  unfold NoticeUnit.setBit
  split
  · next h => exact h
  · rw [(NoticeUnit.rise_same _).1]
    simp [hi]

theorem logAreas_mem (c : Chan) : noticeArea c ∈ logAreas c ∧ (Config.headerBase c .a, 64) ∈ logAreas c
    ∧ (Config.poolBase c .a, 0x4000) ∈ logAreas c := by simp [logAreas]

theorem State.bumpChan_notices (t : State) (c : Chan) (k : ChanCount) : NoticesKept t (t.bumpChan c k) c := by
  have hb := NoticeUnit.setBit_same { t.notices with chan := t.notices.chan.set c ((t.notices.chan[c]).bump k) } c.val
  refine ⟨fun d hd => ?_, hb.2.2.1, hb.2.2.2, hb.1, NoticeUnit.setBit_paceTime _ _⟩
  show ((NoticeUnit.setBit _ _).chan)[d] = _
  rw [hb.2.1]
  have : (c : Nat) ≠ d := fun e => hd (Fin.ext e.symm)
  simp [Vector.getElem_set_ne, this]

theorem State.bumpChan_store (t : State) (c : Chan) (k : ChanCount) : StoreKept t (t.bumpChan c k) (logAreas c) := by
  intro a ha
  refine Mem.read_writeBytes_ne _ _ _ _ ?_
  have h1 := ha _ (logAreas_mem c).1
  have := ChanCount.offset_le k
  simp only [noticeArea, leBytes_length] at *
  omega

theorem Local.bumpChan (h : Local c s₀ s) (k : ChanCount) : Local c s₀ (s.bumpChan c k) := by
  refine h.trans fun o => ⟨⟨rfl, rfl, rfl, rfl, rfl, rfl, rfl, rfl, rfl, rfl⟩, fun _ _ => Or.inl rfl, ?_, .of (by rfl) c, rfl, rfl,
    fun _ _ => rfl, rfl, fun a ha => ?_, o⟩
  · exact State.bumpChan_notices _ _ _
  · exact State.bumpChan_store _ _ _ a ha

@[simp] theorem Arbiter.evaluate_settings (a : Arbiter) (p : Chan → Option Nat) (l : LinkSettings) :
    (a.evaluate p l).settings = a.settings := by
  unfold Arbiter.evaluate; dsimp only; split <;> rfl

@[simp] theorem Arbiter.evaluate_linkSet (a : Arbiter) (p : Chan → Option Nat) (l : LinkSettings) :
    (a.evaluate p l).linkSet = a.linkSet := by
  unfold Arbiter.evaluate; dsimp only; split <;> rfl

@[simp] theorem Arbiter.evaluate_linkUp (a : Arbiter) (p : Chan → Option Nat) (l : LinkSettings) :
    (a.evaluate p l).linkUp = a.linkUp := by
  unfold Arbiter.evaluate; dsimp only; split <;> rfl

@[simp] theorem Arbiter.evaluate_timer (a : Arbiter) (p : Chan → Option Nat) (l : LinkSettings) :
    (a.evaluate p l).timer = a.timer := by
  unfold Arbiter.evaluate; dsimp only; split <;> rfl

theorem Local.modArb (h : Local c s₀ s) (f : Arbiter → Arbiter) (hf : ArbiterKept s (s.modArb f) c) : Local c s₀ (s.modArb f) :=
  h.trans fun o => ⟨⟨rfl, rfl, rfl, rfl, rfl, rfl, rfl, rfl, rfl, rfl⟩, fun _ _ => Or.inl rfl, .of (by rfl) c, hf, rfl, rfl,
    fun _ _ => rfl, rfl, .refl s _, o⟩

theorem Local.evaluate (h : Local c s₀ s) : Local c s₀ s.evaluate := by
  unfold State.evaluate
  split
  · next l _ =>
    refine h.modArb _ ?_
    exact ⟨Arbiter.evaluate_settings _ _ _, Arbiter.evaluate_linkSet _ _ _, Arbiter.evaluate_linkUp _ _ _,
      Arbiter.evaluate_timer _ _ _, fun d _ => by rw [State.modArb_arb, Arbiter.evaluate_wanted]⟩
  · exact h

theorem Local.deliver (h : Local c s₀ s) (w : Wanted) : Local c s₀ (s.deliver c w) := by
  refine h.modArb _ ⟨rfl, rfl, rfl, rfl, fun d hd => ?_⟩
  have : (c : Nat) ≠ d := fun e => hd (Fin.ext e.symm)
  show (s.arb.wanted.set c w)[d] = _
  simp [Vector.getElem_set_ne, this]

theorem Local.notify (h : Local c s₀ s) : Local c s₀ (s.notify c) := (h.deliver _).evaluate

/-- R62: only the follower of a leader has its auto-zero state changed with it. -/
theorem Local.modAz (h : Local c s₀ s) (f : AutoZero → AutoZero) : Local c s₀ (s.modAz c f) := by
  unfold State.modAz
  dsimp only
  have k := h.modChan (fun ch => { ch with az := f ch.az }) rfl
  split
  · next hl =>
    refine k.trans fun o => ⟨⟨rfl, rfl, rfl, rfl, rfl, rfl, rfl, rfl, rfl, rfl⟩, fun d hd => ?_, .of (by rfl) c, .of (by rfl) c, rfl, rfl,
      fun _ _ => rfl, rfl, .refl _ _, ?_⟩
    · rw [State.chan_modChan]
      split
      · next e => exact Or.inr ⟨hl, e, _, rfl⟩
      · exact Or.inl rfl
    · rw [State.chan_modChan]
      split <;> exact o
  · exact k

theorem Local.setSt (h : Local c s₀ s) (st : ChState) : Local c s₀ (s.setSt c st) := by
  unfold State.setSt
  split
  · exact h
  · exact (h.modChan _ rfl).bumpChan _

theorem Local.departLocal (h : Local c s₀ s) : Local c s₀ (s.departLocal c) := (h.modChan _ rfl).modAz _

theorem Local.moveTo (h : Local c s₀ s) (st : ChState) : Local c s₀ (s.moveTo c st) := by
  unfold State.moveTo
  split
  · exact ((h.departLocal).setSt st).notify
  · exact h.setSt st

theorem Channel.enterStep_log (ch : Channel) (n : Nat) (st : Step) (b : Bool) : (ch.enterStep n st b).log = ch.log := by
  unfold Channel.enterStep Channel.restart
  dsimp only
  repeat' split
  all_goals rfl

theorem Local.notifyEntry (h : Local c s₀ s) : Local c s₀ (s.notifyEntry c) := by
  unfold State.notifyEntry
  split
  · exact h
  · exact h.notify

theorem Local.enterStep (h : Local c s₀ s) (n : Nat) (b : Bool) : Local c s₀ (s.enterStep c n b) := by
  unfold State.enterStep
  split
  · exact ((h.modChan _ (Channel.enterStep_log _ _ _ _)).modAz _).notifyEntry
  · exact h

theorem Local.enterRunning (h : Local c s₀ s) (b : Bool) : Local c s₀ (s.enterRunning c b) := by
  unfold State.enterRunning
  dsimp only
  have k := (h.setSt .running).modChan (fun ch => { ch with seqr := { ch.seqr with qualify := [0, 0, 0, 0] } }) rfl
  split
  · exact (k.modChan _ (Channel.restart_same _).1).notify
  · exact k.enterStep _ _

/-! ### Records -/

/-- A change of channel c's Logger, its header area or its pools. -/
theorem Local.change {t : State} {l : Logger} (h : Local c s₀ s)
    (hc : ∀ d, t.chan d = if d = c then (s.chan c).withLog l else s.chan d) (hd : DeviceKept s t) (hn : NoticesKept s t c)
    (ha : t.arb = s.arb) (hk : t.links = s.links) (hs : t.slots = s.slots) (hp : t.pairs = s.pairs)
    (hm : (s.chan c).log.Sound → StoreKept s t (logAreas c)) (hl : (s.chan c).log.Sound → l.Sound) : Local c s₀ t :=
  h.trans fun o => ⟨hd, fun d e => Or.inl (by rw [hc d, if_neg e]), hn, by
    refine ⟨?_, ?_, ?_, ?_, fun d _ => ?_⟩ <;> rw [ha], hk, hs, fun k _ => by unfold State.pair; rw [hp],
    by unfold State.pair; rw [hp], hm o, by rw [hc c, if_pos rfl]; exact hl o⟩

theorem Local.modLog (h : Local c s₀ s) (f : Logger → Logger) (hf : (s.chan c).log.Sound → (f (s.chan c).log).Sound) :
    Local c s₀ (s.modLog c f) :=
  h.change (fun d => State.modLog_chan s c d f) ⟨rfl, rfl, rfl, rfl, rfl, rfl, rfl, rfl, rfl, rfl⟩ (.of (by rfl) c) rfl rfl rfl rfl
    (fun _ => .refl s _) hf

/-- A header of channel c lies in its header area. -/
theorem State.putHeader_kept (s : State) (c : Chan) (p : PoolId) (h : PoolHeader) : StoreKept s (s.putHeader c p h) (logAreas c) := by
  intro a ha
  have h1 := ha _ (logAreas_mem c).2.1
  refine Mem.read_writeBytes_ne _ _ _ _ ?_
  have : Config.poolNo p ≤ 1 := by cases p <;> decide
  simp only [PoolHeader.bytes_length, Config.headerBase, Config.poolNo] at *
  omega

/-- What putHeader, and every other change of a Logger and the store, leaves. -/
structure RestKept (s t : State) : Prop where
  device : DeviceKept s t
  links : t.links = s.links
  slots : t.slots = s.slots
  pairs : t.pairs = s.pairs
  arb : t.arb = s.arb
  notices : t.notices = s.notices

theorem RestKept.trans {a b d : State} (h : RestKept a b) (k : RestKept b d) : RestKept a d :=
  ⟨h.device.trans k.device, k.links.trans h.links, k.slots.trans h.slots, k.pairs.trans h.pairs, k.arb.trans h.arb,
    k.notices.trans h.notices⟩

theorem State.writeStore_rest (s : State) (a : Nat) (l : List Byte) : RestKept s (s.writeStore a l) :=
  ⟨⟨rfl, rfl, rfl, rfl, rfl, rfl, rfl, rfl, rfl, rfl⟩, rfl, rfl, rfl, rfl, rfl⟩

theorem State.modLog_rest (s : State) (c : Chan) (f : Logger → Logger) : RestKept s (s.modLog c f) :=
  ⟨⟨rfl, rfl, rfl, rfl, rfl, rfl, rfl, rfl, rfl, rfl⟩, rfl, rfl, rfl, rfl, rfl⟩

theorem State.putHeader_rest (s : State) (c : Chan) (p : PoolId) (h : PoolHeader) : RestKept s (s.putHeader c p h) :=
  (State.modLog_rest _ _ _).trans (State.writeStore_rest _ _ _)

theorem State.writeRecord_rest (s : State) (c : Chan) (p : PoolId) (x : Record) : RestKept s (s.writeRecord c p x) := by
  unfold State.writeRecord
  exact ((State.writeStore_rest _ _ _).trans (State.modLog_rest _ _ _)).trans (State.putHeader_rest _ _ _ _)

/-- R152: the state that a handover counts, but for its Logger and store. -/
theorem State.handover_rest (s : State) (c : Chan) (p : PoolId) (q : CloseReason) :
    ∃ t : State, s.handover c p q = t.bumpChan c .handovers ∧ RestKept s t ∧ StoreKept s t (logAreas c) := by
  unfold State.handover
  dsimp only
  split
  · exact ⟨_, rfl, (State.putHeader_rest _ _ _ _).trans (State.putHeader_rest _ _ _ _),
      (State.putHeader_kept _ _ _ _).trans (State.putHeader_kept _ _ _ _)⟩
  · exact ⟨_, rfl, State.putHeader_rest _ _ _ _, State.putHeader_kept _ _ _ _⟩

theorem State.bumpChan_device (s : State) (c : Chan) (k : ChanCount) : DeviceKept s (s.bumpChan c k) :=
  ⟨rfl, rfl, rfl, rfl, rfl, rfl, rfl, rfl, rfl, rfl⟩

theorem Local.handover (h : Local c s₀ s) (p : PoolId) (q : CloseReason)
    (hp : (s.chan c).log.Sound → (s.chan c).log.filling = some p) : Local c s₀ (s.handover c p q) := by
  have ch := fun d => State.handover_chan s c d p q
  obtain ⟨t, ht, h1, h7⟩ := State.handover_rest s c p q
  rw [ht] at ch ⊢
  exact h.change ch (h1.device.trans (State.bumpChan_device _ _ _))
    ((NoticesKept.of h1.notices c).trans (State.bumpChan_notices _ _ _)) h1.arb h1.links h1.slots h1.pairs
    (fun _ => h7.trans (State.bumpChan_store _ _ _)) fun o => (Logger.handedOver_sound o (hp o) q).1

theorem Local.closePool (h : Local c s₀ s) (q : CloseReason) : Local c s₀ (s.closePool c q) := by
  unfold State.closePool
  split
  · next p e =>
    split
    · exact h.handover p q fun _ => e
    · exact h
  · exact h

theorem Local.writeRecord (h : Local c s₀ s) (p : PoolId) (x : Record) (hx : x.Fits)
    (hp : (s.chan c).log.Sound → (s.chan c).log.filling = some p)
    (hu : (s.chan c).log.Sound → ((s.chan c).log.pool p).used + x.slots ≤ Config.poolSlots) : Local c s₀ (s.writeRecord c p x) := by
  have w := State.writeRecord_rest s c p x
  refine h.change (fun d => State.writeRecord_chan s c d p x) w.device (.of w.notices c) w.arb w.links w.slots w.pairs
    (fun o => ?_) fun o => Logger.recorded_sound o (hp o) x (hu o)
  unfold State.writeRecord
  refine StoreKept.trans (b := (s.writeStore (Config.poolBase c p + ((s.chan c).log.pool p).used * Config.recordSlot) x.bytes).modLog c
    fun l => { l with written := l.written + 1 }) (fun a ha => ?_) (State.putHeader_kept _ _ _ _)
  have h1 := ha _ (logAreas_mem c).2.2
  have hu := hu o
  refine Mem.read_writeBytes_ne _ _ _ _ ?_
  have : Config.poolNo p ≤ 1 := by cases p <;> decide
  rw [hx.2]
  simp only [Config.poolBase, Config.recordSlot, Config.poolSlots, Config.poolNo] at *
  omega

/-- A Logger after a GAP is generated. -/
def Logger.gapped (l : Logger) : Logger := { l with nextSeq := l.nextSeq + 1, pendingLoss := none, gaps := l.gaps + 1 }

theorem Logger.gapped_pool (l : Logger) (p : PoolId) : l.gapped.pool p = l.pool p := by cases p <;> rfl

theorem Local.writeGap (h : Local c s₀ s) (p : PoolId) (x : Record) (hr : (s.chan c).log.Sound → (s.chan c).log.Room p x) :
    Local c s₀ (s.writeGap c p) ∧ ((s.chan c).log.Sound → ((s.writeGap c p).chan c).log.filling = some p
      ∧ (((s.writeGap c p).chan c).log.pool p).used + x.slots ≤ Config.poolSlots) := by
  unfold State.writeGap
  dsimp only
  split
  · next e =>
    refine ⟨h, fun o => ⟨(hr o).1, ?_⟩⟩
    have := (hr o).2
    simp only [Logger.need, e, Option.isSome_none] at this
    simpa using this
  · next f n e =>
    have room : (s.chan c).log.Sound → ((s.chan c).log.pool p).used + (x.slots + 1) ≤ Config.poolSlots := fun o => by
      have := (hr o).2
      simpa [Logger.need, e] using this
    have eq : ((s.modLog c Logger.gapped).chan c).log = (s.chan c).log.gapped := by
      rw [State.modLog_chan, if_pos rfl]; rfl
    have back : ((s.modLog c Logger.gapped).chan c).log.Sound → (s.chan c).log.Sound := fun o => by
      rw [eq] at o; exact o.counts rfl rfl rfl rfl
    have k := h.modLog Logger.gapped fun o => o.counts rfl rfl rfl rfl
    refine ⟨k.writeRecord p _ (gapBytes_fits _ _ _ _ _) (fun o => ?_) (fun o => ?_), fun o => ⟨?_, ?_⟩⟩
    · rw [eq]; exact (hr (back o)).1
    · have := room (back o)
      rw [eq, Logger.gapped_pool]; simp only; omega
    · rw [State.writeRecord_chan, if_pos rfl, Channel.withLog_log, Logger.recorded_filling]
      show ((s.modLog c Logger.gapped).chan c).log.filling = _
      rw [eq]
      exact (hr o).1
    · rw [State.writeRecord_chan, if_pos rfl, Channel.withLog_log, Logger.recorded_used]
      show (((s.modLog c Logger.gapped).chan c).log.pool p).used + _ + _ ≤ _
      rw [eq, Logger.gapped_pool]
      have := room o
      show _ + 1 + _ ≤ _
      omega

theorem Local.placeIn (h : Local c s₀ s) (p : PoolId) (x : Record) (hx : x.Fits)
    (hr : (s.chan c).log.Sound → (s.chan c).log.Room p x) : Local c s₀ (s.placeIn c p x) := by
  refine h.trans (Local.of fun o => ?_)
  obtain ⟨k1, k2⟩ := (Local.refl c s).writeGap p x hr
  have k3 := k1.writeRecord p x hx (fun _ => (k2 o).1) fun _ => (k2 o).2
  unfold State.placeIn
  dsimp only
  split
  · refine k3.handover p .full fun _ => ?_
    rw [State.writeRecord_chan, if_pos rfl, Channel.withLog_log, Logger.recorded_filling]
    exact (k2 o).1
  · exact k3

theorem Local.place (h : Local c s₀ s) (q : LossPolicy) (x : Record) (hx : x.Fits) : Local c s₀ (s.place c q x) := by
  refine h.trans (Local.of fun o => ?_)
  have h := Local.refl c s
  unfold State.place
  dsimp only
  split
  · next p e =>
    split
    · next hroom => exact h.placeIn p x hx fun _ => ⟨e, hroom⟩
    · have k := h.handover p .full fun _ => e
      split
      · next n en =>
        refine k.placeIn n x hx fun _ => ⟨en, ?_⟩
        have hu := (Logger.handedOver_sound o e .full).2
        rw [State.handover_chan, if_pos rfl, Channel.withLog_log] at en ⊢
        rw [hu n en]
        have := Record.need_le hx ((s.chan c).log.handedOver p .full)
        simpa using this
      · next en => exact k.modLog _ fun o => Logger.refuse_sound o q x hx en
  · next e => exact h.modLog _ fun o => Logger.refuse_sound o q x hx e

/-- R147, R148: a record of 32 bytes a slot is generated and placed in channel c's own areas. -/
theorem Local.emit (h : Local c s₀ s) (k : RecKind) (n : Nat) (mk : U32 → List Byte) (hn : n = 1 ∨ n = 2)
    (hb : ∀ q, (mk q).length = 32 * n) : Local c s₀ (s.emit c k n mk) :=
  (h.modLog _ fun o => o.counts rfl rfl rfl rfl).place _ _ ⟨hn, hb _⟩

theorem Local.emitEvent (h : Local c s₀ s) (a : Chan) (k f : Nat) (b : List Byte) (hb : b.length ≤ 18) :
    Local c s₀ (s.emitEvent c a k f b) := by
  unfold State.emitEvent
  refine h.emit _ _ _ (Or.inl rfl) fun q => ?_
  rw [padTo_length]
  simp
  omega

/-! ### Hold causes, trips, step ends and plan ends -/

theorem Local.joinCause (h : Local c s₀ s) (k : HoldCause) : Local c s₀ (s.joinCause c k) := by
  have k1 := h.modChan (fun ch => { ch with hold := ch.hold.put k true }) rfl
  unfold State.joinCause
  dsimp only
  split
  · exact (k1.moveTo _).emitEvent c _ _ _ (by simp)
  · exact k1.emitEvent c _ _ _ (by simp)

/-- The report taken out of a Logger. -/
theorem Logger.Sound.quiet {l : Logger} (h : l.Sound) : Logger.Sound { l with report := false } :=
  ⟨h.poolA, h.poolB, h.one, h.owned, h.latch, fun e => by cases e⟩

theorem Local.settle (h : Local c s₀ s) : Local c s₀ (s.settle c) := by
  have k := h.modLog (fun l => { l with report := false }) fun o => o.quiet
  unfold State.settle
  dsimp only
  split
  · split
    · exact k.joinCause _
    · exact k
  · exact h

theorem Local.event (h : Local c s₀ s) (a : Chan) (k f : Nat) (b : List Byte) (hb : b.length ≤ 18) :
    Local c s₀ (s.event c a k f b) := (h.emitEvent a k f b hb).settle

theorem Local.joinLinkDown (h : Local c s₀ s) : Local c s₀ (s.joinLinkDown c) := by
  unfold State.joinLinkDown
  dsimp only
  split
  · exact ((h.modChan _ rfl).joinCause _).settle
  · exact h

theorem Local.leaveCause (h : Local c s₀ s) (k : HoldCause) : Local c s₀ (s.leaveCause c k) := by
  have key := (h.modChan (fun ch => { ch with
      hold := ch.hold.put k false
      linkHold := if k = .linkDown then .stopped else ch.linkHold }) rfl).event c subRelease 0 (leBytes 1 k.code) (by simp)
  unfold State.leaveCause
  dsimp only
  split
  · revert key
    generalize State.event _ c c subRelease 0 (leBytes 1 k.code) = s2
    intro k1
    split
    · exact k1.enterRunning _
    · exact k1
  · exact h

theorem Local.trip (h : Local c s₀ s) (k : Cause) (l : List Cause) (v i t : Int) (e : Option Nat) :
    Local c s₀ (s.trip c k l v i t e) := by
  have key : ∀ s1 : State, Local c s₀ s1 →
      Local c s₀ ((((s1.setSt c .tripped).modChan c fun ch => ch.tripLocal k l v i t e).event c c subTrip 0
        (tripBody k l v i t)).closePool c .trip |>.bumpChan c .faults |>.notify c) := fun s1 h1 =>
    (((((h1.setSt .tripped).modChan _ rfl).event c _ _ _ (by rw [tripBody_length]; decide)).closePool _).bumpChan _).notify
  unfold State.trip
  dsimp only
  split
  · exact key _ h.departLocal
  · exact key _ h

theorem Local.laterFault (h : Local c s₀ s) (k : Cause) (v i t : Int) : Local c s₀ (s.laterFault c k v i t) := by
  unfold State.laterFault
  exact ((h.modChan _ rfl).event c _ _ _ (by rw [tripBody_length]; decide)).bumpChan _

theorem Local.tripHeld (h : Local c s₀ s) (k : Cause) : Local c s₀ (s.tripHeld c k) := by
  unfold State.tripHeld
  dsimp only
  split
  · exact h.trip _ _ _ _ _ _
  · exact h

theorem Local.emitStepEnd (h : Local c s₀ s) (st : Step) (q : StepReason) (o : StepOutcome) (v i t : Int) :
    Local c s₀ (s.emitStepEnd c st q o v i t) := by
  have k := h.emit .stepEnd 2 (stepEndBytes (s.chan c) c st q o v i t) (Or.inr rfl) fun _ => stepEndBytes_length _ _ _ _ _ _ _ _ _
  unfold State.emitStepEnd
  dsimp only
  split
  · split
    · exact k.closePool _
    · exact k
  · exact k

theorem Local.endStepBy (h : Local c s₀ s) (q : StepReason) : Local c s₀ (s.endStepBy c q) := by
  unfold State.endStepBy
  dsimp only
  split
  · split
    · exact h.emitStepEnd _ _ _ _ _ _
    · exact h
  · exact h

theorem Local.endPlan (h : Local c s₀ s) (q : PlanReason) : Local c s₀ (s.endPlan c q) := by
  unfold State.endPlan
  have k := ((h.emit .planEnd 2 (planEndBytes (s.chan c) c q) (Or.inr rfl) fun _ => planEndBytes_length _ _ _ _).closePool
    .planEnd).moveTo .idle
  exact ((k.modChan Channel.endPlan (Channel.endPlan_log _)).modAz _).settle

theorem Local.switchPlan (h : Local c s₀ s) : Local c s₀ (s.switchPlan c) := by
  unfold State.switchPlan
  dsimp only
  split
  · refine Local.enterStep ?_ _ _
    refine Local.emitEvent ?_ c _ _ _ (by simp)
    exact h.modChan _ rfl
  · exact h

theorem Local.follow (h : Local c s₀ s) (f : Follow) : Local c s₀ (s.follow c f) := by
  have k : ∀ l, Local c s₀ (s.modChan c fun ch => { ch with seqr := { ch.seqr with loops := l } }) := fun l => h.modChan _ rfl
  unfold State.follow
  dsimp only
  split
  · exact h.endPlan _
  · split
    · exact (k _).enterStep _ _
    · exact (k _).endPlan _
  · exact h

theorem Local.endStep (h : Local c s₀ s) (st : Step) (n : Nat) (e : EndCond) (v i t : Int) :
    Local c s₀ (s.endStep c st n e v i t) := by
  unfold State.endStep
  dsimp only
  split
  · unfold State.endStepTrip
    exact ((h.emitStepEnd _ _ _ _ _ _).modChan _ rfl).trip _ _ _ _ _ _
  · have k : ∀ (q : StepReason) (o : StepOutcome) (x : Option Nat), Local c s₀ ((s.emitStepEnd c st q o v i t).modChan c
        fun ch => { ch with seqr := { ch.seqr with retRef := x } }) := fun q o x => (h.emitStepEnd st q o v i t).modChan _ rfl
    split
    · exact ((k _ _ _).switchPlan).settle
    · exact ((k _ _ _).follow _).settle

end Sys2Proof.Machine
end

