-- ==== Sys2Proof/Laws/LocalHandling.lean ====
section
/-!
SUPPORT. The handling of a sample of a channel that leads no pair, and the requests of a channel, leave the rest of the machine
(Laws/Local); and what generating a record leaves of the channel that generates it (`Recorded`, `Reported`).
-/

namespace Sys2Proof.Machine

variable {s₀ s : State} {c d : Chan}

/-! ### What generating a record leaves -/

/-- The counts of a channel other than its handovers. -/
structure CountsKept (s t : State) (c : Chan) : Prop where
  responses : (t.notices.chan[c]).responses = (s.notices.chan[c]).responses
  stateChanges : (t.notices.chan[c]).stateChanges = (s.notices.chan[c]).stateChanges
  watchHits : (t.notices.chan[c]).watchHits = (s.notices.chan[c]).watchHits
  faults : (t.notices.chan[c]).faults = (s.notices.chan[c]).faults

theorem CountsKept.of {a b : State} (h : b.notices = a.notices) (c : Chan) : CountsKept a b c := by
  refine ⟨?_, ?_, ?_, ?_⟩ <;> rw [h]

theorem CountsKept.trans {a b d : State} (h : CountsKept a b c) (k : CountsKept b d c) : CountsKept a d c :=
  ⟨k.responses.trans h.responses, k.stateChanges.trans h.stateChanges, k.watchHits.trans h.watchHits, k.faults.trans h.faults⟩

/-- s is s₀ after records of channel c were generated, before their reports are acted on: only c's Logger, its handovers, the store and
the Notice Unit's message state differ. -/
structure Recorded (c : Chan) (s₀ s : State) : Prop where
  chan : ∃ l, s.chan c = (s₀.chan c).withLog l
  others : ∀ d, d ≠ c → s.chan d = s₀.chan d
  pairs : s.pairs = s₀.pairs
  arb : s.arb = s₀.arb
  counts : CountsKept s₀ s c

theorem Recorded.refl (c : Chan) (s : State) : Recorded c s s := ⟨⟨(s.chan c).log, rfl⟩, fun _ _ => rfl, rfl, rfl, .of (by rfl) c⟩

theorem Recorded.trans {a b d : State} (h : Recorded c a b) (k : Recorded c b d) : Recorded c a d := by
  obtain ⟨l, hl⟩ := h.chan
  obtain ⟨m, hm⟩ := k.chan
  exact ⟨⟨m, by rw [hm, hl]; rfl⟩, fun x hx => (k.others x hx).trans (h.others x hx), k.pairs.trans h.pairs, k.arb.trans h.arb,
    h.counts.trans k.counts⟩

theorem Recorded.change {t : State} {l : Logger} (h : Recorded c s₀ s)
    (hc : ∀ d, t.chan d = if d = c then (s.chan c).withLog l else s.chan d) (hp : t.pairs = s.pairs) (ha : t.arb = s.arb)
    (hn : CountsKept s t c) : Recorded c s₀ t :=
  h.trans ⟨⟨l, by rw [hc c, if_pos rfl]⟩, fun d hd => by rw [hc d, if_neg hd], hp, ha, hn⟩

theorem Recorded.modLog (h : Recorded c s₀ s) (f : Logger → Logger) : Recorded c s₀ (s.modLog c f) :=
  have r := State.modLog_rest s c f
  h.change (fun d => State.modLog_chan s c d f) r.pairs r.arb (.of r.notices c)

/-- R186: a count of channel c written leaves its other counts. -/
theorem State.bumpChan_self (t : State) (c : Chan) (k : ChanCount) :
    ((t.bumpChan c k).notices.chan[c]) = (t.notices.chan[c]).bump k := by
  have hb := NoticeUnit.setBit_same { t.notices with chan := t.notices.chan.set c ((t.notices.chan[c]).bump k) } c.val
  show (NoticeUnit.setBit _ _).chan[c] = _
  rw [hb.2.1]
  simp

/-- R186: after a count of channel c its ATTENTION bit is set. -/
theorem State.bumpChan_bit (t : State) (c : Chan) (k : ChanCount) : (t.bumpChan c k).notices.attention.getLsbD c.val = true :=
  NoticeUnit.setBit_bit _ _ (by have := c.isLt; omega)

theorem Recorded.handover (h : Recorded c s₀ s) (p : PoolId) (q : CloseReason) : Recorded c s₀ (s.handover c p q) := by
  have ch := fun d => State.handover_chan s c d p q
  obtain ⟨t, ht, h1, -⟩ := State.handover_rest s c p q
  rw [ht] at ch ⊢
  refine h.change ch h1.pairs h1.arb ((CountsKept.of h1.notices c).trans ⟨?_, ?_, ?_, ?_⟩) <;> rw [State.bumpChan_self] <;> rfl

theorem Recorded.closePool (h : Recorded c s₀ s) (q : CloseReason) : Recorded c s₀ (s.closePool c q) := by
  unfold State.closePool
  split
  · split
    · exact h.handover _ q
    · exact h
  · exact h

theorem Recorded.writeRecord (h : Recorded c s₀ s) (p : PoolId) (x : Record) : Recorded c s₀ (s.writeRecord c p x) :=
  have r := State.writeRecord_rest s c p x
  h.change (fun d => State.writeRecord_chan s c d p x) r.pairs r.arb (.of r.notices c)

theorem Recorded.writeGap (h : Recorded c s₀ s) (p : PoolId) : Recorded c s₀ (s.writeGap c p) := by
  unfold State.writeGap
  dsimp only
  split
  · exact h
  · exact (h.modLog _).writeRecord p _

theorem Recorded.placeIn (h : Recorded c s₀ s) (p : PoolId) (x : Record) : Recorded c s₀ (s.placeIn c p x) := by
  unfold State.placeIn
  dsimp only
  split
  · exact ((h.writeGap p).writeRecord p x).handover p _
  · exact (h.writeGap p).writeRecord p x

theorem Recorded.place (h : Recorded c s₀ s) (q : LossPolicy) (x : Record) : Recorded c s₀ (s.place c q x) := by
  unfold State.place
  dsimp only
  split
  · split
    · exact h.placeIn _ x
    · split
      · exact (h.handover _ _).placeIn _ x
      · exact (h.handover _ _).modLog _
  · exact h.modLog _

theorem Recorded.emit (h : Recorded c s₀ s) (k : RecKind) (n : Nat) (mk : U32 → List Byte) : Recorded c s₀ (s.emit c k n mk) :=
  (h.modLog _).place _ _

theorem Recorded.emitEvent (h : Recorded c s₀ s) (a : Chan) (k f : Nat) (b : List Byte) :
    Recorded c s₀ (s.emitEvent c a k f b) := by
  unfold State.emitEvent
  exact h.emit _ _ _

theorem Recorded.emitStepEnd (h : Recorded c s₀ s) (st : Step) (q : StepReason) (o : StepOutcome) (v i t : Int) :
    Recorded c s₀ (s.emitStepEnd c st q o v i t) := by
  unfold State.emitStepEnd
  dsimp only
  split
  · split
    · exact (h.emit _ _ _).closePool _
    · exact h.emit _ _ _
  · exact h.emit _ _ _

theorem Recorded.endStepBy (h : Recorded c s₀ s) (q : StepReason) : Recorded c s₀ (s.endStepBy c q) := by
  unfold State.endStepBy
  dsimp only
  split
  · split
    · exact h.emitStepEnd _ _ _ _ _ _
    · exact h
  · exact h

/-- A channel with another Logger and other hold causes. -/
def Channel.withHold (ch : Channel) (l : Logger) (h : HoldSet) : Channel := { ch with log := l, hold := h }

/-- s is s₀ after records of channel c, which is not RUNNING, were generated and their reports acted on: besides, LOG_FULL may have
joined c's hold causes. -/
structure Reported (c : Chan) (s₀ s : State) : Prop where
  chan : ∃ l h, s.chan c = (s₀.chan c).withHold l h ∧ h.linkDown = (s₀.chan c).hold.linkDown
    ∧ ((s₀.chan c).hold.logFull = true → h.logFull = true)
  others : ∀ d, d ≠ c → s.chan d = s₀.chan d
  pairs : s.pairs = s₀.pairs
  arb : s.arb = s₀.arb
  counts : CountsKept s₀ s c

theorem Reported.trans {a b d : State} (h : Reported c a b) (k : Reported c b d) : Reported c a d := by
  obtain ⟨l, g, hl, h1, h2⟩ := h.chan
  obtain ⟨m, g', hm, k1, k2⟩ := k.chan
  rw [hl] at hm k1 k2
  exact ⟨⟨m, g', hm, k1.trans h1, fun e => k2 (h2 e)⟩, fun x hx => (k.others x hx).trans (h.others x hx),
    k.pairs.trans h.pairs, k.arb.trans h.arb, h.counts.trans k.counts⟩

theorem Recorded.reported (h : Recorded c s₀ s) : Reported c s₀ s := by
  obtain ⟨l, hl⟩ := h.chan
  exact ⟨⟨l, (s₀.chan c).hold, hl, rfl, id⟩, h.others, h.pairs, h.arb, h.counts⟩

theorem Reported.st (h : Reported c s₀ s) : (s.chan c).st = (s₀.chan c).st := by
  obtain ⟨_, _, e, _⟩ := h.chan
  rw [e]; rfl

/-- R155: a latch entry of a channel that is not RUNNING is acted on. -/
theorem Reported.settle (h : Reported c s₀ s) (hs : (s₀.chan c).st ≠ .running) : Reported c s₀ (s.settle c) := by
  refine h.trans ?_
  have hs : (s.chan c).st ≠ .running := by rw [h.st]; exact hs
  have m := ((Recorded.refl c s).modLog fun l => { l with report := false }).reported
  unfold State.settle
  dsimp only
  split
  · split
    · refine m.trans ?_
      have e : (s.modLog c fun l => { l with report := false }).chan c = (s.chan c).withLog { (s.chan c).log with report := false } := by
        rw [State.modLog_chan, if_pos rfl]
      have hr : (((s.modLog c fun l => { l with report := false }).modChan c
          fun ch => { ch with hold := ch.hold.put .logFull true }).chan c).st ≠ .running := by
        rw [State.chan_modChan_self, e]; exact hs
      unfold State.joinCause
      dsimp only
      rw [if_neg hr]
      have j : Reported c (s.modLog c fun l => { l with report := false }) ((s.modLog c fun l => { l with report := false }).modChan c
          fun ch => { ch with hold := ch.hold.put .logFull true }) :=
        ⟨⟨((s.modLog c fun l => { l with report := false }).chan c).log,
          ((s.modLog c fun l => { l with report := false }).chan c).hold.put .logFull true, by
            rw [State.chan_modChan_self]; rfl, rfl, fun _ => rfl⟩, fun d hd => State.chan_modChan_ne _ _ hd, rfl, rfl, .of (by rfl) c⟩
      exact j.trans ((Recorded.refl c _).emitEvent c subHold 0 _).reported
    · exact m
  · exact (Recorded.refl c s).reported

/-- R147, R155: an EVENT record of a channel that is not RUNNING. -/
theorem Reported.event (h : Reported c s₀ s) (hs : (s₀.chan c).st ≠ .running) (a : Chan) (k f : Nat) (b : List Byte) :
    Reported c s₀ (s.event c a k f b) :=
  (h.trans ((Recorded.refl c s).emitEvent a k f b).reported).settle hs

/-! ### The handling of a sample of a SEPARATE pair -/

theorem Local.learn (h : Local c s₀ s) (g : Fin 3) : Local c s₀ (s.learn c c g) := by
  unfold State.learn
  exact ((h.modChan _ rfl).modChan _ rfl).event c _ _ _ (by rw [learnBody_length]; decide)

theorem Local.autoZero (h : Local c s₀ s) (own : Option (Int × Bool)) : Local c s₀ (s.autoZero c c own) := by
  unfold State.autoZero
  dsimp only
  split
  · exact (h.modChan _ rfl).learn _
  · exact h.modChan _ rfl

theorem State.leads_false {s : State} {c : Chan} (h : (s.pair (pairOf c)).ganged = false) : s.leads c = false := by
  unfold State.leads; rw [h]; simp

theorem Local.accumulate (h : Local c s₀ s) (hg : (s.pair (pairOf c)).ganged = false) (x : Input) :
    Local c s₀ (s.accumulate c x) := by
  have hl := State.leads_false hg
  have k := h.modChan (fun ch => ch.accumulate x (decide ((s.chan c).st = .tripped))) rfl
  unfold State.accumulate
  dsimp only
  rw [hl]
  simp only [Bool.false_eq_true, if_false, false_and]
  split
  · split
    · exact k.autoZero _
    · exact k
  · exact k

theorem Local.judgeMismatch (h : Local c s₀ s) (l : LimitSet) (x : Input) : Local c s₀ (s.judgeMismatch c l x) := by
  unfold State.judgeMismatch
  split
  · exact h.modPair _ rfl
  · exact h

theorem Local.laterFaults (h : Local c s₀ s) (x : Input) (l : List Cause) : Local c s₀ (s.laterFaults c x l) := by
  induction l generalizing s with
  | nil => exact h
  | cons k ks ih => exact ih (h.laterFault k _ _ _)

theorem Local.judgeChecks (h : Local c s₀ s) (l : LimitSet) (x : Input) : Local c s₀ (s.judgeChecks c l x) := by
  have k := (h.modChan (fun ch => { ch with checks := l.judge x }) rfl).judgeMismatch l x
  unfold State.judgeChecks
  dsimp only
  split
  · split
    · exact k
    · exact k.trip _ _ _ _ _ _
  · exact k.laterFaults x _

theorem Local.judgeSilence (h : Local c s₀ s) (l : LimitSet) (x : Input) : Local c s₀ (s.judgeSilence c l x) := by
  have k := h.modChan (fun ch => { ch with silenceReached := true }) rfl
  unfold State.judgeSilence
  dsimp only
  split
  · split
    · exact k.trip _ _ _ _ _ _
    · split
      · exact k
      · exact k.laterFault _ _ _ _
  · exact h

theorem Local.judgeSoft (h : Local c s₀ s) (l : LimitSet) (x : Input) : Local c s₀ (s.judgeSoft c l x) := by
  have k := h.modChan (fun ch => ch.advanceChop l) (Channel.advanceChop_same _ _).1
  unfold State.judgeSoft
  dsimp only
  split
  · unfold State.hit
    dsimp only
    split
    · exact k.modChan _ rfl
    · exact (k.modChan _ rfl).trip _ _ _ _ _ _
  · exact k

theorem Local.judgeContact (h : Local c s₀ s) (l : LimitSet) (x : Input) : Local c s₀ (s.judgeContact c l x) := by
  have k := h.modChan (fun ch => { ch with contact := (s.chan c).contact.count l x }) rfl
  unfold State.judgeContact
  dsimp only
  split
  · have k1 := k.modChan (fun ch => { ch with contact := { ch.contact with inProgress := false } }) rfl
    unfold State.contactPass
    dsimp only
    split
    · exact k1.enterRunning _
    · exact k1.moveTo _
  · split
    · exact k.trip _ _ _ _ _ _
    · exact k

theorem Local.protect (h : Local c s₀ s) (x : Input) : Local c s₀ (s.protect c x) := by
  have key : ∀ (l : LimitSet) (s0 : State), Local c s₀ s0 →
      Local c s₀ (if x.valid then s0.judgeChecks c l x else s0.judgeSilence c l x) := by
    intro l s0 k
    split
    · exact k.judgeChecks l x
    · exact k.judgeSilence l x
  unfold State.protect
  split
  · exact h
  · next l _ =>
    dsimp only
    split
    · have k0 : Local c s₀ (if (s.chan c).st = .running then s.modChan c fun ch => ch.blankingExpiry l else s) := by
        split
        · exact h.modChan _ (Channel.blankingExpiry_same _ _).1
        · exact h
      have k1 := key l _ k0
      revert k1
      generalize (if x.valid then _ else _ : State) = s1
      intro k1
      split
      · exact k1
      · split
        · exact k1.judgeSoft l x
        · split
          · exact k1.judgeContact l x
          · exact k1
    · exact h

theorem Local.endConditions (h : Local c s₀ s) (x : Input) : Local c s₀ (s.endConditions c x).1 := by
  unfold State.endConditions
  dsimp only
  split
  · next st _ =>
    have k := h.modChan (fun ch => { ch with
        seqr := { ch.seqr with qualify := ch.qualifyNext st x st.conds ch.seqr.qualify } }) rfl
    split
    · exact k.endStep _ _ _ _ _ _
    · exact k
  · exact h

theorem Local.regulate (h : Local c s₀ s) (x : Input) (g : Grant) : Local c s₀ (s.regulate c x g) := by
  unfold State.regulate
  split
  · split
    · exact (h.deliver _).modChan _ (Channel.regulate_same _ _ _ _).1
    · exact h
  · exact h.modChan _ (Channel.bound_same _ _ _ _).1

theorem Local.sampleRecord (h : Local c s₀ s) (x : Input) (f : Bool) : Local c s₀ (s.sampleRecord c x f) := by
  unfold State.sampleRecord
  dsimp only
  split
  · exact ((h.emit _ _ _ (Or.inl rfl) fun _ => sampleBytes_length _ _ _ _ _ _ _ _).modChan _ rfl).settle
  · exact h

theorem Local.watch (h : Local c s₀ s) (x : Input) (n : Fin 3) : Local c s₀ (s.watch c x n) := by
  unfold State.watch
  dsimp only
  split
  · exact h
  · have k : ∀ w, Local c s₀ (s.modChan c fun ch => { ch with watches := ch.watches.set n w }) := fun w => h.modChan _ rfl
    split
    · exact ((k _).event c _ _ _ (by rw [watchBody_length]; decide)).bumpChan _
    · exact k _

theorem Local.drive (h : Local c s₀ s) (x : Input) (f e : Bool) : Local c s₀ (s.drive c x f e) := by
  have k := h.endConditions x
  unfold State.drive
  dsimp only
  split
  · have k1 := k.regulate x (if e then s.arb.grants[c] else (s.endConditions c x).1.arb.grants[c])
    split
    · exact k1
    · exact k1.sampleRecord x f
  · exact k

/-- R98, R67, R37, R73, R149, R161: the handling of a sample of a channel of a SEPARATE pair. -/
theorem Local.handle (h : Local c s₀ s) (hg : (s.pair (pairOf c)).ganged = false) (x : Input) (e : Bool) :
    Local c s₀ (s.handle c x e) := by
  refine h.trans (Local.of fun o => ?_)
  have k1 := (Local.refl c s).protect x
  have hg1 := ((k1 o).ganged).trans hg
  unfold State.handle
  dsimp only
  generalize s.protect c x = s1 at k1 hg1 ⊢
  have k2 : Local c s (if decide ((s.chan c).st = .running) = true then s1.accumulate c x else s1) := by
    split
    · exact k1.accumulate hg1 x
    · exact k1
  generalize (if decide ((s.chan c).st = .running) = true then s1.accumulate c x else s1) = s2 at k2 ⊢
  have k3 : Local c s (if (decide ((s.chan c).st = .running) && decide ((s2.chan c).st = .running)) = true then
      s2.drive c x (s1.chan c).seqr.firstDue e else s2) := by
    split
    · exact k2.drive x _ _
    · exact k2
  revert k3
  generalize (if (_ && _) = true then _ else _ : State) = s3
  intro k3
  unfold State.watchAll
  split
  · exact ((k3.watch x 0).watch x 1).watch x 2
  · exact k3

theorem Local.validReport (h : Local c s₀ s) (hg : (s.pair (pairOf c)).ganged = false) (r : Response) (f : FrameRecord) (e : Bool) :
    Local c s₀ (s.validReport c r f e) := by
  have k := (h.modChan (fun ch => ch.report (s.correctSample c r f)) rfl).modChan Channel.heard rfl
  have hl := State.leads_false hg
  unfold State.validReport
  dsimp only
  rw [hl, hg]
  simp only [Bool.false_eq_true, if_false]
  exact k.handle hg _ _

/-! ### Channel requests -/

theorem Local.startHolds (h : Local c s₀ s) : Local c s₀ (s.startHolds c) := by
  unfold State.startHolds
  dsimp only
  have k : Local c s₀ (if (s.chan c).hold.linkDown = true then s.event c c subHold 0 (leBytes 1 HoldCause.linkDown.code) else s) := by
    split
    · exact h.event c _ _ _ (by simp)
    · exact h
  generalize (if (s.chan c).hold.linkDown = true then _ else _ : State) = s1 at k ⊢
  split
  · exact k.event c _ _ _ (by simp)
  · exact k

theorem Local.startPlan (h : Local c s₀ s) (p : Plan) : Local c s₀ (s.startPlan c p) := by
  have k := h.modChan (fun ch => ch.start p (!s.linkOk)) rfl
  unfold State.startPlan
  dsimp only
  refine ((?_ : Local c s₀ _).moveTo _).startHolds
  split
  · exact k.modPair _ rfl
  · exact k

theorem Local.resumePaused (h : Local c s₀ s) : Local c s₀ (s.resumePaused c) := by
  unfold State.resumePaused
  split
  · exact h.enterRunning _
  · exact h.moveTo _

theorem Local.jumpTo (h : Local c s₀ s) (n : Nat) : Local c s₀ (s.jumpTo c n) := by
  unfold State.jumpTo
  exact (((h.endStepBy _).modChan _ rfl).enterStep _ _).settle

/-- R18, R128: the ABORT post of a channel in a plan state. -/
theorem Local.abort (h : Local c s₀ s) : Local c s₀ (s.endPlan c .aborted) := h.endPlan _

/-! ### One evaluation at one event -/

theorem State.modAz_arb (s : State) (c : Chan) (f : AutoZero → AutoZero) : (s.modAz c f).arb = s.arb := by
  unfold State.modAz
  dsimp only
  split <;> rfl

theorem State.departLocal_arb (s : State) (c : Chan) : (s.departLocal c).arb = s.arb := State.modAz_arb _ _ _

theorem State.setSt_arb (s : State) (c : Chan) (st : ChState) : (s.setSt c st).arb = s.arb := by
  unfold State.setSt
  split <;> rfl

/-- R136, R143: with the link settings present, a notification is one evaluation. -/
theorem State.notify_evals {s : State} {l : LinkSettings} (h : s.arb.settings = some l) (c : Chan) :
    (s.notify c).arb.evals = s.arb.evals + 1 := by
  have h' : (s.deliver c ((s.chan c).wants (s.heldV c))).arb.settings = some l := h
  unfold State.notify State.evaluate
  rw [h']
  show (Arbiter.evaluate _ _ _).evals = _
  unfold Arbiter.evaluate
  dsimp only
  split <;> rfl

/-- R136, R155: a step entry and the hold that a latch entry of its event brings are one evaluation. -/
theorem State.settle_notifyEntry_evals {s : State} {l : LinkSettings} (h : s.arb.settings = some l) (c : Chan) :
    ((s.notifyEntry c).settle c).arb.evals = s.arb.evals + 1 := by
  have e : (s.modLog c fun l => { l with report := false }).chan c = (s.chan c).withLog { (s.chan c).log with report := false } := by
    rw [State.modLog_chan, if_pos rfl]
  unfold State.notifyEntry
  by_cases hd : (s.chan c).holdDue = true
  · rw [if_pos hd]
    unfold Channel.holdDue at hd
    simp only [Bool.and_eq_true, decide_eq_true_eq, Bool.not_eq_true'] at hd
    obtain ⟨⟨hr, hs⟩, hl⟩ := hd
    unfold State.settle
    dsimp only
    rw [if_pos hr, e, if_pos (by simp [Channel.withLog, hs, hl, ChState.inPlan])]
    unfold State.joinCause
    dsimp only
    rw [((Recorded.refl c _).emitEvent c subHold 0 _).arb, State.chan_modChan_self, e, if_pos (by exact hs)]
    unfold State.moveTo
    rw [State.chan_modChan_self, e, if_pos (by exact hs)]
    rw [State.notify_evals (l := l) (by rw [State.setSt_arb, State.departLocal_arb]; exact h), State.setSt_arb, State.departLocal_arb]
    rfl
  · rw [if_neg hd, ← State.notify_evals h c]
    by_cases hs : ((s.notify c).chan c).st = .running
    · unfold State.settle
      dsimp only
      split
      · next hr =>
        rw [State.notify_chan] at hr hs
        have hl : (s.chan c).hold.logFull = true := by simpa [Channel.holdDue, hr, hs] using hd
        rw [if_neg (by rw [State.modLog_chan, if_pos rfl, State.notify_chan]; simp [Channel.withLog, hl])]
        rfl
      · rfl
    · rw [((Recorded.refl c _).reported.settle hs).arb]

/-- R33, R136, R155: the entry of a step of the plan, and the hold that a latch entry of its event brings, are one evaluation. -/
theorem State.settle_enterStep_evals {s : State} {l : LinkSettings} (h : s.arb.settings = some l) {c : Chan} {n : Nat} {st : Step}
    (hn : (s.chan c).stepAt n = some st) (b : Bool) : ((s.enterStep c n b).settle c).arb.evals = s.arb.evals + 1 := by
  unfold State.enterStep
  rw [hn]
  dsimp only
  rw [State.settle_notifyEntry_evals (l := l) (by rw [State.modAz_arb]; exact h), State.modAz_arb]
  rfl

/-- R136, R155: a JUMP is one evaluation, whether or not its step-end record enters the latch and holds the channel. -/
theorem State.jumpTo_evals {s : State} {l : LinkSettings} (h : s.arb.settings = some l) {c : Chan} {n : Nat} {st : Step}
    (hn : (s.chan c).stepAt n = some st) : (s.jumpTo c n).arb.evals = s.arb.evals + 1 := by
  have r := (Recorded.refl c s).endStepBy .jumped
  obtain ⟨g, hg⟩ := r.chan
  unfold State.jumpTo
  dsimp only
  rw [State.settle_enterStep_evals (l := l) (by rw [State.modChan_arb, r.arb]; exact h)
    (by rw [State.chan_modChan_self, hg]; exact hn), State.modChan_arb, r.arb]

end Sys2Proof.Machine
end

