-- ==== Sys2Proof/Laws/Period.lean ====
section
/-!
SUPPORT. The periods, the response frames, the lines and the host's writes keep a sound state sound (Safety's State.Ok), and what else
they keep (Laws/Keeps, Laws/Serves).
-/

namespace Sys2Proof.Machine

variable {s₀ s : State} {c d : Chan}

/-! ### Operations made on every channel -/

theorem Keeps.forChans {f : State → Chan → State} (hf : ∀ t c, Keeps t (f t c)) (h : Keeps s₀ s) (l : List Chan) :
    Keeps s₀ (s.forChans f l) := by
  induction l generalizing s with
  | nil => exact h
  | cons c cs ih => exact ih (h.trans (hf s c))

theorem Holds.forChans {f : State → Chan → State} (hf : ∀ t c, Holds t (f t c)) (h : Holds s₀ s) (l : List Chan) :
    Holds s₀ (s.forChans f l) := by
  induction l generalizing s with
  | nil => exact h
  | cons c cs ih => exact ih (h.trans (hf s c))

/-! ### Response frames -/

theorem Holds.completeBringUp (h : Holds s₀ s) (c : Chan) (r : Response) (f : FrameRecord) : Holds s₀ (s.completeBringUp c r f) := by
  unfold State.completeBringUp
  dsimp only
  refine Holds.complete ?_ _ _
  refine (h.modLink c fun l => { l with state := .inService }).keeps ?_
  exact (((Keeps.refl _).modChan c _ fun o => Channel.report_ok _ _ o).heard c).moveTo c _

theorem Holds.validResponse (h : Holds s₀ s) (c : Chan) (r : Response) (f : FrameRecord) (e : Bool) :
    Holds s₀ (s.validResponse c r f e) := by
  unfold State.validResponse
  split
  · split
    · exact h.completeBringUp c r f
    · exact h
  · exact h.keeps ((Keeps.refl s).validReport c r f e)

/-- R168, R169, R172: a response frame. -/
theorem Holds.responseFrame (h : Holds s₀ s) (c : Chan) (frame : BitVec 96) (e : Bool) : Holds s₀ (s.responseFrame c frame e) := by
  unfold State.responseFrame
  dsimp only
  split
  · exact h.modLink c _
  · exact (h.modLink c _).validResponse c _ _ _
  · exact h

/-! ### The timers that count expiries -/

theorem Keeps.linkHoldExpire (h : Keeps s₀ s) (c : Chan) : Keeps s₀ (s.linkHoldExpire c) := by
  unfold State.linkHoldExpire
  split
  · exact h.tripHeld c _
  · exact h

theorem Keeps.intervalExpire (h : Keeps s₀ s) : Keeps s₀ s.intervalExpire := by
  unfold State.intervalExpire
  split
  · exact (h.modArb _ fun o => o).evaluate
  · exact h

theorem Keeps.takeDue (h : Keeps s₀ s) : Keeps s₀ s.takeDue :=
  Keeps.forChans (fun t c => (Keeps.refl t).linkHoldExpire c) h.intervalExpire _

/-! ### The expiry of the sample timer -/

theorem Keeps.handleMissed (h : Keeps s₀ s) (old : State) (sched : Schedule) (c : Chan) :
    Keeps s₀ (State.handleMissed old sched s c) := by
  unfold State.handleMissed
  dsimp only
  split
  · split
    · exact h.missedPair _ _
    · exact h
  · split
    · exact h.handle c _ _
    · exact h

/-- R170, R173: the periods of every link ended. -/
theorem Holds.endPeriods (h : Holds s₀ s) (sched : Schedule) : Holds s₀ (s.endPeriods sched) := by
  unfold State.endPeriods
  refine Holds.forChans (fun t c => ((Keeps.refl t).handleMissed _ _ c).holds) ?_ _
  refine Holds.forChans (fun t c => ?_) ?_ _
  · split
    · exact ((Keeps.refl t).missedReport c).holds
    · exact Holds.refl t
  · refine Holds.forChans (fun t c => ?_) h _
    split
    · exact (Holds.refl t).endBringUp c
    · exact Holds.refl t

theorem Channel.tick_ok (ch : Channel) (h : ch.Ok) : ch.tick.Ok := by
  refine ⟨h.driven, h.stepSet, h.planSet, h.lifeSet, ?_, h.stepTime, h.cycle, h.silence, h.later, h.limits, h.loaded⟩
  show (if _ then _ else _) ≤ _
  split
  · exact satSucc_le _ _
  · exact h.planTime

theorem Holds.tickTimers (h : Holds s₀ s) : Holds s₀ s.tickTimers :=
  h.trans ⟨rfl, rfl, rfl, rfl, rfl, rfl, rfl, rfl, fun o =>
    ⟨o.store, fun c => by
      have := Channel.tick_ok _ (o.chans c)
      simpa [State.chan, State.tickTimers] using this, o.wanted, o.paceTime, o.timer⟩⟩

theorem Holds.sendFrame (h : Holds s₀ s) (read : State) (c : Chan) : Holds s₀ (s.sendFrame read c) := by
  unfold State.sendFrame
  split
  · exact h.modLink c _
  · exact h.modLink c _
  · exact h

theorem Holds.sendFrames (h : Holds s₀ s) (early : State) (b : BitVec 16) : Holds s₀ (s.sendFrames early b) := by
  unfold State.sendFrames
  refine Holds.forChans (fun t c => ?_) h _
  split
  · exact Holds.refl t
  · exact (Holds.refl t).sendFrame _ c

/-- R164: an expiry of the sample timer keeps a sound state sound, and the queue. -/
theorem State.expire_ok (s : State) (sched : Schedule) (h : s.Ok) : (s.expire sched).Ok := by
  have k := ((((Keeps.refl s).takeDue.holds).endPeriods sched).tickTimers).ok h
  exact ((Holds.refl _).sendFrames _ _).ok ⟨k.store, k.chans, k.wanted, k.paceTime, k.timer⟩

@[simp] theorem NoticeUnit.tick_paceTime (n : NoticeUnit) : n.tick.paceTime = n.paceTime := by
  unfold NoticeUnit.tick; simp

/-- Log 9: 10 µs without a command keep a sound state sound. -/
theorem State.idle_ok (s : State) (h : s.Ok) : s.idle.Ok := by
  have k := (Keeps.refl s).takeDue.ok h
  unfold State.idle
  generalize s.takeDue = s1 at k ⊢
  exact ⟨k.store, k.chans, k.wanted, by simpa using k.paceTime, k.timer⟩

/-! ### The lines -/

theorem Keeps.externalStop (h : Keeps s₀ s) (c : Chan) : Keeps s₀ (s.externalStop c) := by
  unfold State.externalStop
  dsimp only
  split
  · exact h.laterFault c _ _ _ _
  · exact h.tripHeld c _

theorem Keeps.arbiterEdge (h : Keeps s₀ s) (b : Bool) : Keeps s₀ (s.arbiterEdge b) := by
  have k := h.modArb (fun a => { a with linkUp := true }) fun o => o
  unfold State.arbiterEdge
  dsimp only
  split
  · split
    · exact k.evaluate
    · exact k.modArb _ fun o => o
  · exact h.modArb _ fun o => o

/-! ### Counted times -/

theorem Channel.chopEnd_ok (ch : Channel) (h : ch.Ok) : ch.chopEnd.Ok := by
  unfold Channel.chopEnd
  split
  · next e _ =>
    split
    · exact ch.endChop_ok h (by rw [e]; rfl)
    · exact h
  · exact h

theorem Channel.blankingEnd_ok (ch : Channel) (h : ch.Ok) : ch.blankingEnd.Ok := by
  unfold Channel.blankingEnd
  split
  · split
    · exact ch.blankingExpiry_ok _ h
    · exact h
  · exact h

theorem Channel.windowEnd_ok (ch : Channel) (h : ch.Ok) : ch.windowEnd.Ok := by
  unfold Channel.windowEnd
  split
  · split
    · exact h.same rfl rfl rfl rfl rfl rfl rfl rfl rfl rfl rfl rfl rfl
    · exact h
  · exact h

theorem Keeps.contactFail (h : Keeps s₀ s) (c : Chan) : Keeps s₀ (s.contactFail c) := by
  unfold State.contactFail
  split
  · split
    · exact h.tripHeld c _
    · exact h
  · exact h

/-! ### The host's writes -/

theorem Keeps.advanceTouched (h : Keeps s₀ s) (l : List Nat) (n : Nat) : Keeps s₀ (s.advanceTouched l n) := by
  unfold State.advanceTouched
  refine Keeps.forChans (fun t c => ?_) h _
  split
  · exact (Keeps.refl t).advanceLoad c n
  · exact Keeps.refl t

theorem State.hostBytes_ok (l : List Byte) (s : State) (a : Nat) (b : Bool) (h : s.Ok) : (s.hostBytes a b l).Ok := by
  induction l generalizing s a with
  | nil => exact h
  | cons v vs ih =>
    refine ih _ _ ?_
    unfold State.hostByte
    split
    · exact ⟨Mem.wf_write h.store _ _, h.chans, h.wanted, h.paceTime, h.timer⟩
    · exact h

theorem State.hostBytes_pending (l : List Byte) (s : State) (a : Nat) (b : Bool) : (s.hostBytes a b l).pending = s.pending := by
  induction l generalizing s a with
  | nil => rfl
  | cons v vs ih =>
    refine (ih _ _).trans ?_
    unfold State.hostByte
    split <;> rfl

/-- Whatever each piece of an operation made on every channel writes, the canonical form stays. -/
theorem foldl_wf {α : Type} (f : Mem → α → Mem) (hf : ∀ m x, Mem.wf m = true → Mem.wf (f m x) = true) (l : List α) (m : Mem)
    (h : Mem.wf m = true) : Mem.wf (l.foldl f m) = true := by
  induction l generalizing m with
  | nil => exact h
  | cons x xs ih => exact ih _ (hf m x h)

/-- R177: the initialisation keeps the canonical form of the store. -/
theorem State.initialised_wf (s : State) (h : Mem.wf s.store = true) : Mem.wf (s.restoreKept s.initialised) = true := by
  unfold State.restoreKept
  refine foldl_wf _ (fun m a hm => Mem.wf_write hm _ _) _ _ ?_
  unfold State.initialised
  refine foldl_wf _ (fun m c hm => Mem.wf_writeBytes (Mem.wf_writeBytes hm _ _) _ _) _ _ ?_
  refine Mem.wf_clear ?_ _ _
  refine foldl_wf _ (fun m c hm => Mem.wf_writeBytes hm _ _) _ _ ?_
  exact Mem.wf_writeBytes (Mem.wf_writeBytes h _ _) _ _

/-! ### Resets -/

theorem Channel.reset_ok : Channel.reset.Ok :=
  ⟨fun e => absurd rfl e, Acc.Ok.zero, Acc.Ok.zero, Acc.Ok.zero, Nat.zero_le _, Nat.zero_le _, Nat.zero_le _, Nat.zero_le _,
    Nat.zero_le _, fun _ h => absurd h (by simp [Channel.reset]), rfl⟩

theorem Channel.softReset_ok (ch : Channel) (h : ch.Ok) : ch.softReset.Ok :=
  ⟨fun e => absurd rfl e, Acc.Ok.zero, Acc.Ok.zero, h.lifeSet, Nat.zero_le _, Nat.zero_le _, Nat.zero_le _, Nat.zero_le _,
    Nat.zero_le _, fun _ h => absurd h (by simp [Channel.softReset, Channel.reset]), rfl⟩

theorem State.softReset_ok (s : State) (h : s.Ok) : s.softReset.Ok := by
  refine ⟨h.store, fun c => ?_, fun c => ?_, ?_, ?_⟩
  · have := Channel.softReset_ok _ (h.chans c)
    simpa [State.chan, State.softReset] using this
  · simp [State.softReset, Arbiter.reset, Wanted.Ok]
  · simp [State.softReset, NoticeUnit.reset, Config.paceReset]
  · simp [State.softReset]

theorem State.powerOn_ok (a b : Bool) : (State.powerOn a b).Ok := by
  refine ⟨rfl, fun c => ?_, fun c => ?_, ?_, ?_⟩
  · simpa [State.chan, State.powerOn] using Channel.reset_ok
  · simp [State.powerOn, Arbiter.reset, Wanted.Ok]
  · simp [State.powerOn, NoticeUnit.reset, Config.paceReset]
  · simp [State.powerOn]

end Sys2Proof.Machine
end

