-- ==== Sys2Proof/Laws/LogsPart.lean ====
section
/-!
SUPPORT. The requests, the slot protocol, the releases and the periods keep the pools sound and leave the Plan Areas and the free area
(Laws/Logs); with the sizes of payloads, which no response half overruns.
-/

namespace Sys2Proof.Machine

variable {s₀ s : State} {r : Option Chan} {c d : Chan}

/-! ### The sizes of payloads -/

/-- The bytes of a payload's items, its padding apart. -/
def width (l : Items) : Nat := (l.map Prod.fst).sum

@[simp] theorem width_nil : width [] = 0 := rfl

@[simp] theorem width_cons (x : Nat × Nat) (l : Items) : width (x :: l) = x.1 + width l := by simp [width]

@[simp] theorem width_append (l m : Items) : width (l ++ m) = width l + width m := by simp [width]

theorem width_zeros (l : Items) : width (l.map fun x => (x.1, 0)) = width l := by
  simp [width, Function.comp_def]

theorem width_payOpt {n : Nat} (l : Items) (o : Option Items) (hl : width l ≤ n) (ho : ∀ x, o = some x → width x ≤ n) :
    width (payOpt l o) ≤ 1 + n := by
  cases o with
  | none => simp only [payOpt, width_cons, width_zeros]; omega
  | some x => have := ho x rfl; simp only [payOpt, width_cons]; omega

theorem payItem_length (l : List Byte) (x : Nat × Nat) : (payItem l x).length ≤ l.length + 2 * x.1 := by
  unfold payItem
  simp only [List.length_append, List.length_replicate, leBytes_length]
  rcases Nat.eq_zero_or_pos x.1 with h | h
  · rw [h]; simp
  · have := Nat.mod_lt (x.1 - l.length % x.1) h
    omega

/-- A payload is at most twice as long as its items, whatever the padding. -/
theorem payload_length_le (l : Items) : (payload l).length ≤ 2 * width l := by
  have key : ∀ (l : Items) (b : List Byte), (l.foldl payItem b).length ≤ b.length + 2 * width l := by
    intro l
    induction l with
    | nil => intro b; simp
    | cons x xs ih =>
      intro b
      have h1 := ih (payItem b x)
      have h2 := payItem_length b x
      simp only [List.foldl_cons, width_cons]
      omega
  have := key l []
  unfold payload
  simpa using this

theorem width_loopItems (l : List (Nat × Nat)) : width (loopItems l) ≤ 14 := by
  have key : ∀ m : List (Nat × Nat), width (m.flatMap fun (e : Nat × Nat) => [payNat 1 e.1, payNat 2 e.2]) = 3 * m.length := by
    intro m
    induction m with
    | nil => rfl
    | cons x xs ih => simp only [List.flatMap_cons, width_append, ih]; simp [payNat]; omega
  unfold loopItems
  rw [width_cons, key, List.length_take]
  show 2 + _ ≤ _
  omega

theorem width_limitItems (l : LimitSet) : width l.items = 64 := by simp [LimitSet.items, payInt, payNat]

theorem width_faultItems (f : FaultRecord) : width f.items = 33 := by simp [FaultRecord.items, payInt, payNat, payFlag]

theorem width_curItems (x : CurRecord) : width x.items ≤ 11 := by
  have := width_payOpt (n := 2) [(2, 0)] (x.learned.map fun y => [payInt 2 y]) (by simp) (by
    intro y hy; cases h : x.learned <;> rw [h] at hy <;> cases hy; simp [payInt])
  simp [CurRecord.items, payInt, payFlag] at this ⊢
  omega

theorem width_recordItems (t : CalTable) (n : Nat) : width (t.recordItems n) ≤ 11 := by
  unfold CalTable.recordItems
  split
  case _ => simp [CalRecord.items, payInt]
  case _ => exact width_curItems _
  case _ => exact width_curItems _
  case _ => exact width_curItems _
  all_goals simp [CalRecord.items, payInt]

theorem width_accItems (a : Acc) : width a.items = 40 := by simp [Acc.items, payNat]

theorem width_map {α : Type} {n : Nat} (o : Option α) (f : α → Items) (h : ∀ a, width (f a) ≤ n) :
    ∀ x, o.map f = some x → width x ≤ n := by
  intro x hx
  cases o with
  | none => cases hx
  | some a => cases hx; exact h a

theorem width_if {n : Nat} (p : Prop) [Decidable p] (l : Items) (h : width l ≤ n) :
    ∀ x, (if p then some l else none) = some x → width x ≤ n := by
  intro x hx
  split at hx
  · cases hx; exact h
  · cases hx

theorem width_section0 (s : State) (c : Chan) : width (s.section0 c) ≤ 150 := by
  have h1 := width_payOpt (n := 4) [(4, 0)] ((s.chan c).staged.plan.map fun p => [payCount p.header.label]) (by simp)
    (width_map _ _ fun _ => by simp [payCount])
  have h2 := width_payOpt (n := 4) [(4, 0)] ((s.chan c).active.map fun p => [payCount p.header.label]) (by simp)
    (width_map _ _ fun _ => by simp [payCount])
  have h3 := width_payOpt (n := 1) [(1, 0)] ((s.chan c).staged.plan.map fun p => [(1, p.header.switchMode.code)]) (by simp)
    (width_map _ _ fun _ => by simp)
  have h4 := width_payOpt (n := 8) [(8, 0)] ((s.chan c).seqr.retRef.map fun q => [payNat 8 q]) (by simp)
    (width_map _ _ fun _ => by simp [payNat])
  have h5 := width_payOpt (n := 2) [(1, 0), (1, 0)]
    (if s.follows c then some [(1, (pairOf c).val), (1, (leaderOf (pairOf c)).val)] else none) (by simp)
    (width_if _ _ (by simp))
  have h6 := width_payOpt (n := 8) [(1, 0), (1, 0), (1, 0), (1, 0), (4, 0)] ((s.link c).frame.map FrameRecord.items) (by simp)
    (width_map _ _ fun _ => by simp [FrameRecord.items, payFlag, payInt])
  have h7 := width_loopItems (s.chan c).seqr.loops
  simp only [State.section0, State.pairItems, width_append, width_cons, width_nil, payFlag, payNat, Wanted.items] at *
  omega

theorem width_section1 (s : State) (c : Chan) : width (s.section1 c) ≤ 250 := by
  have h0 := width_curItems (s.chan c).cal.cur0
  have h1 := width_curItems (s.chan c).cal.cur1
  have h2 := width_curItems (s.chan c).cal.cur2
  simp only [State.section1, width_append, width_cons, width_nil, payFlag, payInt, width_accItems, CalRecord.items] at *
  omega

theorem width_section2 (s : State) (c : Chan) : width (s.section2 c) ≤ 250 := by
  have h0 : ∀ q : RegReport, width q.items ≤ 23 := fun q => by
    have := width_payOpt (n := 4) [(4, 0)] (q.b.map fun x => [payInt 4 x]) (by simp) (width_map _ _ fun _ => by simp [payInt])
    simp only [RegReport.items, width_append, width_cons, width_nil, payFlag, payInt] at *
    omega
  have h1 := width_payOpt (n := 23) [(4, 0), (4, 0), (1, 0), (4, 0), (4, 0), (1, 0), (1, 0)]
    ((s.chan c).reg.last.map RegReport.items) (by simp) (width_map _ _ h0)
  have h2 := width_payOpt (n := 64) limitWidths ((s.chan c).limits.map LimitSet.items) (by simp [limitWidths])
    (width_map _ _ fun l => by rw [width_limitItems])
  have h3 := width_payOpt (n := 2) [(2, 0)] ((s.chan c).chop.map fun k => [payNat 2 k]) (by simp)
    (width_map _ _ fun _ => by simp [payNat])
  have h4 := width_payOpt (n := 2) [(2, 0)] (if isEven c then some [payNat 2 (s.pair (pairOf c)).mismatch] else none) (by simp)
    (width_if _ _ (by simp [payNat]))
  simp only [State.section2, width_append, width_cons, width_nil, payFlag, payInt, payNat, Checks.items, width_faultItems] at *
  omega

theorem width_section3 (s : State) (c : Chan) : width (s.section3 c) ≤ 250 := by
  have hp : ∀ h : PoolHeader, width h.items = 17 := fun h => by simp [PoolHeader.items, payNat, payCount]
  have hw : ∀ w : Watch, width w.items ≤ 21 := fun w => by
    have := width_payOpt (n := 8) [(8, 0)] (w.prev.map fun x => [payInt 8 x]) (by simp) (width_map _ _ fun _ => by simp [payInt])
    simp only [Watch.items, width_append, width_cons, width_nil, payFlag, payInt, payCount] at *
    omega
  have h1 := width_payOpt (n := 5) [(4, 0), (1, 0)] ((s.chan c).log.latch.map fun q => [payCount q.seq, (1, q.kind.code)]) (by simp)
    (width_map _ _ fun _ => by simp [payCount])
  have h2 := width_payOpt (n := 8) [(4, 0), (4, 0)] ((s.chan c).log.pendingLoss.map fun p => [payCount p.1, payCount p.2]) (by simp)
    (width_map _ _ fun _ => by simp [payCount])
  have w0 := hw (s.chan c).watches[0]
  have w1 := hw (s.chan c).watches[1]
  have w2 := hw (s.chan c).watches[2]
  simp only [State.section3, width_append, width_cons, width_nil, payCount, hp] at *
  omega

theorem State.snapshot_length_le (s : State) (c : Chan) (n : Nat) : (s.snapshot c n).length ≤ 500 := by
  unfold State.snapshot
  have h0 := width_section0 s c
  have h1 := width_section1 s c
  have h2 := width_section2 s c
  have h3 := width_section3 s c
  refine Nat.le_trans (payload_length_le _) ?_
  split <;> omega

theorem width_flatMap (l : List Wanted) : width (l.flatMap Wanted.items) = 5 * l.length := by
  induction l with
  | nil => rfl
  | cons x xs ih => simp only [List.flatMap_cons, width_append, ih]; simp [Wanted.items, payNat]; omega

theorem width_ofMap {α : Type} (l : List α) (f : α → Nat × Nat) (n : Nat) (h : ∀ a, (f a).1 = n) :
    width (l.map f) = n * l.length := by
  induction l with
  | nil => rfl
  | cons x xs ih => simp only [List.map_cons, width_cons, ih, h, List.length_cons]; rw [Nat.mul_succ]; omega

theorem width_counterItems (s : State) (c : Chan) : width (s.counterItems c) ≤ 200 := by
  have h := width_payOpt (n := 4) [(4, 0)] (if isEven c then some [payCount (s.pair (pairOf c)).missedCtr] else none) (by simp)
    (width_if _ _ (by simp [payCount]))
  simp only [State.counterItems, width_append, width_cons, width_nil, payCount] at *
  omega

theorem width_deviceItems (s : State) : width s.deviceItems ≤ 300 := by
  have h := width_payOpt (n := 10) [(4, 0), (4, 0), (2, 0)] (s.arb.settings.map LinkSettings.items) (by simp)
    (width_map _ _ fun _ => by simp [LinkSettings.items, payNat])
  have h1 := width_ofMap s.pairs.toList (fun p => payFlag p.ganged) 1 fun _ => rfl
  have h2 := width_ofMap s.arb.grants.toList (fun g => (4, g.code)) 4 fun _ => rfl
  simp only [Vector.length_toList] at h1 h2
  simp only [State.deviceItems, width_append, width_cons, width_nil, payCount, payFlag, payNat, EvalSummary.items, payInt,
    width_flatMap, Vector.length_toList] at *
  omega

/-! ### Replies -/

/-- A reply that a response half can hold. -/
def Reply.Small (q : Reply) : Prop := q.detail.length ≤ 8 ∧ q.payload.length ≤ 600

/-- The half of a small reply ends long before the Plan Areas. -/
theorem Reply.Small.half_length {q : Reply} (h : q.Small) (t k : Nat) : (q.half t k).length ≤ 0x400 := by
  obtain ⟨h1, h2⟩ := h
  unfold Reply.half padTo responseHalfSize
  simp only [List.length_append, List.length_replicate, leBytes_length]
  omega

theorem Reply.Small.plain (q : Result) : (Reply.plain q).Small := ⟨by simp [Reply.plain], by simp [Reply.plain]⟩

theorem Reply.Small.bad (n : Nat) : (Reply.bad n).Small := ⟨by simp [Reply.bad], by simp [Reply.bad]⟩

theorem Reply.Small.detail (q : Result) (l : List Byte) (h : l.length ≤ 8) : (⟨q, l, []⟩ : Reply).Small := ⟨h, by simp⟩

theorem small_ofItems (l : Items) (h : width l ≤ 300) : (Reply.payload' (payload l)).Small :=
  ⟨by simp [Reply.payload'], Nat.le_trans (payload_length_le l) (by omega)⟩

/-- What a request does: an event of sound pools, and a reply that a response half can hold. -/
def Served (s₀ : State) (x : State × Reply) : Prop := Logs none s₀ x.1 ∧ x.2.Small

theorem Served.refuse (h : Logs none s₀ s) (q : Result) : Served s₀ (s.refuse q) := ⟨h, .plain q⟩

theorem Served.done (h : Logs none s₀ s) : Served s₀ s.done := ⟨h, .plain _⟩

/-! ### Channel requests -/

theorem Logs.modLink (h : Logs r s₀ s) (c : Chan) (f : Link → Link) : Logs r s₀ (s.modLink c f) :=
  h.chansSame rfl fun _ _ => rfl

theorem Logs.modSlot (h : Logs r s₀ s) (n : SlotIx) (f : Slot → Slot) : Logs r s₀ (s.modSlot n f) :=
  h.chansSame rfl fun _ _ => rfl

theorem Logs.stray (h : Logs r s₀ s) : Logs r s₀ s.stray := h.chansSame rfl fun _ _ => rfl

theorem Logs.startHolds (h : Logs none s₀ s) (c : Chan) : Logs none s₀ (s.startHolds c) := by
  unfold State.startHolds
  dsimp only
  have k : Logs none s₀ (if (s.chan c).hold.linkDown = true then s.event c c subHold 0 (leBytes 1 HoldCause.linkDown.code) else s) := by
    split
    · exact h.event c _ _ _ _ (by simp)
    · exact h
  generalize (if (s.chan c).hold.linkDown = true then _ else _ : State) = s1 at k ⊢
  split
  · exact k.event c _ _ _ _ (by simp)
  · exact k

theorem Logs.startPlan (h : Logs none s₀ s) (c : Chan) (p : Plan) (hs : (s.chan c).st ≠ .running) :
    Logs none s₀ (s.startPlan c p) := by
  have k := h.modHold c (fun ch => ch.start p (!s.linkOk)) rfl fun _ e => absurd e hs
  unfold State.startPlan
  dsimp only
  refine ((?_ : Logs none s₀ _).moveTo c _ (by decide)).startHolds c
  split
  · exact k.modPair _ _
  · exact k

theorem Served.reqStart (h : Logs none s₀ s) (c : Chan) : Served s₀ (s.reqStart c) := by
  unfold State.reqStart
  dsimp only
  split
  · exact .refuse h _
  · next hs =>
    have hs' : (s.chan c).st ≠ .running := fun e => hs (by rw [e]; decide)
    repeat' split
    all_goals first | exact .refuse h _ | exact .done (h.startPlan c _ hs')

theorem Served.reqPause (h : Logs none s₀ s) (c : Chan) : Served s₀ (s.reqPause c) := by
  unfold State.reqPause
  dsimp only
  split
  · exact .done ((h.moveTo c _ (by decide)).event c _ _ _ _ (by simp))
  · exact .refuse h _

theorem Logs.resumePaused (h : Logs none s₀ s) (c : Chan) : Logs none s₀ (s.resumePaused c) := by
  unfold State.resumePaused
  split
  · next e => exact h.enterRunning c _ e
  · exact h.moveTo c _ (by decide)

theorem Served.reqResume (h : Logs none s₀ s) (c : Chan) : Served s₀ (s.reqResume c) := by
  unfold State.reqResume
  dsimp only
  split
  · split
    · exact .refuse h _
    · exact .done ((h.event c _ _ _ _ (by simp)).resumePaused c)
  · split
    · exact .refuse h _
    · split
      · exact .refuse h _
      · exact .done (((h.moveTo c _ (by decide)).modChan c _ rfl rfl rfl).event c _ _ _ _ (by simp))
  · exact .refuse h _

theorem Served.reqStop (h : Logs none s₀ s) (c : Chan) : Served s₀ (s.reqStop c) := by
  unfold State.reqStop
  split
  · exact .done (((h.any _).endStepBy _).endPlan _)
  · exact .refuse h _

theorem Served.reqFaultAck (h : Logs none s₀ s) (c : Chan) : Served s₀ (s.reqFaultAck c) := by
  unfold State.reqFaultAck
  split
  · exact ⟨h.modChan c (fun ch => { ch with fault := { ch.fault with acked := true } }) rfl rfl rfl,
      small_ofItems _ (by rw [width_faultItems]; decide)⟩
  · exact .refuse h _

theorem Logs.jumpTo (h : Logs none s₀ s) (c : Chan) (n : Nat) : Logs none s₀ (s.jumpTo c n) := by
  unfold State.jumpTo
  exact ((((h.any (some c)).endStepBy _).modChan c _ rfl rfl rfl).enterStep c _ _).settle

theorem Served.reqJump (h : Logs none s₀ s) (c : Chan) (half : List Byte) : Served s₀ (s.reqJump c half) := by
  unfold State.reqJump
  dsimp only
  split
  · split
    · exact .done (h.jumpTo c _)
    · exact ⟨h, .bad _⟩
  · exact .refuse h _

theorem Served.reqSetLimits (h : Logs none s₀ s) (c : Chan) (half : List Byte) : Served s₀ (s.reqSetLimits c half) := by
  unfold State.reqSetLimits
  dsimp only
  split
  · exact .refuse h _
  · split
    · exact ⟨h, .bad _⟩
    · exact ⟨h.modChan c (fun ch => { ch with limits := some (limitSetOf (limitField half)), limitsLoaded := true }) rfl rfl rfl,
        small_ofItems _ (by rw [width_limitItems]; decide)⟩

theorem Served.reqSetCal (h : Logs none s₀ s) (c : Chan) (half : List Byte) : Served s₀ (s.reqSetCal c half) := by
  unfold State.reqSetCal
  dsimp only
  split
  · exact ⟨h, .bad _⟩
  · refine ⟨?_, small_ofItems _ (Nat.le_trans (width_recordItems _ _) (by decide))⟩
    have k := h.modChan c (fun ch => { ch with cal := ch.cal.set (CalParams.ofHalf half) }) rfl rfl rfl
    show Logs none s₀ (State.discardLearning _ _ _)
    unfold State.discardLearning
    split
    · exact k.modChan c _ rfl rfl rfl
    · exact k

theorem Served.reqSetWatch (h : Logs none s₀ s) (c : Chan) (half : List Byte) : Served s₀ (s.reqSetWatch c half) := by
  unfold State.reqSetWatch
  have k : ∀ w : Channel → Vector Watch 3, Logs none s₀ (s.modChan c fun ch => { ch with watches := w ch }) := fun w =>
    h.modChan c _ rfl rfl rfl
  repeat' split
  all_goals first | exact ⟨h, .bad _⟩ | exact .done (k fun _ => _)

theorem Served.reqClearWatch (h : Logs none s₀ s) (c : Chan) (half : List Byte) : Served s₀ (s.reqClearWatch c half) := by
  unfold State.reqClearWatch
  have k : ∀ w : Channel → Vector Watch 3, Logs none s₀ (s.modChan c fun ch => { ch with watches := w ch }) := fun w =>
    h.modChan c _ rfl rfl rfl
  split
  · exact ⟨h, .bad _⟩
  · exact .done (k fun _ => _)

theorem Served.reqFlush (h : Logs none s₀ s) (c : Chan) : Served s₀ (s.reqFlush c) := by
  unfold State.reqFlush
  dsimp only
  split
  · exact ⟨h, .detail _ _ (by simp)⟩
  · next p e =>
    split
    · exact ⟨h.handover c p _ fun _ => e, .detail _ _ (by simp)⟩
    · exact ⟨h, .detail _ _ (by simp)⟩

theorem Served.reqStatus (h : Logs none s₀ s) (c : Chan) (half : List Byte) : Served s₀ (s.reqStatus c half) :=
  ⟨h, by simp [State.reqStatus, Reply.payload'], Nat.le_trans (State.snapshot_length_le _ _ _) (by decide)⟩

theorem Logs.clearCounters (h : Logs none s₀ s) (c : Chan) : Logs none s₀ (s.clearCounters c) := by
  have k := (h.modLog c (fun l => { l with written := 0, lost := 0, stepEndLost := 0, planEndLost := 0, latchEntries := 0, gaps := 0 })
    (fun o => (o c).counts rfl rfl rfl rfl) fun _ _ e => e)
  have k2 : Logs none s₀ (s.modChan c Channel.clearCounters) := by
    refine k.same (fun d => ?_) (fun d => ?_) fun _ _ => rfl
    · rw [State.chan_modChan, State.modLog_chan]
      split
      · next e => subst e; rfl
      · rfl
    · rw [State.chan_modChan, State.modLog_chan]
      split
      · next e => subst e; exact fun e => ⟨e, rfl⟩
      · exact fun e => ⟨e, rfl⟩
  unfold State.clearCounters
  dsimp only
  split
  · exact (k2.modLink c _).modPair _ _
  · exact k2.modLink c _

theorem Served.reqCounters (h : Logs none s₀ s) (c : Chan) (half : List Byte) : Served s₀ (s.reqCounters c half) := by
  refine ⟨?_, small_ofItems _ (Nat.le_trans (width_counterItems _ _) (by decide))⟩
  show Logs none s₀ (if _ then _ else _)
  split
  · exact h.clearCounters c
  · exact h

theorem Served.reqDisable (h : Logs none s₀ s) (c : Chan) : Served s₀ (s.reqDisable c) := by
  unfold State.reqDisable
  split
  · exact .done h
  · split
    · exact .refuse h _
    · exact .done (((h.moveTo c _ (by decide)).modLink c _).heard c)
  · exact .refuse h _

/-! ### Device requests -/

theorem Served.reqSetLink (h : Logs none s₀ s) (half : List Byte) : Served s₀ (s.reqSetLink half) := by
  have k : ∀ l, Logs none s₀ (s.modArb fun a => { a with settings := some l, linkSet := true, timer := some 0 }) := fun _ => h.modArb _
  unfold State.reqSetLink
  dsimp only
  split
  · exact ⟨h, .bad _⟩
  · exact ⟨(k _).evaluate, small_ofItems _ (by simp [LinkSettings.items, EvalSummary.items, payNat, payInt])⟩

theorem Logs.gang (h : Logs none s₀ s) (k : PairIx) : Logs none s₀ (s.gang k) := by
  unfold State.gang
  exact ((((h.modPair k _).moveTo _ _ (by decide)).modChan _ _ rfl rfl rfl).heard _).notify _

theorem Logs.separate (h : Logs none s₀ s) (k : PairIx) : Logs none s₀ (s.separate k) := by
  unfold State.separate
  exact ((h.modPair k _).moveTo _ _ (by decide)).heard _

theorem Served.reqSetPair (h : Logs none s₀ s) (half : List Byte) : Served s₀ (s.reqSetPair half) := by
  unfold State.reqSetPair
  split
  · exact ⟨h, .bad _⟩
  · next k _ =>
    dsimp only
    split
    · split
      · exact ⟨h.gang k, .detail _ _ (by simp [pairDetail])⟩
      · exact .refuse h _
    · split
      · refine ⟨?_, .detail _ _ (by simp [pairDetail])⟩
        show Logs none s₀ (if _ then _ else _)
        split
        · exact h.separate k
        · exact h
      · exact .refuse h _
    · exact ⟨h, .bad _⟩

theorem Served.reqDeviceCounters (h : Logs none s₀ s) (half : List Byte) : Served s₀ (s.reqDeviceCounters half) := by
  refine ⟨?_, small_ofItems _ (width_deviceItems _)⟩
  show Logs none s₀ (if _ then _ else _)
  split
  · exact h.chansSame rfl fun _ _ => rfl
  · exact h

/-! ### Dispatch and the slot protocol -/

/-- R183: whatever request is examined, its owner keeps the pools sound, and its reply is small. -/
theorem Logs.dispatch (h : Logs none s₀ s) (n : SlotIx) (half : List Byte) :
    Logs none s₀ (s.dispatch n half).1 ∧ ∀ q, (s.dispatch n half).2 = some q → q.Small := by
  have at1 : ∀ x : State × Reply, Served s₀ x → Logs none s₀ (atTake x).1 ∧ ∀ q, (atTake x).2 = some q → q.Small := fun x hx =>
    ⟨hx.1, fun q e => by cases e; exact hx.2⟩
  have un : ∀ k, (Reply.unknown k).Small := fun k => .detail _ _ (by simp)
  unfold State.dispatch
  dsimp only
  split
  · next c _ =>
    split
    · exact ⟨h, fun q e => by cases e; exact un _⟩
    · next k _ =>
      split
      · exact ⟨h, fun q e => by cases e; exact .plain _⟩
      · cases k with
        | enable =>
          show Logs none s₀ (s.reqEnable c).1 ∧ ∀ q, (s.reqEnable c).2 = some q → q.Small
          unfold State.reqEnable
          split
          · exact ⟨(h.modLink c _).heard c, fun q e => by cases e⟩
          · exact ⟨h, fun q e => by cases e; exact .plain _⟩
        | disable => exact at1 _ (.reqDisable h c)
        | loadPlan =>
          refine ⟨h.modChan c (fun ch => { ch with staged := .loading, load := some ⟨none, [], false⟩ }) rfl rfl rfl, fun q e => ?_⟩
          cases e
        | start => exact at1 _ (.reqStart h c)
        | pause => exact at1 _ (.reqPause h c)
        | resume => exact at1 _ (.reqResume h c)
        | stop => exact at1 _ (.reqStop h c)
        | faultAck => exact at1 _ (.reqFaultAck h c)
        | setLimits => exact at1 _ (.reqSetLimits h c half)
        | setCal => exact at1 _ (.reqSetCal h c half)
        | setWatch => exact at1 _ (.reqSetWatch h c half)
        | clearWatch => exact at1 _ (.reqClearWatch h c half)
        | jump => exact at1 _ (.reqJump h c half)
        | flush => exact at1 _ (.reqFlush h c)
        | status => exact at1 _ (.reqStatus h c half)
        | counters => exact at1 _ (.reqCounters h c half)
        | setLink => exact ⟨h, fun q e => by cases e⟩
        | setPair => exact ⟨h, fun q e => by cases e⟩
        | deviceCounters => exact ⟨h, fun q e => by cases e⟩
  · split
    · exact ⟨h, fun q e => by cases e; exact un _⟩
    · next k _ =>
      cases k with
      | setLink => exact at1 _ (.reqSetLink h half)
      | setPair => exact at1 _ (.reqSetPair h half)
      | deviceCounters => exact at1 _ (.reqDeviceCounters h half)
      | _ => exact ⟨h, fun q e => by cases e⟩

/-- A write of at most 0x400 bytes that begins in the Request Slots ends before the Plan Areas. -/
theorem Logs.writeSlot (h : Logs r s₀ s) (a : Nat) (l : List Byte) (ha : a < 0x4000) (hl : l.length ≤ 0x400) :
    Logs r s₀ (s.writeStore a l) := by
  refine h.writeStore a l fun b hb => ?_
  unfold HostArea at hb
  omega

theorem slotBase_lt (n : SlotIx) : Config.slotBase n + requestHalfSize < 0x4000 := by
  have := n.isLt
  simp only [Config.slotBase, requestHalfSize]
  omega

theorem Logs.putStateField (h : Logs r s₀ s) (n : SlotIx) (v : Nat) : Logs r s₀ (s.putStateField n v) :=
  h.writeSlot _ _ (by have := slotBase_lt n; omega) (by simp)

theorem Logs.finish (h : Logs none s₀ s) (n : SlotIx) (q : Reply) (hq : q.Small) : Logs none s₀ (s.finish n q) := by
  unfold State.finish
  dsimp only
  split
  · exact h
  · next half _ =>
    have k := h.writeSlot (responseBase n) (q.half (reqTag half) (reqKindCode half)) (slotBase_lt n) (hq.half_length _ _)
    have kb : ∀ t : State, Logs none s₀ t → Logs none s₀ (t.bumpResponses n) := fun t ht => by
      unfold State.bumpResponses
      split
      · exact ht.bumpChan _ _
      · exact ht.bumpDev _
    refine Logs.modSlot (kb _ ?_) n _
    split
    · exact k.putStateField n _
    · exact k

theorem Logs.take (h : Logs none s₀ s) (n : SlotIx) : Logs none s₀ (s.take n) := by
  unfold State.take
  dsimp only
  split
  · have k := ((h.modSlot n fun sl => { sl with latch := some (s.store.readBytes (Config.slotBase n) requestHalfSize) }).putStateField
      n stateTaken).dispatch n (s.store.readBytes (Config.slotBase n) requestHalfSize)
    split
    · next q e => exact k.1.finish n _ (k.2 q e)
    · exact k.1
  · exact h.stray

theorem Logs.drain (h : Logs none s₀ s) (n : SlotIx) : Logs none s₀ (s.drain n) := by
  unfold State.drain
  split
  · exact (h.modSlot n _).take n
  · exact h

theorem Logs.postSlot (h : Logs none s₀ s) (n : SlotIx) : Logs none s₀ (s.postSlot n) := by
  unfold State.postSlot
  split
  · exact h.modSlot n _
  · exact (h.take n).drain n

theorem Logs.complete (h : Logs none s₀ s) (n : SlotIx) (q : Reply) (hq : q.Small) : Logs none s₀ (s.complete n q) :=
  (h.finish n q hq).drain n

theorem Logs.advanceLoad (h : Logs none s₀ s) (c : Chan) (n : Nat) : Logs none s₀ (s.advanceLoad c n) := h.modChan c _ rfl rfl rfl

theorem Logs.completeLoad (h : Logs none s₀ s) (c : Chan) : Logs none s₀ (s.completeLoad c) := by
  unfold State.completeLoad
  dsimp only
  have k := h.advanceLoad c loadRecords
  split
  · exact h
  · have k1 : ∀ g, Logs none s₀ ((s.advanceLoad c loadRecords).modChan c fun ch => { ch with load := none, staged := g }) := fun g =>
      k.modChan c _ rfl rfl rfl
    split
    · exact (k1 _).complete _ _ (.detail _ _ (by simp [planDetail]))
    · exact (k1 _).complete _ _ (.detail _ _ (by simp [badPlanDetail]))

theorem Logs.endBringUp (h : Logs none s₀ s) (c : Chan) : Logs none s₀ (s.endBringUp c) := (h.modLink c _).complete _ _ (.plain _)

/-! ### Releases, ABORT and posts -/

/-- R153: while no pool is FILLING the host owns both. -/
theorem Logger.Sound.unowned {l : Logger} (h : l.Sound) (hf : l.filling = none) (p : PoolId) : (l.pool p).owner = .host := by
  have k : ¬ (l.poolA.owner = .part ∨ l.poolB.owner = .part) := fun e => by
    have := h.owned e; rw [hf] at this; cases this
  cases p
  · cases e : l.poolA.owner
    · exact absurd (Or.inl e) k
    · exact e
  · cases e : l.poolB.owner
    · exact absurd (Or.inr e) k
    · exact e

@[simp] theorem Logger.setPool_latch (l : Logger) (p : PoolId) (h : PoolHeader) : (l.setPool p h).latch = l.latch := by
  cases p <;> rfl

/-- R153: a pool released while no pool is FILLING is the FILLING one, and empty; the latch is to be taken out. -/
theorem Logger.Sound.refilled {l l' : Logger} (h : l.Sound) (hf : l.filling = none) (p : PoolId)
    (hp : l'.pool p = (l.pool p).released .filling) (ho : l'.pool (otherPool p) = l.pool (otherPool p)) (hl : l'.latch = none)
    (hr : l'.report = false) : l'.Sound ∧ l'.filling = some p ∧ (l'.pool p).used = 0 := by
  have hq := PoolHeader.isFilling_false (h.unowned hf (otherPool p))
  have ok := h.pool (otherPool p)
  have hn : ∀ r, l'.latch = some r → l'.filling = none ∧ r.Fits := fun r e => by rw [hl] at e; cases e
  have hrep : l'.report = true → l'.latch.isSome = true := fun e => by rw [hr] at e; cases e
  have hg : ((l.pool p).released .filling).isFilling = true := rfl
  have hok : ((l.pool p).released .filling).Ok := ⟨Nat.zero_le _, fun _ _ => rfl⟩
  cases p
  · have ha : l'.poolA = (l.pool .a).released .filling := hp
    have hb : l'.poolB = l.poolB := ho
    have fl : l'.filling = some .a := by unfold Logger.filling; rw [ha, if_pos hg]
    exact ⟨⟨ha ▸ hok, hb ▸ ok, fun e => by rw [hb] at e; exact absurd (e.2.symm.trans hq) (by decide), fun _ => by rw [fl]; rfl, hn, hrep⟩,
      fl, by rw [hp]; rfl⟩
  · have hb : l'.poolB = (l.pool .b).released .filling := hp
    have ha : l'.poolA = l.poolA := ho
    have hq' : l'.poolA.isFilling = false := by rw [ha]; exact hq
    have fl : l'.filling = some .b := by
      unfold Logger.filling
      rw [hq', hb, if_neg (by decide), if_pos hg]
    exact ⟨⟨ha ▸ ok, hb ▸ hok, fun e => by rw [hq'] at e; exact absurd e.1 (by decide), fun _ => by rw [fl]; rfl, hn, hrep⟩,
      fl, by rw [hp]; rfl⟩

/-- R153: a pool released beside a FILLING one is WAITING and empty. -/
theorem Logger.Sound.rested {l : Logger} (h : l.Sound) {f : PoolId} (hf : l.filling = some f) (p : PoolId)
    (ho : (l.pool p).owner = .host) : (l.setPool p ((l.pool p).released .waiting)).Sound := by
  have hp := PoolHeader.isFilling_false ho
  have hn : ((l.pool p).released .waiting).isFilling = false := rfl
  have hok : ((l.pool p).released .waiting).Ok := ⟨Nat.zero_le _, fun _ _ => rfl⟩
  have fl : (l.setPool p ((l.pool p).released .waiting)).filling = l.filling := by
    cases p
    · have hp' : l.poolA.isFilling = false := hp
      unfold Logger.filling
      simp only [Logger.setPool, hn, hp']
      rfl
    · have hp' : l.poolB.isFilling = false := hp
      unfold Logger.filling
      simp only [Logger.setPool, hn, hp']
  refine ⟨?_, ?_, ?_, fun _ => by rw [fl, hf]; rfl, fun r e => ?_, fun e => ?_⟩
  · cases p
    · exact hok
    · exact h.poolA
  · cases p
    · exact h.poolB
    · exact hok
  · cases p
    · exact fun e => absurd (hn.symm.trans e.1) (by decide)
    · exact fun e => absurd (hn.symm.trans e.2) (by decide)
  · rw [Logger.setPool_latch] at e; rw [fl]; exact h.latch r e
  · rw [Logger.setPool_report] at e; rw [Logger.setPool_latch]; exact h.report e

/-- The latch taken out of a Logger. -/
def Logger.unlatched (l : Logger) : Logger := { l with latch := none }

theorem State.refill_chan (s : State) (c d : Chan) (p : PoolId) (h : PoolHeader) :
    ((s.putHeader c p h).modLog c fun l => { l with latch := none }).chan d
      = if d = c then (s.chan c).withLog ((s.chan c).log.setPool p h).unlatched else s.chan d := by
  rw [State.modLog_chan, State.putHeader_chan, State.putHeader_chan, if_pos rfl]
  by_cases e : d = c
  · rw [if_pos e, if_pos e]; rfl
  · rw [if_neg e, if_neg e, if_neg e]

theorem State.refill_mem (s : State) (c : Chan) (p : PoolId) (h : PoolHeader) {a : Nat} (ha : HostArea a) :
    ((s.putHeader c p h).modLog c fun l => { l with latch := none }).store.read a = s.store.read a := by
  have e : ∀ t : State, (t.modLog c fun l => { l with latch := none }).store = t.store := fun _ => rfl
  rw [e]; exact State.putHeader_mem s c p h ha

theorem Logger.unlatched_report (l : Logger) (p : PoolId) (h : PoolHeader) : (l.setPool p h).unlatched.report = l.report := by
  cases p <;> rfl

theorem Logger.unlatched_pool (l : Logger) (p q : PoolId) (h : PoolHeader) :
    (l.setPool p h).unlatched.pool q = (l.setPool p h).pool q := by cases q <;> rfl

/-- R153, R156: a release taken while no report stands; what stood in the latch is placed in the pool that becomes FILLING. -/
theorem Logs.release (c : Chan) (p : PoolId) (hr : (s.chan c).log.report = false) : Logs none s (s.release c p) := by
  have h := Logs.refl none s
  unfold State.release
  dsimp only
  split
  · next ho =>
    split
    · next hf =>
      refine Logs.of fun o => ?_
      have s1log : ((s.putHeader c p (((s.chan c).log.pool p).released .filling)).chan c).log
          = (s.chan c).log.setPool p (((s.chan c).log.pool p).released .filling) := by
        rw [State.putHeader_chan, if_pos rfl]; rfl
      unfold State.writeOut
      rw [s1log, Logger.setPool_latch]
      cases hl : (s.chan c).log.latch with
      | none =>
        refine h.change c (fun d => State.putHeader_chan s c d p _) (fun _ => ?_) (fun _ _ _ => ?_)
          fun _ a ha => State.putHeader_mem _ _ _ _ ha
        · exact ((o c).refilled hf p (by simp) (Logger.pool_setPool_other _ _ _) (by simpa using hl) (by simpa using hr)).1
        · simpa using hr
      | some x =>
        dsimp only
        have k := (o c).refilled (l' := ((s.chan c).log.setPool p (((s.chan c).log.pool p).released .filling)).unlatched) hf p
          (by rw [Logger.unlatched_pool, Logger.pool_setPool]) (by rw [Logger.unlatched_pool, Logger.pool_setPool_other]) rfl
          (by rw [Logger.unlatched_report]; exact hr)
        have tc := fun d => State.refill_chan s c d p (((s.chan c).log.pool p).released .filling)
        have t1 := h.change c tc (fun _ => k.1) (fun _ _ _ => by rw [Logger.unlatched_report]; exact hr)
          fun _ a ha => State.refill_mem s c p _ ha
        have hx := ((o c).latch x hl).2
        have room : (((s.putHeader c p (((s.chan c).log.pool p).released .filling)).modLog c
            fun l => { l with latch := none }).chan c).log.Room p x := by
          rw [tc c, if_pos rfl, Channel.withLog_log]
          refine ⟨k.2.1, ?_⟩
          rw [k.2.2, Nat.zero_add]
          exact Record.need_le hx _
        exact (t1.placeIn c p x hx fun _ => room).leaveCause c _
    · next f hf =>
      exact h.change c (fun d => State.putHeader_chan s c d p _) (fun o => (o c).rested hf p ho) (fun _ _ e => by simpa using e)
        fun _ a ha => State.putHeader_mem _ _ _ _ ha
  · exact h.chansSame rfl fun _ _ => rfl

theorem Logs.abortPost (h : Logs none s₀ s) (c : Chan) : Logs none s₀ (s.abortPost c) := by
  have key : ∀ d, Logs none s₀ (if (s.chan d).st.inPlan then s.endPlan d .aborted else s.stray) := fun d => by
    split
    · exact (h.any _).endPlan _
    · exact h.stray
  exact key _

/-- R179: a post, whatever its code, taken while no report stands. -/
theorem Logs.takePost (code : Nat) (hr : ∀ d, (s.chan d).log.report = false) : Logs none s (s.takePost code) := by
  have h := Logs.refl none s
  unfold State.takePost
  split
  · exact h.stray
  · split
    · exact h.postSlot _
    · exact Logs.release _ _ (hr _)
    · exact h.abortPost _
    · exact h.stray

theorem requestHalf_length (k : ReqKind) (t : U32) (l : List Byte) (hl : l.length ≤ 0x100) :
    (requestHalf k t l).length ≤ 0x400 := by
  unfold requestHalf padTo requestHalfSize
  simp only [List.length_append, List.length_replicate, leBytes_length]
  omega

/-- Section 10.4: the host's exchange of a request with parameters that a half can hold, while no report stands. -/
theorem Logs.hostRequest (n : SlotIx) (k : ReqKind) (t : U32) (l : List Byte) (hl : l.length ≤ 0x100)
    (hr : ∀ d, (s.chan d).log.report = false) : Logs none s (s.hostRequest n k t l) :=
  ((Logs.refl none s).writeSlot _ _ (by have := slotBase_lt n; omega) (requestHalf_length k t l hl)).trans
    (Logs.takePost _ hr)

/-! ### Periods and response frames -/

theorem Logs.forChans {f : State → Chan → State} (hf : ∀ t c, Logs none t (f t c)) (h : Logs none s₀ s) (l : List Chan) :
    Logs none s₀ (s.forChans f l) := by
  induction l generalizing s with
  | nil => exact h
  | cons c cs ih => exact ih (h.trans (hf s c))

theorem Logs.completeBringUp (h : Logs none s₀ s) (c : Chan) (q : Response) (f : FrameRecord) :
    Logs none s₀ (s.completeBringUp c q f) := by
  unfold State.completeBringUp
  dsimp only
  refine Logs.complete (Logs.moveTo (Logs.heard (Logs.modChan ?_ c _ rfl rfl rfl) c) c _ (by decide)) _ _ (.plain _)
  exact h.modLink c _

theorem Logs.responseFrame (h : Logs none s₀ s) (c : Chan) (frame : BitVec 96) (e : Bool) :
    Logs none s₀ (s.responseFrame c frame e) := by
  have kv : ∀ (t : State) q f, Logs none s₀ t → Logs none s₀ (t.validResponse c q f e) := fun t q f ht => by
    unfold State.validResponse
    split
    · split
      · exact ht.completeBringUp c q f
      · exact ht
    · exact ht.validReport c q f e
  unfold State.responseFrame
  dsimp only
  split
  · exact h.modLink c _
  · exact kv _ _ _ (h.modLink c _)
  · exact h

theorem Logs.linkHoldExpire (h : Logs none s₀ s) (c : Chan) : Logs none s₀ (s.linkHoldExpire c) := by
  unfold State.linkHoldExpire
  split
  · exact h.tripHeld c _
  · exact h

theorem Logs.intervalExpire (h : Logs none s₀ s) : Logs none s₀ s.intervalExpire := by
  unfold State.intervalExpire
  split
  · exact (h.modArb _).evaluate
  · exact h

theorem Logs.takeDue (h : Logs none s₀ s) : Logs none s₀ s.takeDue :=
  Logs.forChans (fun t c => (Logs.refl none t).linkHoldExpire c) h.intervalExpire _

theorem Logs.handleMissed (h : Logs none s₀ s) (old : State) (sched : Schedule) (c : Chan) :
    Logs none s₀ (State.handleMissed old sched s c) := by
  unfold State.handleMissed
  dsimp only
  split
  · split
    · exact h.missedPair _ _
    · exact h
  · split
    · exact h.handle c _ _
    · exact h

theorem Logs.endPeriods (h : Logs none s₀ s) (sched : Schedule) : Logs none s₀ (s.endPeriods sched) := by
  unfold State.endPeriods
  refine Logs.forChans (fun t c => (Logs.refl none t).handleMissed _ _ c) ?_ _
  refine Logs.forChans (fun t c => ?_) ?_ _
  · split
    · exact (Logs.refl none t).missedReport c
    · exact Logs.refl none t
  · refine Logs.forChans (fun t c => ?_) h _
    split
    · exact (Logs.refl none t).endBringUp c
    · exact Logs.refl none t

theorem Logs.tickTimers (h : Logs none s₀ s) : Logs none s₀ s.tickTimers := by
  have e : ∀ d, s.tickTimers.chan d = (s.chan d).tick := fun d => by simp [State.chan, State.tickTimers]
  exact h.same (fun d => by rw [e d]; rfl) (fun d k => by rw [e d] at k ⊢; exact ⟨k, rfl⟩) fun _ _ => rfl

theorem Logs.sendFrames (h : Logs none s₀ s) (early : State) (b : BitVec 16) : Logs none s₀ (s.sendFrames early b) := by
  unfold State.sendFrames
  refine Logs.forChans (fun t c => ?_) h _
  split
  · exact Logs.refl none t
  · unfold State.sendFrame
    split
    · exact (Logs.refl none t).modLink c _
    · exact (Logs.refl none t).modLink c _
    · exact Logs.refl none t

/-- R164: an expiry of the sample timer keeps the pools sound. -/
theorem Logs.expire (h : Logs none s₀ s) (sched : Schedule) : Logs none s₀ (s.expire sched) := by
  have k := ((h.takeDue).endPeriods sched).tickTimers
  unfold State.expire
  dsimp only
  generalize (s.takeDue.endPeriods sched).tickTimers = s1 at k ⊢
  have k1 : Logs none s₀ { s1 with sampleIndex := s1.sampleIndex + 1 } := k.chansSame rfl fun _ _ => rfl
  exact k1.sendFrames _ _

theorem Logs.externalStop (h : Logs none s₀ s) (c : Chan) : Logs none s₀ (s.externalStop c) := by
  unfold State.externalStop
  dsimp only
  split
  · exact h.laterFault c _ _ _ _
  · exact h.tripHeld c _

theorem Logs.arbiterEdge (h : Logs none s₀ s) (b : Bool) : Logs none s₀ (s.arbiterEdge b) := by
  have k := h.modArb fun a => { a with linkUp := true }
  unfold State.arbiterEdge
  dsimp only
  split
  · split
    · exact k.evaluate
    · exact k.modArb _
  · exact h.modArb _

theorem Logs.contactFail (h : Logs none s₀ s) (c : Chan) : Logs none s₀ (s.contactFail c) := by
  unfold State.contactFail
  split
  · split
    · exact h.tripHeld c _
    · exact h
  · exact h

theorem Logs.advanceTouched (h : Logs none s₀ s) (l : List Nat) (n : Nat) : Logs none s₀ (s.advanceTouched l n) := by
  unfold State.advanceTouched
  refine Logs.forChans (fun t c => ?_) h _
  split
  · exact (Logs.refl none t).advanceLoad c n
  · exact Logs.refl none t

theorem Channel.chopEnd_same (ch : Channel) : ch.chopEnd.log = ch.log ∧ ch.chopEnd.st = ch.st ∧ ch.chopEnd.hold = ch.hold := by
  unfold Channel.chopEnd
  repeat' split
  all_goals first | exact ch.endChop_same | exact ⟨rfl, rfl, rfl⟩

theorem Channel.blankingEnd_same (ch : Channel) :
    ch.blankingEnd.log = ch.log ∧ ch.blankingEnd.st = ch.st ∧ ch.blankingEnd.hold = ch.hold := by
  unfold Channel.blankingEnd
  repeat' split
  all_goals first | exact ch.blankingExpiry_same _ | exact ⟨rfl, rfl, rfl⟩

theorem Channel.windowEnd_same (ch : Channel) : ch.windowEnd.log = ch.log ∧ ch.windowEnd.st = ch.st ∧ ch.windowEnd.hold = ch.hold := by
  unfold Channel.windowEnd
  repeat' split
  all_goals exact ⟨rfl, rfl, rfl⟩

theorem State.hostBytes_chans (l : List Byte) (s : State) (a : Nat) (b : Bool) : (s.hostBytes a b l).chans = s.chans := by
  induction l generalizing s a with
  | nil => rfl
  | cons v vs ih =>
    refine (ih _ _).trans ?_
    unfold State.hostByte
    split <;> rfl

/-- A Logger after either reset is sound. -/
theorem Logger.reset_ok : Logger.reset.Ok :=
  ⟨⟨by decide, by decide⟩, ⟨by decide, by decide⟩, by decide, by decide, by simp [Logger.reset], by simp [Logger.reset]⟩

end Sys2Proof.Machine
end

