-- ==== Sys2Proof/Laws/PerInstr.lean ====
section
/-!
SUPPORT. Laws said of every command as syntax. RequestCodes: a command that is a request names its slot and its kind, and the kind's
code reads back as that kind in the catalogue of that slot (R183, 11 section 11.3).
-/

namespace Sys2Proof.Laws

open Sys2Proof.Machine

/-- The slot and the kind of a request row; none for a row that is no request. -/
def requestOf : Instr → Option (SlotIx × ReqKind)
  | .enable c _ => some (chanSlot c, .enable)
  | .disable c _ => some (chanSlot c, .disable)
  | .loadPlan c _ => some (chanSlot c, .loadPlan)
  | .start c _ => some (chanSlot c, .start)
  | .pause c _ => some (chanSlot c, .pause)
  | .resume c _ => some (chanSlot c, .resume)
  | .stop c _ => some (chanSlot c, .stop)
  | .faultAck c _ => some (chanSlot c, .faultAck)
  | .setLimits c _ _ => some (chanSlot c, .setLimits)
  | .setCal c _ _ _ _ _ _ _ => some (chanSlot c, .setCal)
  | .setWatch c _ _ _ _ _ _ => some (chanSlot c, .setWatch)
  | .clearWatch c _ _ => some (chanSlot c, .clearWatch)
  | .jump c _ _ => some (chanSlot c, .jump)
  | .flush c _ => some (chanSlot c, .flush)
  | .status c _ _ => some (chanSlot c, .status)
  | .counters c _ _ => some (chanSlot c, .counters)
  | .setLink _ _ _ _ => some (deviceSlot, .setLink)
  | .setPair _ _ _ => some (deviceSlot, .setPair)
  | .deviceCounters _ _ => some (deviceSlot, .deviceCounters)
  | _ => none

/-- The request of a kind code in the catalogue of a slot (R183). -/
def kindOf (n : SlotIx) (code : Nat) : Option ReqKind :=
  match slotChan n with
  | some _ => ReqKind.ofChannelCode code
  | none => ReqKind.ofDeviceCode code

/-- A request's kind code reads back as its kind in its slot. -/
def RequestCodes.Statement (i : Instr) : Prop := ∀ n k, requestOf i = some (n, k) → kindOf n k.code = some k

theorem kindOf_chan (c : Chan) (code : Nat) : kindOf (chanSlot c) code = ReqKind.ofChannelCode code := by
  simp [kindOf, slotChan, chanSlot]

theorem kindOf_device (code : Nat) : kindOf deviceSlot code = ReqKind.ofDeviceCode code := rfl

theorem requestCodes_of_none {i : Instr} (h : requestOf i = none) : RequestCodes.Statement i := by
  intro n k e; rw [h] at e; cases e

theorem requestCodes_of_chan {i : Instr} {c : Chan} {k : ReqKind} (h : requestOf i = some (chanSlot c, k))
    (hk : ReqKind.ofChannelCode k.code = some k) : RequestCodes.Statement i := by
  intro n j e; rw [h] at e; cases e; rw [kindOf_chan]; exact hk

theorem requestCodes_of_device {i : Instr} {k : ReqKind} (h : requestOf i = some (deviceSlot, k))
    (hk : ReqKind.ofDeviceCode k.code = some k) : RequestCodes.Statement i := by
  intro n j e; rw [h] at e; cases e; exact hk

theorem RequestCodes.powerOnReset (stopAll linkOk : Bool) : RequestCodes.Statement (.powerOnReset stopAll linkOk) :=
  requestCodes_of_none rfl

theorem RequestCodes.initialisationComplete : RequestCodes.Statement .initialisationComplete :=
  requestCodes_of_none rfl

theorem RequestCodes.softReset (value : U32) : RequestCodes.Statement (.softReset value) :=
  requestCodes_of_none rfl

theorem RequestCodes.attnEnableWrite (value : U32) : RequestCodes.Statement (.attnEnableWrite value) :=
  requestCodes_of_none rfl

theorem RequestCodes.attentionClear (value : U32) : RequestCodes.Statement (.attentionClear value) :=
  requestCodes_of_none rfl

theorem RequestCodes.paceWrite (value : U32) : RequestCodes.Statement (.paceWrite value) :=
  requestCodes_of_none rfl

theorem RequestCodes.registerWriteOther (offset : Nat) (bytes : List Byte) (timing : HostTiming) :
    RequestCodes.Statement (.registerWriteOther offset bytes timing) :=
  requestCodes_of_none rfl

theorem RequestCodes.slotPost (slot : SlotIx) : RequestCodes.Statement (.slotPost slot) :=
  requestCodes_of_none rfl

theorem RequestCodes.strayPost (code : U32) : RequestCodes.Statement (.strayPost code) :=
  requestCodes_of_none rfl

theorem RequestCodes.poolRelease (c : Chan) (p : PoolId) : RequestCodes.Statement (.poolRelease c p) :=
  requestCodes_of_none rfl

theorem RequestCodes.abort (c : Chan) : RequestCodes.Statement (.abort c) :=
  requestCodes_of_none rfl

theorem RequestCodes.enable (c : Chan) (tag : U32) : RequestCodes.Statement (.enable c tag) :=
  requestCodes_of_chan rfl rfl

theorem RequestCodes.disable (c : Chan) (tag : U32) : RequestCodes.Statement (.disable c tag) :=
  requestCodes_of_chan rfl rfl

theorem RequestCodes.loadPlan (c : Chan) (tag : U32) : RequestCodes.Statement (.loadPlan c tag) :=
  requestCodes_of_chan rfl rfl

theorem RequestCodes.loadCompletion (c : Chan) : RequestCodes.Statement (.loadCompletion c) :=
  requestCodes_of_none rfl

theorem RequestCodes.start (c : Chan) (tag : U32) : RequestCodes.Statement (.start c tag) :=
  requestCodes_of_chan rfl rfl

theorem RequestCodes.pause (c : Chan) (tag : U32) : RequestCodes.Statement (.pause c tag) :=
  requestCodes_of_chan rfl rfl

theorem RequestCodes.resume (c : Chan) (tag : U32) : RequestCodes.Statement (.resume c tag) :=
  requestCodes_of_chan rfl rfl

theorem RequestCodes.stop (c : Chan) (tag : U32) : RequestCodes.Statement (.stop c tag) :=
  requestCodes_of_chan rfl rfl

theorem RequestCodes.faultAck (c : Chan) (tag : U32) : RequestCodes.Statement (.faultAck c tag) :=
  requestCodes_of_chan rfl rfl

theorem RequestCodes.setLimits (c : Chan) (tag : U32) (limits : LimitWords) :
    RequestCodes.Statement (.setLimits c tag limits) :=
  requestCodes_of_chan rfl rfl

theorem RequestCodes.setCal (c : Chan) (tag : U32) (record mode learnRequest : Byte) (offset gain learnLimit : U32) :
    RequestCodes.Statement (.setCal c tag record mode learnRequest offset gain learnLimit) :=
  requestCodes_of_chan rfl rfl

theorem RequestCodes.setWatch (c : Chan) (tag : U32) (index quantity direction mode : Byte) (threshold : U32) :
    RequestCodes.Statement (.setWatch c tag index quantity direction mode threshold) :=
  requestCodes_of_chan rfl rfl

theorem RequestCodes.clearWatch (c : Chan) (tag : U32) (index : Byte) : RequestCodes.Statement (.clearWatch c tag index) :=
  requestCodes_of_chan rfl rfl

theorem RequestCodes.jump (c : Chan) (tag : U32) (step : Byte) : RequestCodes.Statement (.jump c tag step) :=
  requestCodes_of_chan rfl rfl

theorem RequestCodes.flush (c : Chan) (tag : U32) : RequestCodes.Statement (.flush c tag) :=
  requestCodes_of_chan rfl rfl

theorem RequestCodes.status (c : Chan) (tag : U32) (sect : Byte) : RequestCodes.Statement (.status c tag sect) :=
  requestCodes_of_chan rfl rfl

theorem RequestCodes.counters (c : Chan) (tag : U32) (clear : Byte) : RequestCodes.Statement (.counters c tag clear) :=
  requestCodes_of_chan rfl rfl

theorem RequestCodes.setLink (tag : U32) (importLimit exportLimit interval : U32) :
    RequestCodes.Statement (.setLink tag importLimit exportLimit interval) :=
  requestCodes_of_device rfl rfl

theorem RequestCodes.setPair (tag : U32) (pair setting : Byte) : RequestCodes.Statement (.setPair tag pair setting) :=
  requestCodes_of_device rfl rfl

theorem RequestCodes.deviceCounters (tag : U32) (clear : Byte) : RequestCodes.Statement (.deviceCounters tag clear) :=
  requestCodes_of_device rfl rfl

theorem RequestCodes.sampleTimerExpiry (sched : Schedule) : RequestCodes.Statement (.sampleTimerExpiry sched) :=
  requestCodes_of_none rfl

theorem RequestCodes.bringUpLimit (c : Chan) : RequestCodes.Statement (.bringUpLimit c) :=
  requestCodes_of_none rfl

theorem RequestCodes.responseFrame (c : Chan) (frame : BitVec 96) (evalLate : Bool) :
    RequestCodes.Statement (.responseFrame c frame evalLate) :=
  requestCodes_of_none rfl

theorem RequestCodes.chopEnd (c : Chan) : RequestCodes.Statement (.chopEnd c) :=
  requestCodes_of_none rfl

theorem RequestCodes.blankingExpiry (c : Chan) : RequestCodes.Statement (.blankingExpiry c) :=
  requestCodes_of_none rfl

theorem RequestCodes.softWindowExpiry (c : Chan) : RequestCodes.Statement (.softWindowExpiry c) :=
  requestCodes_of_none rfl

theorem RequestCodes.contactCheckFail (c : Chan) : RequestCodes.Statement (.contactCheckFail c) :=
  requestCodes_of_none rfl

theorem RequestCodes.linkHoldExpiry (c : Chan) : RequestCodes.Statement (.linkHoldExpiry c) :=
  requestCodes_of_none rfl

theorem RequestCodes.stopAllAssert : RequestCodes.Statement .stopAllAssert :=
  requestCodes_of_none rfl

theorem RequestCodes.stopAllRelease : RequestCodes.Statement .stopAllRelease :=
  requestCodes_of_none rfl

theorem RequestCodes.linkOkFall : RequestCodes.Statement .linkOkFall :=
  requestCodes_of_none rfl

theorem RequestCodes.linkOkRise : RequestCodes.Statement .linkOkRise :=
  requestCodes_of_none rfl

theorem RequestCodes.arbiterLinkEdge (rising : Bool) : RequestCodes.Statement (.arbiterLinkEdge rising) :=
  requestCodes_of_none rfl

theorem RequestCodes.intervalTimerExpiry : RequestCodes.Statement .intervalTimerExpiry :=
  requestCodes_of_none rfl

theorem RequestCodes.paceTimerExpiry : RequestCodes.Statement .paceTimerExpiry :=
  requestCodes_of_none rfl

end Sys2Proof.Laws
end

