-- ==== Sys2Proof/Tests/Slice0.lean ====
section
/-!
SUPPORT. Tests: the well-formedness check refuses an ill-formed command at each of its checks; figures of the spec's own text; and, for
every statement with hypotheses, a state and operands that meet them together.
-/

namespace Sys2Proof.Tests

open Sys2Proof.Machine

/-! ### Well-formedness -/

theorem test_softReset_wellFormed : WellFormed (.softReset 1) = true := by decide
theorem test_softReset_without_bit0_illFormed : WellFormed (.softReset 2) = false := by decide
theorem test_attnEnableWrite_wellFormed : WellFormed (.attnEnableWrite 2) = true := by decide
theorem test_attnEnableWrite_with_bit0_illFormed : WellFormed (.attnEnableWrite 3) = false := by decide
theorem test_registerWriteOther_wellFormed : WellFormed (.registerWriteOther 0x1FFFFE [1, 2] ⟨0, false⟩) = true := by decide
theorem test_registerWriteOther_past_the_window_illFormed :
    WellFormed (.registerWriteOther 0x1FFFFF [1, 2] ⟨0, false⟩) = false := by decide
theorem test_registerWriteOther_at_POST_illFormed : WellFormed (.registerWriteOther 0x0B [0, 0] ⟨0, false⟩) = false := by decide
theorem test_registerWriteOther_at_IDENT_wellFormed :
    WellFormed (.registerWriteOther 0x00 [1, 2, 3, 4] ⟨0, false⟩) = true := by decide

/-- Log 40: no word spells a command. -/
theorem test_no_word_decodes : decodeTableWord 32 0 = none := rfl

/-! ### Figures of the spec -/

/-- R84: an error of −3 mV at L2 with Kb 512 gives −0.75, which rounds to −1. -/
theorem test_increment_rounds_away : increment (-3) 512 2 = -1 := by decide

/-- R123: shares of −900,001 mA. -/
theorem test_shares : followerShare (-900001) = -450000 ∧ leaderShare (-900001) = -450001 := by decide

/-- R68: the largest product carries 1,200,000 mJ. -/
theorem test_largest_product : (Acc.zero.add 1000000 1200000).enIn = 1200000 := by decide

/-- R126: a marked voltage of the follower marks the pair's. -/
theorem test_follower_voltage_marks_the_pair :
    (formPairHeld ⟨0, 0, 0, 0, 0, false, false, false, false⟩ ⟨0, 0, 0, 0, 0, true, false, false, false⟩).clamp = true := rfl

/-- R74, R92: a missed sample in a REST step reduces an integrator kept from a CCCV step to the derated limit. -/
theorem test_missed_sample_bounds_a_kept_integrator :
    (({ Channel.reset with
        active := some ⟨⟨0, .drop, false, false, .nextStart, .sevenLevel, 5, 2, 6, 3, 512, 2000, 0, 77⟩, [⟨.rest, false, false, false, 1, [], none⟩]⟩
        limits := some ⟨860000, 560000, 320000, 260000, 20, 1000, 2, 100, 600, 450, 2000, 50000, 300000, 600000, 870000, 100, 10, 30, .onRequest, 1, 1000⟩
        reg := { Regulator.reset with integ := 300000 } } : Channel).bound 700000 500 .full).reg.integ = 200000 := by decide

/-- R46: a LOOP step of count 1 runs its body once. -/
theorem test_loop_of_one : arrive [] 3 0 1 = ([], 4) := by decide

/-- R46: a LOOP step of count 3 runs its body three times. -/
theorem test_loop_of_three :
    arrive [] 3 0 3 = ([(3, 1)], 0) ∧ arrive [(3, 1)] 3 0 3 = ([(3, 0)], 0) ∧ arrive [(3, 0)] 3 0 3 = ([], 4) := by decide

/-- R44: the retention of 4,750 µC against 5,000 µC. -/
theorem test_retention : retentionOf 4750 5000 = 950 := by decide

/-- R179: the last and first codes of each range of posts. -/
theorem test_post_codes : postOf 16 = .slot 16 ∧ postOf 17 = .stray ∧ postOf 32 = .release 0 .a ∧ postOf 63 = .release 15 .b ∧
    postOf 64 = .abort 0 ∧ postOf 79 = .abort 15 ∧ postOf 80 = .stray := by decide

/-- R182: a frame of index 1 carrying nothing has an even number of ones. -/
theorem test_probe_parity : oddOnes 64 (FrameRecord.encode ⟨1, .probe, false, 0, 0⟩).toNat = false := by decide +kernel

/-- R177: the initialisation makes the phase READY. -/
theorem test_initialisation : ∃ t, exec .initialisationComplete State.reset = .next t ∧ t.phase = .ready := ⟨_, rfl, rfl⟩

/-! ### States that meet the statements' hypotheses -/

/-- READY, with nothing else changed since power-on. -/
def ready : State := { State.reset with phase := .ready, timerRunning := true }

/-- READY, with channel 4 changed. -/
def with4 (f : Channel → Channel) : State := ready.modChan 4 f

/-- READY, with channel 4 in a state. -/
def in4 (st : ChState) : State := with4 fun ch => { ch with st := st }

/-- A REST step. -/
def restStep : Step := ⟨.rest, false, false, false, 1, [⟨.stepTime, .atLeast, 1, .next, 10, 0⟩], none⟩

/-- A CC step. -/
def ccStep : Step := { restStep with body := .cc 1000 }

/-- A plan of three steps, the last a LOOP step. -/
def plan : Plan :=
  ⟨⟨0, .drop, false, false, .nextStart, .sevenLevel, 5, 2, 6, 3, 512, 2000, 0, 77⟩,
    [ccStep, restStep, ⟨.loop 0 2, false, false, false, 0, [], none⟩]⟩

/-- A limit set that R96 accepts. -/
def limits : LimitSet :=
  ⟨860000, 560000, 320000, 260000, 20, 1000, 2, 100, 600, 450, 2000, 50000, 300000, 600000, 870000, 100, 10, 30, .onRequest, 1, 1000⟩

/-- The words of that limit set. -/
def limitWords : LimitWords :=
  ⟨860000, 560000, 320000, 260000, 20, 1000, 2, 100, 600, 450, 2000, 50000, 300000, 600000, 870000, 100, 10, 30, 0, 1, 1000⟩

/-- Channel 4 RUNNING the plan. -/
def running4 : State := with4 fun ch =>
  { ch with st := .running, active := some plan, stepEntered := true, limits := some limits, limitsLoaded := true }

theorem poolHeader_reset_ok (side : PartSide) : (PoolHeader.reset side).Ok := ⟨by cases side <;> decide, fun _ _ => rfl⟩

theorem logger_reset_ok : Logger.reset.Ok :=
  ⟨poolHeader_reset_ok _, poolHeader_reset_ok _, by decide, fun _ => rfl, (fun _ h => by cases h), rfl⟩

theorem limits_ok : limits.Ok := by constructor <;> decide

theorem channel_reset_ok : Channel.reset.Ok :=
  ⟨fun h => absurd rfl h, .zero, .zero, .zero, by decide, by decide, by decide, by decide, by decide, (fun _ h => by cases h),
    rfl⟩

theorem chan_replicate (c : Chan) : (Vector.replicate 16 Channel.reset)[c] = Channel.reset := by simp

theorem ready_chan (c : Chan) : ready.chan c = Channel.reset := chan_replicate c

/-- The state READY is sound. -/
theorem ready_ok : ready.Ok where
  store := rfl
  chans := fun c => by rw [ready_chan]; exact channel_reset_ok
  wanted := fun c => by
    have : ready.arb.wanted[c] = ⟨.none, 0⟩ := by simp [ready, State.reset, State.powerOn, Arbiter.reset]
    rw [this]; exact ⟨fun _ => rfl, fun _ => rfl⟩
  paceTime := by decide
  timer := ⟨fun _ => rfl, fun _ => rfl⟩

/-- The pools of READY are sound. -/
theorem ready_logsOk : ready.LogsOk :=
  ⟨fun c => by rw [ready_chan]; exact logger_reset_ok, fun c h => by rw [ready_chan] at h; cases h⟩

theorem slotFree_ready (n : SlotIx) : SlotFree ready n := ⟨rfl, by simp [ready, State.slot, State.reset, State.powerOn]⟩

theorem slotFree_with4 (f : Channel → Channel) (n : SlotIx) : SlotFree (with4 f) n := ⟨rfl, (slotFree_ready n).slot⟩

theorem with4_chan (f : Channel → Channel) : (with4 f).chan 4 = f Channel.reset := by
  unfold with4; rw [State.chan_modChan, if_pos rfl, ready_chan]

theorem with4_log (f : Channel → Channel) (h : (f Channel.reset).log = .reset) : ((with4 f).chan 4).log.Ok := by
  rw [with4_chan, h]; exact logger_reset_ok

/-- Channel 4 as `with4` makes it, its pools sound: what most statements about a request ask. -/
theorem with4_log' (f : Channel → Channel) (h : (f Channel.reset).log = .reset) :
    SlotFree (with4 f) (chanSlot 4) ∧ ((with4 f).chan 4).log.Ok := ⟨slotFree_with4 f _, with4_log f h⟩

/-- READY with a PAUSE posted in slot 4. -/
def posted4 : State := ready.writeStore (Config.slotBase 4) (requestHalf .pause 7 [])

/-- READY with a request executing in slot 4. -/
def executing4 (f : Channel → Channel) : State :=
  ((with4 f).modSlot 4 fun _ => ⟨some (requestHalf .loadPlan 7 []), false⟩).putStateField 4 stateTaken

/-- READY with link 4 changed. -/
def link4 (f : Link → Link) (g : Channel → Channel) : State := (with4 g).modLink 4 f

/-- A link in service, its frame of index 1 not yet answered. -/
def inService (l : Link) : Link := { l with state := .inService, frame := some ⟨1, .demand, false, 0, 0⟩ }

/-- A link in bring-up, its PROBE of index 1 not yet answered. -/
def probing (l : Link) : Link := { l with state := .bringUp, frame := some ⟨1, .probe, false, 0, 0⟩ }

/-- A response frame of the given kind to the frame of index 1, with a voltage code and status bits, of even parity. -/
def answer (kind v status : Nat) : BitVec 96 :=
  let b := kind + 2 ^ 4 + v * 2 ^ 12 + status * 2 ^ 72
  BitVec.ofNat 96 (b + bit (oddOnes 95 b) * 2 ^ 95)

/-! ### Witnesses -/

theorem witness_StepRunsTheFrontCommand : ({ ready with pending := [.stopAllAssert] } : State).pending = .stopAllAssert :: [] := rfl

theorem witness_AnEmptyQueueCountsTenMicroseconds :
    let s : State := { ready with notices := { ready.notices with pace := some 99 } }
    s.pending = [] ∧ s.arb.intervalDue = false ∧ (∀ c, ((s.chan c).linkHold.running && (s.chan c).linkHold.due) = false) ∧
      s.notices.pace = some 99 ∧ ready.notices.pace = none :=
  ⟨rfl, rfl, fun c => by
    show ((ready.chan c).linkHold.running && _) = _
    rw [ready_chan]; rfl, rfl, rfl⟩

theorem witness_StepKeepsTheStateSound : ready.Ok ∧ ∃ t, step ready = .next t := ⟨ready_ok, _, rfl⟩

theorem witness_StepKeepsThePoolsSound : ready.LogsOk ∧ ∃ t, step ready = .next t := ⟨ready_logsOk, _, rfl⟩

theorem witness_PlanAreasAndFreeAreaAreTheHosts : ready.LogsOk ∧ (∀ a b, Instr.abort 4 ≠ .powerOnReset a b) ∧
    (∀ o l w, Instr.abort 4 ≠ .registerWriteOther o l w) ∧ ∃ t, exec (.abort 4) ready = .next t :=
  ⟨ready_logsOk, by simp, by simp, _, rfl⟩

/-- READY with link 4 in service. -/
def serving : State := ready.modLink 4 inService

theorem witness_FramesDriveOnlyWhileRunning : serving.Ok ∧ serving.timerRunning = true ∧ (serving.link 4).state = .inService :=
  ⟨⟨ready_ok.store, ready_ok.chans, ready_ok.wanted, ready_ok.paceTime, ready_ok.timer⟩, rfl, rfl⟩

theorem witness_InitialisationCompleteBringsReady :
    State.reset.phase = .starting ∧ State.reset.initKept = [] ∧ ready.phase = .ready := ⟨rfl, rfl, rfl⟩

theorem witness_SoftResetKeepsCalibrationAndLifetime : (1 : U32).getLsbD 0 = true := by decide

theorem witness_ControlAndAttentionWrites : (2 : U32).getLsbD 0 = false := by decide

/-- Writes below the store, across its first byte, within it and up to its last byte; offsets at the edges of the read ranges. -/
theorem witness_TheWindowReadsAndWritesAsLaidOut :
    ready.Ok ∧ ready.phase = .ready ∧ WellFormed (.registerWriteOther 0x018 [1] ⟨0, false⟩) = true ∧
      0x018 + ([1] : List Byte).length ≤ 0x100000 ∧ WellFormed (.registerWriteOther 0xFFFFE [1, 2, 3, 4] ⟨0, false⟩) = true ∧
      0xFFFFE ≤ 0x100000 + 1 ∧ 0x100000 + 1 < 0xFFFFE + ([1, 2, 3, 4] : List Byte).length ∧
      WellFormed (.registerWriteOther 0x1FFFFE [1, 2] ⟨0, false⟩) = true ∧
      0x100000 + 0xFFFFF < 0x1FFFFE + ([1, 2] : List Byte).length ∧ (0x18 ≤ 0x18 ∧ 0xFFFFF < 0x100000) ∧
      (ready.chan 4).load = none :=
  ⟨ready_ok, rfl, by decide, by decide, by decide, by decide, by decide, by decide, by decide, by decide, by rw [ready_chan]; rfl⟩

theorem witness_SlotPostTakesAPostedRequest_stray : SlotFree ready 4 ∧ ready.stateField 4 ≠ statePosted :=
  ⟨slotFree_ready _, by decide⟩

theorem posted4_slot : posted4.slot 4 = ⟨none, false⟩ := by
  rw [posted4, State.slot, State.writeStore_slots]; exact (slotFree_ready 4).slot

theorem witness_SlotPostTakesAPostedRequest_taken : SlotFree posted4 4 ∧ posted4.stateField 4 = statePosted :=
  ⟨⟨by rw [posted4, State.writeStore_phase]; rfl, posted4_slot⟩, by decide +kernel⟩

/-- READY with a kind code posted in slot n. -/
def postedKind (n : SlotIx) (code : Nat) : State :=
  ready.writeStore (Config.slotBase n) (leBytes 4 statePosted ++ leBytes 2 code ++ leBytes 2 0 ++ leBytes 4 7)

theorem slotFree_postedKind (n : SlotIx) (code : Nat) : SlotFree (postedKind n code) n :=
  ⟨by rw [postedKind, State.writeStore_phase]; rfl, by
    rw [postedKind, State.slot, State.writeStore_slots]; exact (slotFree_ready n).slot⟩

/-- The kind codes on either side of a channel slot's and of the device slot's. -/
theorem witness_SlotPostTakesAPostedRequest_unknown :
    let kind := fun (n : SlotIx) (code : Nat) => reqKindCode ((postedKind n code).store.readBytes (Config.slotBase n) 128)
    (postedKind (chanSlot 4) 17).stateField (chanSlot 4) = statePosted ∧ kind (chanSlot 4) 17 = 17 ∧ kind (chanSlot 4) 0 = 0 ∧
      (postedKind deviceSlot 35).stateField deviceSlot = statePosted ∧ kind deviceSlot 35 = 35 ∧ kind deviceSlot 31 = 31 := by
  decide +kernel

/-- R183: a channel request posted in the device slot is answered UNKNOWN_REQUEST, with its kind code as detail. -/
theorem test_a_channel_kind_in_the_device_slot :
    ((postedKind deviceSlot 5).postSlot deviceSlot).store.readBytes (responseBase deviceSlot) 384 =
      Reply.half ⟨.unknownRequest, [5, 0], []⟩ 7 5 := by decide +kernel

theorem witness_PostsOfAnOccupiedSlotArePending :
    let s := (executing4 id).modSlot 4 fun sl => { sl with pendingPost := true }
    s.phase = .ready ∧ (s.slot 4).latch.isSome = true ∧ (s.slot 4).pendingPost = true := ⟨rfl, rfl, rfl⟩

theorem witness_CompletionWritesTheResponse :
    ((executing4 id).slot (chanSlot 4)).latch = some (requestHalf .loadPlan 7 []) ∧ (Reply.plain .done).payload.length ≤ 364 ∧
      (Reply.plain .done).detail.length ≤ 8 := ⟨rfl, by decide, by decide⟩

theorem witness_PostCodesDecode :
    State.reset.phase = .starting ∧ 17 ≤ (17 : U32).toNat ∧ (17 : U32).toNat < 32 ∧ 17 ≤ (31 : U32).toNat ∧
      (31 : U32).toNat < 32 ∧ 80 ≤ (80 : U32).toNat := by decide

theorem witness_PoolReleaseReturnsThePool_stray : ready.phase = .ready ∧ ((ready.chan 4).log.pool .a).owner = .part := by
  rw [ready_chan]; exact ⟨rfl, rfl⟩

/-- Pool A of the host, pool B of the part. -/
def hostA (ch : Channel) : Channel :=
  { ch with log := { ch.log with poolA := { ch.log.poolA with owner := .host }, poolB := { ch.log.poolB with side := .filling } } }

theorem witness_PoolReleaseReturnsThePool_returned :
    (with4 hostA).phase = .ready ∧ (((with4 hostA).chan 4).log.pool .a).owner = .host ∧
      ((with4 hostA).chan 4).log.latch = none := by
  rw [with4_chan]; exact ⟨rfl, rfl, rfl⟩

/-- Both pools of the host, and a record held. -/
def heldRecord (ch : Channel) : Channel :=
  { ch with
    st := .held
    hold := ⟨true, false⟩
    log := { ch.log with
      poolA := { ch.log.poolA with owner := .host }
      poolB := { ch.log.poolB with owner := .host }
      latch := some ⟨.sample, 5, 1, List.replicate 32 0⟩ } }

theorem heldRecord_ok : (heldRecord Channel.reset).log.Ok :=
  ⟨⟨by decide, fun h => by cases h⟩, ⟨by decide, fun h => by cases h⟩, by decide, (fun h => by rcases h with h | h <;> cases h),
    (fun r h => by cases h; exact ⟨rfl, Or.inl rfl, rfl⟩), rfl⟩

theorem witness_PoolReleaseReturnsThePool_held :
    (with4 heldRecord).phase = .ready ∧ ((with4 heldRecord).chan 4).log.Ok ∧
      (((with4 heldRecord).chan 4).log.pool .b).owner = .host ∧
      ((with4 heldRecord).chan 4).log.latch = some ⟨.sample, 5, 1, List.replicate 32 0⟩ := by
  rw [with4_chan]; exact ⟨rfl, heldRecord_ok, rfl, rfl⟩

/-- The held record behind a loss of two records from number 6 on: the release writes the GAP before it and the RELEASE after it. -/
theorem witness_PoolReleaseReturnsThePool_held_after_a_loss :
    let ch := heldRecord Channel.reset
    let lossy : Logger := { ch.log with pendingLoss := some (6, 2) }
    lossy.Ok ∧ lossy.pendingLoss = some (6, 2) ∧ (ch.st.inPlan && ch.hold.logFull) = true ∧
      ch.log.pendingLoss = none ∧ (Channel.reset.st.inPlan && Channel.reset.hold.logFull) = false :=
  ⟨⟨heldRecord_ok.poolA, heldRecord_ok.poolB, heldRecord_ok.one, heldRecord_ok.owned, heldRecord_ok.latch, rfl⟩, rfl, rfl, rfl, rfl⟩

theorem witness_AbortEndsThePlan :
    running4.phase = .ready ∧ (running4.chan 4).st.inPlan = true ∧ (running4.chan 4).log.Ok ∧
      (ready.chan 4).st.inPlan = false := by
  unfold running4
  rw [with4_chan, ready_chan]; exact ⟨rfl, rfl, logger_reset_ok, rfl⟩

theorem witness_FollowerSlotRefusesRequests : SlotFree (in4 .follower) (chanSlot 4) ∧ ((in4 .follower).chan 4).st = .follower :=
  ⟨slotFree_with4 _ _, by unfold in4; rw [with4_chan]⟩

/-- Every state that is not FOLLOWER is reached by the refusals' hypotheses. -/
theorem witness_RequestsAreRefusedByState (st : ChState) (h : st ≠ .follower) :
    SlotFree (in4 st) (chanSlot 4) ∧ ((in4 st).chan 4).st = st ∧ ((in4 st).chan 4).st ≠ .follower := by
  refine ⟨slotFree_with4 _ _, ?_, ?_⟩ <;> (unfold in4; rw [with4_chan])
  exact h

/-- Channel 4 IDLE with a plan staged and, as the flag says, a limit set. -/
def staged4 (loaded : Bool) : State := with4 fun ch =>
  { ch with
    st := .idle
    staged := .valid plan
    limits := if loaded then some limits else none
    limitsLoaded := loaded }

/-- Channel 4 IDLE while STOP_ALL is asserted. -/
def stopped4 : State := { in4 .idle with stopAll := true }

theorem witness_RequestsAreRefusedByState_start :
    (SlotFree stopped4 (chanSlot 4) ∧ (stopped4.chan 4).st = .idle ∧ stopped4.stopAll = true) ∧
    (SlotFree (in4 .idle) (chanSlot 4) ∧ (in4 .idle).stopAll = false ∧ ∀ p, ((in4 .idle).chan 4).staged ≠ .valid p) ∧
    (((staged4 false).chan 4).staged = .valid plan ∧ ((staged4 false).chan 4).limitsLoaded = false) ∧
    ((staged4 true).chan 4).limitsLoaded = true ∧ (staged4 true).arb.linkSet = false := by
  refine ⟨⟨⟨rfl, (slotFree_ready _).slot⟩, rfl, rfl⟩, ⟨slotFree_with4 _ _, rfl, ?_⟩, ⟨rfl, rfl⟩, rfl, rfl⟩
  intro p; unfold in4; rw [with4_chan]; simp [Channel.reset]

/-- Channel 4 TRIPPED under a limit set that wants an acknowledgement. -/
def trippedAfterAck : State := with4 fun ch =>
  { ch with st := .tripped, limits := some { limits with resumePolicy := .afterAck }, limitsLoaded := true }

theorem witness_RequestsAreRefusedByState_resume :
    (trippedAfterAck.chan 4).st = .tripped ∧ trippedAfterAck.stopAll = false ∧
      (trippedAfterAck.chan 4).limits = some { limits with resumePolicy := .afterAck } ∧
      (trippedAfterAck.chan 4).fault.acked = false := ⟨rfl, rfl, rfl, rfl⟩

theorem witness_EnableBeginsTheBringUp : SlotFree ready (chanSlot 4) ∧ (ready.chan 4).st = .disabled :=
  ⟨slotFree_ready _, by rw [ready_chan]; rfl⟩

theorem witness_DisableSilencesTheLink :
    SlotFree (in4 .idle) (chanSlot 4) ∧ ((in4 .idle).chan 4).st = .idle ∧ (in4 .idle).leads 4 = false ∧
      (ready.chan 4).st = .disabled := ⟨slotFree_with4 _ _, rfl, rfl, rfl⟩

theorem witness_LoadPlanBeginsLoading : SlotFree (in4 .idle) (chanSlot 4) ∧ ((in4 .idle).chan 4).st ≠ .follower :=
  ⟨slotFree_with4 _ _, by unfold in4; rw [with4_chan]; decide⟩

/-- Channel 4 with a load in execution. -/
def loading4 : State := executing4 fun ch => { ch with st := .idle, staged := .loading, load := some ⟨none, [], false⟩ }

theorem witness_LoadCompletionStagesOrReportsTheFault :
    (loading4.chan 4).load = some ⟨none, [], false⟩ ∧
      loading4.slot (chanSlot 4) = ⟨some (requestHalf .loadPlan 7 []), false⟩ ∧
      loading4.stateField (chanSlot 4) = stateTaken ∧ (ready.chan 4).load = none := ⟨rfl, rfl, by decide +kernel, rfl⟩

/-- A plan as a load reads it: one REST step. -/
def rawSteps : List RawStep := [⟨0, 0, 1, 0, 1, 0, 0, 0, 0, 0, 0, 0, 0, [⟨0, 0, 1, 0, 10, 0⟩]⟩]

theorem witness_FaultlessCopyIsAPlan :
    (∀ st ∈ rawSteps, st.conds.length = condsRead st.nConds) ∧
      planFault ⟨1, 0, 0, 0, 0, 0, 5, 2, 6, 3, 512, 2000, 0, 77⟩ rawSteps = none := by decide

/-- READY with the link settings taken and channel 4 IDLE, limits loaded and a plan staged. -/
def startable : State := (staged4 true).modArb fun a => { a with settings := some ⟨1000, 1000, 100⟩, linkSet := true }

theorem witness_StartBeginsThePlan :
    SlotFree startable (chanSlot 4) ∧ (startable.chan 4).log.Ok ∧ (startable.chan 4).st = .idle ∧ startable.stopAll = false ∧
      (startable.chan 4).staged = .valid plan ∧ (startable.chan 4).limitsLoaded = true ∧ startable.arb.linkSet = true :=
  ⟨⟨rfl, (slotFree_ready _).slot⟩, logger_reset_ok, rfl, rfl, rfl, rfl, rfl⟩

theorem witness_PauseStopsTheDrive :
    (SlotFree running4 (chanSlot 4) ∧ (running4.chan 4).log.Ok ∧ (running4.chan 4).st = .running) ∧
      SlotFree (in4 .held) (chanSlot 4) ∧ ((in4 .held).chan 4).log.Ok ∧ ((in4 .held).chan 4).st = .held :=
  ⟨⟨slotFree_with4 _ _, logger_reset_ok, rfl⟩, slotFree_with4 _ _, logger_reset_ok, rfl⟩

/-- Channel 4 PAUSED in step 0. -/
def paused4 (entered : Bool) (hold : HoldSet) : State := with4 fun ch =>
  { ch with st := .paused, active := some plan, stepEntered := entered, hold := hold }

theorem witness_ResumeContinuesAPausedChannel (entered : Bool) (hold : HoldSet) :
    SlotFree (paused4 entered hold) (chanSlot 4) ∧ ((paused4 entered hold).chan 4).log.Ok ∧
      ((paused4 entered hold).chan 4).st = .paused ∧ (paused4 entered hold).stopAll = false ∧
      ((paused4 entered hold).chan 4).stepEntered = entered ∧ ((paused4 entered hold).chan 4).hold = hold ∧
      ((paused4 entered hold).chan 4).curStep = some ccStep :=
  ⟨slotFree_with4 _ _, logger_reset_ok, rfl, rfl, rfl, rfl, rfl⟩

theorem witness_ResumeRechecksATrippedChannel :
    SlotFree (in4 .tripped) (chanSlot 4) ∧ ((in4 .tripped).chan 4).log.Ok ∧ ((in4 .tripped).chan 4).st = .tripped ∧
      (in4 .tripped).stopAll = false ∧ ((in4 .tripped).chan 4).limits = none :=
  ⟨slotFree_with4 _ _, logger_reset_ok, rfl, rfl, rfl⟩

theorem witness_StopEndsThePlan :
    SlotFree running4 (chanSlot 4) ∧ (running4.chan 4).log.Ok ∧ (running4.chan 4).st.inPlan = true :=
  ⟨slotFree_with4 _ _, logger_reset_ok, rfl⟩

theorem witness_FaultAckMarksTheRecord : SlotFree (in4 .tripped) (chanSlot 4) ∧ ((in4 .tripped).chan 4).st = .tripped :=
  ⟨slotFree_with4 _ _, rfl⟩

theorem witness_SetLimitsReplacesTheSetWhole :
    SlotFree (in4 .idle) (chanSlot 4) ∧ ((in4 .idle).chan 4).st ≠ .disabled ∧ ((in4 .idle).chan 4).st ≠ .follower ∧
      limitFault (fun n => (limitValues limitWords).getD n 0) = none ∧
      limitFault (fun n => (limitValues { limitWords with vMax := 5 }).getD n 0) = some 1 := by
  refine ⟨slotFree_with4 _ _, ?_, ?_, by decide +kernel, by decide +kernel⟩ <;>
    (unfold in4; rw [with4_chan]; decide)

theorem witness_SetCalReplacesTheRecord :
    SlotFree (in4 .running) (chanSlot 4) ∧ CalParams.fault ⟨3, 1, true, -4096, 6144, 512⟩ = none ∧
      CalParams.fault ⟨6, 1, true, 0, 4096, 512⟩ = some 0x10 ∧ CalParams.fault ⟨1, 3, true, 0, 4096, 512⟩ = some 0x11 ∧
      CalParams.fault ⟨1, 0, true, 0, 4096, 511⟩ = some 0x1C := by
  refine ⟨slotFree_with4 _ _, ?_⟩; decide

theorem witness_WatchPointsAreSetAndRearmed :
    SlotFree (in4 .idle) (chanSlot 4) ∧ ((in4 .idle).chan 4).st ≠ .follower ∧ (2 : Byte).toNat = (2 : Fin 3).val ∧
      WatchQuantity.ofCode (4 : Byte).toNat = some .temperature ∧ WatchDir.ofCode (1 : Byte).toNat = some .falling ∧
      WatchMode.ofCode (1 : Byte).toNat = some .every ∧ 2 < (3 : Byte).toNat := by
  refine ⟨slotFree_with4 _ _, ?_, ?_⟩
  · unfold in4; rw [with4_chan]; decide
  · decide

theorem witness_JumpEntersTheNamedStep :
    (SlotFree running4 (chanSlot 4) ∧ (running4.chan 4).log.Ok ∧ (running4.chan 4).st = .running ∧
      (running4.chan 4).active = some plan ∧ plan.steps[(1 : Byte).toNat]? = some restStep ∧ restStep.body.isLoop = false) ∧
    (running4.chan 4).jumpOk (2 : Byte).toNat = false ∧ (running4.chan 4).jumpOk (3 : Byte).toNat = false :=
  ⟨⟨slotFree_with4 _ _, logger_reset_ok, rfl, rfl, rfl, rfl⟩, rfl, rfl⟩

/-- Channel 4 with one record in pool A. -/
def oneRecord : State := with4 fun ch => { ch with log := { ch.log with poolA := { ch.log.poolA with used := 1 } } }

theorem witness_FlushHandsOverTheFillingPool :
    (SlotFree oneRecord (chanSlot 4) ∧ (oneRecord.chan 4).st ≠ .follower ∧ (oneRecord.chan 4).log.filling = some .a ∧
      0 < ((oneRecord.chan 4).log.pool .a).used) ∧
    ((ready.chan 4).log.filling = some .a ∧ ((ready.chan 4).log.pool .a).used = 0) ∧
    ((with4 heldRecord).chan 4).log.filling = none := by
  refine ⟨⟨slotFree_with4 _ _, ?_, rfl, ?_⟩, ⟨rfl, rfl⟩, rfl⟩
  · unfold oneRecord; rw [with4_chan]; decide
  · unfold oneRecord; rw [with4_chan]; decide

theorem witness_StatusAndCountersReport : SlotFree running4 (chanSlot 4) ∧ (255 : Byte) ≠ 0 := ⟨slotFree_with4 _ _, by decide⟩

theorem witness_SetLinkReplacesTheSettings :
    SlotFree ready deviceSlot ∧ (2000000 : U32).toNat ≤ 2000000 ∧ 2000000 < (2000001 : U32).toNat ∧ 10 ≤ (10 : U32).toNat ∧
      (1000 : U32).toNat ≤ 1000 ∧ (9 : U32).toNat < 10 ∧ 1000 < (1001 : U32).toNat := by
  refine ⟨slotFree_ready _, ?_⟩; decide

/-- Channels 4 and 5 IDLE. -/
def pairIdle : State := (in4 .idle).modChan 5 fun ch => { ch with st := .idle }

/-- Channels 4 and 5 ganged. -/
def pairGanged : State :=
  ((in4 .idle).modChan 5 fun ch => { ch with st := .follower }).modPair 2 fun k => { k with ganged := true }

theorem witness_SetPairGangsAndSeparates :
    (SlotFree pairIdle deviceSlot ∧ (2 : Byte).toNat = (2 : PairIx).val ∧ (pairIdle.chan (leaderOf 2)).st = .idle ∧
      (pairIdle.chan (followerOf 2)).st = .idle) ∧
    SlotFree pairGanged deviceSlot ∧ (pairGanged.chan (leaderOf 2)).st = .idle ∧ (pairGanged.pair 2).ganged = true ∧
      (pairGanged.chan (followerOf 2)).st = .follower :=
  ⟨⟨⟨rfl, (slotFree_ready _).slot⟩, rfl, rfl, rfl⟩, ⟨rfl, (slotFree_ready _).slot⟩, rfl, rfl, rfl⟩

theorem witness_SetPairRefusals :
    SlotFree ready deviceSlot ∧ 7 < (8 : Byte).toNat ∧ (7 : Byte).toNat = (7 : PairIx).val ∧ 1 < (2 : Byte).toNat ∧
      (ready.chan (leaderOf 7)).st ≠ .idle ∧ (pairIdle.chan (leaderOf 2)).st = .idle ∧ (pairIdle.pair 2).ganged = false := by
  refine ⟨slotFree_ready _, by decide, rfl, by decide, ?_, rfl, rfl⟩
  rw [ready_chan]; decide

/-- READY with ATTN_ENABLE set and the pace timer as given. -/
def attending (pace : Option Nat) : State :=
  { ready with notices := { ready.notices with attnEnable := true, pace := pace } }

theorem witness_DeviceCountersReport (pace : Option Nat) :
    SlotFree (attending pace) deviceSlot ∧ (1 : Byte) ≠ 0 ∧ (attending pace).notices.attnEnable = true ∧
      (attending pace).notices.attention.getLsbD 16 = false ∧ (attending pace).notices.pace = pace ∧
      (attending pace).notices.owed = false :=
  ⟨⟨rfl, (slotFree_ready _).slot⟩, by decide, rfl, by show (0 : BitVec 17).getLsbD 16 = false; decide, rfl, rfl⟩

theorem witness_SampleTimerExpiryBeginsAPeriod :
    State.reset.timerRunning = false ∧ ready.timerRunning = true ∧ ((link4 inService id).link 4).state = .inService ∧
      ((link4 inService id).link 4).misses = true ∧ ((link4 probing id).link 4).state = .bringUp ∧
      ((link4 probing id).link 4).bringUp < 100 ∧ (ready.link 4).state = .silent ∧ (ready.link 4).misses = false ∧
      (ready.link 4).atLimit = false ∧ (ready.pair (pairOf 4)).ganged = false ∧ (ready.chan 4).linkHold.due = false :=
  ⟨rfl, rfl, rfl, rfl, rfl, by decide +kernel, rfl, rfl, rfl, rfl, rfl⟩

/-- Channel 4 in bring-up, its ENABLE executing, n PROBE frames sent. -/
def enabling (n : Nat) : State := (executing4 id).modLink 4 fun l => { probing l with bringUp := n }

theorem witness_BringUpEndsInServiceOrSilent_limit :
    ((enabling 100).link 4).state = .bringUp ∧ 100 ≤ ((enabling 100).link 4).bringUp ∧
      (enabling 100).slot (chanSlot 4) = ⟨some (requestHalf .loadPlan 7 []), false⟩ ∧
      (enabling 100).stateField (chanSlot 4) = stateTaken ∧ ((enabling 99).link 4).bringUp < 100 :=
  ⟨rfl, by decide +kernel, rfl, by decide +kernel, by decide +kernel⟩

theorem witness_BringUpEndsInServiceOrSilent_ready :
    ((enabling 1).link 4).examine (answer 10 0 1) = none ∧ (answer 10 0 1).getLsbD 72 = true ∧
      ((enabling 1).chan 4).st = .disabled ∧ ((enabling 1).link 4).examine (answer 10 0 0) = none ∧
      (answer 10 0 0).getLsbD 72 = false := by decide +kernel

theorem witness_ResponseFramesAreExaminedInOrder :
    let l := (link4 inService id).link 4
    (ready.link 4).state = .silent ∧ l.state ≠ .silent ∧ oddOnes 96 (answer 10 0 1).toNat = false ∧
      oddOnes 96 (answer 10 0 1 ^^^ 1).toNat = true ∧ (answer 9 0 1).toNat % 16 ≠ 10 ∧ oddOnes 96 (answer 9 0 1).toNat = false ∧
      (answer 10 0 1).toNat % 16 = 10 ∧ l.frame = some ⟨1, .demand, false, 0, 0⟩ ∧
      BitVec.ofNat 8 ((answer 10 0 1).toNat / 16 % 256) = (1 : BitVec 8) ∧ l.received = false ∧
      ({ l with received := true } : Link).received = true := by decide +kernel

theorem witness_ValidSamplesAreHeldAndAccumulated :
    let s := link4 inService fun ch => { ch with st := .running, active := some plan }
    (s.link 4).state = .inService ∧ (s.link 4).examine (answer 10 0 1) = none ∧
      (s.link 4).frame = some ⟨1, .demand, false, 0, 0⟩ ∧ (s.pair (pairOf 4)).ganged = false ∧ (s.chan 4).log.Ok ∧
      (s.chan 4).st = .running ∧ ((link4 inService id).chan 4).st.inPlan = false :=
  ⟨rfl, by decide +kernel, rfl, rfl, logger_reset_ok, rfl, rfl⟩

/-- A sample of a voltage and a current that no hard check turns away. -/
def sample (valid : Bool) (v i : Int) : Input := ⟨valid, v, i, 0, 0, 0, false, false, false, none, none, none⟩

/-- Channel 4 in a state with the limit set, its link in service. -/
def guarded (st : ChState) : State := link4 inService fun ch =>
  { ch with st := st, active := some plan, limits := some limits, limitsLoaded := true }

theorem guarded_ok (st : ChState) : ((guarded st).chan 4).Ok :=
  ⟨fun h => absurd rfl h, .zero, .zero, .zero, Nat.zero_le _, Nat.zero_le _, Nat.zero_le _, Nat.zero_le _, Nat.zero_le _,
    (fun _ h => by cases h; exact limits_ok), rfl⟩

/-- A voltage at the top of the codes, with FAULT set: OVER_VOLTAGE first, STAGE_FAULT coincident. -/
theorem witness_AViolatedCheckTrips :
    let s := guarded .running
    let r := Response.ofFrame (answer 10 131071 3)
    let x := (s.chan 4).cal.correct r 0
    (s.link 4).examine (answer 10 131071 3) = none ∧ (s.chan 4).limits = some limits ∧ (s.chan 4).st = .running ∧
      (if limits.vMax < x.v then [Cause.overVoltage] else []) ++ (if x.v < limits.vMin then [Cause.underVoltage] else [])
        ++ (if limits.iMax < x.i.natAbs then [Cause.overCurrent] else []) ++ (if limits.tMax < x.t then [Cause.overTemp] else [])
        ++ (if r.fault then [Cause.stageFault] else []) = .overVoltage :: [.stageFault] := by decide +kernel

/-- In TRIPPED the same sample raises two later faults, the last of them STAGE_FAULT. -/
theorem witness_AViolatedCheckTrips_again :
    let s := guarded .tripped
    let t := s.responseFrame 4 (answer 10 131071 3) false
    (s.chan 4).st = .tripped ∧ (s.chan 4).log = .reset ∧ (s.link 4).examine (answer 10 131071 3) = none ∧
      (t.chan 4).fault.laterCount = 2 ∧ (t.chan 4).fault.lastLater = some .stageFault ∧
      (t.chan 4).checks = ⟨true, false, false, false, true⟩ := by decide +kernel

/-- Channel 4 in a state, with a silence count and its marker, its link's last frame not answered. -/
def silent4 (st : ChState) (n : Nat) (reached : Bool) : State :=
  (guarded st).modChan 4 fun ch => { ch with silence := n, silenceReached := reached }

/-- The missed sample that reaches the silence limit of ten, the one before it and the one after. -/
theorem witness_SampleTimerExpiryBeginsAPeriod_missed :
    let s := silent4 .running 9 false
    s.timerRunning = true ∧ (s.link 4).misses = true ∧ (s.pair (pairOf 4)).ganged = false ∧ (s.chan 4).linkHold.due = false ∧
      (s.chan 4).limits = some limits ∧ (s.chan 4).st.tripable = true ∧ limits.silenceLimit ≤ min ((s.chan 4).silence + 1) 65535 ∧
      ((silent4 .tripped 9 false).chan 4).st = .tripped ∧ ((silent4 .tripped 9 false).chan 4).silenceReached = false ∧
      min (((silent4 .tripped 8 false).chan 4).silence + 1) 65535 < limits.silenceLimit ∧
      ((silent4 .tripped 10 true).chan 4).silenceReached = true := by decide +kernel

/-- The interval timer below and at the interval, and a link-hold timer one expiry short of 30 s. -/
theorem witness_SampleTimerExpiryBeginsAPeriod_timers :
    let s := fun (k : Nat) => ready.modArb fun a => { a with settings := some ⟨1000, 1000, 100⟩, timer := some k }
    let h := with4 fun ch => { ch with st := .held, limits := some limits, linkHold := ⟨true, 29999, false⟩ }
    (s 99).arb.settings = some ⟨1000, 1000, 100⟩ ∧ (s 99).arb.timer = some 99 ∧ (s 100).arb.timer = some 100 ∧
      (h.link 4).misses = false ∧ (h.link 4).atLimit = false ∧ (h.chan 4).linkHold = ⟨true, 29999, false⟩ ∧
      limits.linkHoldMax * 1000 = 29999 + 1 := by decide +kernel

/-- Channels 4 and 5 GANGED, the leader RUNNING, both links in service, the assembly as given, nine disagreements counted. -/
def pairRunning (formed : Bool) (h : Option Half) : State :=
  ((running4.modPair 2 fun k => { k with ganged := true, formed := formed, assembly := h, mismatch := 9 }).modLink 4
    inService).modLink 5 inService

/-- The follower's half of index 1, 1,001 mV below the leader's voltage of the frame below. -/
def followerHalf : Half := ⟨5, ⟨1, ⟨698996, 0, 0, 0, 0, false, false, false, false⟩, true, false, false, 0, false, 0⟩⟩

theorem witness_PairSamplesAreFormedOrMissed_halves :
    let s := pairRunning false none
    let t := pairRunning false (some followerHalf)
    let r := Response.ofFrame (answer 10 91750 1)
    let x := (t.chan 4).cal.correct r 0
    ((s.link 4).state = .inService ∧ (s.link 4).examine (answer 10 91750 1) = none ∧
      (s.link 4).frame = some ⟨1, .demand, false, 0, 0⟩ ∧ (s.pair (pairOf 4)).ganged = true ∧ (s.pair (pairOf 4)).assembly = none) ∧
    ((t.link 4).examine (answer 10 91750 1) = none ∧ (t.pair (pairOf 4)).assembly = some followerHalf ∧ followerHalf.chan ≠ 4 ∧
      followerHalf.sample.index = r.index) ∧
    (t.chan 4).limits = some limits ∧ (t.chan 4).st.tripable = true ∧ x.v ≤ limits.vMax ∧ limits.vMin ≤ x.v ∧
      ((x.i + followerHalf.sample.val.i).natAbs : Int) ≤ limits.iMax ∧ max x.t followerHalf.sample.val.t ≤ limits.tMax ∧
      r.fault = false ∧ followerHalf.sample.fault = false ∧
      limits.pairTol + 1 = ((x.v - followerHalf.sample.val.v).natAbs : Int) ∧ 9 ≤ (t.pair (pairOf 4)).mismatch := by
  decide +kernel

/-- The plan with a CCCV step in front, its gain mode TWO_LEVEL. -/
def cccvPlan : Plan :=
  { plan with header := { plan.header with gainMode := .twoLevel }, steps := { restStep with body := .cccv 1000 840000 } :: plan.steps }

/-- Channel 4 in the CCCV step. -/
def cccv4 : State := running4.modChan 4 fun ch => { ch with active := some cccvPlan }

theorem witness_CeilingIsTheLeastTerm_of_a_cccv_step :
    (cccv4.chan 4).active = some cccvPlan ∧
      (cccv4.chan 4).curStep = some { restStep with body := .cccv 1000 840000 } ∧ (cccv4.chan 4).limits = some limits ∧
      limits.Ok ∧ setpointOf (.cccv 1000 840000) 800000 = some (1000, 1000) := ⟨rfl, rfl, rfl, limits_ok, rfl⟩

theorem witness_CeilingIsTheLeastTerm :
    (running4.chan 4).active = some plan ∧ (running4.chan 4).curStep = some ccStep ∧ (running4.chan 4).limits = some limits ∧
      limits.Ok ∧ setpointOf ccStep.body 800000 = some (1000, 1000) ∧ setpointOf (.cp (-2)) 800000 = some (2, -2) :=
  ⟨rfl, rfl, rfl, limits_ok, rfl, rfl⟩

/-- Channel 4 in the REST step: its demand is 0, and on a missed sample it has the terms D and B alone. -/
theorem witness_CeilingIsTheLeastTerm_of_a_rest :
    let ch : Channel := { running4.chan 4 with seqr := { (running4.chan 4).seqr with position := 1 } }
    ch.active = some plan ∧ ch.curStep = some restStep ∧ ch.limits = some limits ∧ limits.Ok ∧
      setpointOf restStep.body 800000 = none := ⟨rfl, rfl, rfl, limits_ok, rfl⟩

theorem witness_TwoLevelAndFixedSchedules :
    Regulator.reset.restartMark = false ∧ ({ plan.header with gainMode := .twoLevel } : PlanHeader).gainMode = .twoLevel ∧
      ({ plan.header with gainMode := .fixed } : PlanHeader).gainMode = .fixed ∧ plan.header.levelHold = false ∧
      ({ Regulator.reset with climb := true } : Regulator).climb = true ∧ Regulator.reset.climb = false := by decide

/-- Band levels above UL, at UL and below it, in the plan of mode SEVEN_LEVEL; the restart sample; an entry of the CCCV step and of
the REST step; and an entry to RUNNING in a step entered. -/
theorem witness_TwoLevelAndFixedSchedules_of_seven_levels :
    plan.header.gainMode = .sevenLevel ∧ plan.header.ul < bandOf 60 ∧ bandOf 59 ≤ plan.header.ul ∧ bandOf 5 = 2 ∧ bandOf 4 = 1 ∧
      (Regulator.reset.restart plan.header).restartMark = true ∧ (Regulator.reset.restart plan.header).climb = true ∧
      (cccv4.chan 4).active = some cccvPlan ∧ (cccvPlan.steps[0]?.map fun st => st.body.isCccv) = some true ∧
      (cccvPlan.steps[2]?.map fun st => st.body.isCccv) = some false ∧ (running4.chan 4).stepEntered = true := by decide +kernel

theorem witness_AccumulationIsExact :
    Acc.zero.Ok ∧ (0 : Int) ≤ 1000000 ∧ Acc.zero.chIn + (-1200000 : Int).natAbs ≤ top64 ∧
      Acc.zero.enOut + (Acc.zero.enOutRem + (1000000 : Int).toNat * (-1200000 : Int).natAbs) / 1000000 ≤ top64 :=
  ⟨.zero, by decide, by decide, by decide⟩

theorem witness_StepEndsLearningWatchesAndRecords_sample :
    let s := guarded .running
    (s.link 4).state = .inService ∧ (s.link 4).examine (answer 10 91750 1) = none ∧
      (s.link 4).frame = some ⟨1, .demand, false, 0, 0⟩ ∧ (s.pair (pairOf 4)).ganged = false ∧ (s.chan 4).st = .running := by
  decide +kernel

/-- The stages after the judgement: a channel of no GANGED pair in a step with a limit set, RUNNING outside a chop and TRIPPED. -/
theorem witness_StepEndsLearningWatchesAndRecords_stages :
    running4.leads 4 = false ∧ (running4.chan 4).curStep = some ccStep ∧ (running4.chan 4).limits = some limits ∧
      (running4.chan 4).active = some plan ∧ (running4.chan 4).chop = none ∧ (running4.chan 4).st = .running ∧
      (running4.endConditions 4 (sample true 700000 0)).2 = false ∧
      ((running4.endConditions 4 (sample true 700000 0)).1.chan 4).st = .running ∧ ((guarded .tripped).chan 4).st = .tripped :=
  ⟨rfl, rfl, rfl, rfl, rfl, rfl, by decide +kernel, by decide +kernel, rfl⟩

/-- Channel 4 RUNNING with the report of a latch entry to be taken, LOG_FULL in its hold causes or not. -/
def reporting4 (full : Bool) : State := running4.modChan 4 fun ch =>
  { ch with log := { ch.log with report := true }, hold := ⟨full, false⟩ }

theorem witness_StepEndsLearningWatchesAndRecords_reports (full : Bool) :
    (running4.chan 4).log.report = false ∧ ((reporting4 full).chan 4).log.report = true ∧
      ((reporting4 full).chan 4).st.inPlan = true ∧ ((reporting4 full).chan 4).hold.logFull = full := ⟨rfl, rfl, rfl, rfl⟩

/-- A step whose first condition wants ten samples at 700,000 mV and whose second is the one given. -/
def endingStep (e : EndCond) : Step := { ccStep with conds := [⟨.voltage, .atLeast, 10, .trip, 700000, 0⟩, e] }

/-- Channel 4 at a step time in such a step of a plan, its first qualify counter at q. -/
def ending4 (e : EndCond) (q time : Nat) : State := running4.modChan 4 fun ch =>
  { ch with
    active := some { plan with steps := endingStep e :: plan.steps }
    seqr := { ch.seqr with stepTime := time, qualify := [q, 0, 0, 0] } }

/-- The condition that ends the step at 10 ms by NEXT. -/
def atTen : EndCond := ⟨.stepTime, .atLeast, 1, .next, 10, 0⟩

/-- At 9 ms and one sample before the voltage qualifies no condition is met; at 10 ms the second is, and the first with it as soon as it
qualifies. -/
theorem witness_StepEndsLearningWatchesAndRecords_conditions :
    let ch := fun q time => (ending4 atTen q time).chan 4
    let x := sample true 700000 0
    (ch 8 9).curStep = some (endingStep atTen) ∧ (endingStep atTen).conds[1]? = some atTen ∧ (ch 8 9).seqr.qualify[1]? = some 0 ∧
      (∀ (n : Nat) (e : EndCond) (q : Nat), (endingStep atTen).conds[n]? = some e → (ch 8 9).seqr.qualify[n]? = some q →
        ¬ ConditionMet (ch 8 9) (endingStep atTen) x e q) ∧
      ConditionMet (ch 8 10) (endingStep atTen) x atTen 0 ∧
      ConditionMet (ch 9 10) (endingStep atTen) x ⟨.voltage, .atLeast, 10, .trip, 700000, 0⟩ 9 := by
  refine ⟨rfl, rfl, rfl, fun n e q he hq h => ?_, ⟨⟨10, 10, rfl, Or.inl ⟨rfl, le_refl _⟩⟩, Or.inl rfl⟩,
    ⟨700000, 700000, rfl, Or.inl ⟨rfl, le_refl _⟩⟩, Or.inr ⟨rfl, by decide⟩⟩
  match n with
  | 0 =>
    cases he; cases hq
    obtain ⟨-, h | ⟨-, h⟩⟩ := h
    · cases h
    · exact absurd h (by decide)
  | 1 =>
    cases he; cases hq
    obtain ⟨⟨value, figure, h, h1⟩, -⟩ := h
    cases h
    rcases h1 with ⟨-, h1⟩ | ⟨h1, -⟩
    · exact absurd h1 (by decide)
    · cases h1
  | n + 2 => cases he

/-- A retention check of 950 per-mille that ends the plan, on a step that captures no reference. -/
def retained : Step := { ccStep with retention := some ⟨950, .endPlan, 0⟩ }

/-- Channel 4 in a plan, a charge of the step and a reference given, with a plan staged. -/
def retaining4 (charge ref : Nat) (p : Plan) : State := running4.modChan 4 fun ch =>
  { ch with
    staged := .valid p
    stepSet := { ch.stepSet with chIn := charge }
    seqr := { ch.seqr with retRef := some ref } }

/-- Retention above and at its threshold, and the staged plans of both switch modes. -/
theorem witness_StepEndsLearningWatchesAndRecords_step_end :
    let ch := fun charge => (retaining4 charge 5000 plan).chan 4
    (ch 4755).active = some plan ∧ retained.retention = some ⟨950, .endPlan, 0⟩ ∧ retained.captureRef = false ∧
      (ch 4755).seqr.retRef = some 5000 ∧ 950 < (ch 4755).stepSet.charge retained.body.dir * 1000 / 5000 ∧
      (ch 4750).stepSet.charge retained.body.dir * 1000 / 5000 ≤ 950 ∧ (ch 4750).staged = .valid plan ∧
      plan.header.switchMode = .nextStart ∧
      ({ plan.header with switchMode := .atStepEnd } : PlanHeader).switchMode = .atStepEnd ∧ plan.steps[0]? = some ccStep ∧
      plan.resolve 65 [] 2 = ([(2, 0)], some 0) ∧ plan.resolve 65 [(2, 0)] 2 = ([], none) := by decide +kernel

/-- Channel 4 with the auto-zero state given, at a step time, learning every rest. -/
def learning4 (az : AutoZero) (time : Nat) : State := running4.modChan 4 fun ch =>
  { ch with
    az := az
    seqr := { ch.seqr with stepTime := time }
    cal := { ch.cal with cur0 := { ch.cal.cur0 with mode := .learnEvery, limit := 512 } } }

/-- The first sample past the wait, the last of the wait, the 63rd and the 64th code. -/
theorem witness_StepEndsLearningWatchesAndRecords_learning :
    let r := ((learning4 ⟨.waiting, 0, 0, false⟩ 501).chan 4).cal.cur ((learning4 ⟨.waiting, 0, 0, false⟩ 501).chan 4).range
    r.mode = .learnEvery ∧ r.limit ≠ 0 ∧ ((learning4 ⟨.waiting, 0, 0, false⟩ 501).chan 4).az = ⟨.waiting, 0, 0, false⟩ ∧
      500 < ((learning4 ⟨.waiting, 0, 0, false⟩ 501).chan 4).seqr.stepTime ∧
      ((learning4 ⟨.waiting, 0, 0, false⟩ 500).chan 4).seqr.stepTime ≤ 500 ∧
      ((learning4 ⟨.collecting, 9, 62, false⟩ 600).chan 4).az.count + 1 < 64 ∧
      64 ≤ ((learning4 ⟨.collecting, 9, 63, false⟩ 600).chan 4).az.count + 1 := by decide +kernel

/-- Channel 4 with its first watch point rising through 700,000 mV. -/
def watching4 (mode : WatchMode) (prev : Option Int) (latched : Bool) : State := running4.modChan 4 fun ch =>
  { ch with watches := ch.watches.set 0 ⟨.voltage, .rising, mode, 700000, prev, latched, 0⟩ }

/-- A crossing in each mode, none from the threshold itself, and no previous value. -/
theorem witness_StepEndsLearningWatchesAndRecords_watches (mode : WatchMode) (prev : Option Int) (latched : Bool) :
    let w := ((watching4 mode prev latched).chan 4).watches[(0 : Fin 3)]
    w.quantity = .voltage ∧ w.dir = .rising ∧ w.mode = mode ∧ w.prev = prev ∧ w.latched = latched ∧ w.threshold = 700000 ∧
      ((699999 : Int) < w.threshold ∧ w.threshold ≤ 700000) ∧ ¬ (700000 : Int) < w.threshold :=
  ⟨rfl, rfl, rfl, rfl, rfl, rfl, ⟨by show (699999 : Int) < 700000; decide, le_refl _⟩, by show ¬ (700000 : Int) < 700000; decide⟩

/-- Channel 4 in a chop, blanked, its window full. -/
def counted4 : State := with4 fun ch =>
  { ch with
    st := .running
    active := some plan
    limits := some limits
    chop := some 20
    blanking := ⟨true, 100⟩
    window := 1000 }

theorem witness_ChopBlankingAndWindowEnds :
    (counted4.chan 4).limits = some limits ∧ (counted4.chan 4).st = .running ∧ (counted4.chan 4).chop = some 20 ∧
      limits.chopOff ≤ 20 ∧ (counted4.chan 4).active = some plan ∧ (counted4.chan 4).blanking.running = true ∧
      limits.blankTime ≤ (counted4.chan 4).blanking.count ∧ limits.softWindow ≤ (counted4.chan 4).window ∧
      (running4.chan 4).limits = some limits ∧ (running4.chan 4).chop = none ∧ (running4.chan 4).blanking.running = false ∧
      (running4.chan 4).window < limits.softWindow := by decide +kernel

/-- Channel 4 in CHECKING, its check timer at the limit. -/
def checkFull : State := with4 fun ch => { ch with st := .checking, limits := some limits, contact := ⟨true, 0, 500⟩ }

/-- Channel 4 in CHECKING, its check's counts as given. -/
def checking4 (inWindow timer : Nat) : State := with4 fun ch =>
  { ch with st := .checking, limits := some limits, contact := ⟨true, inWindow, timer⟩ }

/-- Channel 4 HELD, its link-hold expiry due. -/
def linkDue : State := with4 fun ch => { ch with st := .held, hold := ⟨false, true⟩, linkHold := ⟨true, 30000, true⟩ }

theorem witness_ContactChecksSoftLimitAndLinkHold_rows :
    ((checkFull.chan 4).log.Ok ∧ (checkFull.chan 4).st = .checking ∧ (checkFull.chan 4).contact.inProgress = true ∧
      (checkFull.chan 4).limits = some limits ∧ 5 * limits.filterTime ≤ (checkFull.chan 4).contact.timer) ∧
    ((checking4 0 499).chan 4).contact.timer < 5 * limits.filterTime ∧
    ((linkDue.chan 4).log.Ok ∧ (linkDue.chan 4).st = .held ∧ (linkDue.chan 4).linkHold.running = true ∧
      (linkDue.chan 4).linkHold.due = true) ∧ (ready.chan 4).st ≠ .checking ∧ (ready.chan 4).linkHold.running = false ∧
      (in4 .tripped |>.chan 4).st.tripable = false := by
  refine ⟨⟨logger_reset_ok, rfl, rfl, rfl, by decide +kernel⟩, by decide +kernel, ⟨logger_reset_ok, rfl, rfl, rfl⟩, ?_, rfl, rfl⟩
  rw [ready_chan]; decide

/-- Counts in the window at the filter time, the check's last sample, and one before it; a missed sample. -/
theorem witness_ContactChecksSoftLimitAndLinkHold_check :
    ((checking4 99 498).chan 4).st = .checking ∧ ((checking4 99 498).chan 4).contact = ⟨true, 99, 498⟩ ∧
      ((checking4 99 498).chan 4).limits = some limits ∧ (sample true 600000 0).valid = true ∧
      ChecksPass limits (sample true 600000 0) ∧ (limits.vCmin ≤ 600000 ∧ (600000 : Int) ≤ limits.vCmax) ∧
      limits.filterTime ≤ 99 + 1 ∧ 98 + 1 < limits.filterTime ∧ 5 * limits.filterTime ≤ 499 + 1 ∧ 498 + 1 < 5 * limits.filterTime ∧
      ((checking4 99 498).chan 4).silence < limits.silenceLimit :=
  ⟨rfl, rfl, rfl, rfl, by unfold ChecksPass; decide, by decide, by decide, by decide, by decide, by decide, by decide +kernel⟩

/-- Channel 4 RUNNING with so many hits and a chop, not blanked. -/
def chopping (hits : Nat) (chop : Option Nat) : State := running4.modChan 4 fun ch => { ch with hits := hits, chop := chop }

/-- A current above and at I_soft; hits up to and above the soft count maximum; a chop that goes on and one that ends. -/
theorem witness_ContactChecksSoftLimitAndLinkHold_soft :
    ChecksPass limits (sample true 700000 260001) ∧ limits.iSoft < (260001 : Int).natAbs ∧ ((260000 : Int).natAbs : Int) ≤ limits.iSoft ∧
      ((chopping 1 none).chan 4).st = .running ∧ ((chopping 1 none).chan 4).limits = some limits ∧
      ((chopping 1 none).chan 4).blanking.running = false ∧ ((chopping 1 none).chan 4).chop = none ∧ 1 + 1 ≤ limits.softMax ∧
      limits.softMax < 2 + 1 ∧ ((chopping 0 (some 18)).chan 4).chop = some 18 ∧ 18 + 1 < limits.chopOff ∧ limits.chopOff ≤ 19 + 1 ∧
      ((chopping 0 (some 19)).chan 4).active = some plan :=
  ⟨by unfold ChecksPass; decide, by decide, by decide, rfl, rfl, rfl, rfl, by decide, by decide, rfl, by decide, by decide, rfl⟩

/-- A state whose channel 4 alone is changed and whose other pools are those of reset is sound in its pools. -/
theorem with4_logsOk (f : Channel → Channel) (h : (f Channel.reset).log = .reset)
    (hr : (f Channel.reset).st = .running → (f Channel.reset).hold.isEmpty = true) : (with4 f).LogsOk := by
  have key : ∀ c, (with4 f).chan c = f Channel.reset ∨ (with4 f).chan c = Channel.reset := fun c => by
    unfold with4; rw [State.chan_modChan]; split
    · left; rw [ready_chan]
    · right; exact ready_chan c
  constructor
  · intro c; rcases key c with e | e <;> rw [e]
    · rw [h]; exact logger_reset_ok
    · exact logger_reset_ok
  · intro c; rcases key c with e | e <;> rw [e]
    · exact hr
    · intro x; cases x

theorem witness_PairSamplesAreFormedOrMissed_period (formed : Bool) :
    (pairRunning formed (some followerHalf)).LogsOk ∧ (pairRunning formed (some followerHalf)).timerRunning = true ∧
      ((pairRunning formed (some followerHalf)).pair 2).ganged = true ∧
      ((pairRunning formed (some followerHalf)).link (leaderOf 2)).state = .inService ∧
      ((pairRunning formed (some followerHalf)).link (followerOf 2)).state = .inService ∧
      ((pairRunning formed (some followerHalf)).chan (leaderOf 2)).linkHold.due = false ∧
      ((pairRunning formed (some followerHalf)).pair 2).formed = formed :=
  have h : running4.LogsOk := with4_logsOk _ rfl fun _ => rfl
  ⟨⟨h.logs, h.unheld⟩, rfl, rfl, rfl, rfl, rfl, rfl⟩

theorem witness_StopAllTripsEveryActiveChannel :
    running4.LogsOk ∧ running4.stopAll = false ∧ (running4.chan 4).st.tripable = true ∧ (in4 .tripped).LogsOk ∧
      ((in4 .tripped).chan 4).st = .tripped ∧ (running4.chan 5).st.inPlan = false ∧
      ({ running4 with stopAll := true } : State).stopAll = true :=
  ⟨with4_logsOk _ rfl fun _ => rfl, rfl, rfl, with4_logsOk _ rfl (fun h => by cases h), rfl, rfl, rfl⟩

theorem witness_LinkEdgesHoldAndRelease_fall :
    let s : State := { running4 with linkOk := true }
    s.LogsOk ∧ s.linkOk = true ∧ (s.chan 4).st.inPlan = true ∧ (s.chan 4).hold.linkDown = false ∧ (s.chan 5).st.inPlan = false :=
  have h : running4.LogsOk := with4_logsOk _ rfl fun _ => rfl
  ⟨⟨h.logs, h.unheld⟩, rfl, rfl, rfl, rfl⟩

theorem witness_LinkEdgesHoldAndRelease_rise :
    linkDue.LogsOk ∧ linkDue.linkOk = false ∧ (linkDue.chan 4).st.inPlan = true ∧ (linkDue.chan 4).hold.linkDown = true :=
  ⟨with4_logsOk _ rfl (fun h => by cases h), rfl, rfl, rfl⟩

theorem witness_ArbiterEdgesAndInterval :
    let s := ready.modArb fun a => { a with settings := some ⟨1000, 1000, 100⟩, timer := some 100 }
    ready.arb.settings = none ∧ s.arb.settings = some ⟨1000, 1000, 100⟩ ∧ s.arb.timer = some 100 ∧
      (⟨1000, 1000, 100⟩ : LinkSettings).interval ≤ 100 ∧ ready.arb.intervalDue = false := ⟨rfl, rfl, rfl, by decide, rfl⟩

theorem witness_GrantsKeepTheLinkLimits :
    (∀ c : Chan, (Arbiter.reset true).classes[c] ≤ 2) ∧ (∀ (c : Chan) n, (fun _ : Chan => some 2) c = some n → n ≤ 2) ∧
      (Arbiter.reset true).linkUp = true ∧ (Arbiter.reset false).linkUp = false :=
  ⟨fun c => by simp [Arbiter.reset], fun _ n h => by cases h; decide, rfl, rfl⟩

/-- The Arbiter with channels 0, 1 and 2 wanting 100 W each, in the direction given, in classes 2, 1 and 0. -/
def wanting (dir : WantDir) : Arbiter :=
  let a := Arbiter.reset true
  let w : Wanted := ⟨dir, 100⟩
  { a with
    wanted := ((a.wanted.set 0 w).set 1 w).set 2 w
    classes := ((a.classes.set 0 2).set 1 1).set 2 0 }

/-- The classes of those channels. -/
def wantingPrio (c : Chan) : Option Nat := if c = 0 then some 2 else if c = 1 then some 1 else some 0

/-- N at the import limit, and above it and below the export limit by an excess of 150 W, which ends in class 1: class 2 is cut to 0 W,
class 1 to 512/1024 of what it wants, class 0 not at all. -/
theorem witness_GrantsKeepTheLinkLimits_cuts :
    let within := (wanting .charge).evaluate wantingPrio ⟨300, 300, 100⟩
    let imported := (wanting .charge).evaluate wantingPrio ⟨150, 150, 100⟩
    let exported := (wanting .discharge).evaluate wantingPrio ⟨150, 150, 100⟩
    within.summary.net = 300 ∧ within.grants[(0 : Chan)] = .full ∧ imported.summary.net = 300 ∧ exported.summary.net = -300 ∧
      classTotal imported .charge 2 = 100 ∧ (100 : Nat) < 150 ∧ 150 ≤ 100 + classTotal imported .charge 1 ∧
      imported.grants[(0 : Chan)] = .watts 0 ∧ imported.grants[(1 : Chan)] = .watts 50 ∧ imported.grants[(2 : Chan)] = .full ∧
      imported.grants[(3 : Chan)] = .full ∧ exported.grants[(1 : Chan)] = .watts 50 := by decide +kernel

/-- The steps of a wanted power: the limit set, a voltage, and the four bodies. -/
theorem witness_GrantsKeepTheLinkLimits_of_the_wanted :
    (running4.chan 4).curStep = some ccStep ∧ (running4.chan 4).limits = some limits ∧ limits.Ok ∧ (0 : Int) ≤ 800000 ∧
      (running4.chan 4).st = .running ∧ ccStep.body = .cc 1000 ∧ restStep.body = .rest ∧
      (cccv4.chan 4).curStep = some { restStep with body := .cccv 1000 840000 } ∧
      ({ ccStep with body := .cp (-2) } : Step).body = .cp (-2) ∧ (in4 .idle |>.chan 4).st ≠ .running :=
  ⟨rfl, rfl, limits_ok, by decide, rfl, rfl, rfl, rfl, rfl, by decide +kernel⟩

theorem witness_DemandFramesAndPairShares :
    -(2 ^ 21 : Int) ≤ (⟨255, .demand, true, 2, -2097152⟩ : FrameRecord).demand ∧
      (⟨255, .demand, true, 2, 2097151⟩ : FrameRecord).demand < 2 ^ 21 := by decide

/-! ### A latch entry within an event -/

/-- Channel 4 RUNNING under the PAUSE policy with no active pool, and link settings present. -/
def latching4 : State :=
  (running4.modArb fun a => { a with settings := some ⟨1000, 1000, 100⟩ }).modChan 4 fun ch =>
    { ch with
      active := some { plan with header := { plan.header with loss := .pause } }
      log := { ch.log with poolA := { ch.log.poolA with owner := .host }, poolB := { ch.log.poolB with owner := .host } } }

/-- R136, R155: the JUMP enters the step and holds the channel at one event: one evaluation, one state change. -/
theorem test_latched_jump_is_one_evaluation :
    let t := latching4.jumpTo 4 1
    (t.chan 4).st = .held ∧ t.arb.evals = 1 ∧ (t.notices.chan[(4 : Chan)]).stateChanges = 1 := by decide +kernel

/-- R40, R155, log 48: the step end of action TRIP leads from RUNNING to TRIPPED, with LOG_FULL in the set. -/
theorem test_latched_trip_step_end_changes_the_state_once :
    let t := latching4.endStepTrip 4 ccStep 0 ⟨.stepTime, .atLeast, 1, .trip, 10, 1⟩ 0 0 0
    (t.chan 4).st = .tripped ∧ (t.chan 4).hold.logFull = true ∧ t.arb.evals = 1 ∧
      (t.notices.chan[(4 : Chan)]).stateChanges = 1 := by decide +kernel

end Sys2Proof.Tests
end

/-!
The accumulator sets (R66 to R69). While nothing saturates, an addition is one record update of the sample's direction; the carry out of
the remainder moves whole mJ and loses none of them.
-/

namespace Sys2Proof.Machine

/-- R68: a sample of positive current, while neither whole part of that direction would pass its range. -/
theorem Acc.add_of_pos {a : Acc} {v i : Int} (hi : 0 < i) (hch : a.chIn + i.natAbs ≤ top64)
    (hen : a.enIn + (a.enInRem + v.toNat * i.natAbs) / 1000000 ≤ top64) :
    a.add v i = { a with
      chIn := a.chIn + i.natAbs
      enIn := a.enIn + (a.enInRem + v.toNat * i.natAbs) / 1000000
      enInRem := (a.enInRem + v.toNat * i.natAbs) % 1000000 } := by
  simp only [Acc.add, if_pos hi, Nat.min_eq_left hch, Nat.min_eq_left hen, decide_eq_false hch.not_gt, decide_eq_false hen.not_gt,
    Bool.or_false]

/-- R68: a sample of negative current, while neither whole part of that direction would pass its range. -/
theorem Acc.add_of_neg {a : Acc} {v i : Int} (hi : i < 0) (hch : a.chOut + i.natAbs ≤ top64)
    (hen : a.enOut + (a.enOutRem + v.toNat * i.natAbs) / 1000000 ≤ top64) :
    a.add v i = { a with
      chOut := a.chOut + i.natAbs
      enOut := a.enOut + (a.enOutRem + v.toNat * i.natAbs) / 1000000
      enOutRem := (a.enOutRem + v.toNat * i.natAbs) % 1000000 } := by
  simp only [Acc.add, if_neg hi.not_gt, if_pos hi, Nat.min_eq_left hch, Nat.min_eq_left hen, decide_eq_false hch.not_gt,
    decide_eq_false hen.not_gt, Bool.or_false]

/-- R68: current 0 has no direction, so nothing is added. -/
@[simp] theorem Acc.add_zero_current (a : Acc) (v : Int) : a.add v 0 = a := rfl

/-- R68: carrying ⌊remainder ÷ 1,000,000⌋ into the whole part keeps the sum of the two. -/
theorem carry_exact (whole rem : Nat) :
    (whole + rem / 1000000) * 1000000 + rem % 1000000 = whole * 1000000 + rem := by
  rw [Nat.add_mul, Nat.add_assoc, Nat.div_add_mod']

/-- R69, log 18: an addition that no whole part's range stops leaves the SATURATED marker as it was. -/
theorem Acc.add_saturated {a : Acc} {v i : Int} (hchIn : a.chIn + i.natAbs ≤ top64) (hchOut : a.chOut + i.natAbs ≤ top64)
    (henIn : a.enIn + (a.enInRem + v.toNat * i.natAbs) / 1000000 ≤ top64)
    (henOut : a.enOut + (a.enOutRem + v.toNat * i.natAbs) / 1000000 ≤ top64) : (a.add v i).saturated = a.saturated := by
  rcases lt_trichotomy i 0 with hneg | rfl | hpos
  · rw [Acc.add_of_neg hneg hchOut henOut]
  · rw [Acc.add_zero_current]
  · rw [Acc.add_of_pos hpos hchIn henIn]

/-- Settles O52: the remainders by the invariant of the set, the sums by the record update of the sample's direction and the exact carry,
and each of the three sets by its own addition in the channel's update. -/
theorem accumulationIsExact : Obligations.AccumulationIsExact := by
  refine ⟨fun a v i hok _ hchIn hchOut henIn henOut => ?_, fun _ _ _ => ⟨rfl, rfl, rfl⟩⟩
  have hadd : (a.add v i).Ok := hok.add v i
  refine ⟨hadd.enInRem, hadd.enOutRem, Acc.add_saturated hchIn hchOut henIn henOut, fun hpos => ?charge, fun hneg => ?discharge, ?zero⟩
  case charge =>
    rw [Acc.add_of_pos hpos hchIn henIn]
    exact ⟨rfl, rfl, rfl, rfl, (carry_exact _ _).trans (Nat.add_assoc _ _ _).symm⟩
  case discharge =>
    rw [Acc.add_of_neg hneg hchOut henOut]
    exact ⟨rfl, rfl, rfl, rfl, (carry_exact _ _).trans (Nat.add_assoc _ _ _).symm⟩
  case zero =>
    rintro rfl
    exact a.add_zero_current v

end Sys2Proof.Machine

/-!
The regulator's gain schedules (R86 to R91). One equation per branch of the selection; what a restart does; and where the channel's
events make one.
-/

namespace Sys2Proof.Machine

/-! ### The selection on a sample -/

/-- R91: the restart sample makes no selection and clears the marker. -/
theorem Regulator.select_of_restartMark {g : Regulator} (hm : g.restartMark = true) (h : PlanHeader) (r : Nat) :
    g.select h r = { g with restartMark := false } := if_pos hm

/-- R88: TWO_LEVEL has H from 75 percent on, Lo below 25, and between them the level that stands. -/
theorem Regulator.select_twoLevel {g : Regulator} {h : PlanHeader} (hm : g.restartMark = false) (hmode : h.gainMode = .twoLevel)
    (r : Nat) : g.select h r = { g with level := if 75 ≤ r then h.high else if r < 25 then h.low else g.level } := by
  rw [Regulator.select, if_neg (by simp [hm])]
  simp only [hmode]
  split_ifs <;> rfl

/-- R89: the boost of FIXED ends on the first sample below 25 percent. -/
theorem Regulator.select_fixed_boostEnds {g : Regulator} {h : PlanHeader} {r : Nat} (hm : g.restartMark = false)
    (hmode : h.gainMode = .fixed) (hclimb : g.climb = true) (hr : r < 25) :
    g.select h r = { g with climb := false, level := h.low } := by
  simp only [Regulator.select, hm, hmode, hclimb, if_pos hr, Bool.false_eq_true, if_false, if_true]

/-- R89: the boost of FIXED goes on from 25 percent on. -/
theorem Regulator.select_fixed_boosted {g : Regulator} {h : PlanHeader} {r : Nat} (hm : g.restartMark = false)
    (hmode : h.gainMode = .fixed) (hclimb : g.climb = true) (hr : 25 ≤ r) : g.select h r = { g with level := h.high } := by
  simp only [Regulator.select, hm, hmode, hclimb, if_neg hr.not_gt, Bool.false_eq_true, if_false, if_true]

/-- R89: FIXED without boost. -/
theorem Regulator.select_fixed_settled {g : Regulator} {h : PlanHeader} (hm : g.restartMark = false) (hmode : h.gainMode = .fixed)
    (hclimb : g.climb = false) (r : Nat) : g.select h r = { g with level := h.low } := by
  simp only [Regulator.select, hm, hmode, hclimb, Bool.false_eq_true, if_false]

/-- R87: while the climb-down flag is set, a band level above UL is the level. -/
theorem Regulator.select_sevenLevel_above {g : Regulator} {h : PlanHeader} {r : Nat} (hm : g.restartMark = false)
    (hmode : h.gainMode = .sevenLevel) (hclimb : g.climb = true) (hband : h.ul < bandLevel r) :
    g.select h r = { g with level := bandLevel r } := by
  simp only [Regulator.select, hm, hmode, hclimb, if_pos hband, Bool.false_eq_true, if_false, if_true]

/-- R86, R87: with the flag clear, or on the sample that clears it, the band level is clamped to LL to UL. -/
theorem Regulator.select_sevenLevel_clamped {g : Regulator} {h : PlanHeader} {r : Nat} (hm : g.restartMark = false)
    (hmode : h.gainMode = .sevenLevel) (hband : g.climb = false ∨ bandLevel r ≤ h.ul) :
    g.select h r = { g with climb := false, level := clampLevel h (bandLevel r) } := by
  cases hclimb : g.climb with
  | false =>
    simp only [Regulator.select, hm, hmode, hclimb, Bool.false_eq_true, if_false]
  | true =>
    have hle : bandLevel r ≤ h.ul := hband.resolve_left (by simp [hclimb])
    simp only [Regulator.select, hm, hmode, hclimb, if_neg hle.not_gt, Bool.false_eq_true, if_false, if_true]

/-- R91: no sample leaves the restart marker set. -/
@[simp] theorem Regulator.select_restartMark (g : Regulator) (h : PlanHeader) (r : Nat) : (g.select h r).restartMark = false := by
  cases hm : g.restartMark with
  | true => rw [Regulator.select_of_restartMark hm]
  | false =>
    unfold Regulator.select
    rw [if_neg (by simp [hm])]
    repeat' split
    all_goals exact hm

/-! ### Restarts -/

/-- R90: the six cases of gain mode and level-hold. -/
theorem Regulator.restart_restarted (g : Regulator) (h : PlanHeader) : Restarted h g (g.restart h) := by
  unfold Restarted Regulator.restart
  cases hmode : h.gainMode <;> cases hhold : h.levelHold <;> rfl

/-- R89, R90: the restart level and the boost marker of FIXED; TWO_LEVEL has the same restart level. -/
theorem Regulator.restart_level_high {h : PlanHeader} (hmode : h.gainMode ≠ .sevenLevel) (hhold : h.levelHold = false)
    (g : Regulator) : (g.restart h).level = h.high := by
  rw [show g.restart h = _ from g.restart_restarted h]
  simp [hmode, hhold]

/-- R87, R89, R90: without level-hold a restart sets the flag in every mode but TWO_LEVEL, which ignores it. -/
theorem Regulator.restart_climb {h : PlanHeader} (hmode : h.gainMode ≠ .twoLevel) (hhold : h.levelHold = false) (g : Regulator) :
    (g.restart h).climb = true := by
  rw [show g.restart h = _ from g.restart_restarted h]
  simp [hmode, hhold]

theorem Channel.restart_reg {ch : Channel} {p : Plan} (hp : ch.active = some p) : ch.restart.reg = ch.reg.restart p.header := by
  simp only [Channel.restart, hp]

/-- R33, R90: the regulator after the entry of a step for which the event itself asks for no restart. -/
theorem Channel.enterStep_reg {ch : Channel} {p : Plan} (hp : ch.active = some p) (n : Nat) (st : Step) :
    (ch.enterStep n st false).reg =
      if st.body.isCccv then { ch.reg with clamped := false, cvPhase := false }.restart p.header
      else { ch.reg with clamped := false, cvPhase := false } := by
  unfold Channel.enterStep
  cases hkind : st.body.isCccv with
  | true => exact Channel.restart_reg hp
  | false => rfl

/-! ### The events that restart -/

@[simp] theorem State.notifyEntry_chan (s : State) (c d : Chan) : (s.notifyEntry c).chan d = s.chan d := by
  unfold State.notifyEntry
  split
  · rfl
  · exact State.notify_chan s c d

@[simp] theorem State.modAz_reg (s : State) (c d : Chan) (f : AutoZero → AutoZero) :
    ((s.modAz c f).chan d).reg = (s.chan d).reg := by
  obtain ⟨a, ha⟩ := State.modAz_chan_same s c d f
  rw [ha]

theorem State.setSt_chan_self (s : State) (c : Chan) (st : ChState) : (s.setSt c st).chan c = { s.chan c with st := st } := by
  unfold State.setSt
  split
  · next hst => rw [← hst]
  · rw [State.bumpChan_chan, State.chan_modChan_self]

/-- R33: a step entry acts on the regulator of its channel as `Channel.enterStep` does. -/
theorem State.enterStep_reg {s : State} {c : Chan} {n : Nat} {st : Step} (hst : (s.chan c).stepAt n = some st) (b : Bool) :
    ((s.enterStep c n b).chan c).reg = ((s.chan c).enterStep n st b).reg := by
  simp only [State.enterStep, hst, State.notifyEntry_chan, State.modAz_reg, State.chan_modChan_self]

/-- R12, R90: an entry to RUNNING that continues a step restarts the regulator. -/
theorem State.enterRunning_reg {s : State} {c : Chan} {p : Plan} (hp : (s.chan c).active = some p)
    (hentered : (s.chan c).stepEntered = true) (held : Bool) :
    ((s.enterRunning c held).chan c).reg = (s.chan c).reg.restart p.header := by
  unfold State.enterRunning
  rw [if_pos hentered, State.notify_chan, State.chan_modChan_self, State.chan_modChan_self, State.setSt_chan_self]
  exact Channel.restart_reg hp

/-! ### The regulation stage -/

/-- R83: the gain level, the flag and the marker that a regulation stage of a CCCV step leaves are those of the selection on its band
ratio. -/
theorem Channel.regulate_cccv_gain {ch : Channel} {p : Plan} {st : Step} {l : LimitSet} {i target : Int} (hp : ch.active = some p)
    (hst : ch.curStep = some st) (hbody : st.body = .cccv i target) (hl : ch.limits = some l) (v t : Int) (g : Grant) :
    let chosen := ch.reg.select p.header (bandRatio (errorOf st.body.dir (targetInForce l target) v) p.header.window)
    (ch.regulate v t g).reg.level = chosen.level ∧ (ch.regulate v t g).reg.climb = chosen.climb ∧
      (ch.regulate v t g).reg.restartMark = chosen.restartMark := by
  have hstage : ch.regulate v t g = ch.regulateStep p.header l (.cccv i target) i.natAbs v t g := by
    simp only [Channel.regulate, hp, hst, hl, hbody, setpointMag]
  rw [hstage, hbody]
  exact ⟨rfl, rfl, rfl⟩

/-- Settles O51: each schedule by the equations of the selection, the restarts by the six cases of gain mode and level-hold, and the
entries and the regulation stage by what they do to the channel's regulator. -/
theorem twoLevelAndFixedSchedules : Obligations.TwoLevelAndFixedSchedules := by
  refine ⟨fun g h r hm => ⟨fun hmode => ?twoLevel, fun hmode => ?fixed, fun hmode => ?sevenLevel⟩,
    fun g h r hm => Regulator.select_of_restartMark hm h r, Regulator.restart_restarted, ?entry, ?running, ?stage⟩
  case twoLevel =>
    rw [Regulator.select_twoLevel hm hmode]
    exact ⟨rfl, rfl, fun hhold => Regulator.restart_level_high (by simp [hmode]) hhold g⟩
  case fixed =>
    refine ⟨fun hclimb hr => ?_, fun hclimb hr => ?_, fun hclimb => ?_, fun hhold =>
      ⟨Regulator.restart_climb (by simp [hmode]) hhold g, Regulator.restart_level_high (by simp [hmode]) hhold g⟩⟩
    · rw [Regulator.select_fixed_boostEnds hm hmode hclimb hr]
      exact ⟨rfl, rfl⟩
    · rw [Regulator.select_fixed_boosted hm hmode hclimb hr]
      exact ⟨hclimb, rfl⟩
    · rw [Regulator.select_fixed_settled hm hmode hclimb]
      exact ⟨hclimb, rfl⟩
  case sevenLevel =>
    exact ⟨Regulator.select_sevenLevel_above hm hmode, Regulator.select_sevenLevel_clamped hm hmode⟩
  case entry =>
    intro s c n p st hp hst
    have hstep : (s.chan c).stepAt n = some st := by
      rw [Channel.stepAt, hp]
      exact hst
    rw [State.enterStep_reg hstep, Channel.enterStep_reg hp]
    refine ⟨fun hkind => ?_, fun hkind => ?_⟩
    · rw [if_pos hkind]
      exact Regulator.restart_restarted _ _
    · exact if_neg (by simp [hkind])
  case running =>
    intro s c held p hp hentered
    rw [State.enterRunning_reg hp hentered]
    exact Regulator.restart_restarted _ _
  case stage =>
    intro ch v t g p st l i target hp hst hbody hl
    obtain ⟨hlevel, hclimb, hmark⟩ := Channel.regulate_cccv_gain hp hst hbody hl v t g
    exact ⟨hlevel, hclimb, hmark.trans (Regulator.select_restartMark _ _ _)⟩

end Sys2Proof.Machine

/-!
The slot protocol from the post to the answer (R180, R181, R183): what the take makes of a slot, and what a completion of the request in
it changes: the slot, its bytes of the store, and the response count of its Notice Record.
-/

namespace Sys2Proof.Machine

variable {s t a : State} {n : SlotIx} {c : Chan} {half : List Byte} {r : Reply} {tag kind : Nat}

/-! ### Posts of a slot -/

theorem exec_slotPost_ready (h : s.phase = .ready) (n : SlotIx) : exec (.slotPost n) s = .next (s.postSlot n) := by
  have htake : s.takePost n.val = s.postSlot n := by
    unfold State.takePost
    rw [if_neg (by rw [h]; decide), postOf_slot]
  exact congrArg _ htake

/-- R181, stage 5: without a pending post there is nothing to take. -/
theorem State.drain_of_no_pending (h : (s.slot n).pendingPost = false) : s.drain n = s := by
  unfold State.drain
  rw [h]
  rfl

/-- R180: a post that finds the latch FREE is taken at once. -/
theorem State.postSlot_of_free (h : SlotFree s n) : s.postSlot n = (s.take n).drain n := by
  unfold State.postSlot
  rw [h.slot]
  rfl

/-- R180: a state field other than POSTED makes the post stray. -/
theorem State.postSlot_stray (h : SlotFree s n) (hp : s.stateField n ≠ statePosted) : s.postSlot n = s.stray := by
  have hslot : s.stray.slot n = ⟨none, false⟩ := h.slot
  rw [State.postSlot_of_free h, State.take, if_neg hp, State.drain_of_no_pending (by rw [hslot])]

/-! ### The take -/

/-- The request half of slot n as it stands in the store. -/
def State.postedHalf (s : State) (n : SlotIx) : List Byte := s.store.readBytes (Config.slotBase n) requestHalfSize

/-- R180, orders 1 and 2 of the take: the request half copied into the latch, and TAKEN written. -/
def State.copied (s : State) (n : SlotIx) : State :=
  (s.modSlot n fun sl => { sl with latch := some (s.postedHalf n) }).putStateField n stateTaken

theorem State.stateField_putStateField (s : State) (n : SlotIx) {v : Nat} (hv : v < 256 ^ 4) : (s.putStateField n v).stateField n = v := by
  have hread := Mem.readBytes_writeBytes s.store (Config.slotBase n) (leBytes 4 v)
  rw [leBytes_length] at hread
  exact (congrArg ofLE hread).trans (ofLE_leBytes_lt hv)

/-- R180: after the copy the request is in execution. -/
theorem State.copied_executing (h : SlotFree s n) : Executing (s.copied n) n (s.postedHalf n) where
  taken := State.stateField_putStateField _ _ (by decide)
  slot := by
    have hmod := State.slot_modSlot_self s n fun sl => { sl with latch := some (s.postedHalf n) }
    rw [h.slot] at hmod
    exact hmod

theorem State.dispatch_slot (s : State) (n : SlotIx) (half : List Byte) : (s.dispatch n half).1.slot n = s.slot n := by
  unfold State.slot
  rw [((Serves.refl s).dispatch n half).slots]

/-- R180: the take of a POSTED request, by what its owner answers. -/
theorem State.take_of_posted (hp : s.stateField n = statePosted) :
    s.take n = ((s.copied n).dispatch n (s.postedHalf n)).2.elim ((s.copied n).dispatch n (s.postedHalf n)).1
      (((s.copied n).dispatch n (s.postedHalf n)).1.finish n) := by
  unfold State.take
  rw [if_pos hp]
  dsimp only
  split
  next r hd =>
    have hanswer : ((s.copied n).dispatch n (s.postedHalf n)).2 = some r := hd
    rw [hanswer]
    rfl
  next hd =>
    have hanswer : ((s.copied n).dispatch n (s.postedHalf n)).2 = none := hd
    rw [hanswer]
    rfl

/-- R180, order 3: a request that its owner completes at the take is completed within it. -/
theorem State.postSlot_completed (h : SlotFree s n) (hp : s.stateField n = statePosted)
    (hd : ((s.copied n).dispatch n (s.postedHalf n)).2 = some r) :
    s.postSlot n = ((s.copied n).dispatch n (s.postedHalf n)).1.complete n r := by
  rw [State.postSlot_of_free h, State.take_of_posted hp, hd]
  rfl

/-- R180, order 3: a request that its owner keeps in execution leaves the take as its owner leaves it. -/
theorem State.postSlot_executing (h : SlotFree s n) (hp : s.stateField n = statePosted)
    (hd : ((s.copied n).dispatch n (s.postedHalf n)).2 = none) :
    s.postSlot n = ((s.copied n).dispatch n (s.postedHalf n)).1 := by
  have hslot := (State.dispatch_slot (s.copied n) n (s.postedHalf n)).trans (State.copied_executing h).slot
  rw [State.postSlot_of_free h, State.take_of_posted hp, hd, Option.elim_none, State.drain_of_no_pending (by rw [hslot])]

/-- A request answered by the dispatch itself, which changes nothing. -/
theorem State.postSlot_answered (h : SlotFree s n) (hp : s.stateField n = statePosted)
    (hd : (s.copied n).dispatch n (s.postedHalf n) = (s.copied n, some r)) : s.postSlot n = (s.copied n).complete n r := by
  rw [State.postSlot_completed h hp (congrArg Prod.snd hd), hd]

/-! ### Kind codes of no request -/

theorem ReqKind.ofChannelCode_eq_none {k : Nat} (h : k = 0 ∨ 16 < k) : ReqKind.ofChannelCode k = none := by
  unfold ReqKind.ofChannelCode
  split
  any_goals omega
  rfl

theorem ReqKind.ofDeviceCode_eq_none {k : Nat} (h : k < 32 ∨ 34 < k) : ReqKind.ofDeviceCode k = none := by
  unfold ReqKind.ofDeviceCode
  split
  any_goals omega
  rfl

/-- R183, order 1, in a channel's slot. -/
theorem State.dispatch_channel_unknown (s : State) (c : Chan) {half : List Byte}
    (h : ReqKind.ofChannelCode (reqKindCode half) = none) :
    s.dispatch (chanSlot c) half = (s, some (.unknown (reqKindCode half))) := by
  have hs : slotChan (chanSlot c) = some c := dif_pos c.isLt
  unfold State.dispatch
  rw [hs]
  dsimp only
  rw [h]

/-- R183, order 1, in the device slot. -/
theorem State.dispatch_device_unknown (s : State) {half : List Byte} (h : ReqKind.ofDeviceCode (reqKindCode half) = none) :
    s.dispatch deviceSlot half = (s, some (.unknown (reqKindCode half))) := by
  have hs : slotChan deviceSlot = none := by decide
  unfold State.dispatch
  rw [hs]
  dsimp only
  rw [h]

/-! ### The completion -/

/-- R181, stages 1 and 2 over TAKEN: the response half written, and DONE. -/
def State.responded (s : State) (n : SlotIx) (half : List Byte) (r : Reply) : State :=
  (s.writeStore (responseBase n) (r.half (reqTag half) (reqKindCode half))).putStateField n stateDone

/-- R181, stages 1 to 4 for a request in execution whose state field the host has left. -/
theorem State.finish_of_executing (h : Executing s n half) (r : Reply) :
    s.finish n r = ((s.responded n half r).bumpResponses n).modSlot n fun sl => { sl with latch := none } := by
  have hfield : (s.writeStore (responseBase n) (r.half (reqTag half) (reqKindCode half))).stateField n = stateTaken := by
    refine Eq.trans (congrArg ofLE ?_) h.taken
    exact Mem.readBytes_writeBytes_ne _ _ _ _ _ (Or.inl (by simp only [responseBase, requestHalfSize]; omega))
  unfold State.finish
  rw [h.slot]
  dsimp only
  rw [if_pos hfield]
  rfl

theorem Keeps.bumpResponses (s : State) (n : SlotIx) : Keeps s (s.bumpResponses n) := by
  unfold State.bumpResponses
  split
  · exact (Keeps.refl s).bumpChan _ _
  · exact (Keeps.refl s).bumpDev _

/-- R175: the Notice Records lie before the Request Slots, so a response count leaves the slots' bytes. -/
theorem State.bumpResponses_readBytes (s : State) (n m : SlotIx) (o k : Nat) (h : o + k ≤ 512) :
    (s.bumpResponses n).store.readBytes (Config.slotBase m + o) k = s.store.readBytes (Config.slotBase m + o) k := by
  refine Mem.readBytes_congr _ _ _ _ fun b hlo hhi => (Keeps.bumpResponses s n).mem b (Or.inl ?_)
  have := m.isLt
  simp only [Config.slotBase] at hlo hhi
  omega

theorem Reply.half_length (hd : r.detail.length ≤ 8) (hp : r.payload.length ≤ 364) (tag kind : Nat) :
    (r.half tag kind).length = responseHalfSize := by
  unfold Reply.half padTo responseHalfSize
  simp only [List.length_append, List.length_replicate, leBytes_length]
  omega

theorem State.finish_slot (h : Executing s n half) (r : Reply) : (s.finish n r).slot n = ⟨none, false⟩ := by
  have hslot : ((s.responded n half r).bumpResponses n).slot n = ⟨some half, false⟩ := by
    unfold State.slot
    rw [(Keeps.bumpResponses _ n).slots]
    exact h.slot
  rw [State.finish_of_executing h, State.slot_modSlot_self, hslot]

/-- R181: without a pending post a completion ends with its stage 4. -/
theorem State.complete_of_executing (h : Executing s n half) (r : Reply) : s.complete n r = s.finish n r :=
  State.drain_of_no_pending (by rw [State.finish_slot h])

/-- R181: the host finds the response half of the request in execution, DONE, and the latch is FREE. -/
theorem State.finish_answered (h : Executing s n half) (hr : (r.half (reqTag half) (reqKindCode half)).length = responseHalfSize) :
    Answered (s.finish n r) n (reqTag half) (reqKindCode half) r where
  response := by
    rw [State.finish_of_executing h]
    refine (State.bumpResponses_readBytes (s.responded n half r) n n requestHalfSize responseHalfSize (by decide)).trans ?_
    refine (Mem.readBytes_writeBytes_ne _ _ _ _ _ (Or.inr ?_)).trans ?_
    · rw [leBytes_length, requestHalfSize]
      omega
    · have hread := Mem.readBytes_writeBytes s.store (responseBase n) (r.half (reqTag half) (reqKindCode half))
      rwa [hr] at hread
  done := by
    rw [State.finish_of_executing h]
    refine (congrArg ofLE (State.bumpResponses_readBytes (s.responded n half r) n n 0 4 (by decide))).trans ?_
    exact State.stateField_putStateField _ _ (by decide)
  slot := State.finish_slot h r

/-! ### What a completion leaves -/

/-- Between s and t only slot n and its area of the store differ. -/
structure SlotOnly (s t : State) (n : SlotIx) : Prop where
  chans : t.chans = s.chans
  links : t.links = s.links
  pairs : t.pairs = s.pairs
  arb : t.arb = s.arb
  notices : t.notices = s.notices
  device : DeviceKept s t
  slots : ∀ m, m ≠ n → t.slot m = s.slot m
  store : StoreKept s t [slotArea n]

theorem SlotOnly.refl (s : State) (n : SlotIx) : SlotOnly s s n :=
  ⟨rfl, rfl, rfl, rfl, rfl, .refl s, fun _ _ => rfl, .refl s _⟩

theorem SlotOnly.trans (h : SlotOnly s a n) (k : SlotOnly a t n) : SlotOnly s t n :=
  ⟨k.chans.trans h.chans, k.links.trans h.links, k.pairs.trans h.pairs, k.arb.trans h.arb, k.notices.trans h.notices,
    h.device.trans k.device, fun m hm => (k.slots m hm).trans (h.slots m hm), h.store.trans k.store⟩

theorem SlotOnly.modSlot (h : SlotOnly s t n) (f : Slot → Slot) : SlotOnly s (t.modSlot n f) n :=
  h.trans ⟨rfl, rfl, rfl, rfl, rfl, ⟨rfl, rfl, rfl, rfl, rfl, rfl, rfl, rfl, rfl, rfl⟩, fun _ hm => State.slot_modSlot_ne t f hm,
    .refl t _⟩

/-- A write at offset o of slot n that ends within it. -/
theorem SlotOnly.writeStore (h : SlotOnly s t n) (o : Nat) (l : List Byte) (hl : o + l.length ≤ 512) :
    SlotOnly s (t.writeStore (Config.slotBase n + o) l) n := by
  refine h.trans ⟨rfl, rfl, rfl, rfl, rfl, ⟨rfl, rfl, rfl, rfl, rfl, rfl, rfl, rfl, rfl, rfl⟩, fun _ _ => rfl, fun b hb => ?_⟩
  have hout := hb (slotArea n) (List.mem_singleton_self _)
  simp only [slotArea] at hout
  exact Mem.read_writeBytes_ne _ _ _ _ (by omega)

theorem SlotOnly.putStateField (h : SlotOnly s t n) (v : Nat) : SlotOnly s (t.putStateField n v) n :=
  h.writeStore 0 (leBytes 4 v) (by rw [leBytes_length]; decide)

theorem SlotOnly.copied (h : SlotOnly s t n) : SlotOnly s (t.copied n) n := (h.modSlot _).putStateField _

theorem SlotOnly.responded (h : SlotOnly s t n) (hr : (r.half (reqTag half) (reqKindCode half)).length = responseHalfSize) :
    SlotOnly s (t.responded n half r) n :=
  (h.writeStore requestHalfSize _ (by rw [hr]; decide)).putStateField _

theorem State.bumpChan_deviceKept (t : State) (c : Chan) (k : ChanCount) : DeviceKept t (t.bumpChan c k) :=
  ⟨rfl, rfl, rfl, rfl, rfl, rfl, rfl, rfl, rfl, rfl⟩

theorem State.bumpDev_deviceKept (t : State) (k : DevCount) : DeviceKept t (t.bumpDev k) :=
  ⟨rfl, rfl, rfl, rfl, rfl, rfl, rfl, rfl, rfl, rfl⟩

theorem State.bumpChan_storeKept (t : State) (c : Chan) (k : ChanCount) : StoreKept t (t.bumpChan c k) [noticeArea c] := by
  intro b hb
  have hout := hb (noticeArea c) (List.mem_singleton_self _)
  have hoff := ChanCount.offset_le k
  simp only [noticeArea] at hout
  exact Mem.read_writeBytes_ne _ _ _ _ (by rw [leBytes_length]; omega)

theorem State.bumpDev_storeKept (t : State) (k : DevCount) : StoreKept t (t.bumpDev k) [devNoticeArea] := by
  intro b hb
  have hout := hb devNoticeArea (List.mem_singleton_self _)
  have hoff := DevCount.offset_le k
  simp only [devNoticeArea] at hout
  exact Mem.read_writeBytes_ne _ _ _ _ (by rw [leBytes_length]; omega)

/-- R186: a device count written leaves the channels' counts and bits. -/
theorem State.bumpDev_noticesKept (t : State) (k : DevCount) : DeviceNoticesKept t (t.bumpDev k) := by
  obtain ⟨hattn, hchan, -, hbits⟩ := NoticeUnit.setBit_same { t.notices with dev := t.notices.dev.bump k } 16
  exact ⟨hchan, hbits, hattn, NoticeUnit.setBit_paceTime _ _⟩

theorem State.bumpDev_dev (t : State) (k : DevCount) : (t.bumpDev k).notices.dev = t.notices.dev.bump k := by
  obtain ⟨-, -, hdev, -⟩ := NoticeUnit.setBit_same { t.notices with dev := t.notices.dev.bump k } 16
  exact hdev

/-- R186: the response count of channel c is the only count that its increment changes. -/
theorem State.bumpChan_counted (t : State) (c : Chan) : Counted t (t.bumpChan c .responses) c 1 0 0 := by
  refine ⟨?_, ?_, ?_, ?_, State.bumpChan_bit t c _⟩ <;> rw [State.bumpChan_self] <;> simp [ChanNotice.bump]

/-- R186: the response count of the device is the only count that its increment changes. -/
theorem State.bumpDev_counted (t : State) : DeviceCounted t (t.bumpDev .responses) 1 0 0 := by
  refine ⟨?_, ?_, ?_, NoticeUnit.setBit_bit _ _ (by decide)⟩ <;> rw [State.bumpDev_dev] <;> simp [DevNotice.bump]

theorem Counted.congr {b : State} {x y z : U32} (h : Counted a b c x y z) (ha : a.notices = s.notices) (ht : t.notices = b.notices) :
    Counted s t c x y z :=
  ⟨by rw [ht, ← ha, h.responses], by rw [ht, ← ha, h.stateChanges], by rw [ht, ← ha, h.watchHits], by rw [ht, ← ha, h.faults],
    by rw [ht, h.bit]⟩

theorem DeviceCounted.congr {b : State} {x y z : U32} (h : DeviceCounted a b x y z) (ha : a.notices = s.notices)
    (ht : t.notices = b.notices) : DeviceCounted s t x y z :=
  ⟨by rw [ht, ← ha, h.responses], by rw [ht, ← ha, h.linkChanges], by rw [ht, ← ha, h.stopAllChanges], by rw [ht, h.bit]⟩

theorem DeviceNoticesKept.congr {b : State} (h : DeviceNoticesKept a b) (ha : a.notices = s.notices) (ht : t.notices = b.notices) :
    DeviceNoticesKept s t :=
  ⟨by rw [ht, ← ha, h.chans], fun i hi => by rw [ht, ← ha, h.bits i hi], by rw [ht, ← ha, h.attnEnable],
    by rw [ht, ← ha, h.paceTime]⟩

/-- A channel's slot worked on, its response counted, and the slot worked on again. -/
theorem OnlyAnswered.of_slotOnly (h : SlotOnly s a (chanSlot c)) (k : SlotOnly (a.bumpChan c .responses) t (chanSlot c))
    (ht : Answered t (chanSlot c) tag kind r) : OnlyAnswered s t c tag kind r where
  answered := ht
  counted := (State.bumpChan_counted a c).congr h.notices k.notices
  chans := k.chans.trans h.chans
  links := k.links.trans h.links
  pairs := k.pairs.trans h.pairs
  arb := k.arb.trans h.arb
  device := (h.device.trans (State.bumpChan_deviceKept a c _)).trans k.device
  notices := ((NoticesKept.of h.notices c).trans (State.bumpChan_notices a c _)).trans (.of k.notices c)
  slots m hm := (k.slots m hm).trans (h.slots m hm)
  store := (h.store.mono (by simp)).trans (((State.bumpChan_storeKept a c _).mono (by simp)).trans (k.store.mono (by simp)))

/-- The device slot worked on, its response counted, and the slot worked on again. -/
theorem OnlyDeviceAnswered.of_slotOnly (h : SlotOnly s a deviceSlot) (k : SlotOnly (a.bumpDev .responses) t deviceSlot)
    (ht : Answered t deviceSlot tag kind r) : OnlyDeviceAnswered s t tag kind r where
  answered := ht
  counted := (State.bumpDev_counted a).congr h.notices k.notices
  chans := k.chans.trans h.chans
  links := k.links.trans h.links
  pairs := k.pairs.trans h.pairs
  arb := k.arb.trans h.arb
  device := (h.device.trans (State.bumpDev_deviceKept a _)).trans k.device
  notices := (State.bumpDev_noticesKept a _).congr h.notices k.notices
  slots m hm := (k.slots m hm).trans (h.slots m hm)
  store := (h.store.mono (by simp)).trans (((State.bumpDev_storeKept a _).mono (by simp)).trans (k.store.mono (by simp)))

/-- R181: a request of channel c, in execution in a state a that differs from s in its slot alone, completed with a reply that the response
half can hold. -/
theorem OnlyAnswered.complete (h : SlotOnly s a (chanSlot c)) (he : Executing a (chanSlot c) half) (hd : r.detail.length ≤ 8)
    (hp : r.payload.length ≤ 364) : OnlyAnswered s (a.complete (chanSlot c) r) c (reqTag half) (reqKindCode half) r := by
  have hlen := Reply.half_length hd hp (reqTag half) (reqKindCode half)
  have hbump : (a.responded (chanSlot c) half r).bumpResponses (chanSlot c) = (a.responded (chanSlot c) half r).bumpChan c .responses := by
    have hs : slotChan (chanSlot c) = some c := dif_pos c.isLt
    rw [State.bumpResponses, hs]
  have hans := State.finish_answered he hlen
  rw [State.complete_of_executing he]
  rw [State.finish_of_executing he, hbump] at hans ⊢
  exact .of_slotOnly (h.responded hlen) ((SlotOnly.refl _ _).modSlot _) hans

/-- R181: a request of the device slot, in execution in a state a that differs from s in that slot alone, completed with a reply that the
response half can hold. -/
theorem OnlyDeviceAnswered.complete (h : SlotOnly s a deviceSlot) (he : Executing a deviceSlot half) (hd : r.detail.length ≤ 8)
    (hp : r.payload.length ≤ 364) : OnlyDeviceAnswered s (a.complete deviceSlot r) (reqTag half) (reqKindCode half) r := by
  have hlen := Reply.half_length hd hp (reqTag half) (reqKindCode half)
  have hans := State.finish_answered he hlen
  rw [State.complete_of_executing he]
  rw [State.finish_of_executing he] at hans ⊢
  exact .of_slotOnly (h.responded hlen) ((SlotOnly.refl _ _).modSlot _) hans

/-! ### The host's writes -/

theorem State.hostBytes_slots (l : List Byte) (s : State) (o : Nat) (b : Bool) : (s.hostBytes o b l).slots = s.slots := by
  induction l generalizing s o with
  | nil => rfl
  | cons v vs ih =>
    refine (ih _ _).trans ?_
    unfold State.hostByte
    split <;> rfl

/-- R180: a host write of the window reaches no executing latch. -/
theorem exec_registerWriteOther_slots {o : Nat} {l : List Byte} {w : HostTiming}
    (h : exec (.registerWriteOther o l w) s = .next t) : t.slots = s.slots := by
  have ht : (s.advanceTouched (touchedOffsets o l.length) w.recordsRead).hostBytes o w.afterInit l = t := Host.Outcome.next.inj h
  rw [← ht, State.hostBytes_slots, ((Keeps.refl s).advanceTouched _ _).slots]

/-- Settles O16: a post of a free slot is stray or a take by the slot's state field; a take ends in a completion or in execution by what the
dispatch answers; and of a kind code of no request the dispatch answers UNKNOWN_REQUEST with the state untouched. -/
theorem slotPostTakesAPostedRequest : Obligations.SlotPostTakesAPostedRequest := by
  refine ⟨fun n s h hp => ?stray, fun n s h hp => ?taken, fun c s h hp => ?channel, fun s h hp => ?device, ?hostWrite⟩
  case stray =>
    rw [exec_slotPost_ready h.phase, State.postSlot_stray h hp]
    rfl
  case taken =>
    rw [exec_slotPost_ready h.phase]
    dsimp only
    split
    next r hd => rw [State.postSlot_completed h hp hd]; rfl
    next hd => rw [State.postSlot_executing h hp hd]; rfl
  case channel =>
    intro half kind hkind
    refine ⟨_, exec_slotPost_ready h.phase _, ?_⟩
    rw [State.postSlot_answered h hp (State.dispatch_channel_unknown _ c (ReqKind.ofChannelCode_eq_none hkind))]
    exact .complete (SlotOnly.refl s _).copied (State.copied_executing h) (by simp [Reply.unknown]) (by simp [Reply.unknown])
  case device =>
    intro half kind hkind
    refine ⟨_, exec_slotPost_ready h.phase _, ?_⟩
    rw [State.postSlot_answered h hp (State.dispatch_device_unknown _ (ReqKind.ofDeviceCode_eq_none hkind))]
    exact .complete (SlotOnly.refl s _).copied (State.copied_executing h) (by simp [Reply.unknown]) (by simp [Reply.unknown])
  case hostWrite => exact fun _ _ _ _ _ h => exec_registerWriteOther_slots h

end Sys2Proof.Machine

/-!
What every command keeps: it answers a next state and leaves the queue (00_scope section 4.5), and it keeps a sound state sound and the
pools of every channel sound.
-/

namespace Sys2Proof.Machine

variable {s t : State}

/-! ### One step -/

/-- 00_scope section 4.5: with a command at the front of the queue the step is that command, run on the rest. -/
theorem step_cons {i : Instr} {rest : List Instr} (h : s.pending = i :: rest) : step s = exec i { s with pending := rest } := by
  unfold step
  rw [h]

/-- Log 9: with an empty queue the step is 10 µs of idling. -/
theorem step_nil (h : s.pending = []) : step s = .next s.idle := by
  unfold step
  rw [h]

/-- A step is a command run on the rest of the queue, or 10 µs of idling. -/
theorem step_cases (h : step s = .next t) :
    (∃ i rest, exec i { s with pending := rest } = .next t) ∨ t = s.idle := by
  cases hq : s.pending with
  | nil => exact .inr (Host.Outcome.next.inj ((step_nil hq).symm.trans h)).symm
  | cons i rest => exact .inl ⟨i, rest, (step_cons hq).symm.trans h⟩

/-- Settles O1: a step takes the command at the front. -/
theorem stepRunsTheFrontCommand : Obligations.StepRunsTheFrontCommand := fun _ _ _ h => step_cons h

/-! ### The idle step -/

/-- An operation that leaves the state at every channel leaves it over all of them. -/
theorem State.forChans_id {f : State → Chan → State} (hf : ∀ c, f s c = s) (l : List Chan) : s.forChans f l = s := by
  induction l with
  | nil => rfl
  | cons c cs ih => rw [State.forChans, hf, ih]

/-- R137, log 8: without a due expiry of the interval timer there is none to take. -/
theorem State.intervalExpire_of_not_due (h : s.arb.intervalDue = false) : s.intervalExpire = s := by
  rw [State.intervalExpire, h]
  rfl

/-- R10, log 8: without a due expiry of its link-hold timer a channel has none to take. -/
theorem State.linkHoldExpire_of_not_due {c : Chan} (h : ((s.chan c).linkHold.running && (s.chan c).linkHold.due) = false) :
    s.linkHoldExpire c = s := by
  rw [State.linkHoldExpire, h]
  rfl

theorem State.takeDue_of_none_due (hi : s.arb.intervalDue = false)
    (hl : ∀ c, ((s.chan c).linkHold.running && (s.chan c).linkHold.due) = false) : s.takeDue = s := by
  rw [State.takeDue, State.intervalExpire_of_not_due hi]
  exact State.forChans_id (fun c => State.linkHoldExpire_of_not_due (hl c)) _

/-- R188: a STOPPED pace timer counts nothing. -/
theorem NoticeUnit.tick_of_stopped {n : NoticeUnit} (h : n.pace = none) : n.tick = n := by
  simp only [NoticeUnit.tick, NoticeUnit.judge, h, Option.map_none]
  rw [← h]

/-- R188: a RUNNING pace timer counts, and expires where its count has reached the pace time. -/
theorem NoticeUnit.tick_of_running {n : NoticeUnit} {k : Nat} (h : n.pace = some k) :
    n.tick = if n.paceTime ≤ k + 1 then { n with pace := some (k + 1) }.expire else { n with pace := some (k + 1) } := by
  simp only [NoticeUnit.tick, NoticeUnit.judge, h, Option.map_some]

/-- Settles O2: with nothing due, the idle step is the pace timer's tick. -/
theorem anEmptyQueueCountsTenMicroseconds : Obligations.AnEmptyQueueCountsTenMicroseconds := by
  intro s hq hi hl
  have hidle : s.idle = { s with notices := s.notices.tick } := by rw [State.idle, State.takeDue_of_none_due hi hl]
  refine ⟨fun hp => ?_, fun k hp => ?_⟩
  · rw [step_nil hq, hidle, NoticeUnit.tick_of_stopped hp]
  · rw [step_nil hq, hidle, NoticeUnit.tick_of_running hp]

/-! ### Every command -/

/-- What every command keeps: the queue, and the soundness of a state. -/
structure Completes (s t : State) : Prop where
  pending : t.pending = s.pending
  ok : s.Ok → t.Ok

theorem Holds.completes (h : Holds s t) : Completes s t := ⟨h.pending, h.ok⟩

theorem Keeps.completes (h : Keeps s t) : Completes s t := h.holds.completes

/-- A command that acts on its state or leaves it, by a condition. -/
theorem Completes.ite {p : Prop} [Decidable p] (h : p → Completes s t) : Completes s (if p then t else s) := by
  by_cases hp : p
  · rw [if_pos hp]; exact h hp
  · rw [if_neg hp]; exact ⟨rfl, id⟩

/-- The Notice Unit replaced by one of the same pace time. -/
theorem Completes.setNotices (s : State) (n : NoticeUnit) (h : n.paceTime < 2 ^ 16 ∨ n.paceTime = s.notices.paceTime) :
    Completes s { s with notices := n } where
  pending := rfl
  ok o := ⟨o.store, o.chans, o.wanted, h.elim id fun e => e ▸ o.paceTime, o.timer⟩

theorem Completes.modChan (s : State) (c : Chan) (f : Channel → Channel) (hf : (s.chan c).Ok → (f (s.chan c)).Ok) :
    Completes s (s.modChan c f) := ((Keeps.refl s).modChan c f hf).completes

/-- R176: a write of CONTROL resets the part or sets ATTN_ENABLE. -/
theorem State.controlWrite_completes (s : State) (v : U32) : Completes s (s.controlWrite v) := by
  unfold State.controlWrite
  split
  · exact ⟨rfl, s.softReset_ok⟩
  · exact .setNotices s _ (.inr rfl)

/-- R177: the completion of the initialisation keeps the store canonical and starts the timer with READY. -/
theorem State.initialise_completes (s : State) :
    Completes s { s with store := s.restoreKept s.initialised, initKept := [], phase := .ready, timerRunning := true } where
  pending := rfl
  ok o := ⟨s.initialised_wf o.store, o.chans, o.wanted, o.paceTime, ⟨fun _ => rfl, fun _ => rfl⟩⟩

/-- An edge of a line handled by every channel, and counted. -/
theorem Keeps.edge {f : State → Chan → State} (hf : ∀ t c, Keeps t (f t c)) (k : DevCount) (s : State) :
    Keeps s ((s.forChans f allChans).bumpDev k) := ((Keeps.refl s).forChans hf _).bumpDev k

/-- The level of a line is no part of soundness. -/
theorem Keeps.ofLevel {u : State} (h : Keeps u t) (hp : u.pending = s.pending) (ho : s.Ok → u.Ok) : Completes s t :=
  ⟨h.pending.trans hp, fun o => h.ok (ho o)⟩

theorem State.Ok.setStopAll (h : s.Ok) (b : Bool) : State.Ok { s with stopAll := b } := ⟨h.store, h.chans, h.wanted, h.paceTime, h.timer⟩

theorem State.Ok.setLinkOk (h : s.Ok) (b : Bool) : State.Ok { s with linkOk := b } := ⟨h.store, h.chans, h.wanted, h.paceTime, h.timer⟩

theorem State.Ok.setPending (h : s.Ok) (l : List Instr) : State.Ok { s with pending := l } :=
  ⟨h.store, h.chans, h.wanted, h.paceTime, h.timer⟩

theorem State.expire_pending (s : State) (sched : Schedule) : (s.expire sched).pending = s.pending := by
  have hperiod := ((Keeps.refl s).takeDue.holds.endPeriods sched).tickTimers
  exact ((Holds.refl _).sendFrames _ _).pending.trans hperiod.pending

/-! ### Queue and soundness, command by command -/

theorem State.hostRequest_completes (s : State) (n : SlotIx) (k : ReqKind) (tag : U32) (l : List Byte) :
    Completes s (s.hostRequest n k tag l) := ((Holds.refl s).hostRequest n k tag l).completes

theorem State.takePost_completes (s : State) (code : Nat) : Completes s (s.takePost code) :=
  ((Holds.refl s).takePost code).completes

/-- Every command answers a next state, which keeps the queue and is sound where the state was. -/
theorem exec_completes (i : Instr) (s : State) : ∃ t, exec i s = .next t ∧ Completes s t := by
  cases i with
  | powerOnReset a b =>
    have h := State.powerOn_ok a b
    exact ⟨_, rfl, rfl, fun _ => h.setPending _⟩
  | initialisationComplete => exact ⟨_, rfl, .ite fun _ => s.initialise_completes⟩
  | softReset v => exact ⟨_, rfl, s.controlWrite_completes v⟩
  | attnEnableWrite v => exact ⟨_, rfl, s.controlWrite_completes v⟩
  | attentionClear v => exact ⟨_, rfl, .setNotices s _ (.inr rfl)⟩
  | paceWrite v =>
    refine ⟨_, rfl, .setNotices s _ (.inl ?_)⟩
    rw [NoticeUnit.setPace, NoticeUnit.judge_paceTime]
    exact Nat.mod_lt _ (by decide)
  | registerWriteOther o l w =>
    have h := (Keeps.refl s).advanceTouched (touchedOffsets o l.length) w.recordsRead
    exact ⟨_, rfl, (State.hostBytes_pending ..).trans h.pending, fun ok => State.hostBytes_ok _ _ _ _ (h.ok ok)⟩
  | slotPost n => exact ⟨_, rfl, s.takePost_completes _⟩
  | strayPost code => exact ⟨_, rfl, s.takePost_completes _⟩
  | poolRelease c p => exact ⟨_, rfl, s.takePost_completes _⟩
  | abort c => exact ⟨_, rfl, s.takePost_completes _⟩
  | enable | disable | loadPlan | start | pause | resume | stop | faultAck | setLimits | setCal | setWatch | clearWatch | jump
  | flush | status | counters | setLink | setPair | deviceCounters => exact ⟨_, rfl, s.hostRequest_completes ..⟩
  | loadCompletion c => exact ⟨_, rfl, ((Holds.refl s).completeLoad c).completes⟩
  | sampleTimerExpiry sched => exact ⟨_, rfl, .ite fun _ => ⟨s.expire_pending sched, s.expire_ok sched⟩⟩
  | bringUpLimit c => exact ⟨_, rfl, .ite fun _ => ((Holds.refl s).endBringUp c).completes⟩
  | responseFrame c frame late => exact ⟨_, rfl, ((Holds.refl s).responseFrame c frame late).completes⟩
  | chopEnd c => exact ⟨_, rfl, .modChan s c _ (Channel.chopEnd_ok _)⟩
  | blankingExpiry c => exact ⟨_, rfl, .modChan s c _ (Channel.blankingEnd_ok _)⟩
  | softWindowExpiry c => exact ⟨_, rfl, .modChan s c _ (Channel.windowEnd_ok _)⟩
  | contactCheckFail c => exact ⟨_, rfl, ((Keeps.refl s).contactFail c).completes⟩
  | linkHoldExpiry c => exact ⟨_, rfl, ((Keeps.refl s).linkHoldExpire c).completes⟩
  | stopAllAssert =>
    refine ⟨_, rfl, ?_⟩
    split
    · exact ⟨rfl, id⟩
    · exact (Keeps.edge (fun t c => (Keeps.refl t).externalStop c) _ _).ofLevel rfl (·.setStopAll true)
  | stopAllRelease =>
    exact ⟨_, rfl, .ite fun _ => ((Keeps.refl _).bumpDev _).ofLevel rfl (·.setStopAll false)⟩
  | linkOkFall =>
    exact ⟨_, rfl, .ite fun _ =>
      (Keeps.edge (fun t c => (Keeps.refl t).joinLinkDown c) _ _).ofLevel rfl (·.setLinkOk false)⟩
  | linkOkRise =>
    refine ⟨_, rfl, ?_⟩
    split
    · exact ⟨rfl, id⟩
    · exact (Keeps.edge (fun t c => (Keeps.refl t).leaveCause c .linkDown) _ _).ofLevel rfl (·.setLinkOk true)
  | arbiterLinkEdge rising => exact ⟨_, rfl, ((Keeps.refl s).arbiterEdge rising).completes⟩
  | intervalTimerExpiry => exact ⟨_, rfl, (Keeps.refl s).intervalExpire.completes⟩
  | paceTimerExpiry => exact ⟨_, rfl, .ite fun _ => .setNotices s _ (.inr (NoticeUnit.expire_paceTime _))⟩

/-- Settles O3: every arm of the dispatch completes. -/
theorem everyCommandCompletesAndKeepsTheQueue : Obligations.EveryCommandCompletesAndKeepsTheQueue := fun i s =>
  let ⟨t, ht, h⟩ := exec_completes i s
  ⟨t, ht, h.pending⟩

/-- Settles O5: the front command or the idle step, either of which keeps a sound state sound. -/
theorem stepKeepsTheStateSound : Obligations.StepKeepsTheStateSound := by
  intro s t ok h
  obtain ⟨i, rest, hi⟩ | rfl := step_cases h
  · obtain ⟨u, hu, k⟩ := exec_completes i { s with pending := rest }
    cases hu.symm.trans hi
    exact k.ok (ok.setPending rest)
  · exact s.idle_ok ok

/-! ### Pools -/

theorem State.LogsOk.quiet (h : s.LogsOk) (d : Chan) : (s.chan d).log.report = false := (h.logs d).report

/-- What soundness of the pools speaks of: the channels. -/
theorem State.LogsOk.ofChans (h : s.LogsOk) (hc : t.chans = s.chans) : t.LogsOk := by
  have hchan (c : Chan) : t.chan c = s.chan c := by rw [State.chan, hc]; rfl
  exact ⟨fun c => hchan c ▸ h.logs c, fun c => hchan c ▸ h.unheld c⟩

/-- Every channel at reset values has the pools of R145. -/
theorem State.LogsOk.ofReset (h : ∀ c, (s.chan c).log = .reset ∧ (s.chan c).st = .disabled) : s.LogsOk :=
  ⟨fun c => (h c).1 ▸ Logger.reset_ok, fun c hc => by rw [(h c).2] at hc; cases hc⟩

theorem State.softReset_chan (s : State) (c : Chan) : s.softReset.chan c = (s.chan c).softReset := by
  simp [State.chan, State.softReset]

theorem State.powerOn_chan (a b : Bool) (c : Chan) : (State.powerOn a b).chan c = Channel.reset := by
  simp [State.chan, State.powerOn]

theorem State.softReset_logsOk (s : State) : s.softReset.LogsOk := .ofReset fun c => by
  rw [s.softReset_chan]
  exact ⟨rfl, rfl⟩

theorem State.powerOn_logsOk (a b : Bool) : (State.powerOn a b).LogsOk := .ofReset fun c => by
  rw [State.powerOn_chan]
  exact ⟨rfl, rfl⟩

/-- Settles O4: by the two invariants of a machine at its power-on values. -/
theorem powerOnIsSound : Obligations.PowerOnIsSound := fun a b => ⟨State.powerOn_ok a b, State.powerOn_logsOk a b⟩

/-- What a command does to the pools: they stay sound, and a byte that the host owns stands. -/
structure Logged (s t : State) : Prop where
  ok : t.LogsOk
  mem : ∀ a, HostArea a → t.store.read a = s.store.read a

theorem Logs.logged (h : Logs none s t) (o : s.LogsOk) : Logged s t :=
  ⟨h.logsOk o, h.mem fun c => (o.logs c).sound⟩

theorem Logged.ofChans (o : s.LogsOk) (hc : t.chans = s.chans) (hm : t.store = s.store) : Logged s t :=
  ⟨o.ofChans hc, fun _ _ => by rw [hm]⟩

theorem Logged.ite {p : Prop} [Decidable p] (o : s.LogsOk) (h : p → Logged s t) : Logged s (if p then t else s) := by
  by_cases hp : p
  · rw [if_pos hp]; exact h hp
  · rw [if_neg hp]; exact .ofChans o rfl rfl

theorem Logged.modChan (o : s.LogsOk) (c : Chan) (f : Channel → Channel)
    (e : (f (s.chan c)).log = (s.chan c).log ∧ (f (s.chan c)).st = (s.chan c).st ∧ (f (s.chan c)).hold = (s.chan c).hold) :
    Logged s (s.modChan c f) := (Logs.modSame (.refl none s) c f e).logged o

theorem State.hostRequest_logged (o : s.LogsOk) (n : SlotIx) (k : ReqKind) (tag : U32) (l : List Byte) (hl : l.length ≤ 0x100) :
    Logged s (s.hostRequest n k tag l) := (Logs.hostRequest n k tag l hl o.quiet).logged o

theorem State.takePost_logged (o : s.LogsOk) (code : Nat) : Logged s (s.takePost code) := (Logs.takePost code o.quiet).logged o

theorem State.controlWrite_logged (o : s.LogsOk) (v : U32) : Logged s (s.controlWrite v) := by
  unfold State.controlWrite
  split
  · exact ⟨s.softReset_logsOk, fun _ _ => rfl⟩
  · exact .ofChans o rfl rfl

/-- An edge of a line handled by every channel, and counted; the line's level is no part of the pools' soundness. -/
theorem Logged.edge {f : State → Chan → State} (hf : ∀ t c, Logs none t (f t c)) (k : DevCount) {u : State} (o : s.LogsOk)
    (hc : u.chans = s.chans) (hm : u.store = s.store) : Logged s ((u.forChans f allChans).bumpDev k) := by
  have h := (((Logs.refl none u).forChans hf allChans).bumpDev k).logged (o.ofChans hc)
  exact ⟨h.ok, fun a ha => (h.mem a ha).trans (by rw [hm])⟩

/-! ### The initialisation of the store -/

/-- R177, log 6: a byte written by the host after the initialisation had passed it reads as the host wrote it, another as initialised. -/
theorem State.restoreKept_read (s : State) (m : Mem) (a : Nat) :
    (s.restoreKept m).read a = if a ∈ s.initKept then s.store.read a else m.read a := by
  unfold State.restoreKept
  generalize s.initKept = l
  induction l generalizing m with
  | nil => rfl
  | cons b bs ih =>
    rw [List.foldl_cons, ih]
    by_cases hb : a = b
    · subst hb
      simp
    · simp [hb, Mem.read_write_ne _ _ hb]

/-- What every step of a fold leaves of a store, the fold leaves. -/
theorem foldl_read {α : Type} {f : Mem → α → Mem} {a : Nat} (hf : ∀ m x, (f m x).read a = m.read a) (l : List α) (m : Mem) :
    (l.foldl f m).read a = m.read a := by
  induction l generalizing m with
  | nil => rfl
  | cons x xs ih => rw [List.foldl_cons, ih, hf]

theorem deviceHeader_length (count : U32) : (deviceHeader count).length = 256 :=
  padTo_length _ _ (by simp [layoutFigures])

theorem ChanNotice.bytes_length (n : ChanNotice) : n.bytes.length = 64 := padTo_length _ _ (by simp)

theorem DevNotice.bytes_length (n : DevNotice) : n.bytes.length = 64 := padTo_length _ _ (by simp)

/-- R175: the areas of the store that the initialisation writes, as the statements name them. -/
def initAreas : List (Nat × Nat) := [(0, 256), (0x100, 64), (0x200, 1024), (0x1000, 0x2200), (0x4000, 1024)]

/-- R177: the initialisation writes the device header, the Notice Records, the slots and the pool headers alone. -/
theorem State.initialised_read (s : State) {a : Nat} (h : ∀ r ∈ initAreas, a < r.1 ∨ r.1 + r.2 ≤ a) :
    s.initialised.read a = s.store.read a := by
  simp only [initAreas, List.forall_mem_cons] at h
  obtain ⟨hheader, hdev, hnotices, hslots, hpools, -⟩ := h
  have hlen (side : PartSide) := PoolHeader.bytes_length (.reset side)
  unfold State.initialised
  dsimp only
  rw [foldl_read, Mem.read_clear_ne, foldl_read, Mem.read_writeBytes_ne, Mem.read_writeBytes_ne]
  · rw [deviceHeader_length]; omega
  · rw [DevNotice.bytes_length, Config.devNotice]; omega
  · intro m c
    have := c.isLt
    refine Mem.read_writeBytes_ne _ _ _ _ ?_
    rw [ChanNotice.bytes_length, Config.chanNotice]
    omega
  · simp only [Config.slotBase, Fin.val_zero]
    omega
  · intro m c
    have := c.isLt
    rw [Mem.read_writeBytes_ne, Mem.read_writeBytes_ne] <;> rw [hlen, Config.headerBase, Config.poolNo] <;> omega

/-- R177: the initialisation leaves the bytes of the Plan Areas and of the free area. -/
theorem State.initialise_hostArea (s : State) {a : Nat} (ha : HostArea a) : (s.restoreKept s.initialised).read a = s.store.read a := by
  have hout : ∀ r ∈ initAreas, a < r.1 ∨ r.1 + r.2 ≤ a := by
    intro r hr
    unfold HostArea at ha
    fin_cases hr <;> dsimp only <;> omega
  rw [State.restoreKept_read, s.initialised_read hout, ite_self]

/-! ### Pools, command by command -/

/-- Every command but a power-on and a host write keeps the pools sound and the bytes that the host owns. -/
theorem exec_logged {i : Instr} (hpower : ∀ a b, i ≠ .powerOnReset a b) (hwrite : ∀ o l w, i ≠ .registerWriteOther o l w)
    (o : s.LogsOk) (h : exec i s = .next t) : Logged s t := by
  have quick (u : State) (hu : exec i s = .next u) (hl : Logged s u) : Logged s t := Host.Outcome.next.inj (hu.symm.trans h) ▸ hl
  have r := Logs.refl none s
  cases i with
  | powerOnReset a b => exact absurd rfl (hpower a b)
  | registerWriteOther o l w => exact absurd rfl (hwrite o l w)
  | initialisationComplete => exact quick _ rfl (.ite o fun _ => ⟨o.ofChans rfl, fun _ => s.initialise_hostArea⟩)
  | softReset v => exact quick _ rfl (s.controlWrite_logged o v)
  | attnEnableWrite v => exact quick _ rfl (s.controlWrite_logged o v)
  | attentionClear v => exact quick _ rfl (.ofChans o rfl rfl)
  | paceWrite v => exact quick _ rfl (.ofChans o rfl rfl)
  | slotPost n => exact quick _ rfl (s.takePost_logged o _)
  | strayPost code => exact quick _ rfl (s.takePost_logged o _)
  | poolRelease c p => exact quick _ rfl (s.takePost_logged o _)
  | abort c => exact quick _ rfl (s.takePost_logged o _)
  | setLimits c tag w =>
    exact quick _ rfl (s.hostRequest_logged o _ _ _ _ (by simp [limitWordBytes]))
  | enable | disable | loadPlan | start | pause | resume | stop | faultAck | setCal | setWatch | clearWatch | jump | flush | status
  | counters | setLink | setPair | deviceCounters => exact quick _ rfl (s.hostRequest_logged o _ _ _ _ (by simp))
  | loadCompletion c => exact quick _ rfl ((r.completeLoad c).logged o)
  | sampleTimerExpiry sched => exact quick _ rfl (.ite o fun _ => (r.expire sched).logged o)
  | bringUpLimit c => exact quick _ rfl (.ite o fun _ => (r.endBringUp c).logged o)
  | responseFrame c frame late => exact quick _ rfl ((r.responseFrame c frame late).logged o)
  | chopEnd c => exact quick _ rfl (.modChan o c _ (Channel.chopEnd_same _))
  | blankingExpiry c => exact quick _ rfl (.modChan o c _ (Channel.blankingEnd_same _))
  | softWindowExpiry c => exact quick _ rfl (.modChan o c _ (Channel.windowEnd_same _))
  | contactCheckFail c => exact quick _ rfl ((r.contactFail c).logged o)
  | linkHoldExpiry c => exact quick _ rfl ((r.linkHoldExpire c).logged o)
  | stopAllAssert =>
    refine quick _ rfl ?_
    split
    · exact .ofChans o rfl rfl
    · exact .edge (fun t c => (Logs.refl none t).externalStop c) _ o rfl rfl
  | stopAllRelease =>
    refine quick _ rfl (.ite o fun _ => ?_)
    have k := ((Logs.refl none { s with stopAll := false }).bumpDev .stopAllChanges).logged (o.ofChans rfl)
    exact ⟨k.ok, k.mem⟩
  | linkOkFall => exact quick _ rfl (.ite o fun _ => .edge (fun t c => (Logs.refl none t).joinLinkDown c) _ o rfl rfl)
  | linkOkRise =>
    refine quick _ rfl ?_
    split
    · exact .ofChans o rfl rfl
    · exact .edge (fun t c => (Logs.refl none t).leaveCause c .linkDown) _ o rfl rfl
  | arbiterLinkEdge rising => exact quick _ rfl ((r.arbiterEdge rising).logged o)
  | intervalTimerExpiry => exact quick _ rfl (r.intervalExpire.logged o)
  | paceTimerExpiry => exact quick _ rfl (.ite o fun _ => .ofChans o rfl rfl)

/-- A power-on brings the pools of R145, and a host write does not touch the Logger's state. -/
theorem exec_logsOk {i : Instr} (o : s.LogsOk) (h : exec i s = .next t) : t.LogsOk := by
  by_cases hpower : ∃ a b, i = .powerOnReset a b
  · obtain ⟨a, b, rfl⟩ := hpower
    exact Host.Outcome.next.inj h ▸ (State.powerOn_logsOk a b).ofChans rfl
  by_cases hwrite : ∃ o l w, i = .registerWriteOther o l w
  · obtain ⟨a, l, w, rfl⟩ := hwrite
    have k := ((Logs.refl none s).advanceTouched (touchedOffsets a l.length) w.recordsRead).logsOk o
    exact Host.Outcome.next.inj h ▸ k.ofChans (State.hostBytes_chans l _ a w.afterInit)
  · exact (exec_logged (fun a b e => hpower ⟨a, b, e⟩) (fun a l w e => hwrite ⟨a, l, w, e⟩) o h).ok

/-- Log 9: 10 µs without a command keep the pools sound. -/
theorem State.idle_logsOk (o : s.LogsOk) : s.idle.LogsOk := by
  have k := (Logs.refl none s).takeDue.logsOk o
  unfold State.idle
  generalize s.takeDue = s1 at k ⊢
  exact k.ofChans rfl

/-- Settles O6: the front command or the idle step. -/
theorem stepKeepsThePoolsSound : Obligations.StepKeepsThePoolsSound := by
  intro s t o h
  obtain ⟨i, rest, hi⟩ | rfl := step_cases h
  · exact exec_logsOk (s := { s with pending := rest }) (o.ofChans rfl) hi
  · exact s.idle_logsOk o

/-- Settles O7: no other command writes a byte of the areas that the host owns. -/
theorem planAreasAndFreeAreaAreTheHosts : Obligations.PlanAreasAndFreeAreaAreTheHosts :=
  fun _ _ _ o hpower hwrite h a ha => (exec_logged hpower hwrite o h).mem a ha

end Sys2Proof.Machine

/-!
The resets, the initialisation of the store, the registers and the window, and the decode of post codes (10, sections 10.1 to 10.3, 10.6
and 10.7).
-/

namespace Sys2Proof.Machine

variable {s t : State}

/-! ### Bytes of the store -/

theorem Mem.getElem_readBytes (m : Mem) (a n k : Nat) (h : k < (m.readBytes a n).length) : (m.readBytes a n)[k] = m.read (a + k) := by
  induction n generalizing a k with
  | zero => exact absurd h (by simp)
  | succ n ih =>
    cases k with
    | zero => rfl
    | succ k =>
      simp only [Mem.readBytes, List.getElem_cons_succ]
      rw [ih]
      congr 1
      omega

/-- The n bytes at offset o of what was written. -/
theorem Mem.readBytes_writeBytes_slice (m : Mem) (a o n : Nat) (l : List Byte) (h : o + n ≤ l.length) :
    (m.writeBytes a l).readBytes (a + o) n = (l.drop o).take n := by
  refine List.ext_getElem (by simp; omega) fun k hk _ => ?_
  rw [Mem.readBytes_length] at hk
  rw [Mem.getElem_readBytes, Nat.add_assoc, Mem.read_writeBytes _ _ _ _ (by omega)]
  simp

/-- A property of the store that the step of x brings and every other step keeps holds after a fold that reaches x. -/
theorem foldl_brings {α : Type} {f : Mem → α → Mem} {P : Mem → Prop} {x : α} (hx : ∀ m, P (f m x)) (hk : ∀ m y, y ≠ x → P m → P (f m y))
    {l : List α} (hl : x ∈ l) (m : Mem) : P (l.foldl f m) := by
  have keeps (l : List α) (m : Mem) (h : P m) : P (l.foldl f m) := by
    induction l generalizing m with
    | nil => exact h
    | cons y ys ih =>
      by_cases hy : y = x
      · exact ih _ (hy ▸ hx m)
      · exact ih _ (hk m y hy h)
  induction l generalizing m with
  | nil => cases hl
  | cons y ys ih =>
    by_cases hy : y = x
    · exact keeps ys _ (hy ▸ hx m)
    · exact ih ((List.mem_cons.mp hl).resolve_left (Ne.symm hy)) _

/-! ### The initialisation of the store -/

/-- R177: the store after the device header and the Notice Records are written, before the slots are cleared. -/
def State.noticesWritten (s : State) : Mem :=
  allChans.foldl (fun m c => Mem.writeBytes m (Config.chanNotice c) (s.notices.chan[c]).bytes)
    (Mem.writeBytes (Mem.writeBytes s.store 0 (deviceHeader s.initCount)) Config.devNotice s.notices.dev.bytes)

/-- R177: the two pool headers of channel c written. -/
def headersWritten (m : Mem) (c : Chan) : Mem :=
  Mem.writeBytes (Mem.writeBytes m (Config.headerBase c .a) (PoolHeader.reset .filling).bytes) (Config.headerBase c .b)
    (PoolHeader.reset .waiting).bytes

theorem State.initialised_eq (s : State) :
    s.initialised = allChans.foldl headersWritten (Mem.clear s.noticesWritten (Config.slotBase 0) (17 * 512)) := rfl

/-- R175: the pool headers of channel c lie in their two places. -/
theorem headersWritten_read (m : Mem) (c : Chan) {a : Nat} (h : a < 0x4000 + 64 * c.val ∨ 0x4000 + 64 * c.val + 64 ≤ a) :
    (headersWritten m c).read a = m.read a := by
  have hlen (side : PartSide) := PoolHeader.bytes_length (.reset side)
  unfold headersWritten
  rw [Mem.read_writeBytes_ne, Mem.read_writeBytes_ne] <;> rw [hlen, Config.headerBase, Config.poolNo] <;> omega

/-- Below the pool headers the store reads as the slots' clearing left it. -/
theorem State.initialised_read_low (s : State) {a : Nat} (h : a < 0x4000) :
    s.initialised.read a = (Mem.clear s.noticesWritten (Config.slotBase 0) (17 * 512)).read a := by
  rw [s.initialised_eq]
  exact foldl_read (fun m c => headersWritten_read m c (.inl (by omega))) _ _

/-- R177: the slots read as zeros. -/
theorem State.initialised_slots (s : State) {a : Nat} (hlo : 0x1000 ≤ a) (hhi : a < 0x3200) : s.initialised.read a = 0 := by
  rw [s.initialised_read_low (by omega)]
  exact Mem.read_clear _ _ _ _ (by simp [Config.slotBase]; omega) (by simp [Config.slotBase]; omega)

/-- Below the slots the store reads as the Notice Records' writing left it. -/
theorem State.initialised_readBytes_low (s : State) {a n : Nat} (h : a + n ≤ 0x1000) :
    s.initialised.readBytes a n = s.noticesWritten.readBytes a n :=
  Mem.readBytes_congr _ _ _ _ fun b _ _ => by
    rw [s.initialised_read_low (by omega)]
    exact Mem.read_clear_ne _ _ _ _ (.inl (by simp [Config.slotBase]; omega))

/-- Below the channels' Notice Records the store reads as the device's part of the initialisation left it. -/
theorem State.noticesWritten_readBytes_low (s : State) {a n : Nat} (h : a + n ≤ 0x200) :
    s.noticesWritten.readBytes a n =
      (Mem.writeBytes (Mem.writeBytes s.store 0 (deviceHeader s.initCount)) Config.devNotice s.notices.dev.bytes).readBytes a n :=
  Mem.readBytes_congr _ _ _ _ fun b _ _ => foldl_read (fun m c =>
    Mem.read_writeBytes_ne _ _ _ _ (.inl (by rw [Config.chanNotice]; omega))) _ _

/-- R175, R177: n bytes at offset o of the device header. -/
theorem State.initialised_header (s : State) {o n : Nat} (h : o + n ≤ 256) :
    s.initialised.readBytes o n = ((deviceHeader s.initCount).drop o).take n := by
  rw [s.initialised_readBytes_low (by omega), s.noticesWritten_readBytes_low (by omega),
    Mem.readBytes_writeBytes_ne _ _ _ _ _ (.inl (by rw [Config.devNotice]; omega))]
  have hslice := Mem.readBytes_writeBytes_slice s.store 0 o n (deviceHeader s.initCount) (by rw [deviceHeader_length]; omega)
  rwa [Nat.zero_add] at hslice

theorem State.initialised_ident (s : State) : s.initialised.readBytes 0 4 = leBytes 4 0x4C4A0110 :=
  (s.initialised_header (by decide)).trans rfl

theorem State.initialised_count (s : State) : s.initialised.readBytes 32 4 = leBytes 4 s.initCount.toNat :=
  (s.initialised_header (by decide)).trans rfl

theorem State.initialised_devNotice (s : State) : s.initialised.readBytes Config.devNotice 64 = s.notices.dev.bytes := by
  rw [s.initialised_readBytes_low (by decide), s.noticesWritten_readBytes_low (by decide)]
  have hread := Mem.readBytes_writeBytes (Mem.writeBytes s.store 0 (deviceHeader s.initCount)) Config.devNotice s.notices.dev.bytes
  rwa [DevNotice.bytes_length] at hread

theorem State.initialised_chanNotice (s : State) (c : Chan) :
    s.initialised.readBytes (Config.chanNotice c) 64 = (s.notices.chan[c]).bytes := by
  have hlen (d : Chan) := ChanNotice.bytes_length s.notices.chan[d]
  rw [s.initialised_readBytes_low (by rw [Config.chanNotice]; omega)]
  refine foldl_brings (P := fun m => m.readBytes (Config.chanNotice c) 64 = (s.notices.chan[c]).bytes) (fun m => ?_)
    (fun m d hd h => ?_) (List.mem_finRange c) _
  · have hread := Mem.readBytes_writeBytes m (Config.chanNotice c) (s.notices.chan[c]).bytes
    rwa [hlen] at hread
  · have hne : d.val ≠ c.val := Fin.val_ne_of_ne hd
    refine (Mem.readBytes_writeBytes_ne _ _ _ _ _ ?_).trans h
    rw [hlen, Config.chanNotice, Config.chanNotice]
    omega

/-- R177: the two headers of channel c read as after a reset. -/
def HeadersReset (c : Chan) (m : Mem) : Prop :=
  m.readBytes (Config.headerBase c .a) 32 = (PoolHeader.reset .filling).bytes ∧
    m.readBytes (Config.headerBase c .b) 32 = (PoolHeader.reset .waiting).bytes

theorem headersWritten_self (m : Mem) (c : Chan) : HeadersReset c (headersWritten m c) := by
  have hlen (side : PartSide) := PoolHeader.bytes_length (.reset side)
  constructor
  · refine (Mem.readBytes_writeBytes_ne _ _ _ _ _ (.inl (by simp only [Config.headerBase, Config.poolNo]; omega))).trans ?_
    have hread := Mem.readBytes_writeBytes m (Config.headerBase c .a) (PoolHeader.reset .filling).bytes
    rwa [hlen] at hread
  · have hread := Mem.readBytes_writeBytes (m.writeBytes (Config.headerBase c .a) (PoolHeader.reset .filling).bytes)
      (Config.headerBase c .b) (PoolHeader.reset .waiting).bytes
    rwa [hlen] at hread

theorem HeadersReset.other {m : Mem} {c d : Chan} (h : HeadersReset c m) (hd : d ≠ c) : HeadersReset c (headersWritten m d) := by
  have hne : d.val ≠ c.val := Fin.val_ne_of_ne hd
  have apart (p : PoolId) (hp : Config.poolNo p ≤ 1) :
      (headersWritten m d).readBytes (Config.headerBase c p) 32 = m.readBytes (Config.headerBase c p) 32 := by
    refine Mem.readBytes_congr _ _ _ _ fun b hlo hhi => headersWritten_read m d ?_
    rw [Config.headerBase] at hlo hhi
    omega
  exact ⟨(apart .a (by decide)).trans h.1, (apart .b (by decide)).trans h.2⟩

theorem State.initialised_headers (s : State) (c : Chan) : HeadersReset c s.initialised := by
  rw [s.initialised_eq]
  exact foldl_brings (fun m => headersWritten_self m c) (fun m d hd h => h.other hd) (List.mem_finRange c) _

/-- R177, logs 5 and 6: where the host has written nothing behind the initialisation, the store is as initialised. -/
theorem exec_initialisationComplete_starting (h : s.phase = .starting) (hkept : s.initKept = []) :
    exec .initialisationComplete s = .next { s with store := s.initialised, phase := .ready, timerRunning := true } := by
  have hstore : s.restoreKept s.initialised = s.initialised := by
    simp only [State.restoreKept, hkept, List.foldl_nil]
  refine congrArg Host.Outcome.next ((if_pos h).trans ?_)
  rw [hstore, ← hkept]

/-- Settles O11: area by area of the initialisation's writes. -/
theorem initialisationCompleteBringsReady : Obligations.InitialisationCompleteBringsReady := by
  refine ⟨fun s hphase hkept => ?_, fun s hphase => ?_⟩
  · have hexec := exec_initialisationComplete_starting hphase hkept
    have hareas := And.intro s.initialised_ident <| And.intro s.initialised_count <|
      And.intro (fun a (hlo : 0x1000 ≤ a) (hhi : a < 0x3200) => s.initialised_slots hlo hhi) <|
      And.intro s.initialised_devNotice <| And.intro (fun c : Chan => And.intro (s.initialised_chanNotice c) (s.initialised_headers c))
      fun a (ha : ∀ r ∈ initAreas, a < r.1 ∨ r.1 + r.2 ≤ a) => s.initialised_read ha
    generalize s.initialised = m at hexec hareas
    exact ⟨_, hexec, rfl, hareas⟩
  · refine congrArg Host.Outcome.next (if_neg ?_)
    rw [hphase]
    decide

/-! ### The two resets -/

/-- Settles O10: the values of State.powerOn, part by part. -/
theorem powerOnResetSetsThePowerOnValues : Obligations.PowerOnResetSetsThePowerOnValues := by
  intro a b s
  have hchan (c : Chan) : { State.powerOn a b with pending := s.pending }.chan c = Channel.reset := State.powerOn_chan a b c
  refine ⟨_, rfl, rfl, rfl, rfl, rfl, rfl, rfl, fun n => ?_, rfl, rfl, rfl, rfl, fun k => ?_, fun c => ?_, fun c => ?_⟩
  · simp [State.slot, State.powerOn]
  · simp [State.pair, State.powerOn, Pair.reset]
  · simp [State.link, State.powerOn, Link.reset]
  · rw [hchan c]
    exact ⟨rfl, rfl, rfl, rfl, rfl, rfl, rfl, rfl, rfl, rfl, rfl, rfl⟩

theorem exec_softReset_set {v : U32} (h : v.getLsbD 0 = true) (s : State) : exec (.softReset v) s = .next s.softReset :=
  congrArg Host.Outcome.next (if_pos h)

/-- R174, R178: a link after soft reset; a link that was not SILENT was sent the drive-off frame. -/
theorem State.softReset_link (s : State) (c : Chan) : s.softReset.link c = { Link.reset with
    wire := if (s.link c).state = .silent then (s.link c).wire
      else some (FrameRecord.encode ⟨s.sampleIndex, .demand, false, 0, 0⟩) } := by
  have h : s.softReset.link c = (s.link c).softReset s.sampleIndex := by simp [State.link, State.softReset]
  rw [h, Link.softReset, Link.driveOff]
  split <;> rfl

/-- Settles O12: the values of State.softReset, part by part. -/
theorem softResetKeepsCalibrationAndLifetime : Obligations.SoftResetKeepsCalibrationAndLifetime := by
  intro v s hv
  refine ⟨_, exec_softReset_set hv s, rfl, rfl, rfl, rfl, rfl, rfl, rfl, rfl, fun n => ?_, rfl, rfl, rfl, rfl, fun k => ?_,
    fun c => s.softReset_chan c, fun c => s.softReset_link c⟩
  · simp [State.slot, State.softReset]
  · simp [State.pair, State.softReset]

/-! ### Register writes -/

/-- R187: the bits written as 1 are cleared, the others stand. -/
theorem NoticeUnit.clearBits_bit (n : NoticeUnit) (v : U32) {i : Nat} (h : i < 17) :
    (n.clearBits v).attention.getLsbD i = (n.attention.getLsbD i && !v.getLsbD i) := by
  simp [NoticeUnit.clearBits, h]

/-- Settles O13: by the two writes of the Notice Unit. -/
theorem controlAndAttentionWrites : Obligations.ControlAndAttentionWrites := by
  refine ⟨fun v s hv => ?_, fun v s => ⟨_, rfl, fun i hi => s.notices.clearBits_bit v hi, rfl⟩⟩
  refine congrArg Host.Outcome.next ((if_neg ?_).trans rfl)
  rw [hv]
  decide

/-- R188: what is left at the expiry of the pace timer. -/
theorem NoticeUnit.expire_eq (n : NoticeUnit) : n.expire =
    if n.owed = true ∧ n.attnEnable = true ∧ n.attention ≠ 0 then
      { n with owed := false, sent := n.sent + 1, pace := if n.paceTime = 0 then none else some 0 }
    else { n with owed := false, pace := none } := by
  unfold NoticeUnit.expire NoticeUnit.send
  dsimp only
  by_cases ho : n.owed = true
  · rw [if_pos ho]
    by_cases hsend : n.attnEnable = true ∧ n.attention ≠ 0
    · rw [if_pos (by simpa using hsend), if_pos (show _ ∧ _ ∧ _ from ⟨ho, hsend⟩)]
    · rw [if_neg (by simpa using hsend), if_neg (fun h => hsend h.2)]
  · have hf : n.owed = false := by simpa using ho
    rw [if_neg ho, if_neg (fun h => ho h.1), ← hf]

/-- R176, R188: a write of PACE is judged at once. -/
theorem NoticeUnit.setPace_eq (n : NoticeUnit) (v : U32) : n.setPace v = match n.pace with
    | none => { n with paceTime := v.toNat % 65536 }
    | some k => if v.toNat % 65536 ≤ k then { n with paceTime := v.toNat % 65536 }.expire
      else { n with paceTime := v.toNat % 65536 } := by
  unfold NoticeUnit.setPace NoticeUnit.judge
  dsimp only
  cases n.pace <;> rfl

/-- Settles O14: a write of PACE and the row PACE_TIMER_EXPIRY by the timer's expiry. -/
theorem paceTimeAndPaceTimerExpiry : Obligations.PaceTimeAndPaceTimerExpiry := by
  refine ⟨fun v s => ?_, fun s k hk => ?_, fun s hp => ?_⟩
  · refine (congrArg (fun n => Host.Outcome.next { s with notices := n }) (s.notices.setPace_eq v)).trans ?_
    dsimp only
    cases s.notices.pace with
    | none => rfl
    | some k => simp only [NoticeUnit.expire_eq]
  · refine (congrArg Host.Outcome.next (if_pos (by rw [hk]; rfl))).trans ?_
    rw [NoticeUnit.expire_eq]
  · exact congrArg Host.Outcome.next (if_neg (by rw [hp]; decide))

/-! ### Post codes -/

theorem State.takePost_starting (h : s.phase = .starting) (code : Nat) : s.takePost code = s.stray := if_pos h

/-- R179: the codes outside the ranges are stray. -/
theorem postOf_stray {code : Nat} (h : (17 ≤ code ∧ code < 32) ∨ 80 ≤ code) : postOf code = .stray := by
  unfold postOf
  rw [dif_neg (by omega), dif_neg (by omega), dif_neg (by omega)]

theorem State.takePost_stray {code : Nat} (h : s.phase = .starting ∨ (17 ≤ code ∧ code < 32) ∨ 80 ≤ code) :
    s.takePost code = s.stray := by
  obtain hphase | hcode := h
  · exact State.takePost_starting hphase code
  · unfold State.takePost
    rw [postOf_stray hcode]
    split <;> rfl

theorem exec_strayPost (code : Nat) (h : code < 2 ^ 32) (s : State) : exec (.strayPost (BitVec.ofNat 32 code)) s = .next (s.takePost code) := by
  refine congrArg (fun n => Host.Outcome.next (s.takePost n)) ?_
  rw [BitVec.toNat_ofNat, Nat.mod_eq_of_lt h]

/-- Settles O19: every row of a post goes through the one decode. -/
theorem postCodesDecode : Obligations.PostCodesDecode := by
  have hpool (p : PoolId) : Config.poolNo p ≤ 1 := by cases p <;> decide
  refine ⟨fun code s h => congrArg Host.Outcome.next (State.takePost_stray h), fun n s => exec_strayPost _ (by omega) s,
    fun c p s => exec_strayPost _ (by have := hpool p; omega) s, fun c s => exec_strayPost _ (by omega) s,
    fun n s h => ?_, fun c p s h => ?_, fun c s h => ?_⟩
  all_goals exact congrArg Host.Outcome.next (State.takePost_starting h _)

/-! ### Reads of the registers and of the window -/

theorem State.readRegister_status (s : State) : (s.readRegister 0x008).toNat =
    (if s.phase = .ready then 1 else 0) + (if s.stopAll then 2 else 0) + (if s.linkOk then 4 else 0) := by
  show (BitVec.ofNat 32 (s.phase.code + 2 * bit s.stopAll + 4 * bit s.linkOk)).toNat = _
  cases s.phase <;> cases s.stopAll <;> cases s.linkOk <;> decide

theorem State.readRegister_control (s : State) : s.readRegister 0x004 = if s.notices.attnEnable then 2#32 else 0#32 := by
  show BitVec.ofNat 32 (2 * bit s.notices.attnEnable) = _
  cases s.notices.attnEnable <;> rfl

theorem State.readRegister_attention (s : State) : (s.readRegister 0x010).toNat = s.notices.attention.toNat := by
  show (s.notices.attention.setWidth 32).toNat = _
  exact BitVec.toNat_setWidth_of_le (by decide)

theorem State.readRegister_pace (h : s.notices.paceTime < 2 ^ 16) : (s.readRegister 0x014).toNat = s.notices.paceTime := by
  show (BitVec.ofNat 32 s.notices.paceTime).toNat = _
  rw [BitVec.toNat_ofNat, Nat.mod_eq_of_lt (by omega)]

/-- After either reset the machine is in STARTING with the Notice Unit of R189. -/
theorem reset_phase_notices (h : (∃ a b, s = State.powerOn a b) ∨ ∃ r : State, s = r.softReset) :
    s.phase = .starting ∧ s.notices = .reset := by
  obtain ⟨a, b, rfl⟩ | ⟨r, rfl⟩ := h <;> exact ⟨rfl, rfl⟩

theorem storeOffset_below {a : Nat} (h : a < 0x100000 ∨ 0x200000 ≤ a) : storeOffset a = none :=
  if_neg (by simp only [Config.storeBase, Config.storeSize]; omega)

theorem storeOffset_store {a : Nat} (h : a < 0x100000) : storeOffset (0x100000 + a) = some a := by
  unfold storeOffset
  rw [if_pos (by simp only [Config.storeBase, Config.storeSize]; omega)]
  simp [Config.storeBase]

theorem State.readWindow_elsewhere (s : State) {a : Nat} (h : (0x18 ≤ a ∧ a < 0x100000) ∨ 0x200000 ≤ a) : s.readWindow a = 0 := by
  unfold State.readWindow
  rw [if_neg (by simp only [Config.regWindowSize]; omega), storeOffset_below (by omega)]

theorem State.readWindow_store (s : State) {a : Nat} (h : a < 0x100000) : s.readWindow (0x100000 + a) = s.store.read a := by
  unfold State.readWindow
  rw [if_neg (by simp only [Config.regWindowSize]; omega), storeOffset_store h]

/-! ### Host writes of the window -/

/-- R175: each byte of a host write that lies in the store is written there, and no other byte. -/
theorem State.hostBytes_read (l : List Byte) (s : State) (o a : Nat) (b : Bool) : (s.hostBytes o b l).store.read a =
    if o ≤ 0x100000 + a ∧ 0x100000 + a < o + l.length ∧ a < 0x100000 then l.getD (0x100000 + a - o) 0 else s.store.read a := by
  induction l generalizing s o with
  | nil => rw [if_neg (by simp; omega)]; rfl
  | cons v vs ih =>
    rw [State.hostBytes, ih, List.length_cons]
    by_cases hhere : o = 0x100000 + a ∧ a < 0x100000
    · obtain ⟨rfl, ha⟩ := hhere
      rw [if_neg (by omega), if_pos (by omega), Nat.sub_self, State.hostByte, storeOffset_store ha]
      exact Mem.read_write_self _ _ _
    · have hbyte : (s.hostByte o v b).store.read a = s.store.read a := by
        unfold State.hostByte
        split
        next x hx =>
          refine Mem.read_write_ne _ _ fun e => hhere ?_
          unfold storeOffset at hx
          split at hx
          · simp only [Config.storeBase, Config.storeSize, Option.some.injEq] at *
            omega
          · cases hx
        next => rfl
      by_cases hin : o + 1 ≤ 0x100000 + a ∧ 0x100000 + a < o + 1 + vs.length ∧ a < 0x100000
      · rw [if_pos hin, if_pos (by omega)]
        obtain ⟨k, hk⟩ : ∃ k, 0x100000 + a - o = k + 1 := ⟨0x100000 + a - (o + 1), by omega⟩
        rw [hk, List.getD_cons_succ]
        congr 1
        omega
      · rw [if_neg hin, if_neg (by omega), hbyte]

/-- A host write changes the store's bytes and, in STARTING, the note of what the initialisation leaves. -/
theorem State.hostBytes_rest (l : List Byte) (s : State) (o : Nat) (b : Bool) :
    s.hostBytes o b l = { s with store := (s.hostBytes o b l).store, initKept := (s.hostBytes o b l).initKept } ∧
      (s.phase = .ready → (s.hostBytes o b l).initKept = s.initKept) := by
  induction l generalizing s o with
  | nil => exact ⟨rfl, fun _ => rfl⟩
  | cons v vs ih =>
    have hbyte : s.hostByte o v b = { s with store := (s.hostByte o v b).store, initKept := (s.hostByte o v b).initKept } ∧
        (s.phase = .ready → (s.hostByte o v b).initKept = s.initKept) := by
      unfold State.hostByte
      split
      · refine ⟨rfl, fun hr => if_neg ?_⟩
        rw [hr]
        decide
      · exact ⟨rfl, fun _ => rfl⟩
    obtain ⟨hrest, hkept⟩ := ih (s.hostByte o v b) (o + 1)
    obtain ⟨hrest1, hkept1⟩ := hbyte
    rw [State.hostBytes]
    refine ⟨?_, fun hr => (hkept ?_).trans (hkept1 hr)⟩
    · rw [hrest1] at hrest ⊢
      exact hrest
    · rw [hrest1]
      exact hr

/-- R175: a host write that ends below the store writes nothing. -/
theorem State.hostBytes_below (l : List Byte) (s : State) {o : Nat} (b : Bool) (h : o + l.length ≤ 0x100000) : s.hostBytes o b l = s := by
  induction l generalizing s o with
  | nil => rfl
  | cons v vs ih =>
    rw [List.length_cons] at h
    rw [State.hostBytes, State.hostByte, storeOffset_below (by omega)]
    exact ih s (by omega)

/-- Between s and t loads in execution have read on, and nothing else has changed. -/
structure LoadsOnly (s t : State) : Prop where
  chan : ∀ c, t.chan c = { s.chan c with load := (t.chan c).load }
  idle : ∀ c, (s.chan c).load = none → (t.chan c).load = none
  rest : t = { s with chans := t.chans }

theorem LoadsOnly.refl (s : State) : LoadsOnly s s := ⟨fun _ => rfl, fun _ => id, rfl⟩

theorem LoadsOnly.trans {u : State} (h : LoadsOnly s t) (k : LoadsOnly t u) : LoadsOnly s u where
  chan c := by rw [k.chan c, h.chan c]
  idle c hc := k.idle c (h.idle c hc)
  rest := by rw [k.rest, h.rest]

/-- R27: further records of the load of channel c read. -/
theorem State.advanceLoad_loadsOnly (s : State) (c : Chan) (n : Nat) : LoadsOnly s (s.advanceLoad c n) := by
  refine ⟨fun d => ?_, fun d hd => ?_, rfl⟩ <;> rw [State.advanceLoad, State.chan_modChan] <;> split
  · rfl
  · rfl
  · rw [hd]; rfl
  · exact hd

/-- R27, log 5: the loads that a host write touches have read on. -/
theorem State.advanceTouched_loadsOnly (s : State) (l : List Nat) (n : Nat) : LoadsOnly s (s.advanceTouched l n) := by
  have hstep (t : State) (c : Chan) : LoadsOnly t (if l.any (fun a => planAreaOf a == some c) then t.advanceLoad c n else t) := by
    split
    · exact t.advanceLoad_loadsOnly c n
    · exact .refl t
  unfold State.advanceTouched
  generalize allChans = cs
  induction cs generalizing s with
  | nil => exact .refl s
  | cons c cs ih => exact (hstep s c).trans (ih _)

theorem touchedOffsets_below {a n : Nat} (h : a + n ≤ 0x100000) : touchedOffsets a n = [] := by
  unfold touchedOffsets
  rw [List.filterMap_eq_nil_iff]
  intro i hi
  exact storeOffset_below (.inl (by have := List.mem_range.mp hi; omega))

theorem State.advanceTouched_nil (s : State) (n : Nat) : s.advanceTouched [] n = s := State.forChans_id (fun _ => rfl) _

/-- Settles O9: the registers and the window by their reads, the host write byte by byte. -/
theorem theWindowReadsAndWritesAsLaidOut : Obligations.TheWindowReadsAndWritesAsLaidOut := by
  refine ⟨fun s => ⟨rfl, s.readRegister_control, s.readRegister_status, rfl, s.readRegister_attention,
    fun ok => State.readRegister_pace ok.paceTime⟩, fun s h => ?reset, fun s a h => s.readWindow_elsewhere h,
    fun s a h => s.readWindow_store h, fun o l w s hwf => ?write⟩
  case reset =>
    obtain ⟨hphase, hnotices⟩ := reset_phase_notices h
    refine ⟨rfl, ?_, ?_, rfl, ?_, ?_⟩
    · rw [s.readRegister_control, hnotices]; rfl
    · rw [s.readRegister_status, hphase]; simp
    · show s.notices.attention.setWidth 32 = 0
      rw [hnotices]; rfl
    · show BitVec.ofNat 32 s.notices.paceTime = 100
      rw [hnotices]; rfl
  case write =>
    have hsize : o + l.length ≤ 0x200000 := by
      obtain ⟨hsize, -⟩ := Bool.and_eq_true_iff.mp hwf
      exact of_decide_eq_true hsize
    have hloads := s.advanceTouched_loadsOnly (touchedOffsets o l.length) w.recordsRead
    refine ⟨_, rfl, fun a => ?_, fun c => ?_, fun c hc => ?_, ?_, fun hr => ?_, fun hlow => ?_⟩
    · rw [State.hostBytes_read, hloads.rest]
      by_cases hin : o ≤ 0x100000 + a ∧ 0x100000 + a < o + l.length
      · rw [if_pos ⟨hin.1, hin.2, by omega⟩, if_pos hin]
      · rw [if_neg (fun h => hin ⟨h.1, h.2.1⟩), if_neg hin]
    · rw [(State.hostBytes_rest l _ o w.afterInit).1]
      exact hloads.chan c
    · rw [(State.hostBytes_rest l _ o w.afterInit).1]
      exact hloads.idle c hc
    · refine (State.hostBytes_rest l _ o w.afterInit).1.trans ?_
      rw [State.hostBytes_chans, hloads.rest]
    · rw [(State.hostBytes_rest l _ o w.afterInit).2 (by rw [hloads.rest]; exact hr), hloads.rest]
    · rw [touchedOffsets_below hlow, State.advanceTouched_nil, State.hostBytes_below l s _ hlow]

end Sys2Proof.Machine

/-!
The host's exchange of a request (10 section 10.4): what a completion leaves, what the exchange of a request with a free slot comes to,
and the frames of the commands about one channel.
-/

namespace Sys2Proof.Machine

variable {s t u : State} {n : SlotIx} {c : Chan} {half : List Byte} {r : Reply} {k : ReqKind} {tag tag' : U32} {l : List Byte}

/-! ### Frames -/

theorem Frame.refl (s : State) (c : Chan) : Frame s s c [] :=
  ⟨.refl s, fun _ _ => .inl rfl, .refl s c, .refl s c, fun _ _ => rfl, fun _ _ => rfl, fun _ _ => rfl, .refl s _⟩

theorem Frame.mono {A B : List (Nat × Nat)} (h : Frame s t c A) (hm : ∀ x ∈ A, x ∈ B) : Frame s t c B :=
  { h with store := h.store.mono hm }

theorem Frame.trans {A : List (Nat × Nat)} (h : Frame s u c A) (k : Frame u t c A) (hl : u.leads c = s.leads c) : Frame s t c A :=
  ⟨h.device.trans k.device, h.others.trans k.others hl, h.notices.trans k.notices, h.arb.trans k.arb,
    fun d hd => (k.links d hd).trans (h.links d hd), fun m hm => (k.slots m hm).trans (h.slots m hm),
    fun j hj => (k.pairs j hj).trans (h.pairs j hj), h.store.trans k.store⟩

/-- Two changes about channel c, each with its areas. -/
theorem Frame.append {A B : List (Nat × Nat)} (h : Frame s u c A) (k : Frame u t c B) (hl : u.leads c = s.leads c) :
    Frame s t c (A ++ B) := (h.mono fun _ => List.mem_append_left _).trans (k.mono fun _ => List.mem_append_right _) hl

/-- An update that changes no more than channel c, its link and its pair's own state. -/
theorem Frame.ofParts (hd : DeviceKept s t) (hc : ∀ d, d ≠ c → t.chan d = s.chan d) (hn : t.notices = s.notices) (ha : t.arb = s.arb)
    (hk : ∀ d, d ≠ c → t.link d = s.link d) (hs : t.slots = s.slots) (hp : ∀ j, j ≠ pairOf c → t.pair j = s.pair j)
    (hm : t.store = s.store) : Frame s t c [] :=
  ⟨hd, fun d hne => .inl (hc d hne), .of hn c, .of ha c, hk, fun m _ => by rw [State.slot, hs]; rfl, hp, fun _ _ => by rw [hm]⟩

theorem Frame.modChan (s : State) (c : Chan) (f : Channel → Channel) : Frame s (s.modChan c f) c [] :=
  .ofParts ⟨rfl, rfl, rfl, rfl, rfl, rfl, rfl, rfl, rfl, rfl⟩ (fun _ hd => State.chan_modChan_ne s f hd) rfl rfl (fun _ _ => rfl) rfl
    (fun _ _ => rfl) rfl

theorem Frame.modLink (s : State) (c : Chan) (f : Link → Link) : Frame s (s.modLink c f) c [] :=
  .ofParts ⟨rfl, rfl, rfl, rfl, rfl, rfl, rfl, rfl, rfl, rfl⟩ (fun _ _ => rfl) rfl rfl (fun _ hd => State.link_modLink_ne s f hd) rfl
    (fun _ _ => rfl) rfl

theorem Frame.modPair (s : State) (c : Chan) (f : Pair → Pair) : Frame s (s.modPair (pairOf c) f) c [] :=
  .ofParts ⟨rfl, rfl, rfl, rfl, rfl, rfl, rfl, rfl, rfl, rfl⟩ (fun _ _ => rfl) rfl rfl (fun _ _ => rfl) rfl
    (fun _ hj => State.pair_modPair_ne s f hj) rfl

theorem Frame.bumpChan (s : State) (c : Chan) (x : ChanCount) : Frame s (s.bumpChan c x) c [noticeArea c] :=
  ⟨s.bumpChan_device c x, fun _ _ => .inl rfl, s.bumpChan_notices c x, .of (s.bumpChan_arb c x) c, fun _ _ => rfl,
    fun _ _ => rfl, fun _ _ => rfl, s.bumpChan_storeKept c x⟩

/-- R1: a change of the state of channel c, counted. -/
theorem Frame.setSt (s : State) (c : Chan) (st : ChState) : Frame s (s.setSt c st) c [noticeArea c] := by
  unfold State.setSt
  split
  · exact (Frame.refl s c).mono (by simp)
  · exact (Frame.modChan s c _).append (.bumpChan _ c .stateChanges) rfl

theorem SlotOnly.frame (h : SlotOnly s t (chanSlot c)) : Frame s t c [slotArea (chanSlot c)] :=
  ⟨h.device, fun d _ => .inl (by rw [State.chan, h.chans]; rfl), .of h.notices c, .of h.arb c,
    fun d _ => by rw [State.link, h.links]; rfl, h.slots, fun j _ => by rw [State.pair, h.pairs]; rfl, h.store⟩

/-- R181: what the completion of a request of channel c leaves elsewhere. -/
theorem OnlyAnswered.frame {tag kind : Nat} (h : OnlyAnswered s t c tag kind r) :
    Frame s t c [slotArea (chanSlot c), noticeArea c] :=
  ⟨h.device, fun d _ => .inl (by rw [State.chan, h.chans]; rfl), h.notices, .of h.arb c, fun d _ => by rw [State.link, h.links]; rfl,
    h.slots, fun j _ => by rw [State.pair, h.pairs]; rfl, h.store⟩

theorem State.chan_of_chans (h : t.chans = s.chans) (d : Chan) : t.chan d = s.chan d := by rw [State.chan, h]; rfl

theorem State.link_of_links (h : t.links = s.links) (d : Chan) : t.link d = s.link d := by rw [State.link, h]; rfl

theorem State.pair_of_pairs (h : t.pairs = s.pairs) (j : PairIx) : t.pair j = s.pair j := by rw [State.pair, h]; rfl

theorem State.slot_of_slots (h : t.slots = s.slots) (m : SlotIx) : t.slot m = s.slot m := by rw [State.slot, h]; rfl

theorem State.leads_of_pairs (h : t.pairs = s.pairs) (d : Chan) : t.leads d = s.leads d := by
  rw [State.leads, State.leads, State.pair_of_pairs h]

/-! ### The taken request -/

theorem SlotOnly.taken (s : State) (n : SlotIx) (hl : half.length ≤ 512) : SlotOnly s (s.taken n half) n :=
  (((SlotOnly.refl s n).writeStore 0 half (by omega)).modSlot _).putStateField _

theorem State.taken_executing (h : SlotFree s n) (half : List Byte) : Executing (s.taken n half) n half :=
  ⟨s.taken_stateField n half, State.taken_slot h half⟩

/-- R175: what leaves the slots' bytes and latches leaves the request of a slot in execution. -/
theorem Serves.executing (h : Serves s t) (he : Executing s n half) : Executing t n half where
  taken := by
    refine (congrArg ofLE (Mem.readBytes_congr _ _ _ _ fun b hlo hhi => h.mem b (.inl ?_))).trans he.taken
    have := n.isLt
    rw [Config.slotBase] at hlo hhi
    omega
  slot := (State.slot_of_slots h.slots n).trans he.slot

/-! ### The exchange -/

/-- The request half of an exchange, taken. -/
abbrev State.begun (s : State) (n : SlotIx) (k : ReqKind) (tag : U32) (l : List Byte) : State := s.taken n (requestHalf k tag l)

theorem State.begun_slotOnly (s : State) (n : SlotIx) (k : ReqKind) (tag : U32) (hl : l.length ≤ 112) :
    SlotOnly s (s.begun n k tag l) n := .taken s n (by rw [requestHalf_size k tag l hl]; decide)

/-- R180: a request that its owner does not complete at the take stays in execution. -/
theorem State.hostRequest_executing (h : SlotFree s n) (hl : l.length ≤ 112)
    (hd : (s.begun n k tag l).dispatch n (requestHalf k tag l) = (u, none)) :
    s.hostRequest n k tag l = u ∧ Executing u n (requestHalf k tag l) := by
  have hserves := (Serves.refl (s.begun n k tag l)).dispatch n (requestHalf k tag l)
  rw [hd] at hserves
  refine ⟨?_, hserves.executing (State.taken_executing h _)⟩
  rw [State.hostRequest_eq h k tag l hl]
  dsimp only
  rw [hd]

/-- R180, R181: a request that its owner completes at the take. -/
theorem State.hostRequest_completed (h : SlotFree s n) (hl : l.length ≤ 112)
    (hd : (s.begun n k tag l).dispatch n (requestHalf k tag l) = (u, some r)) :
    s.hostRequest n k tag l = u.complete n r ∧ Executing u n (requestHalf k tag l) := by
  have hserves := (Serves.refl (s.begun n k tag l)).dispatch n (requestHalf k tag l)
  rw [hd] at hserves
  refine ⟨?_, hserves.executing (State.taken_executing h _)⟩
  rw [State.hostRequest_eq h k tag l hl]
  dsimp only
  rw [hd]
  rfl

/-- R183: a request of channel c that its owner takes. -/
theorem State.begun_dispatch (hk : ReqKind.ofChannelCode k.code = some k) (hf : (s.chan c).st ≠ .follower ∨ k.followerMay = true) :
    (s.begun (chanSlot c) k tag l).dispatch (chanSlot c) (requestHalf k tag l) =
      (s.begun (chanSlot c) k tag l).channelRequest c (requestHalf k tag l) k := by
  rw [State.dispatch_channel _ c k _ hk (requestHalf_kind k tag l), if_neg]
  rintro ⟨hst, hmay⟩
  obtain hf | hf := hf
  · exact hf hst
  · rw [hf] at hmay
    cases hmay

/-- A reply that the response half can hold (R175, R181). -/
structure Reply.Fits (r : Reply) : Prop where
  detail : r.detail.length ≤ 8
  payload : r.payload.length ≤ 364

theorem Reply.Fits.plain (x : Result) : (Reply.plain x).Fits := ⟨by simp [Reply.plain], by simp [Reply.plain]⟩

theorem Reply.Fits.bad (o : Nat) : (Reply.bad o).Fits := ⟨by simp [Reply.bad], by simp [Reply.bad]⟩

theorem Reply.Fits.ofDetail {x : Result} {d : List Byte} (h : d.length ≤ 8) : (⟨x, d, []⟩ : Reply).Fits := ⟨h, by simp⟩

theorem Reply.Fits.ofPayload {p : List Byte} (h : p.length ≤ 364) : (Reply.payload' p).Fits := ⟨by simp [Reply.payload'], h⟩

/-- R180 to R183: an owner that completes the request of channel c in a state u. -/
theorem State.channelExchange_completed (h : SlotFree s (chanSlot c)) (hl : l.length ≤ 112)
    (hk : ReqKind.ofChannelCode k.code = some k) (hf : (s.chan c).st ≠ .follower ∨ k.followerMay = true) (hr : r.Fits)
    (hd : (s.begun (chanSlot c) k tag l).channelRequest c (requestHalf k tag l) k = (u, some r)) :
    OnlyAnswered u (s.channelExchange c k tag l) c tag.toNat k.code r := by
  obtain ⟨heq, he⟩ := State.hostRequest_completed h hl ((State.begun_dispatch hk hf).trans hd)
  rw [State.channelExchange, heq]
  have hdone := OnlyAnswered.complete (SlotOnly.refl u (chanSlot c)) he hr.detail hr.payload
  rwa [requestHalf_kind, requestHalf_tag] at hdone

/-- R183: a request of channel c that is answered with nothing changed. -/
theorem State.channelExchange_of_dispatch (h : SlotFree s (chanSlot c)) (hl : l.length ≤ 112) (hr : r.Fits)
    (hd : (s.begun (chanSlot c) k tag l).dispatch (chanSlot c) (requestHalf k tag l) = (s.begun (chanSlot c) k tag l, some r)) :
    OnlyAnswered s (s.channelExchange c k tag l) c tag.toNat k.code r := by
  obtain ⟨heq, he⟩ := State.hostRequest_completed h hl hd
  rw [State.channelExchange, heq]
  have hdone := OnlyAnswered.complete (s.begun_slotOnly (chanSlot c) k tag hl) he hr.detail hr.payload
  rwa [requestHalf_kind, requestHalf_tag] at hdone

/-- R183: an owner that answers with nothing changed. -/
theorem State.channelExchange_unchanged (h : SlotFree s (chanSlot c)) (hl : l.length ≤ 112)
    (hk : ReqKind.ofChannelCode k.code = some k) (hf : (s.chan c).st ≠ .follower ∨ k.followerMay = true) (hr : r.Fits)
    (hd : (s.begun (chanSlot c) k tag l).channelRequest c (requestHalf k tag l) k = (s.begun (chanSlot c) k tag l, some r)) :
    OnlyAnswered s (s.channelExchange c k tag l) c tag.toNat k.code r :=
  State.channelExchange_of_dispatch h hl hr ((State.begun_dispatch hk hf).trans hd)

/-- R128, R183: a FOLLOWER's slot refuses a request that it may not take. -/
theorem State.channelExchange_follower (h : SlotFree s (chanSlot c)) (hl : l.length ≤ 112)
    (hk : ReqKind.ofChannelCode k.code = some k) (hst : (s.chan c).st = .follower) (hmay : k.followerMay = false) :
    OnlyAnswered s (s.channelExchange c k tag l) c tag.toNat k.code (.plain .follower) :=
  State.channelExchange_of_dispatch h hl (.plain _) <| by
    rw [State.dispatch_channel _ c k _ hk (requestHalf_kind k tag l), if_pos ⟨hst, hmay⟩]

/-- R180, R183: an owner that leaves the request of channel c in execution. -/
theorem State.channelExchange_executing (h : SlotFree s (chanSlot c)) (hl : l.length ≤ 112)
    (hk : ReqKind.ofChannelCode k.code = some k) (hf : (s.chan c).st ≠ .follower ∨ k.followerMay = true)
    (hd : (s.begun (chanSlot c) k tag l).channelRequest c (requestHalf k tag l) k = (u, none)) :
    s.channelExchange c k tag l = u ∧ Executing u (chanSlot c) (requestHalf k tag l) :=
  State.hostRequest_executing h hl ((State.begun_dispatch hk hf).trans hd)

/-- The frame of an exchange: the slot's, the owner's and the completion's. -/
theorem OnlyAnswered.exchangeFrame {v : State} {A : List (Nat × Nat)} {tag kind : Nat} (h : OnlyAnswered u t c tag kind r)
    (hs : SlotOnly s v (chanSlot c)) (hu : Frame v u c A) (hl : u.leads c = v.leads c) :
    Frame s t c (slotArea (chanSlot c) :: noticeArea c :: A) := by
  have hv := State.leads_of_pairs hs.pairs c
  exact ((hs.frame.append hu hv).append h.frame (hl.trans hv)).mono fun x hx => by
    simp only [List.mem_append, List.mem_cons, List.not_mem_nil, or_false] at hx ⊢
    tauto

/-- R183: the owner of channel c acts in a state v that differs from s in the slot alone; what it answers completes the exchange,
and what it leaves in execution ends it. -/
theorem State.channelExchange_owner (h : SlotFree s (chanSlot c)) (hl : l.length ≤ 112) (hk : ReqKind.ofChannelCode k.code = some k)
    (hf : (s.chan c).st ≠ .follower ∨ k.followerMay = true) (tag : U32) :
    ∃ v, SlotOnly s v (chanSlot c) ∧
      (∀ u, v.channelRequest c (requestHalf k tag l) k = (u, none) →
        s.channelExchange c k tag l = u ∧ Executing u (chanSlot c) (requestHalf k tag l)) ∧
      ∀ u r, v.channelRequest c (requestHalf k tag l) k = (u, some r) → r.Fits →
        OnlyAnswered u (s.channelExchange c k tag l) c tag.toNat k.code r :=
  ⟨_, s.begun_slotOnly (chanSlot c) k tag hl, fun _ hd => State.channelExchange_executing h hl hk hf hd,
    fun _ _ hd hr => State.channelExchange_completed h hl hk hf hr hd⟩

/-! ### What an owner counts -/

/-- The counts of channel c, its responses and handovers aside, grown by changes of state and faults. -/
structure Tallied (s t : State) (c : Chan) (stateChanges faults : U32) : Prop where
  responses : (t.notices.chan[c]).responses = (s.notices.chan[c]).responses
  stateChanges : (t.notices.chan[c]).stateChanges = (s.notices.chan[c]).stateChanges + stateChanges
  watchHits : (t.notices.chan[c]).watchHits = (s.notices.chan[c]).watchHits
  faults : (t.notices.chan[c]).faults = (s.notices.chan[c]).faults + faults

theorem CountsKept.tallied (h : CountsKept s t c) : Tallied s t c 0 0 :=
  ⟨h.responses, h.stateChanges.trans (BitVec.add_zero _).symm, h.watchHits, h.faults.trans (BitVec.add_zero _).symm⟩

theorem Tallied.kept {x y : U32} (h : Tallied s u c x y) (k : CountsKept u t c) : Tallied s t c x y :=
  ⟨k.responses.trans h.responses, k.stateChanges.trans h.stateChanges, k.watchHits.trans h.watchHits, k.faults.trans h.faults⟩

theorem CountsKept.tally {x y : U32} (h : CountsKept s u c) (k : Tallied u t c x y) : Tallied s t c x y :=
  ⟨k.responses.trans h.responses, by rw [k.stateChanges, h.stateChanges], k.watchHits.trans h.watchHits, by rw [k.faults, h.faults]⟩

/-- R186: the response counted after the owner's counts. -/
theorem OnlyAnswered.tallied {tag kind : Nat} {x y : U32} (h : OnlyAnswered u t c tag kind r) (hu : Tallied s u c x y) :
    Counted s t c 1 x y := by
  obtain ⟨kr, ks, kw, kf, hbit⟩ := h.counted
  exact ⟨by rw [kr, hu.responses], (ks.trans (BitVec.add_zero _)).trans hu.stateChanges, kw.trans hu.watchHits,
    (kf.trans (BitVec.add_zero _)).trans hu.faults, hbit⟩

theorem OnlyAnswered.countedSame {tag kind : Nat} (h : OnlyAnswered u t c tag kind r) (hn : u.notices = s.notices) :
    Counted s t c 1 0 0 := h.counted.congr hn rfl

/-- R1, R186: a change of state of channel c, written and counted. -/
theorem State.setSt_of_ne (s : State) (c : Chan) {st : ChState} (h : (s.chan c).st ≠ st) :
    s.setSt c st = (s.modChan c fun ch => { ch with st := st }).bumpChan c .stateChanges := if_neg h

theorem State.bumpStateChanges_tallied (s : State) (c : Chan) : Tallied s (s.bumpChan c .stateChanges) c 1 0 := by
  refine ⟨?_, ?_, ?_, ?_⟩ <;> rw [State.bumpChan_self]
  · rfl
  · rfl
  · rfl
  · exact (BitVec.add_zero _).symm

theorem State.setSt_tallied (s : State) (c : Chan) {st : ChState} (h : (s.chan c).st ≠ st) : Tallied s (s.setSt c st) c 1 0 := by
  rw [State.setSt_of_ne s c h]
  have hkept : CountsKept s (s.modChan c fun ch => { ch with st := st }) c := .of (State.modChan_notices s c _) c
  exact hkept.tally (State.bumpStateChanges_tallied _ c)

@[simp] theorem State.setSt_pairs (s : State) (c : Chan) (st : ChState) : (s.setSt c st).pairs = s.pairs := by
  unfold State.setSt
  split <;> rfl

@[simp] theorem State.setSt_links (s : State) (c : Chan) (st : ChState) : (s.setSt c st).links = s.links := by
  unfold State.setSt
  split <;> rfl

/-! ### Pending posts and completions -/

/-- Settles O17: the post of a slot while its latch holds a request, and the drain of a completion. -/
theorem postsOfAnOccupiedSlotArePending : Obligations.PostsOfAnOccupiedSlotArePending := by
  refine ⟨fun n s hphase hlatch => ?_, fun n s r hlatch hpending => ?_⟩
  · rw [exec_slotPost_ready hphase, State.postSlot, if_pos hlatch]
  · obtain ⟨half, hhalf⟩ := Option.isSome_iff_exists.mp hlatch
    have hslot : (s.finish n r).slot n = { s.slot n with latch := none } := by
      unfold State.finish
      rw [hhalf]
      dsimp only
      rw [State.slot_modSlot_self]
      refine congrArg (fun sl : Slot => { sl with latch := none }) ?_
      unfold State.slot
      rw [(Keeps.bumpResponses _ n).slots]
      split <;> rfl
    rw [State.complete, State.drain, hslot, hpending]
    rfl

/-- R181, stages 1 and 2: the response half, and DONE over TAKEN alone. -/
def State.answeredStore (s : State) (n : SlotIx) (half : List Byte) (r : Reply) : State :=
  let s1 := s.writeStore (responseBase n) (r.half (reqTag half) (reqKindCode half))
  if s1.stateField n = stateTaken then s1.putStateField n stateDone else s1

theorem State.finish_of_latch (h : (s.slot n).latch = some half) (r : Reply) :
    s.finish n r = ((s.answeredStore n half r).bumpResponses n).modSlot n fun sl => { sl with latch := none } := by
  unfold State.finish
  rw [h]
  rfl

/-- R175: the response half lies beside the state field. -/
theorem State.writeStore_response_stateField (s : State) (n : SlotIx) (l : List Byte) :
    (s.writeStore (responseBase n) l).stateField n = s.stateField n :=
  congrArg ofLE (Mem.readBytes_writeBytes_ne _ _ _ _ _ (.inl (by simp only [responseBase, requestHalfSize]; omega)))

theorem State.answeredStore_eq (s : State) (n : SlotIx) (half : List Byte) (r : Reply) :
    s.answeredStore n half r = if s.stateField n = stateTaken then
        (s.writeStore (responseBase n) (r.half (reqTag half) (reqKindCode half))).putStateField n stateDone
      else s.writeStore (responseBase n) (r.half (reqTag half) (reqKindCode half)) := by
  unfold State.answeredStore
  dsimp only
  rw [State.writeStore_response_stateField]

theorem State.answeredStore_stateField (s : State) (n : SlotIx) (half : List Byte) (r : Reply) :
    (s.answeredStore n half r).stateField n = if s.stateField n = stateTaken then stateDone else s.stateField n := by
  rw [State.answeredStore_eq]
  split
  · exact State.stateField_putStateField _ _ (by decide)
  · exact s.writeStore_response_stateField n _

theorem State.answeredStore_response (s : State) (n : SlotIx) (half : List Byte) (hr : r.Fits) :
    (s.answeredStore n half r).store.readBytes (responseBase n) responseHalfSize = r.half (reqTag half) (reqKindCode half) := by
  have hread := Mem.readBytes_writeBytes s.store (responseBase n) (r.half (reqTag half) (reqKindCode half))
  rw [Reply.half_length hr.detail hr.payload] at hread
  rw [State.answeredStore_eq]
  split
  · refine (Mem.readBytes_writeBytes_ne _ _ _ _ _ (.inr ?_)).trans hread
    rw [leBytes_length, responseBase, requestHalfSize]
    omega
  · exact hread

theorem State.answeredStore_slotOnly (s : State) (n : SlotIx) (half : List Byte) (hr : r.Fits) :
    SlotOnly s (s.answeredStore n half r) n := by
  have hlen := Reply.half_length hr.detail hr.payload (reqTag half) (reqKindCode half)
  have hwrite := (SlotOnly.refl s n).writeStore requestHalfSize _ (by rw [hlen]; decide)
  rw [State.answeredStore_eq]
  split
  · exact hwrite.putStateField _
  · exact hwrite

/-- Settles O18: the stages of the completion, whatever the state field. -/
theorem completionWritesTheResponse : Obligations.CompletionWritesTheResponse := by
  intro c s half r hlatch hpayload hdetail
  have hfits : r.Fits := ⟨hdetail, hpayload⟩
  have hstore := s.answeredStore_slotOnly (chanSlot c) half hfits
  have hslot (m : SlotIx) : (s.answeredStore (chanSlot c) half r).slot m = s.slot m := by
    rw [State.answeredStore_eq]
    split <;> rfl
  have hbump (v : State) : v.bumpResponses (chanSlot c) = v.bumpChan c .responses := by
    rw [State.bumpResponses, show slotChan (chanSlot c) = some c from dif_pos c.isLt]
  rw [State.finish_of_latch hlatch]
  refine ⟨?_, ?_, ?_, ?_⟩
  · exact (State.bumpResponses_readBytes _ _ _ requestHalfSize responseHalfSize (by decide)).trans (s.answeredStore_response _ _ hfits)
  · exact (congrArg ofLE (State.bumpResponses_readBytes _ _ _ 0 4 (by decide))).trans (s.answeredStore_stateField _ _ r)
  · rw [State.slot_modSlot_self, State.slot_of_slots (Keeps.bumpResponses _ _).slots, hslot]
  · rw [hbump]
    generalize s.answeredStore (chanSlot c) half r = v at hstore hslot ⊢
    have hrest := (SlotOnly.refl (v.bumpChan c .responses) (chanSlot c)).modSlot fun sl => { sl with latch := none }
    exact ⟨(v.bumpChan_counted c).congr hstore.notices rfl, fun d => State.chan_of_chans hstore.chans d, hstore.links, hstore.pairs,
      hstore.arb, (hstore.device.trans (v.bumpChan_deviceKept c _)).trans hrest.device,
      ((NoticesKept.of hstore.notices c).trans (v.bumpChan_notices c _)).trans (.of hrest.notices c),
      fun m hm => (hrest.slots m hm).trans (hslot m),
      (hstore.store.mono (by simp)).trans (((v.bumpChan_storeKept c _).mono (by simp)).trans (hrest.store.mono (by simp)))⟩

end Sys2Proof.Machine

/-!
Requests answered with the state as it is (R128, R3 to R5, R13 to R17), and ENABLE, DISABLE, LOAD_PLAN and FAULT_ACK.
-/

namespace Sys2Proof.Machine

variable {s t u : State} {c : Chan} {r : Reply} {k : ReqKind} {tag : U32} {l : List Byte}

/-! ### Refusals -/

/-- Settles O22: the three requests that a FOLLOWER answers itself aside, each request is refused before its owner sees it. -/
theorem followerSlotRefusesRequests : Obligations.FollowerSlotRefusesRequests := by
  intro c tag limits index quantity direction mode step threshold s hfree hst q hq
  have refused (k : ReqKind) (l : List Byte) (hl : l.length ≤ 112) (hk : ReqKind.ofChannelCode k.code = some k)
      (hmay : k.followerMay = false) : OnlyAnswered s (s.channelExchange c k tag l) c tag.toNat k.code (.plain .follower) :=
    State.channelExchange_follower hfree hl hk hst hmay
  simp only [followerRefuses, List.mem_cons, List.not_mem_nil, or_false] at hq
  obtain rfl | rfl | rfl | rfl | rfl | rfl | rfl | rfl | rfl | rfl | rfl | rfl | rfl := hq
  · exact ⟨_, rfl, refused .enable [] (by decide) rfl rfl⟩
  · exact ⟨_, rfl, refused .disable [] (by decide) rfl rfl⟩
  · exact ⟨_, rfl, refused .loadPlan [] (by decide) rfl rfl⟩
  · exact ⟨_, rfl, refused .start [] (by decide) rfl rfl⟩
  · exact ⟨_, rfl, refused .pause [] (by decide) rfl rfl⟩
  · exact ⟨_, rfl, refused .resume [] (by decide) rfl rfl⟩
  · exact ⟨_, rfl, refused .stop [] (by decide) rfl rfl⟩
  · exact ⟨_, rfl, refused .faultAck [] (by decide) rfl rfl⟩
  · exact ⟨_, rfl, refused .setLimits (limitWordBytes limits) (Nat.le_of_ble_eq_true rfl) rfl rfl⟩
  · exact ⟨_, rfl, refused .setWatch ([index, quantity, direction, mode] ++ leBytes 4 threshold.toNat)
      (Nat.le_of_ble_eq_true rfl) rfl rfl⟩
  · exact ⟨_, rfl, refused .clearWatch [index] (Nat.le_of_ble_eq_true rfl) rfl rfl⟩
  · exact ⟨_, rfl, refused .jump [step] (Nat.le_of_ble_eq_true rfl) rfl rfl⟩
  · exact ⟨_, rfl, refused .flush [] (by decide) rfl rfl⟩

/-- R115: an acknowledgement is missing under AFTER_ACK alone. -/
theorem Channel.ackMissing_of {ch : Channel} {l : LimitSet} (hl : ch.limits = some l) (hp : l.resumePolicy = .afterAck)
    (ha : ch.fault.acked = false) : ch.ackMissing = true := by
  simp only [Channel.ackMissing, hl, hp, ha, decide_true, Bool.not_false, Bool.and_self]

/-- R183: an owner that refuses a request of channel c wherever it sees what stands in s. -/
theorem State.channelExchange_refused {x : Result} (h : SlotFree s (chanSlot c)) (hl : l.length ≤ 112)
    (hk : ReqKind.ofChannelCode k.code = some k) (hf : (s.chan c).st ≠ .follower)
    (hd : ∀ v half, SlotOnly s v (chanSlot c) → v.channelRequest c half k = (v, some (.plain x))) :
    OnlyAnswered s (s.channelExchange c k tag l) c tag.toNat k.code (.plain x) :=
  State.channelExchange_unchanged h hl hk (.inl hf) (.plain x) (hd _ _ (s.begun_slotOnly _ k tag hl))

theorem State.reqDisable_refused (h : (s.chan c).st.inPlan = true ∨ ((s.chan c).st = .idle ∧ s.leads c = true)) :
    s.reqDisable c = s.refuse .refusedState := by
  unfold State.reqDisable
  split
  case h_1 hst =>
    rw [hst] at h
    obtain h | ⟨h, -⟩ := h <;> cases h
  case h_2 hst =>
    rw [hst] at h
    obtain h | ⟨-, h⟩ := h
    · cases h
    · exact if_pos h
  case h_3 => rfl

theorem State.reqResume_refused (h1 : (s.chan c).st ≠ .paused) (h2 : (s.chan c).st ≠ .tripped) :
    s.reqResume c = s.refuse .refusedState := by
  unfold State.reqResume
  dsimp only
  split
  · exact absurd ‹_› h1
  · exact absurd ‹_› h2
  · rfl

theorem State.reqResume_stopped (h : (s.chan c).st = .paused ∨ (s.chan c).st = .tripped) (hs : s.stopAll = true) :
    s.reqResume c = s.refuse .stopAllActive := by
  obtain h | h := h
  · simp only [State.reqResume, h, hs, if_true]
  · simp only [State.reqResume, h, hs, if_true]

theorem State.reqStart_noPlan (h : (s.chan c).st = .idle) (hs : s.stopAll = false) (hp : ∀ p, (s.chan c).staged ≠ .valid p) :
    s.reqStart c = s.refuse .noPlan := by
  unfold State.reqStart
  dsimp only
  rw [if_neg (not_not_intro h), if_neg (ne_true_of_eq_false hs)]
  split
  · exact absurd ‹_› (hp _)
  · rfl

theorem State.reqStart_stopped (h : (s.chan c).st = .idle) (hs : s.stopAll = true) : s.reqStart c = s.refuse .stopAllActive := by
  unfold State.reqStart
  dsimp only
  rw [if_neg (not_not_intro h), if_pos hs]

theorem State.reqStart_valid {p : Plan} (h : (s.chan c).st = .idle) (hs : s.stopAll = false) (hp : (s.chan c).staged = .valid p) :
    s.reqStart c = if !(s.chan c).limitsLoaded then s.refuse .noLimits else if !s.arb.linkSet then s.refuse .noLink
      else (s.startPlan c p).done := by
  unfold State.reqStart
  dsimp only
  rw [if_neg (not_not_intro h), if_neg (ne_true_of_eq_false hs), hp]

theorem State.reqResume_tripped (h : (s.chan c).st = .tripped) (hs : s.stopAll = false) :
    s.reqResume c = if (s.chan c).ackMissing then s.refuse .faultNotAcked
      else (((s.moveTo c .checking).modChan c Channel.recheck).event c c subResume 0 (leBytes 1 ChState.tripped.code)).done := by
  simp only [State.reqResume, h, hs, Bool.false_eq_true, if_false]

/-- Settles O23: in each case the owner's branch is the refusal. -/
theorem requestsAreRefusedByState : Obligations.RequestsAreRefusedByState := by
  intro c tag limits step s hfree hfol
  dsimp only
  have refused (k : ReqKind) (l : List Byte) (x : Result) (hl : l.length ≤ 112) (hk : ReqKind.ofChannelCode k.code = some k)
      (hd : ∀ v half, SlotOnly s v (chanSlot c) → v.channelRequest c half k = (v, some (.plain x))) :
      OnlyAnswered s (s.channelExchange c k tag l) c tag.toNat k.code (.plain x) := State.channelExchange_refused hfree hl hk hfol hd
  refine ⟨fun h => ⟨_, rfl, refused .enable [] .refusedState (by decide) rfl fun v half hv => ?enable⟩,
    fun h => ⟨_, rfl, refused .disable [] .refusedState (by decide) rfl fun v half hv => ?disable⟩,
    fun h => ⟨_, rfl, refused .start [] .refusedState (by decide) rfl fun v half hv => ?start⟩,
    fun h1 h2 => ⟨_, rfl, refused .pause [] .refusedState (by decide) rfl fun v half hv => ?pause⟩,
    fun h1 h2 => ⟨_, rfl, refused .resume [] .refusedState (by decide) rfl fun v half hv => ?resume⟩,
    fun h => ⟨_, rfl, refused .stop [] .refusedState (by decide) rfl fun v half hv => ?stop⟩,
    fun h => ⟨_, rfl, refused .faultAck [] .refusedState (by decide) rfl fun v half hv => ?faultAck⟩,
    fun h => ⟨_, rfl, refused .setLimits (limitWordBytes limits) .refusedState (Nat.le_of_ble_eq_true rfl) rfl
      fun v half hv => ?setLimits⟩,
    fun h1 h2 => ⟨_, rfl, refused .jump [step] .refusedState (Nat.le_of_ble_eq_true rfl) rfl fun v half hv => ?jump⟩,
    fun hst hstop => ⟨_, rfl, refused .start [] .stopAllActive (by decide) rfl fun v half hv => ?startStopped⟩,
    fun hst hstop hstaged => ⟨_, rfl, refused .start [] .noPlan (by decide) rfl fun v half hv => ?startNoPlan⟩,
    fun p hst hstop hstaged hlim => ⟨_, rfl, refused .start [] .noLimits (by decide) rfl fun v half hv => ?startNoLimits⟩,
    fun p hst hstop hstaged hlim hlink => ⟨_, rfl, refused .start [] .noLink (by decide) rfl fun v half hv => ?startNoLink⟩,
    fun hst hstop => ⟨_, rfl, refused .resume [] .stopAllActive (by decide) rfl fun v half hv => ?resumeStopped⟩,
    fun l hst hstop hlim hpol hack => ⟨_, rfl, refused .resume [] .faultNotAcked (by decide) rfl fun v half hv => ?resumeUnacked⟩⟩
  all_goals
    have hc := State.chan_of_chans hv.chans c
    have hvs := hv.device.stopAll
  case enable =>
    rw [← hc] at h
    exact if_neg h
  case disable =>
    rw [← State.leads_of_pairs hv.pairs, ← hc] at h
    exact congrArg atTake (State.reqDisable_refused h)
  case start =>
    rw [← hc] at h
    exact congrArg atTake (if_pos h)
  case pause =>
    rw [← hc] at h1 h2
    exact congrArg atTake (if_neg (not_or_intro h1 h2))
  case resume =>
    rw [← hc] at h1 h2
    exact congrArg atTake (State.reqResume_refused h1 h2)
  case stop =>
    rw [← hc] at h
    exact congrArg atTake (if_neg (ne_true_of_eq_false h))
  case faultAck =>
    rw [← hc] at h
    exact congrArg atTake (if_neg h)
  case setLimits =>
    rw [← hc] at h
    exact congrArg atTake (if_pos h)
  case jump =>
    rw [← hc] at h1 h2
    exact congrArg atTake (if_neg (not_or_intro h1 h2))
  case startStopped =>
    rw [← hc] at hst
    exact congrArg atTake (State.reqStart_stopped hst (hvs.trans hstop))
  case startNoPlan =>
    rw [← hc] at hst hstaged
    exact congrArg atTake (State.reqStart_noPlan hst (hvs.trans hstop) hstaged)
  case startNoLimits =>
    rw [← hc] at hst hstaged hlim
    refine congrArg atTake ((State.reqStart_valid hst (hvs.trans hstop) hstaged).trans (if_pos ?_))
    rw [hlim]
    rfl
  case startNoLink =>
    rw [← hc] at hst hstaged hlim
    refine congrArg atTake ((State.reqStart_valid hst (hvs.trans hstop) hstaged).trans ((if_neg ?_).trans (if_pos ?_)))
    · rw [hlim]
      decide
    · rw [hv.arb, hlink]
      rfl
  case resumeStopped =>
    rw [← hc] at hst
    exact congrArg atTake (State.reqResume_stopped hst (hvs.trans hstop))
  case resumeUnacked =>
    rw [← hc] at hst hlim hack
    exact congrArg atTake ((State.reqResume_tripped hst (hvs.trans hstop)).trans (if_pos (Channel.ackMissing_of hlim hpol hack)))

/-! ### ENABLE and LOAD_PLAN -/

theorem State.channelRequest_enable (h : (s.chan c).st = .disabled) (half : List Byte) :
    s.channelRequest c half .enable = ((s.modLink c Link.beginBringUp).modChan c Channel.heard, none) := if_pos h

/-- Settles O24: the owner leaves ENABLE in execution with the bring-up begun. -/
theorem enableBeginsTheBringUp : Obligations.EnableBeginsTheBringUp := by
  intro c tag s hfree hst
  obtain ⟨v, hv, hexec, -⟩ := State.channelExchange_owner (k := .enable) (l := []) hfree (by decide) rfl (.inl (by rw [hst]; decide)) tag
  have hc := State.chan_of_chans hv.chans c
  obtain ⟨heq, hexec⟩ := hexec _ (State.channelRequest_enable (by rw [hc]; exact hst) _)
  refine ⟨_, congrArg Host.Outcome.next heq, hexec, ?_, ?_, hv.notices, hv.arb, hv.pairs, ?_⟩
  · refine (State.link_modLink_self v c _).trans ?_
    rw [State.link_of_links hv.links]
    rfl
  · refine (State.chan_modChan_self _ c _).trans ?_
    rw [State.modLink_chan, hc]
    rfl
  · exact ((hv.frame.append (.modLink v c Link.beginBringUp) (State.leads_of_pairs hv.pairs c)).append (.modChan _ c Channel.heard)
      (State.leads_of_pairs hv.pairs c)).mono (by simp)

/-- Settles O26: the owner leaves LOAD_PLAN in execution with the load begun. -/
theorem loadPlanBeginsLoading : Obligations.LoadPlanBeginsLoading := by
  intro c tag s hfree hst
  obtain ⟨v, hv, hexec, -⟩ := State.channelExchange_owner (k := .loadPlan) (l := []) hfree (by decide) rfl (.inl hst) tag
  obtain ⟨heq, hexec⟩ := hexec _ rfl
  refine ⟨_, congrArg Host.Outcome.next heq, hexec, ?_, hv.notices, hv.arb, hv.pairs, State.link_of_links hv.links c, ?_⟩
  · rw [State.chan_modChan_self, State.chan_of_chans hv.chans]
  · exact (hv.frame.append (.modChan v c _) (State.leads_of_pairs hv.pairs c)).mono (by simp)

/-! ### DISABLE -/

/-- R4: what an accepted DISABLE makes of an IDLE channel. -/
def State.silenced (s : State) (c : Chan) : State :=
  ((s.setSt c .disabled).modLink c fun l => { l with state := .silent }).modChan c Channel.heard

theorem State.silenced_chan (s : State) (c : Chan) :
    (s.silenced c).chan c = { s.chan c with st := .disabled, silence := 0, silenceReached := false } := by
  rw [State.silenced, State.chan_modChan_self, State.modLink_chan, State.setSt_chan_self]
  rfl

theorem State.silenced_link (s : State) (c : Chan) : (s.silenced c).link c = { s.link c with state := .silent } := by
  have hlink := State.link_modLink_self (s.setSt c .disabled) c fun l => { l with state := .silent }
  rw [State.link_of_links (s.setSt_links c _)] at hlink
  exact hlink

theorem State.reqDisable_idle (h : (s.chan c).st = .idle) (hl : s.leads c = false) : s.reqDisable c = (s.silenced c).done := by
  simp only [State.silenced, State.reqDisable, h, hl, State.moveTo, Bool.false_eq_true, if_false, reduceCtorEq]

/-- Settles O25: an IDLE channel's change of state is counted, and a DISABLED one is answered at once. -/
theorem disableSilencesTheLink : Obligations.DisableSilencesTheLink := by
  refine ⟨fun c tag s hfree hst hleads => ?_, fun c tag s hfree hst => ⟨_, rfl, ?_⟩⟩
  · obtain ⟨v, hv, -, hdone⟩ := State.channelExchange_owner (k := .disable) (l := []) hfree (by decide) rfl
      (.inl (by rw [hst]; decide)) tag
    have hc := State.chan_of_chans hv.chans c
    have hvl := State.leads_of_pairs hv.pairs c
    have hvst : (v.chan c).st = .idle := by rw [hc]; exact hst
    have hans := hdone _ _ (congrArg atTake (State.reqDisable_idle hvst (hvl.trans hleads))) (.plain _)
    have hframe : Frame v (v.silenced c) c [noticeArea c] := (((Frame.setSt v c .disabled).append
      (.modLink _ c fun l => { l with state := .silent }) (State.leads_of_pairs (v.setSt_pairs c _) c)).append
      (.modChan _ c Channel.heard) (State.leads_of_pairs (v.setSt_pairs c _) c)).mono (by simp)
    refine ⟨_, rfl, hans.answered, hans.tallied ?_, ?_, ?_, ?_, ?_, ?_⟩
    · have hset := v.setSt_tallied c (st := .disabled) (by rw [hvst]; decide)
      exact (CountsKept.of hv.notices c).tally (hset.kept (.of (by rfl) c))
    · exact (State.chan_of_chans hans.chans c).trans (by rw [State.done, State.silenced_chan, hc])
    · exact (State.link_of_links hans.links c).trans (by rw [State.done, State.silenced_link, State.link_of_links hv.links])
    · exact hans.arb.trans ((v.setSt_arb c _).trans hv.arb)
    · exact hans.pairs.trans ((v.setSt_pairs c _).trans hv.pairs)
    · exact (hans.exchangeFrame hv hframe (State.leads_of_pairs (v.setSt_pairs c _) c)).mono (by simp)
  · refine State.channelExchange_refused hfree (by decide) rfl (by rw [hst]; decide) fun v half hv => ?_
    rw [← State.chan_of_chans hv.chans] at hst
    simp only [State.channelRequest, State.reqDisable, hst, atTake, State.done]

end Sys2Proof.Machine

/-!
The sizes of response payloads (R184, R185, R191): a payload's length depends on the widths of its items alone, and each of
STATUS, COUNTERS and DEVICE_COUNTERS has fixed widths, within the 364 bytes of a response half.
-/

namespace Sys2Proof.Machine

variable {s : State} {c : Chan}

/-- The widths of a payload's items, in order. -/
def widths (l : Items) : List Nat := l.map Prod.fst

@[simp] theorem widths_nil : widths [] = [] := rfl

@[simp] theorem widths_cons (x : Nat × Nat) (l : Items) : widths (x :: l) = x.1 :: widths l := rfl

@[simp] theorem widths_append (l m : Items) : widths (l ++ m) = widths l ++ widths m := List.map_append

/-- The length of a payload laid out after n bytes, by its widths. -/
def payLength (n : Nat) (ws : List Nat) : Nat := ws.foldl (fun n w => n + (w - n % w) % w + w) n

theorem payItem_length_eq (l : List Byte) (x : Nat × Nat) : (payItem l x).length = l.length + (x.1 - l.length % x.1) % x.1 + x.1 := by
  simp only [payItem, List.length_append, List.length_replicate, leBytes_length]

theorem foldl_payItem_length (items : Items) (l : List Byte) : (items.foldl payItem l).length = payLength l.length (widths items) := by
  induction items generalizing l with
  | nil => rfl
  | cons x xs ih =>
    rw [List.foldl_cons, ih, payItem_length_eq]
    rfl

theorem payload_length (items : Items) : (payload items).length = payLength 0 (widths items) := foldl_payItem_length items []

/-! ### Optional groups and lists -/

theorem widths_payOpt {absent : Items} {o : Option Items} (h : ∀ x ∈ o, widths x = widths absent) :
    widths (payOpt absent o) = 1 :: widths absent := by
  cases o with
  | none =>
    rw [payOpt, widths_cons, widths, List.map_map]
    rfl
  | some x => rw [payOpt, widths_cons, h x rfl]

theorem widths_payOpt_map {α : Type} {absent : Items} {o : Option α} {f : α → Items} (h : ∀ a, widths (f a) = widths absent) :
    widths (payOpt absent (o.map f)) = 1 :: widths absent := by
  refine widths_payOpt fun x hx => ?_
  obtain ⟨a, -, rfl⟩ := Option.mem_map.mp hx
  exact h a

theorem widths_payOpt_if {absent l : Items} {p : Prop} [Decidable p] (h : widths l = widths absent) :
    widths (payOpt absent (if p then some l else none)) = 1 :: widths absent := by
  refine widths_payOpt fun x hx => ?_
  split at hx
  · cases hx
    exact h
  · cases hx

theorem widths_map_const {α : Type} (l : List α) {f : α → Nat × Nat} {n : Nat} (h : ∀ a, (f a).1 = n) :
    widths (l.map f) = List.replicate l.length n := by
  rw [widths, List.map_map]
  exact List.eq_replicate_iff.mpr ⟨List.length_map _, fun x hx => by
    obtain ⟨a, -, rfl⟩ := List.mem_map.mp hx
    exact h a⟩

theorem widths_flatMap_const {α : Type} (l : List α) {f : α → Items} {ws : List Nat} (h : ∀ a, widths (f a) = ws) :
    widths (l.flatMap f) = (List.replicate l.length ws).flatten := by
  induction l with
  | nil => rfl
  | cons x xs ih => rw [List.flatMap_cons, widths_append, h, ih, List.length_cons, List.replicate_succ, List.flatten_cons]

theorem widths_loopItems (l : List (Nat × Nat)) : widths (loopItems l) = [2, 1, 2, 1, 2, 1, 2, 1, 2] := by
  have hlen : ((l ++ List.replicate 4 (0, 0)).take 4).length = 4 := by
    rw [List.length_take, List.length_append, List.length_replicate]
    omega
  rw [loopItems, widths_cons, widths_flatMap_const _ (ws := [1, 2]) fun _ => rfl, hlen]
  rfl

/-! ### STATUS -/

theorem widths_section0 (s : State) (c : Chan) : payLength 0 (widths (s.section0 c)) ≤ 364 := by
  have hlabel (o : Option Plan) : widths (payOpt [(4, 0)] (o.map fun p => [payCount p.header.label])) = [1, 4] :=
    widths_payOpt_map fun _ => rfl
  have hmode (o : Option Plan) : widths (payOpt [(1, 0)] (o.map fun p => [(1, p.header.switchMode.code)])) = [1, 1] :=
    widths_payOpt_map fun _ => rfl
  have href (o : Option Nat) : widths (payOpt [(8, 0)] (o.map fun q => [payNat 8 q])) = [1, 8] := widths_payOpt_map fun _ => rfl
  have hpair : widths (s.pairItems c) = [1, 1, 1] := widths_payOpt_if rfl
  have hframe (o : Option FrameRecord) : widths (payOpt [(1, 0), (1, 0), (1, 0), (1, 0), (4, 0)] (o.map FrameRecord.items)) =
      [1, 1, 1, 1, 1, 4] := widths_payOpt_map fun _ => rfl
  simp only [State.section0, widths_append, widths_loopItems, hlabel, hmode, href, hpair, hframe]
  simp only [widths_cons, widths_nil, payFlag, payNat, Wanted.items]
  decide

theorem widths_curItems (x : CurRecord) : widths x.items = [2, 2, 1, 1, 2, 2, 1] := by
  have h : widths (payOpt [(2, 0)] (x.learned.map fun y => [payInt 2 y])) = [1, 2] := widths_payOpt_map fun _ => rfl
  simp only [CurRecord.items, widths_append, h]
  rfl

theorem widths_section1 (s : State) (c : Chan) : payLength 0 (widths (s.section1 c)) ≤ 364 := by
  simp only [State.section1, widths_append, widths_curItems, widths_cons, widths_nil, payFlag, payInt, payNat, CalRecord.items,
    Acc.items]
  decide

theorem widths_regItems (x : RegReport) : widths x.items = [4, 4, 1, 4, 4, 1, 1] := by
  have h : widths (payOpt [(4, 0)] (x.b.map fun y => [payInt 4 y])) = [1, 4] := widths_payOpt_map fun _ => rfl
  simp only [RegReport.items, widths_append, h]
  rfl

theorem widths_section2 (s : State) (c : Chan) : payLength 0 (widths (s.section2 c)) ≤ 364 := by
  have hreg (o : Option RegReport) :
      widths (payOpt [(4, 0), (4, 0), (1, 0), (4, 0), (4, 0), (1, 0), (1, 0)] (o.map RegReport.items)) = [1, 4, 4, 1, 4, 4, 1, 1] :=
    widths_payOpt_map widths_regItems
  have hlimits (o : Option LimitSet) : widths (payOpt limitWidths (o.map LimitSet.items)) = 1 :: widths limitWidths :=
    widths_payOpt_map fun _ => rfl
  have hchop (o : Option Nat) : widths (payOpt [(2, 0)] (o.map fun k => [payNat 2 k])) = [1, 2] := widths_payOpt_map fun _ => rfl
  have hmismatch : widths (payOpt [(2, 0)] (if isEven c then some [payNat 2 (s.pair (pairOf c)).mismatch] else none)) = [1, 2] :=
    widths_payOpt_if rfl
  simp only [State.section2, widths_append, hreg, hlimits, hchop, hmismatch]
  simp only [limitWidths, widths_cons, widths_nil, payFlag, payInt, payNat, Checks.items, FaultRecord.items]
  decide

theorem widths_watchItems (w : Watch) : widths w.items = [1, 1, 1, 4, 1, 8, 1, 4] := by
  have h : widths (payOpt [(8, 0)] (w.prev.map fun x => [payInt 8 x])) = [1, 8] := widths_payOpt_map fun _ => rfl
  simp only [Watch.items, widths_append, h]
  rfl

theorem widths_section3 (s : State) (c : Chan) : payLength 0 (widths (s.section3 c)) ≤ 364 := by
  have hlatch (o : Option Record) : widths (payOpt [(4, 0), (1, 0)] (o.map fun r => [payCount r.seq, (1, r.kind.code)])) = [1, 4, 1] :=
    widths_payOpt_map fun _ => rfl
  have hloss (o : Option (U32 × U32)) : widths (payOpt [(4, 0), (4, 0)] (o.map fun p => [payCount p.1, payCount p.2])) = [1, 4, 4] :=
    widths_payOpt_map fun _ => rfl
  simp only [State.section3, widths_append, hlatch, hloss, widths_watchItems]
  simp only [PoolHeader.items, widths_cons, widths_nil, payNat, payCount]
  decide

theorem State.snapshot_length (s : State) (c : Chan) (n : Nat) : (s.snapshot c n).length ≤ 364 := by
  unfold State.snapshot
  rw [payload_length]
  split
  · exact widths_section0 s c
  · exact widths_section1 s c
  · exact widths_section2 s c
  · exact widths_section3 s c

/-! ### The counters -/

theorem State.counterItems_length (s : State) (c : Chan) : (payload (s.counterItems c)).length ≤ 364 := by
  have hmissed : widths (payOpt [(4, 0)] (if isEven c then some [payCount (s.pair (pairOf c)).missedCtr] else none)) = [1, 4] :=
    widths_payOpt_if rfl
  rw [payload_length]
  simp only [State.counterItems, widths_append, hmissed]
  simp only [widths_cons, widths_nil, payCount]
  decide

theorem State.deviceItems_length (s : State) : (payload s.deviceItems).length ≤ 364 := by
  have hpairs : widths (s.pairs.toList.map fun p => payFlag p.ganged) = List.replicate 8 1 := by
    rw [widths_map_const _ (n := 1) fun _ => rfl, Vector.length_toList]
  have hsettings (o : Option LinkSettings) : widths (payOpt [(4, 0), (4, 0), (2, 0)] (o.map LinkSettings.items)) = [1, 4, 4, 2] :=
    widths_payOpt_map fun _ => rfl
  have hwanted : widths (s.arb.wanted.toList.flatMap Wanted.items) = (List.replicate 16 [1, 4]).flatten := by
    rw [widths_flatMap_const _ (ws := [1, 4]) fun _ => rfl, Vector.length_toList]
  have hgrants : widths (s.arb.grants.toList.map fun g => (4, g.code)) = List.replicate 16 4 := by
    rw [widths_map_const _ (n := 4) fun _ => rfl, Vector.length_toList]
  rw [payload_length]
  simp only [State.deviceItems, widths_append, hpairs, hsettings, hwanted, hgrants]
  simp only [widths_cons, widths_nil, payFlag, payNat, payInt, payCount, EvalSummary.items]
  decide +kernel

end Sys2Proof.Machine

/-!
Requests that write the channel's own record alone (FAULT_ACK, SET_LIMITS, SET_CAL, SET_WATCH, CLEAR_WATCH), STATUS, COUNTERS and
FLUSH: their parameters in the request half, and what they leave.
-/

namespace Sys2Proof.Machine

variable {s t u v : State} {c : Chan} {r : Reply} {k : ReqKind} {tag : U32} {l half : List Byte}

/-! ### Parameters -/

theorem fieldAt_one (b : Byte) (m : List Byte) : fieldAt (b :: m) 0 1 = b.toNat := by
  simp only [fieldAt, List.drop_zero, List.take_succ_cons, List.take_zero, ofLE]
  omega

theorem fieldAt_cons (b : Byte) (m : List Byte) (o n : Nat) : fieldAt (b :: m) (o + 1) n = fieldAt m o n := rfl

theorem toSigned_toNat (x : U32) : toSigned (8 * 4) x.toNat = x.toInt := by
  rw [BitVec.toInt_eq_toNat_cond, toSigned]
  have hiff : x.toNat < 2 ^ (8 * 4 - 1) ↔ 2 * x.toNat < 2 ^ 32 := by omega
  simp only [hiff]

theorem fieldAt_word (x : U32) (m : List Byte) : fieldAt (leBytes 4 x.toNat ++ m) 0 4 = x.toNat :=
  (fieldAt_leBytes 4 _ m).trans (Nat.mod_eq_of_lt x.isLt)

/-- A field of a list of words. -/
theorem fieldAt_words (ws : List U32) {n : Nat} (h : n < ws.length) :
    fieldAt (ws.flatMap fun x => leBytes 4 x.toNat) (4 * n) 4 = (ws[n]).toNat := by
  induction ws generalizing n with
  | nil => cases h
  | cons x xs ih =>
    rw [List.flatMap_cons]
    cases n with
    | zero => exact fieldAt_word x _
    | succ n =>
      rw [fieldAt_append_right _ _ _ _ (by rw [leBytes_length]; omega), leBytes_length, show 4 * (n + 1) - 4 = 4 * n by omega,
        ih (by simpa using h)]
      rfl

theorem param1_requestHalf (k : ReqKind) (tag : U32) (l : List Byte) (o : Nat) (h : o < l.length) :
    param1 (requestHalf k tag l) (0x10 + o) = fieldAt l o 1 := requestHalf_field k tag l o 1 h

theorem sparam4_requestHalf (k : ReqKind) (tag : U32) (l : List Byte) (o : Nat) (h : o + 4 ≤ l.length) :
    sparam4 (requestHalf k tag l) (0x10 + o) = toSigned (8 * 4) (fieldAt l o 4) :=
  congrArg (toSigned (8 * 4)) (requestHalf_field k tag l o 4 h)

/-! ### An owner that writes the channel's record -/

/-- The exchange of a request by which of the parts about channel c its record alone changes. -/
structure ChanAnswered (s t : State) (c : Chan) (tag kind : Nat) (r : Reply) (ch : Channel) : Prop where
  answered : Answered t (chanSlot c) tag kind r
  counted : Counted s t c 1 0 0
  chan : t.chan c = ch
  arb : t.arb = s.arb
  link : t.link c = s.link c
  pairs : t.pairs = s.pairs
  frame : Frame s t c [slotArea (chanSlot c), noticeArea c]

/-- R183: an owner that writes the record of channel c, wherever it sees what stands in s, and completes. -/
theorem State.channelExchange_modChan {f : Channel → Channel} (h : SlotFree s (chanSlot c)) (hl : l.length ≤ 112)
    (hk : ReqKind.ofChannelCode k.code = some k) (hf : (s.chan c).st ≠ .follower ∨ k.followerMay = true) (hr : r.Fits)
    (hd : ∀ v, SlotOnly s v (chanSlot c) → v.channelRequest c (requestHalf k tag l) k = (v.modChan c f, some r)) :
    ChanAnswered s (s.channelExchange c k tag l) c tag.toNat k.code r (f (s.chan c)) := by
  obtain ⟨v, hv, -, hdone⟩ := State.channelExchange_owner h hl hk hf tag
  have hans := hdone _ r (hd v hv) hr
  exact ⟨hans.answered, hans.countedSame hv.notices,
    (State.chan_of_chans hans.chans c).trans (by rw [State.chan_modChan_self, State.chan_of_chans hv.chans]),
    hans.arb.trans hv.arb, (State.link_of_links hans.links c).trans (State.link_of_links hv.links c), hans.pairs.trans hv.pairs,
    (hans.exchangeFrame hv (.modChan v c f) rfl).mono (by simp)⟩

/-- R183: an owner that answers a request of channel c and changes nothing, wherever it sees what stands in s. -/
theorem State.channelExchange_same (h : SlotFree s (chanSlot c)) (hl : l.length ≤ 112) (hk : ReqKind.ofChannelCode k.code = some k)
    (hf : (s.chan c).st ≠ .follower ∨ k.followerMay = true) (hr : r.Fits)
    (hd : ∀ v, SlotOnly s v (chanSlot c) → v.channelRequest c (requestHalf k tag l) k = (v, some r)) :
    OnlyAnswered s (s.channelExchange c k tag l) c tag.toNat k.code r :=
  State.channelExchange_unchanged h hl hk hf hr (hd _ (s.begun_slotOnly _ k tag hl))

theorem State.modChan_modChan (s : State) (c : Chan) (f g : Channel → Channel) :
    (s.modChan c f).modChan c g = s.modChan c fun ch => g (f ch) := by
  simp only [State.modChan, State.setChan, State.chan, Vector.set_set, Fin.getElem_fin, Vector.getElem_set_self]

/-! ### FAULT_ACK -/

theorem width_faultItems_fits (f : FaultRecord) : (Reply.payload' (payload f.items)).Fits :=
  .ofPayload ((payload_length_le f.items).trans (by rw [width_faultItems]; decide))

theorem State.reqFaultAck_tripped (h : (s.chan c).st = .tripped) :
    s.reqFaultAck c = (s.modChan c fun ch => { ch with fault := { ch.fault with acked := true } },
      .payload' (payload { (s.chan c).fault with acked := true }.items)) := by
  unfold State.reqFaultAck
  rw [if_pos h]
  dsimp only
  rw [State.chan_modChan_self]

/-- Settles O34: FAULT_ACK writes the flag and answers with the record. -/
theorem faultAckMarksTheRecord : Obligations.FaultAckMarksTheRecord := by
  intro c tag s hfree hst
  have h : ChanAnswered s _ c tag.toNat _ _ _ := State.channelExchange_modChan (k := .faultAck) (l := [])
    (f := fun ch => { ch with fault := { ch.fault with acked := true } }) hfree (by decide) rfl (.inl (by rw [hst]; decide)) (width_faultItems_fits { (s.chan c).fault with acked := true }) fun v hv => by
      rw [← State.chan_of_chans hv.chans] at hst ⊢
      exact congrArg atTake (State.reqFaultAck_tripped hst)
  exact ⟨_, rfl, h.chan, h.answered, h.counted, h.arb, h.link, h.pairs, h.frame⟩

/-! ### SET_LIMITS -/

theorem limitConflict_congr {f g : Nat → Int} (h : ∀ n, n < 21 → f n = g n) : limitConflict f = limitConflict g := by
  simp only [limitConflict, h 0 (by decide), h 1 (by decide), h 2 (by decide), h 3 (by decide), h 11 (by decide), h 12 (by decide),
    h 13 (by decide), h 14 (by decide)]

theorem limitFault_congr {f g : Nat → Int} (h : ∀ n, n < 21 → f n = g n) : limitFault f = limitFault g := by
  have hfind : (List.range 21).find? (fun n => !limitOk n (f n)) = (List.range 21).find? fun n => !limitOk n (g n) :=
    List.find?_congr fun n hn => by rw [h n (List.mem_range.mp hn)]
  rw [limitFault, limitFault, hfind, limitConflict_congr h]

theorem limitSetOf_congr {f g : Nat → Int} (h : ∀ n, n < 21 → f n = g n) : limitSetOf f = limitSetOf g := by
  simp (disch := decide) only [limitSetOf, h]

/-- The words of SET_LIMITS in the order of their table. -/
def limitWordList (w : LimitWords) : List U32 :=
  [w.vMax, w.vMin, w.iMax, w.iSoft, w.chopOff, w.softWindow, w.softMax, w.blankTime, w.tMax, w.tStart, w.slope, w.iFloor,
    w.iRunMax, w.vCmin, w.vCmax, w.filterTime, w.silenceLimit, w.linkHoldMax, w.resumePolicy, w.priority, w.pairTol]

theorem limitWordBytes_length (w : LimitWords) : (limitWordBytes w).length = 84 := rfl

/-- Section 11.3: the fields of SET_LIMITS read back from its request half. -/
theorem limitField_requestHalf (tag : U32) (w : LimitWords) {n : Nat} (h : n < 21) :
    limitField (requestHalf .setLimits tag (limitWordBytes w)) n = (limitValues w).getD n 0 := by
  have hlen : n < (limitWordList w).length := h
  have hvalues : limitValues w = (limitWordList w).map BitVec.toInt := rfl
  rw [limitField, limitOffset, sparam4_requestHalf _ _ _ _ (by rw [limitWordBytes_length]; omega)]
  rw [show limitWordBytes w = (limitWordList w).flatMap fun x => leBytes 4 x.toNat from rfl, fieldAt_words _ hlen, toSigned_toNat, hvalues,
    List.getD_eq_getElem?_getD, List.getElem?_map, List.getElem?_eq_getElem hlen]
  rfl

theorem limitItems_fits (x : LimitSet) : (Reply.payload' (payload x.items)).Fits :=
  .ofPayload ((payload_length_le x.items).trans (by rw [width_limitItems]; decide))

theorem State.reqSetLimits_enabled (h : (s.chan c).st ≠ .disabled) (half : List Byte) :
    s.reqSetLimits c half = match limitFault (limitField half) with
      | some n => (s, .bad (limitOffset n))
      | none => (s.modChan c fun ch => { ch with limits := some (limitSetOf (limitField half)), limitsLoaded := true },
        .payload' (payload (limitSetOf (limitField half)).items)) := if_neg h

/-- Settles O35: the two passes read the words as their signed values. -/
theorem setLimitsReplacesTheSetWhole : Obligations.SetLimitsReplacesTheSetWhole := by
  intro c tag w s hfree hdis hfol
  dsimp only
  have hfield (n : Nat) (hn : n < 21) := limitField_requestHalf tag w hn
  have hfault := limitFault_congr hfield
  have hset := limitSetOf_congr hfield
  refine ⟨fun hnone => ?_, fun n hn => ⟨_, rfl, ?_⟩⟩
  · have h : ChanAnswered s _ c tag.toNat _ _ _ := State.channelExchange_modChan (k := .setLimits) (l := limitWordBytes w)
      (f := fun ch => { ch with limits := some (limitSetOf fun n => (limitValues w).getD n 0), limitsLoaded := true }) hfree
      (by rw [limitWordBytes_length]; decide) rfl (.inl hfol) (limitItems_fits (limitSetOf fun n => (limitValues w).getD n 0))
      fun v hv => by
        rw [← State.chan_of_chans hv.chans] at hdis
        rw [State.channelRequest, State.reqSetLimits_enabled hdis, hfault.trans hnone, hset, atTake]
    exact ⟨_, rfl, h.chan, limitSetOf_ok hnone, h.answered, h.counted, h.arb, h.link, h.pairs, h.frame⟩
  · refine State.channelExchange_same hfree (by rw [limitWordBytes_length]; decide) rfl (.inl hfol) (.bad (limitOffset n)) fun v hv => ?_
    rw [← State.chan_of_chans hv.chans] at hdis
    rw [State.channelRequest, State.reqSetLimits_enabled hdis, hfault.trans hn]
    rfl

/-! ### SET_CAL -/

/-- The parameter bytes of SET_CAL. -/
def calBytes (record mode learnRequest : Byte) (offset gain learnLimit : U32) : List Byte :=
  [record, mode, learnRequest, 0] ++ leBytes 4 offset.toNat ++ leBytes 4 gain.toNat ++ leBytes 4 learnLimit.toNat

theorem calBytes_length (record mode learnRequest : Byte) (offset gain learnLimit : U32) :
    (calBytes record mode learnRequest offset gain learnLimit).length = 16 := rfl

/-- Section 11.3: the parameters of SET_CAL read back from its request half. -/
theorem calParams_requestHalf (tag : U32) (record mode learnRequest : Byte) (offset gain learnLimit : U32) :
    CalParams.ofHalf (requestHalf .setCal tag (calBytes record mode learnRequest offset gain learnLimit)) =
      ⟨record.toNat, mode.toNat, learnRequest != 0, offset.toInt, gain.toInt, learnLimit.toInt⟩ := by
  have hbyte (o : Nat) (ho : o < 16) := param1_requestHalf .setCal tag (calBytes record mode learnRequest offset gain learnLimit) o ho
  have hword (o : Nat) (ho : o + 4 ≤ 16) := sparam4_requestHalf .setCal tag (calBytes record mode learnRequest offset gain learnLimit) o ho
  have hoffset : fieldAt (calBytes record mode learnRequest offset gain learnLimit) 4 4 = offset.toNat := by
    rw [calBytes, List.append_assoc, List.append_assoc]
    exact fieldAt_word offset _
  have hgain : fieldAt (calBytes record mode learnRequest offset gain learnLimit) 8 4 = gain.toNat := by
    rw [calBytes, List.append_assoc, fieldAt_append_right _ _ _ _ (Nat.le_of_ble_eq_true rfl)]
    exact fieldAt_word gain _
  have hlimit : fieldAt (calBytes record mode learnRequest offset gain learnLimit) 12 4 = learnLimit.toNat := by
    rw [calBytes, fieldAt_append_right _ _ _ _ (Nat.le_of_ble_eq_true rfl)]
    exact (congrArg (fieldAt · 0 4) (List.append_nil _).symm).trans (fieldAt_word learnLimit [])
  have hlearn : (learnRequest.toNat != 0) = (learnRequest != 0) := by
    rw [Bool.eq_iff_iff, bne_iff_ne, bne_iff_ne, ne_eq, ne_eq, ← BitVec.toNat_inj]
    rfl
  rw [CalParams.ofHalf, hbyte 0 (by decide), hbyte 1 (by decide), hbyte 2 (by decide), hword 4 (by decide), hword 8 (by decide),
    hword 12 (by decide), hoffset, hgain, hlimit, toSigned_toNat, toSigned_toNat, toSigned_toNat, ← hlearn]
  have hrecord : fieldAt (calBytes record mode learnRequest offset gain learnLimit) 0 1 = record.toNat := fieldAt_one _ _
  have hmode : fieldAt (calBytes record mode learnRequest offset gain learnLimit) 1 1 = mode.toNat := fieldAt_one _ _
  have hreq : fieldAt (calBytes record mode learnRequest offset gain learnLimit) 2 1 = learnRequest.toNat := fieldAt_one _ _
  rw [hrecord, hmode, hreq]

theorem recordItems_fits (x : CalTable) (n : Nat) : (Reply.payload' (payload (x.recordItems n))).Fits :=
  .ofPayload ((payload_length_le _).trans ((Nat.mul_le_mul_left 2 (width_recordItems x n)).trans (by decide)))

/-- R58: what an accepted SET_CAL makes of a channel. -/
def Channel.calibrated (p : CalParams) (discards : Bool) (ch : Channel) : Channel :=
  { ch with cal := ch.cal.set p, az := if discards then ch.az.discard else ch.az }

theorem State.discardLearning_eq (s : State) (c : Chan) (p : CalParams) :
    (s.modChan c fun ch => { ch with cal := ch.cal.set p }).discardLearning c p =
      s.modChan c (Channel.calibrated p (decide (calRange p.record = some (s.chan (s.conductor c)).range))) := by
  have hrange : ((s.modChan c fun ch => { ch with cal := ch.cal.set p }).chan (s.conductor c)).range =
      (s.chan (s.conductor c)).range := by
    rw [State.chan_modChan]
    split
    · rw [‹s.conductor c = c›]
      rfl
    · rfl
  unfold State.discardLearning
  rw [show (s.modChan c fun ch => { ch with cal := ch.cal.set p }).conductor c = s.conductor c from rfl, hrange]
  unfold Channel.calibrated
  split
  · rw [State.modChan_modChan]
    simp only [*, decide_true, if_true]
  · simp only [*, decide_false, Bool.false_eq_true, if_false]

end Sys2Proof.Machine

/-!
SET_CAL, the watch points, STATUS, COUNTERS and FLUSH answered.
-/

namespace Sys2Proof.Machine

variable {s t u v : State} {c : Chan} {r : Reply} {k : ReqKind} {tag : U32} {l half : List Byte}

/-! ### SET_CAL -/

theorem State.reqSetCal_accepted {p : CalParams} (hp : CalParams.ofHalf half = p) (h : p.fault = none) :
    s.reqSetCal c half = (s.modChan c (Channel.calibrated p (decide (calRange p.record = some (s.chan (s.conductor c)).range))),
      .payload' (payload (((s.chan c).cal.set p).recordItems p.record))) := by
  unfold State.reqSetCal
  dsimp only
  rw [hp, h]
  dsimp only
  rw [State.discardLearning_eq, State.chan_modChan_self]
  rfl

theorem State.reqSetCal_refused {p : CalParams} {o : Nat} (hp : CalParams.ofHalf half = p) (h : p.fault = some o) :
    s.reqSetCal c half = (s, .bad o) := by
  unfold State.reqSetCal
  dsimp only
  rw [hp, h]

theorem SlotOnly.follows {n : SlotIx} (h : SlotOnly s v n) (d : Chan) : v.follows d = s.follows d := by
  simp only [State.follows, State.pair_of_pairs h.pairs]

theorem SlotOnly.conductor {n : SlotIx} (h : SlotOnly s v n) (d : Chan) : v.conductor d = s.conductor d := by
  rw [State.conductor, State.conductor, h.follows]

/-- Settles O36: the table and the learning are the record's, and the record answered is the new one. -/
theorem setCalReplacesTheRecord : Obligations.SetCalReplacesTheRecord := by
  intro c tag record mode learnRequest offset gain learnLimit s hfree p
  have hparams : CalParams.ofHalf _ = p := calParams_requestHalf tag record mode learnRequest offset gain learnLimit
  clear_value p
  have hlen : (calBytes record mode learnRequest offset gain learnLimit).length ≤ 112 := by
    rw [calBytes_length]
    decide
  refine ⟨fun hnone => ?_, fun o ho => ⟨_, rfl, ?_⟩⟩
  · have h : ChanAnswered s _ c tag.toNat _ _ _ := State.channelExchange_modChan (k := .setCal)
      (f := Channel.calibrated p (decide (calRange p.record = some (s.chan (s.conductor c)).range))) hfree hlen rfl (.inr rfl)
      (recordItems_fits ((s.chan c).cal.set p) p.record) fun v hv => by
        rw [State.channelRequest, State.reqSetCal_accepted hparams hnone, hv.conductor, State.chan_of_chans hv.chans,
          State.chan_of_chans hv.chans, atTake]
    refine ⟨_, rfl, h.chan.trans ?_, h.answered, h.counted, h.arb, h.link, h.pairs, h.frame⟩
    rw [Channel.calibrated]
    simp only [decide_eq_true_eq]
  · refine State.channelExchange_same (k := .setCal)
      (l := calBytes record mode learnRequest offset gain learnLimit) hfree hlen rfl (.inr rfl) (.bad o) fun v _ => ?_
    rw [State.channelRequest, State.reqSetCal_refused hparams ho]
    rfl

/-! ### Watch points -/

/-- The parameter bytes of SET_WATCH. -/
def watchBytes (index quantity direction mode : Byte) (threshold : U32) : List Byte :=
  [index, quantity, direction, mode] ++ leBytes 4 threshold.toNat

theorem watchBytes_length (index quantity direction mode : Byte) (threshold : U32) :
    (watchBytes index quantity direction mode threshold).length = 8 := rfl

/-- Section 11.3: the parameters of SET_WATCH read back from its request half. -/
theorem watchBytes_requestHalf (tag : U32) (index quantity direction mode : Byte) (threshold : U32) :
    let half := requestHalf .setWatch tag (watchBytes index quantity direction mode threshold)
    param1 half 0x10 = index.toNat ∧ param1 half 0x11 = quantity.toNat ∧ param1 half 0x12 = direction.toNat ∧
      param1 half 0x13 = mode.toNat ∧ sparam4 half 0x14 = threshold.toInt := by
  have hbyte (o : Nat) (ho : o < 8) := param1_requestHalf .setWatch tag (watchBytes index quantity direction mode threshold) o ho
  have hword : fieldAt (watchBytes index quantity direction mode threshold) 4 4 = threshold.toNat :=
    (congrArg (fieldAt · 0 4) (List.append_nil _).symm).trans (fieldAt_word threshold [])
  refine ⟨(hbyte 0 (by decide)).trans (fieldAt_one _ _), (hbyte 1 (by decide)).trans (fieldAt_one _ _),
    (hbyte 2 (by decide)).trans (fieldAt_one _ _), (hbyte 3 (by decide)).trans (fieldAt_one _ _), ?_⟩
  rw [← toSigned_toNat, ← hword]
  exact sparam4_requestHalf .setWatch tag (watchBytes index quantity direction mode threshold) 4 (Nat.le_of_ble_eq_true rfl)

/-- Section 11.3: a parameter of one byte. -/
theorem param1_of_byte (k : ReqKind) (tag : U32) (b : Byte) (m : List Byte) : param1 (requestHalf k tag (b :: m)) 0x10 = b.toNat :=
  (param1_requestHalf k tag (b :: m) 0 (Nat.zero_lt_succ _)).trans (fieldAt_one b m)

theorem watchIx_of_val {x : Nat} {n : Fin 3} (h : x = n.val) : watchIx x = some n := by
  subst h
  exact dif_pos n.isLt

theorem watchIx_of_large {x : Nat} (h : 2 < x) : watchIx x = none := dif_neg (by omega)

theorem State.reqClearWatch_index {n : Fin 3} (h : watchIx (param1 half 0x10) = some n) :
    s.reqClearWatch c half =
      (s.modChan c fun ch => { ch with watches := ch.watches.set n { ch.watches[n] with latched := false } }).done := by
  unfold State.reqClearWatch
  rw [h]

theorem State.reqClearWatch_refused (h : watchIx (param1 half 0x10) = none) : s.reqClearWatch c half = (s, .bad 0x10) := by
  unfold State.reqClearWatch
  rw [h]

theorem State.reqSetWatch_refused (h : watchIx (param1 half 0x10) = none) : s.reqSetWatch c half = (s, .bad 0x10) := by
  unfold State.reqSetWatch
  rw [h]

theorem State.reqSetWatch_valid {n : Fin 3} {q : WatchQuantity} {d : WatchDir} {m : WatchMode}
    (hn : watchIx (param1 half 0x10) = some n) (hq : WatchQuantity.ofCode (param1 half 0x11) = some q)
    (hd : WatchDir.ofCode (param1 half 0x12) = some d) (hm : WatchMode.ofCode (param1 half 0x13) = some m) :
    s.reqSetWatch c half =
      (s.modChan c fun ch => { ch with watches := ch.watches.set n ⟨q, d, m, sparam4 half 0x14, none, false, 0⟩ }).done := by
  unfold State.reqSetWatch
  rw [hn, hq, hd, hm]

/-- Settles O37: the parameters name the watch point and its settings. -/
theorem watchPointsAreSetAndRearmed : Obligations.WatchPointsAreSetAndRearmed := by
  intro c tag s hfree hfol
  refine ⟨fun index quantity direction mode threshold n q d m hn hq hd hm => ?_, fun index n hn => ?_,
    fun index quantity direction mode threshold hlarge => ⟨⟨_, rfl, ?_⟩, _, rfl, ?_⟩⟩
  · obtain ⟨hx, hxq, hxd, hxm, hxt⟩ := watchBytes_requestHalf tag index quantity direction mode threshold
    have h : ChanAnswered s _ c tag.toNat _ _ _ := State.channelExchange_modChan (k := .setWatch)
      (l := watchBytes index quantity direction mode threshold)
      (f := fun ch => { ch with watches := ch.watches.set n ⟨q, d, m, threshold.toInt, none, false, 0⟩ }) hfree
      (by rw [watchBytes_length]; decide) rfl (.inl hfol) (.plain .done) fun v _ => by
        rw [State.channelRequest, State.reqSetWatch_valid (hx.symm ▸ watchIx_of_val hn) (hxq.symm ▸ hq) (hxd.symm ▸ hd) (hxm.symm ▸ hm),
          hxt]
        rfl
    exact ⟨_, rfl, ⟨h.answered, h.counted, h.arb, h.link, h.pairs, h.frame⟩, h.chan⟩
  · have hx := watchIx_of_val ((param1_of_byte .clearWatch tag index []).trans hn)
    have h : ChanAnswered s _ c tag.toNat _ _ _ := State.channelExchange_modChan (k := .clearWatch) (l := [index])
      (f := fun ch => { ch with watches := ch.watches.set n { ch.watches[n] with latched := false } }) hfree
      (Nat.le_of_ble_eq_true rfl) rfl (.inl hfol) (.plain .done) fun v _ => by
        rw [State.channelRequest, State.reqClearWatch_index hx]
        rfl
    exact ⟨_, rfl, ⟨h.answered, h.counted, h.arb, h.link, h.pairs, h.frame⟩, h.chan⟩
  · obtain ⟨hx, -⟩ := watchBytes_requestHalf tag index quantity direction mode threshold
    refine State.channelExchange_same (k := .setWatch) (l := watchBytes index quantity direction mode threshold) hfree
      (by rw [watchBytes_length]; decide) rfl (.inl hfol) (.bad 0x10) fun v _ => ?_
    rw [State.channelRequest, State.reqSetWatch_refused (hx.symm ▸ watchIx_of_large hlarge)]
    rfl
  · have hx := watchIx_of_large ((param1_of_byte .clearWatch tag index []).symm ▸ hlarge)
    refine State.channelExchange_same (k := .clearWatch) (l := [index]) hfree (Nat.le_of_ble_eq_true rfl) rfl (.inl hfol) (.bad 0x10)
      fun v _ => ?_
    rw [State.channelRequest, State.reqClearWatch_refused hx]
    rfl

/-! ### STATUS and COUNTERS -/

/-- R184: what STATUS reports stands in the channels, the links, the pairs and the Arbiter. -/
theorem SlotOnly.snapshot {n : SlotIx} (h : SlotOnly s v n) (c : Chan) (m : Nat) : v.snapshot c m = s.snapshot c m := by
  have hc := State.chan_of_chans h.chans c
  have h0 : v.section0 c = s.section0 c := by
    simp only [State.section0, State.pairItems, hc, State.link_of_links h.links, h.arb, h.follows]
  have h1 : v.section1 c = s.section1 c := by simp only [State.section1, hc]
  have h2 : v.section2 c = s.section2 c := by simp only [State.section2, hc, State.pair_of_pairs h.pairs]
  have h3 : v.section3 c = s.section3 c := by simp only [State.section3, hc]
  simp only [State.snapshot, h0, h1, h2, h3]

theorem SlotOnly.counterItems {n : SlotIx} (h : SlotOnly s v n) (c : Chan) : v.counterItems c = s.counterItems c := by
  simp only [State.counterItems, State.chan_of_chans h.chans, State.link_of_links h.links, State.pair_of_pairs h.pairs]

theorem Frame.clearCounters (s : State) (c : Chan) : Frame s (s.clearCounters c) c [] ∧ (s.clearCounters c).leads c = s.leads c := by
  have hboth : Frame s ((s.modChan c Channel.clearCounters).modLink c Link.clearCounters) c [] :=
    (Frame.modChan s c _).trans (.modLink _ c _) rfl
  unfold State.clearCounters
  dsimp only
  split
  · exact ⟨hboth.trans (.modPair _ c _) rfl, State.leads_congr (by rw [State.pair_modPair_self]; rfl)⟩
  · exact ⟨hboth, rfl⟩

theorem State.clearCounters_parts (s : State) (c : Chan) :
    (s.clearCounters c).chan c = (s.chan c).clearCounters ∧ (s.clearCounters c).link c = (s.link c).clearCounters ∧
      (s.clearCounters c).pair (pairOf c) =
        (if isEven c then { s.pair (pairOf c) with missedCtr := 0 } else s.pair (pairOf c)) ∧
      (s.clearCounters c).arb = s.arb ∧ (s.clearCounters c).notices = s.notices := by
  unfold State.clearCounters
  dsimp only
  split
  · refine ⟨?_, ?_, ?_, rfl, rfl⟩
    · rw [State.modPair_chan, State.modLink_chan, State.chan_modChan_self]
    · rw [State.modPair_link, State.link_modLink_self, State.modChan_link]
    · rw [State.pair_modPair_self]
      rfl
  · refine ⟨?_, ?_, rfl, rfl, rfl⟩
    · rw [State.modLink_chan, State.chan_modChan_self]
    · rw [State.link_modLink_self, State.modChan_link]

theorem toNat_ne_zero {b : Byte} (h : b ≠ 0) : b.toNat ≠ 0 := fun e => h (BitVec.eq_of_toNat_eq e)

/-- Settles O40: the report is of the state at the take, and the clear comes before the response is counted. -/
theorem statusAndCountersReport : Obligations.StatusAndCountersReport := by
  intro c tag s hfree
  refine ⟨fun sect => ⟨_, rfl, ?_⟩, ⟨_, rfl, ?_⟩, fun clear hclear => ?_⟩
  · refine State.channelExchange_same (k := .status) (l := [sect]) hfree (Nat.le_of_ble_eq_true rfl) rfl (.inr rfl)
      (.ofPayload (s.snapshot_length c sect.toNat)) fun v hv => ?_
    rw [State.channelRequest, State.reqStatus, param1_of_byte, hv.snapshot]
    rfl
  · refine State.channelExchange_same (k := .counters) (l := [0]) hfree (Nat.le_of_ble_eq_true rfl) rfl (.inr rfl)
      (.ofPayload (s.counterItems_length c)) fun v hv => ?_
    rw [State.channelRequest, State.reqCounters, param1_of_byte, hv.counterItems]
    rfl
  · obtain ⟨v, hv, -, hdone⟩ := State.channelExchange_owner (k := .counters) (l := [clear]) hfree (Nat.le_of_ble_eq_true rfl) rfl
      (.inr rfl) tag
    have howner : v.channelRequest c (requestHalf .counters tag [clear]) .counters =
        (v.clearCounters c, some (.payload' (payload (s.counterItems c)))) := by
      rw [State.channelRequest, State.reqCounters, param1_of_byte, hv.counterItems, if_pos (toNat_ne_zero hclear)]
      rfl
    have hans := hdone _ _ howner (.ofPayload (s.counterItems_length c))
    obtain ⟨hchan, hlink, hpair, harb, hnotices⟩ := v.clearCounters_parts c
    obtain ⟨hframe, hleads⟩ := Frame.clearCounters v c
    rw [State.chan_of_chans hv.chans] at hchan
    rw [State.link_of_links hv.links] at hlink
    rw [State.pair_of_pairs hv.pairs] at hpair
    exact ⟨_, rfl, hans.answered, hans.countedSame (hnotices.trans hv.notices), (State.chan_of_chans hans.chans c).trans hchan,
      (State.link_of_links hans.links c).trans hlink, (State.pair_of_pairs hans.pairs _).trans hpair,
      hans.arb.trans (harb.trans hv.arb), hans.exchangeFrame hv hframe hleads⟩

end Sys2Proof.Machine

/-!
FLUSH (R158): the handover of the FILLING pool, its header and its count, and the exchange that answers with it.
-/

namespace Sys2Proof.Machine

variable {s t u v : State} {c : Chan} {r : Reply} {k : ReqKind} {tag : U32} {l half : List Byte}

/-- Bytes outside the written areas read as before. -/
theorem StoreKept.readBytes {areas : List (Nat × Nat)} (h : StoreKept s t areas) {a n : Nat}
    (ha : ∀ x ∈ areas, a + n ≤ x.1 ∨ x.1 + x.2 ≤ a) : t.store.readBytes a n = s.store.readBytes a n :=
  Mem.readBytes_congr _ _ _ _ fun b hlo hhi => h b fun x hx => by
    have := ha x hx
    omega

/-! ### The handover -/

/-- The area of the two pool headers of channel c (R175). -/
def headersArea (c : Chan) : Nat × Nat := (Config.headerBase c .a, 64)

theorem headerBase_eq (c : Chan) (p : PoolId) : Config.headerBase c p = Config.headerBase c .a + 32 * Config.poolNo p := by
  simp only [Config.headerBase, Config.poolNo]
  omega

theorem poolNo_le (p : PoolId) : Config.poolNo p ≤ 1 := by cases p <;> decide

theorem State.putHeader_storeKept (s : State) (c : Chan) (p : PoolId) (h : PoolHeader) :
    StoreKept s (s.putHeader c p h) [headersArea c] := by
  intro a ha
  have hout := ha (headersArea c) (List.mem_singleton_self _)
  have hp := poolNo_le p
  refine Mem.read_writeBytes_ne _ _ _ _ ?_
  rw [PoolHeader.bytes_length, headerBase_eq]
  simp only [headersArea] at hout
  omega

theorem State.putHeader_readBytes (s : State) (c : Chan) (p : PoolId) (h : PoolHeader) :
    (s.putHeader c p h).store.readBytes (Config.headerBase c p) 32 = h.bytes := by
  have hread := Mem.readBytes_writeBytes s.store (Config.headerBase c p) h.bytes
  rwa [PoolHeader.bytes_length] at hread

/-- The header of one pool written leaves the other's. -/
theorem State.putHeader_readBytes_other (s : State) (c : Chan) (p : PoolId) (h : PoolHeader) :
    (s.putHeader c (otherPool p) h).store.readBytes (Config.headerBase c p) 32 = s.store.readBytes (Config.headerBase c p) 32 := by
  refine Mem.readBytes_writeBytes_ne _ _ _ _ _ ?_
  rw [PoolHeader.bytes_length, headerBase_eq c p, headerBase_eq c (otherPool p)]
  cases p
  · exact .inl (Nat.le_refl _)
  · exact .inr (Nat.le_refl _)

theorem noticeArea_headers (c d : Chan) (p : PoolId) :
    Config.headerBase c p + 32 ≤ (noticeArea d).1 ∨ (noticeArea d).1 + (noticeArea d).2 ≤ Config.headerBase c p := by
  simp only [noticeArea, Config.chanNotice, Config.headerBase]
  omega

theorem slotArea_headers (n : SlotIx) (c : Chan) (p : PoolId) :
    Config.headerBase c p + 32 ≤ (slotArea n).1 ∨ (slotArea n).1 + (slotArea n).2 ≤ Config.headerBase c p := by
  simp only [slotArea, Config.slotBase, Config.headerBase]
  omega

/-- R152: what a handover has made of a state before it counts. -/
structure HandedHeaders (s t : State) (c : Chan) (p : PoolId) (h : PoolHeader) : Prop where
  rest : RestKept s t
  store : StoreKept s t [headersArea c]
  header : t.store.readBytes (Config.headerBase c p) 32 = h.bytes

/-- R152: the header of a pool handed over. -/
def PoolHeader.handed (h : PoolHeader) (q : CloseReason) : PoolHeader := { h with reason := q, gen := h.gen + 1, owner := .host }

theorem State.handover_headers (s : State) (c : Chan) (p : PoolId) (q : CloseReason) :
    ∃ t, s.handover c p q = t.bumpChan c .handovers ∧ HandedHeaders s t c p (((s.chan c).log.pool p).handed q) := by
  have hrest := State.putHeader_rest s c p (((s.chan c).log.pool p).handed q)
  have hstore := State.putHeader_storeKept s c p (((s.chan c).log.pool p).handed q)
  have hheader := State.putHeader_readBytes s c p (((s.chan c).log.pool p).handed q)
  unfold State.handover
  dsimp only
  split
  · exact ⟨_, rfl, hrest.trans (State.putHeader_rest _ _ _ _), hstore.trans (State.putHeader_storeKept _ _ _ _),
      (State.putHeader_readBytes_other _ _ _ _).trans hheader⟩
  · exact ⟨_, rfl, hrest, hstore, hheader⟩

theorem State.handover_header (s : State) (c : Chan) (p : PoolId) (q : CloseReason) :
    (s.handover c p q).store.readBytes (Config.headerBase c p) 32 = (((s.chan c).log.pool p).handed q).bytes := by
  obtain ⟨t, ht, hhanded⟩ := s.handover_headers c p q
  rw [ht]
  refine (StoreKept.readBytes (t.bumpChan_storeKept c .handovers) fun x hx => ?_).trans hhanded.header
  rw [List.mem_singleton.mp hx]
  exact noticeArea_headers c c p

theorem State.handover_handovers (s : State) (c : Chan) (p : PoolId) (q : CloseReason) :
    ((s.handover c p q).notices.chan[c]).handovers = (s.notices.chan[c]).handovers + 1 := by
  obtain ⟨t, ht, hhanded⟩ := s.handover_headers c p q
  rw [ht, State.bumpChan_self, hhanded.rest.notices]
  rfl

theorem Frame.handover (s : State) (c : Chan) (p : PoolId) (q : CloseReason) :
    Frame s (s.handover c p q) c [noticeArea c, headersArea c] := by
  have hchan (d : Chan) := s.handover_chan c d p q
  obtain ⟨t, ht, hrest, hstore, -⟩ := s.handover_headers c p q
  rw [ht] at hchan ⊢
  exact ⟨hrest.device.trans (t.bumpChan_device c _), fun d hd => .inl ((hchan d).trans (if_neg hd)),
    (NoticesKept.of hrest.notices c).trans (t.bumpChan_notices c _), .of ((t.bumpChan_arb c _).trans hrest.arb) c,
    fun d _ => State.link_of_links hrest.links d, fun m _ => State.slot_of_slots hrest.slots m,
    fun j _ => State.pair_of_pairs hrest.pairs j,
    (hstore.mono (by simp)).trans ((t.bumpChan_storeKept c _).mono (by simp))⟩

theorem Logger.handedOver_pool (l : Logger) (p : PoolId) (q : CloseReason) : (l.handedOver p q).pool p = (l.pool p).handed q := by
  have hother (m : Logger) (h : PoolHeader) : (m.setPool (otherPool p) h).pool p = m.pool p := by
    have h := Logger.pool_setPool_other m (otherPool p) h
    cases p <;> exact h
  unfold Logger.handedOver
  dsimp only
  split
  · rw [hother, Logger.pool_setPool]
    rfl
  · rw [Logger.pool_setPool]
    rfl

/-! ### FLUSH -/

theorem State.responded_bump (u : State) (c : Chan) (half : List Byte) (r : Reply) :
    ((u.responded (chanSlot c) half r).bumpResponses (chanSlot c)).notices.chan[c] = (u.notices.chan[c]).bump .responses := by
  have hslot : slotChan (chanSlot c) = some c := dif_pos c.isLt
  have hnotices : (u.responded (chanSlot c) half r).notices = u.notices := rfl
  generalize u.responded (chanSlot c) half r = w at hnotices
  rw [State.bumpResponses, hslot, ← hnotices]
  exact w.bumpChan_self c .responses

/-- R181: the notice counts of channel c at the completion of its request, its responses grown. -/
theorem State.channelExchange_notice (h : SlotFree s (chanSlot c)) (hl : l.length ≤ 112) (hk : ReqKind.ofChannelCode k.code = some k)
    (hf : (s.chan c).st ≠ .follower ∨ k.followerMay = true)
    (hd : (s.begun (chanSlot c) k tag l).channelRequest c (requestHalf k tag l) k = (u, some r)) :
    (s.channelExchange c k tag l).notices.chan[c] = (u.notices.chan[c]).bump .responses := by
  obtain ⟨heq, he⟩ := State.hostRequest_completed h hl ((State.begun_dispatch hk hf).trans hd)
  rw [State.channelExchange, heq, State.complete_of_executing he, State.finish_of_executing he, State.modSlot_notices]
  generalize requestHalf k tag l = half
  exact u.responded_bump c half r

theorem State.reqFlush_of_none (h : (s.chan c).log.filling = none) : s.reqFlush c = (s, ⟨.done, [2], []⟩) := by
  unfold State.reqFlush
  dsimp only
  rw [h]
  rfl

theorem State.reqFlush_of_empty {p : PoolId} (h : (s.chan c).log.filling = some p) (hu : ((s.chan c).log.pool p).used = 0) :
    s.reqFlush c = (s, ⟨.done, [1], []⟩) := by
  unfold State.reqFlush
  dsimp only
  rw [h]
  dsimp only
  rw [if_neg (by omega)]
  rfl

theorem State.reqFlush_of_used {p : PoolId} (h : (s.chan c).log.filling = some p) (hu : 0 < ((s.chan c).log.pool p).used) :
    s.reqFlush c = (s.handover c p .flush, ⟨.done, [0] ++ leBytes 1 (Config.poolNo p) ++ [0, 0] ++
      leBytes 4 (((s.chan c).log.pool p).gen + 1).toNat, []⟩) := by
  unfold State.reqFlush
  dsimp only
  rw [h]
  dsimp only
  rw [if_pos hu, State.handover_chan, if_pos rfl, Channel.withLog_log, Logger.handedOver_pool]
  rfl

/-- Settles O39: the header, the count and the generation of the handover stand in the answer. -/
theorem flushHandsOverTheFillingPool : Obligations.FlushHandsOverTheFillingPool := by
  intro c tag s hfree hfol
  refine ⟨fun p hp hused => ?_, fun p hp hused => ⟨_, rfl, ?_⟩, fun hnone => ⟨_, rfl, ?_⟩⟩
  · have howner : (s.begun (chanSlot c) .flush tag []).channelRequest c (requestHalf .flush tag []) .flush = _ :=
      congrArg atTake (State.reqFlush_of_used (c := c) (p := p) (by rw [State.taken_chan]; exact hp) (by rw [State.taken_chan]; exact hused))
    have hv := s.begun_slotOnly (chanSlot c) .flush tag (l := []) (by decide)
    have hans := State.channelExchange_completed hfree (by decide) rfl (.inl hfol)
      (.ofDetail (by simp only [List.length_append, leBytes_length]; decide)) howner
    have hnotice := State.channelExchange_notice hfree (by decide) rfl (.inl hfol) howner
    have hc := State.chan_of_chans hv.chans c
    clear howner
    generalize s.begun (chanSlot c) .flush tag [] = v at hv hans hnotice hc
    have hrec := (Recorded.refl c v).handover p .flush
    have hchan : (v.handover c p .flush).chan c = (s.chan c).withLog ((s.chan c).log.handedOver p .flush) := by
      rw [State.handover_chan, if_pos rfl, hc]
    have hlinks : (v.handover c p .flush).link c = s.link c := by
      obtain ⟨w, hw, hhanded⟩ := v.handover_headers c p .flush
      rw [hw]
      exact State.link_of_links (hhanded.rest.links.trans hv.links) c
    refine ⟨_, rfl, (State.chan_of_chans hans.chans c).trans hchan, ?_, ?_, ?_, ?_, hans.arb.trans (hrec.arb.trans hv.arb),
      (State.link_of_links hans.links c).trans hlinks, hans.pairs.trans (hrec.pairs.trans hv.pairs), ?_⟩
    · have hanswered := hans.answered
      rw [hc] at hanswered
      exact hanswered
    · rw [hnotice]
      exact (v.handover_handovers c p .flush).trans (by rw [hv.notices])
    · exact hans.tallied ((CountsKept.of hv.notices c).tally hrec.counts.tallied)
    · refine (hans.store.readBytes fun x hx => ?_).trans ((v.handover_header c p .flush).trans (by rw [hc]; rfl))
      simp only [List.mem_cons, List.not_mem_nil, or_false] at hx
      obtain rfl | rfl := hx
      · exact slotArea_headers _ c p
      · exact noticeArea_headers c c p
    · exact (hans.exchangeFrame hv (.handover v c p .flush) (State.leads_of_pairs hrec.pairs c)).mono (by simp [headersArea])
  · refine State.channelExchange_same (k := .flush) (l := []) hfree (by decide) rfl (.inl hfol) (.ofDetail (by simp)) fun v hv => ?_
    rw [← State.chan_of_chans hv.chans] at hp hused
    rw [State.channelRequest, State.reqFlush_of_empty hp hused]
    rfl
  · refine State.channelExchange_same (k := .flush) (l := []) hfree (by decide) rfl (.inl hfol) (.ofDetail (by simp)) fun v hv => ?_
    rw [← State.chan_of_chans hv.chans] at hnone
    rw [State.channelRequest, State.reqFlush_of_none hnone]
    rfl

end Sys2Proof.Machine

/-!
The device requests (R120, R121, R133, R143, R185): their exchange, and SET_LINK and DEVICE_COUNTERS.
-/

namespace Sys2Proof.Machine

variable {s t u v : State} {c : Chan} {r : Reply} {k : ReqKind} {tag : U32} {l half : List Byte}

/-! ### The exchange -/

theorem State.responded_bump_device (u : State) (half : List Byte) (r : Reply) :
    ((u.responded deviceSlot half r).bumpResponses deviceSlot).notices = (u.bumpDev .responses).notices := rfl

/-- R183: the owner of a device request acts in a state v that differs from s in the slot alone; what it answers completes the exchange. -/
theorem State.deviceExchange_owner (h : SlotFree s deviceSlot) (hl : l.length ≤ 112) (hk : ReqKind.ofDeviceCode k.code = some k)
    (tag : U32) :
    ∃ v, SlotOnly s v deviceSlot ∧ ∀ u r, v.deviceRequest (requestHalf k tag l) k = (u, some r) → r.Fits →
      OnlyDeviceAnswered u (s.deviceExchange k tag l) tag.toNat k.code r ∧
        (s.deviceExchange k tag l).notices = (u.bumpDev .responses).notices := by
  refine ⟨s.begun deviceSlot k tag l, s.begun_slotOnly _ k tag hl, fun u r hd hr => ?_⟩
  obtain ⟨heq, he⟩ := State.hostRequest_completed h hl
    ((State.dispatch_device _ k _ hk (requestHalf_kind k tag l)).trans hd)
  rw [State.deviceExchange, heq]
  have hdone := OnlyDeviceAnswered.complete (SlotOnly.refl u deviceSlot) he hr.detail hr.payload
  rw [requestHalf_kind, requestHalf_tag] at hdone
  refine ⟨hdone, ?_⟩
  rw [State.complete_of_executing he, State.finish_of_executing he, State.modSlot_notices]
  exact u.responded_bump_device _ r

/-- R181, R186: what stood before the owner, which changed neither. -/
theorem OnlyDeviceAnswered.slotBefore {tag kind : Nat} (h : OnlyDeviceAnswered u t tag kind r) (hs : SlotOnly s u deviceSlot) :
    OnlyDeviceAnswered s t tag kind r where
  answered := h.answered
  counted := h.counted.congr hs.notices rfl
  chans := h.chans.trans hs.chans
  links := h.links.trans hs.links
  pairs := h.pairs.trans hs.pairs
  arb := h.arb.trans hs.arb
  device := hs.device.trans h.device
  notices := h.notices.congr hs.notices rfl
  slots n hn := (h.slots n hn).trans (hs.slots n hn)
  store := (hs.store.mono (by simp)).trans h.store

/-- R183: an owner that answers a device request and changes nothing, wherever it sees what stands in s. -/
theorem State.deviceExchange_same (h : SlotFree s deviceSlot) (hl : l.length ≤ 112) (hk : ReqKind.ofDeviceCode k.code = some k)
    (hr : r.Fits) (hd : ∀ v, SlotOnly s v deviceSlot → v.deviceRequest (requestHalf k tag l) k = (v, some r)) :
    OnlyDeviceAnswered s (s.deviceExchange k tag l) tag.toNat k.code r := by
  obtain ⟨v, hv, hdone⟩ := State.deviceExchange_owner h hl hk tag
  exact (hdone v r (hd v hv) hr).1.slotBefore hv

/-! ### SET_LINK -/

/-- The parameter bytes of SET_LINK. -/
def linkBytes (imp exp int : U32) : List Byte := leBytes 4 imp.toNat ++ leBytes 4 exp.toNat ++ leBytes 4 int.toNat

theorem linkBytes_length (imp exp int : U32) : (linkBytes imp exp int).length = 12 := rfl

/-- Section 11.3: the parameters of SET_LINK read back from its request half. -/
theorem linkBytes_requestHalf (tag imp exp int : U32) :
    let half := requestHalf .setLink tag (linkBytes imp exp int)
    param4 half 0x10 = imp.toNat ∧ param4 half 0x14 = exp.toNat ∧ param4 half 0x18 = int.toNat := by
  have hword (o : Nat) (ho : o + 4 ≤ 12) : param4 (requestHalf .setLink tag (linkBytes imp exp int)) (0x10 + o) =
      fieldAt (linkBytes imp exp int) o 4 := requestHalf_field .setLink tag (linkBytes imp exp int) o 4 ho
  have himp : fieldAt (linkBytes imp exp int) 0 4 = imp.toNat := by
    rw [linkBytes, List.append_assoc]
    exact fieldAt_word imp _
  have hexp : fieldAt (linkBytes imp exp int) 4 4 = exp.toNat := by
    rw [linkBytes, List.append_assoc, fieldAt_append_right _ _ _ _ (by rw [leBytes_length])]
    exact fieldAt_word exp _
  have hint : fieldAt (linkBytes imp exp int) 8 4 = int.toNat := by
    rw [linkBytes, fieldAt_append_right _ _ _ _ (Nat.le_of_ble_eq_true rfl)]
    exact (congrArg (fieldAt · 0 4) (List.append_nil _).symm).trans (fieldAt_word int [])
  exact ⟨(hword 0 (by decide)).trans himp, (hword 4 (by decide)).trans hexp, (hword 8 (by decide)).trans hint⟩

/-- R133: what an accepted SET_LINK makes of the Arbiter. -/
def State.linked (s : State) (l : LinkSettings) : State :=
  s.modArb fun a => Arbiter.evaluate { a with settings := some l, linkSet := true, timer := some 0 } s.prio l

theorem State.reqSetLink_eq {imp exp int : Nat} (h : param4 half 0x10 = imp ∧ param4 half 0x14 = exp ∧ param4 half 0x18 = int) :
    s.reqSetLink half = match linkFault imp exp int with
      | some o => (s, .bad o)
      | none => (s.linked ⟨imp, exp, int⟩, .payload' (payload ((⟨imp, exp, int⟩ : LinkSettings).items ++
          (s.linked ⟨imp, exp, int⟩).arb.summary.items))) := by
  obtain ⟨rfl, rfl, rfl⟩ := h
  rfl

theorem linkItems_fits (x : LinkSettings) (e : EvalSummary) : (Reply.payload' (payload (x.items ++ e.items))).Fits :=
  .ofPayload ((payload_length_le _).trans (Nat.le_of_ble_eq_true rfl))

/-- Settles O41: the settings in range are written whole and evaluated. -/
theorem setLinkReplacesTheSettings : Obligations.SetLinkReplacesTheSettings := by
  intro tag imp exp int s hfree
  have hparams := linkBytes_requestHalf tag imp exp int
  have hlen : (linkBytes imp exp int).length ≤ 112 := by
    rw [linkBytes_length]
    decide
  have hbad (o : Nat) (ho : linkFault imp.toNat exp.toNat int.toNat = some o) :
      OnlyDeviceAnswered s (s.deviceExchange .setLink tag (linkBytes imp exp int)) tag.toNat 32 (.bad o) :=
    State.deviceExchange_same hfree hlen rfl (.bad o) fun v _ => by
      rw [State.deviceRequest, State.reqSetLink_eq hparams, ho]
      rfl
  refine ⟨fun himp hexp hlo hhi => ?_, fun h => ⟨_, rfl, hbad 0x10 ?_⟩, fun h1 h2 => ⟨_, rfl, hbad 0x14 ?_⟩,
    fun h1 h2 h3 => ⟨_, rfl, hbad 0x18 ?_⟩⟩
  · have hnone : linkFault imp.toNat exp.toNat int.toNat = none := by
      rw [linkFault, if_neg (Nat.not_lt.mpr himp), if_neg (Nat.not_lt.mpr hexp), if_neg]
      exact fun h => h.elim (Nat.not_lt.mpr hlo) (Nat.not_lt.mpr hhi)
    obtain ⟨v, hv, hdone⟩ := State.deviceExchange_owner (k := .setLink) (l := linkBytes imp exp int) hfree hlen rfl tag
    obtain ⟨hans, -⟩ := hdone (v.linked ⟨imp.toNat, exp.toNat, int.toNat⟩) _ (by
      rw [State.deviceRequest, State.reqSetLink_eq hparams, hnone, atTake]) (linkItems_fits _ _)
    have hprio : v.prio = s.prio := funext fun d => by rw [State.prio, State.prio, State.chan_of_chans hv.chans]
    have hlinked : DeviceKept v (v.linked ⟨imp.toNat, exp.toNat, int.toNat⟩) := ⟨rfl, rfl, rfl, rfl, rfl, rfl, rfl, rfl, rfl, rfl⟩
    refine ⟨s.deviceExchange .setLink tag (linkBytes imp exp int), rfl, hans.arb.trans ?_, ?_, ?_, hans.chans.trans hv.chans, hans.links.trans hv.links,
      hans.pairs.trans hv.pairs, ?_, ?_, fun n hn => (hans.slots n hn).trans (hv.slots n hn), (hv.store.mono (by simp)).trans hans.store⟩
    · rw [State.linked, hprio, State.modArb_arb, hv.arb]
    · rw [hans.arb]
      exact hans.answered
    · exact hans.counted.congr hv.notices rfl
    · exact hv.device.trans (hlinked.trans hans.device)
    · exact hans.notices.congr hv.notices rfl
  · exact if_pos h
  · rw [linkFault, if_neg (Nat.not_lt.mpr h1), if_pos h2]
  · rw [linkFault, if_neg (Nat.not_lt.mpr h1), if_neg (Nat.not_lt.mpr h2), if_pos h3]

/-! ### DEVICE_COUNTERS -/

/-- R186 to R188: what a bit's rise has sent and deferred. -/
theorem NoticeUnit.setBit_sent (n : NoticeUnit) (i : Nat) :
    (n.setBit i).sent = n.sent + (if (n.attnEnable && !n.attention.getLsbD i) && n.pace.isNone then 1 else 0) ∧
      (n.setBit i).deferred = n.deferred +
        (if (n.attnEnable && !n.attention.getLsbD i) && n.pace.isSome && !n.owed then 1 else 0) := by
  unfold NoticeUnit.setBit NoticeUnit.rise
  cases n.attention.getLsbD i
  · dsimp only
    cases n.attnEnable
    · simp
    · cases n.pace with
      | none => simp [NoticeUnit.send]
      | some _ => cases n.owed <;> simp
  · simp

theorem SlotOnly.deviceItems {n : SlotIx} (h : SlotOnly s v n) : v.deviceItems = s.deviceItems := by
  simp only [State.deviceItems, h.device.phase, h.device.stopAll, h.device.linkOk, h.pairs, h.notices, h.device.strayPost,
    h.device.strayRelease, h.arb]

theorem State.clearDeviceCounters_rise (s : State) :
    let n := (s.clearDeviceCounters.bumpDev .responses).notices
    let rise := s.notices.attnEnable && !s.notices.attention.getLsbD 16
    n.sent = 0 + (if rise && s.notices.pace.isNone then 1 else 0) ∧
      n.deferred = 0 + (if rise && s.notices.pace.isSome && !s.notices.owed then 1 else 0) :=
  NoticeUnit.setBit_sent { s.clearDeviceCounters.notices with dev := s.clearDeviceCounters.notices.dev.bump .responses } 16

/-- R186: the response counted after an owner that counted nothing for the device. -/
theorem OnlyDeviceAnswered.countedDev {tag kind : Nat} (h : OnlyDeviceAnswered u t tag kind r) (hn : u.notices.dev = s.notices.dev) :
    DeviceCounted s t 1 0 0 := by
  obtain ⟨hr, hl, hs, hbit⟩ := h.counted
  rw [hn] at hr hl hs
  exact ⟨hr, hl, hs, hbit⟩

/-- Settles O44: the report is of the state at the take, and the clear comes before the response is counted. -/
theorem deviceCountersReport : Obligations.DeviceCountersReport := by
  refine ⟨fun tag s hfree => ⟨_, rfl, ?_⟩, fun tag clear s hfree hclear => ?_⟩
  · refine State.deviceExchange_same (k := .deviceCounters) (l := [0]) hfree (Nat.le_of_ble_eq_true rfl) rfl
      (.ofPayload s.deviceItems_length) fun v hv => ?_
    rw [State.deviceRequest, State.reqDeviceCounters, param1_of_byte, hv.deviceItems]
    rfl
  · obtain ⟨v, hv, hdone⟩ := State.deviceExchange_owner (k := .deviceCounters) (l := [clear]) hfree (Nat.le_of_ble_eq_true rfl) rfl tag
    obtain ⟨hans, hnotices⟩ := hdone v.clearDeviceCounters (.payload' (payload s.deviceItems)) (by
      rw [State.deviceRequest, State.reqDeviceCounters, param1_of_byte, hv.deviceItems, if_pos (toNat_ne_zero hclear)]
      rfl) (.ofPayload s.deviceItems_length)
    have hrise := v.clearDeviceCounters_rise
    have hd := hv.device
    have hkept := hans.device
    rw [← hnotices] at hrise
    refine ⟨_, rfl, hans.answered, hans.countedDev (congrArg (fun n => n.dev) hv.notices), hkept.strayPost, hkept.strayRelease, ?_, ?_, ?_,
      ?_, ?_, hans.chans.trans hv.chans, hans.links.trans hv.links, hans.pairs.trans hv.pairs,
      fun n hn => (hans.slots n hn).trans (hv.slots n hn), (hv.store.mono (by simp)).trans hans.store⟩
    · exact hans.arb.trans (by rw [State.clearDeviceCounters, hv.arb])
    · exact hrise.1.trans ((BitVec.zero_add _).trans (by rw [hv.notices]))
    · exact hrise.2.trans ((BitVec.zero_add _).trans (by rw [hv.notices]))
    · exact ⟨hkept.phase.trans hd.phase, hkept.initCount.trans hd.initCount, hkept.stopAll.trans hd.stopAll,
        hkept.linkOk.trans hd.linkOk, hkept.initKept.trans hd.initKept, hkept.strayPost, hkept.strayRelease,
        hkept.timerRunning.trans hd.timerRunning, hkept.sampleIndex.trans hd.sampleIndex, hkept.pending.trans hd.pending⟩
    · obtain ⟨hchans, hbits, henable, hpace⟩ := hans.notices
      have hn := hv.notices
      exact ⟨hchans.trans (congrArg (fun n => n.chan) hn), fun i hi => (hbits i hi).trans (congrArg (fun n => n.attention.getLsbD i) hn),
        henable.trans (congrArg (fun n => n.attnEnable) hn), hpace.trans (congrArg (fun n => n.paceTime) hn)⟩

end Sys2Proof.Machine

/-!
A change of channel state (R1, R11), the notification of the Arbiter (R135, R136), and SET_PAIR (R120, R121).
-/

namespace Sys2Proof.Machine

variable {s t u v : State} {c d : Chan} {r : Reply} {st : ChState} {tag : U32} {half : List Byte}

/-! ### Notifications -/

theorem State.evaluate_eq (s : State) : ∃ a, s.evaluate = { s with arb := a } ∧ a.settings = s.arb.settings ∧
    a.linkSet = s.arb.linkSet ∧ a.linkUp = s.arb.linkUp ∧ a.timer = s.arb.timer ∧ a.wanted = s.arb.wanted := by
  unfold State.evaluate
  split
  · exact ⟨_, rfl, Arbiter.evaluate_settings _ _ _, Arbiter.evaluate_linkSet _ _ _, Arbiter.evaluate_linkUp _ _ _,
      Arbiter.evaluate_timer _ _ _, Arbiter.evaluate_wanted _ _ _⟩
  · exact ⟨_, rfl, rfl, rfl, rfl, rfl, rfl⟩

/-- R135, R136: a notification changes the Arbiter alone, where it writes the channel's wanted power and evaluates. -/
theorem State.notify_eq (s : State) (c : Chan) : ∃ a, s.notify c = { s with arb := a } ∧ ArbiterKept s { s with arb := a } c ∧
    a.wanted[c] = (s.chan c).wants (s.heldV c) := by
  obtain ⟨a, ha, hsettings, hset, hup, htimer, hwanted⟩ := (s.deliver c ((s.chan c).wants (s.heldV c))).evaluate_eq
  have hw : a.wanted = s.arb.wanted.set c ((s.chan c).wants (s.heldV c)) := hwanted
  refine ⟨a, ha, ⟨hsettings, hset, hup, htimer, fun d hd => ?_⟩, ?_⟩
  · have hne : (c : Nat) ≠ d := fun e => hd (Fin.ext e.symm)
    simp [hw, Vector.getElem_set_ne, hne]
  · simp [hw]

@[simp] theorem State.notify_pairs (s : State) (c : Chan) : (s.notify c).pairs = s.pairs := by
  obtain ⟨a, ha, -⟩ := s.notify_eq c
  rw [ha]

@[simp] theorem State.notify_links (s : State) (c : Chan) : (s.notify c).links = s.links := by
  obtain ⟨a, ha, -⟩ := s.notify_eq c
  rw [ha]

@[simp] theorem State.notify_notices (s : State) (c : Chan) : (s.notify c).notices = s.notices := by
  obtain ⟨a, ha, -⟩ := s.notify_eq c
  rw [ha]

theorem State.notify_wanted (s : State) (c : Chan) : (s.notify c).arb.wanted[c] = (s.chan c).wants (s.heldV c) := by
  obtain ⟨a, ha, -, hw⟩ := s.notify_eq c
  rw [ha]
  exact hw

theorem Channel.wants_of_ne {ch : Channel} (h : ch.st ≠ .running) (v : Int) : ch.wants v = .nothing := by
  unfold Channel.wants
  split
  · exact absurd ‹_› h
  · rfl

/-! ### Changes of state -/

theorem State.moveTo_of_ne (h : (s.chan c).st ≠ .running) (st : ChState) : s.moveTo c st = s.setSt c st := if_neg h

theorem State.moveTo_of_running (h : (s.chan c).st = .running) (st : ChState) :
    s.moveTo c st = ((s.departLocal c).setSt c st).notify c := if_pos h

@[simp] theorem State.modAz_pairs (s : State) (c : Chan) (f : AutoZero → AutoZero) : (s.modAz c f).pairs = s.pairs := by
  unfold State.modAz
  dsimp only
  split <;> rfl

@[simp] theorem State.modAz_links (s : State) (c : Chan) (f : AutoZero → AutoZero) : (s.modAz c f).links = s.links := by
  unfold State.modAz
  dsimp only
  split <;> rfl

@[simp] theorem State.modAz_notices (s : State) (c : Chan) (f : AutoZero → AutoZero) : (s.modAz c f).notices = s.notices := by
  unfold State.modAz
  dsimp only
  split <;> rfl

@[simp] theorem State.moveTo_pairs (s : State) (c : Chan) (st : ChState) : (s.moveTo c st).pairs = s.pairs := by
  unfold State.moveTo
  split
  · rw [State.notify_pairs, State.setSt_pairs, State.departLocal, State.modAz_pairs, State.modChan_pairs]
  · exact s.setSt_pairs c st

@[simp] theorem State.moveTo_links (s : State) (c : Chan) (st : ChState) : (s.moveTo c st).links = s.links := by
  unfold State.moveTo
  split
  · rw [State.notify_links, State.setSt_links, State.departLocal, State.modAz_links, State.modChan_links]
  · exact s.setSt_links c st

/-- R11: what a departure from RUNNING leaves of the channel. -/
theorem State.departLocal_chan_self (s : State) (c : Chan) :
    ∃ a, (s.departLocal c).chan c = { s.chan c with demand := 0, chop := none, az := a } := by
  obtain ⟨a, ha⟩ := State.modAz_chan_same (s.modChan c fun ch => { ch with demand := 0, chop := none }) c c AutoZero.discard
  refine ⟨a, ha.trans ?_⟩
  rw [State.chan_modChan_self]

/-- R1, R11: what a change of state makes of its channel. -/
theorem State.moveTo_chan_self (s : State) (c : Chan) (st : ChState) :
    ∃ a, (s.moveTo c st).chan c = { s.chan c with
      st := st
      demand := if (s.chan c).st = .running then 0 else (s.chan c).demand
      chop := if (s.chan c).st = .running then none else (s.chan c).chop
      az := a } := by
  by_cases h : (s.chan c).st = .running
  · obtain ⟨a, ha⟩ := s.departLocal_chan_self c
    refine ⟨a, ?_⟩
    rw [State.moveTo_of_running h, State.notify_chan, State.setSt_chan_self, ha, if_pos h, if_pos h]
  · refine ⟨(s.chan c).az, ?_⟩
    rw [State.moveTo_of_ne h, State.setSt_chan_self, if_neg h, if_neg h]

/-- R135: a departure from RUNNING withdraws the wanted power. -/
theorem State.moveTo_wanted (s : State) (c : Chan) (h : st ≠ .running) :
    (s.moveTo c st).arb.wanted[c] = if (s.chan c).st = .running then ⟨.none, 0⟩ else s.arb.wanted[c] := by
  by_cases hr : (s.chan c).st = .running
  · rw [State.moveTo_of_running hr, State.notify_wanted, if_pos hr, State.setSt_chan_self]
    exact Channel.wants_of_ne h _
  · rw [State.moveTo_of_ne hr, State.setSt_arb, if_neg hr]

theorem State.moveTo_tallied (s : State) (c : Chan) (h : (s.chan c).st ≠ st) : Tallied s (s.moveTo c st) c 1 0 := by
  by_cases hr : (s.chan c).st = .running
  · obtain ⟨a, ha⟩ := s.departLocal_chan_self c
    have hset := (s.departLocal c).setSt_tallied c (st := st) (by rw [ha]; exact h)
    rw [State.moveTo_of_running hr]
    refine CountsKept.tally (.of ?_ c) (hset.kept (.of (State.notify_notices _ c) c))
    rw [State.departLocal, State.modAz_notices, State.modChan_notices]
  · rw [State.moveTo_of_ne hr]
    exact s.setSt_tallied c h

/-! ### SET_PAIR -/

theorem leaderOf_ne_followerOf (k : PairIx) : leaderOf k ≠ followerOf k := fun h => by
  have := congrArg Fin.val h
  simp only [leaderOf, followerOf] at this
  omega

theorem pairIx_of_val {x : Nat} {k : PairIx} (h : x = k.val) : pairIx x = some k := by
  subst h
  exact dif_pos k.isLt

theorem pairIx_of_large {x : Nat} (h : 7 < x) : pairIx x = none := dif_neg (by omega)

/-- Section 11.3: the parameters of SET_PAIR read back from its request half. -/
theorem pairBytes_requestHalf (tag : U32) (pair setting : Byte) :
    param1 (requestHalf .setPair tag [pair, setting]) 0x10 = pair.toNat ∧
      param1 (requestHalf .setPair tag [pair, setting]) 0x11 = setting.toNat :=
  ⟨param1_of_byte _ _ _ _, (param1_requestHalf .setPair tag [pair, setting] 1 (Nat.le_of_ble_eq_true rfl)).trans (fieldAt_one setting [])⟩

theorem State.reqSetPair_pair {x : Nat} (h : param1 half 0x10 = x) (hx : pairIx x = none) : s.reqSetPair half = (s, .bad 0x10) := by
  unfold State.reqSetPair
  rw [h, hx]

theorem State.reqSetPair_setting {k : PairIx} (h : param1 half 0x10 = k.val) (hs : 1 < param1 half 0x11) :
    s.reqSetPair half = (s, .bad 0x11) := by
  unfold State.reqSetPair
  rw [h, pairIx_of_val rfl]
  dsimp only
  split
  · omega
  · omega
  · rfl

theorem State.reqSetPair_on {k : PairIx} (h : param1 half 0x10 = k.val) (hs : param1 half 0x11 = 1) :
    s.reqSetPair half = if (s.chan (leaderOf k)).st = .idle ∧ (s.chan (followerOf k)).st = .idle then
      (s.gang k, ⟨.done, pairDetail k, []⟩) else s.refuse .refusedState := by
  unfold State.reqSetPair
  rw [h, pairIx_of_val rfl, hs]
  simp only [Bool.and_eq_true, decide_eq_true_eq]

theorem State.reqSetPair_off {k : PairIx} (h : param1 half 0x10 = k.val) (hs : param1 half 0x11 = 0) :
    s.reqSetPair half = if (s.chan (leaderOf k)).st = .idle then
      (if (s.pair k).ganged then s.separate k else s, ⟨.done, pairDetail k, []⟩) else s.refuse .refusedState := by
  unfold State.reqSetPair
  rw [h, pairIx_of_val rfl, hs]
  simp only [decide_eq_true_eq]

theorem pairDetail_fits (k : PairIx) : (⟨.done, pairDetail k, []⟩ : Reply).Fits :=
  .ofDetail (by simp only [pairDetail, List.length_append, leBytes_length]; decide)

/-- Settles O43: the parameters are judged before the states. -/
theorem setPairRefusals : Obligations.SetPairRefusals := by
  intro tag pair setting s hfree
  obtain ⟨hpair, hsetting⟩ := pairBytes_requestHalf tag pair setting
  have answers (r : Reply) (hr : r.Fits)
      (hd : ∀ v, SlotOnly s v deviceSlot → v.reqSetPair (requestHalf .setPair tag [pair, setting]) = (v, r)) :
      ∃ t, exec (.setPair tag pair setting) s = .next t ∧ OnlyDeviceAnswered s t tag.toNat 33 r :=
    ⟨_, rfl, State.deviceExchange_same (k := .setPair) hfree (Nat.le_of_ble_eq_true rfl) rfl hr fun v hv =>
      congrArg atTake (hd v hv)⟩
  refine ⟨fun hlarge => answers _ (.bad 0x10) fun v _ => State.reqSetPair_pair hpair (pairIx_of_large hlarge), fun k hk =>
    ⟨fun hlarge => ?_, fun hon hst => ?_, fun hoff hst => ?_, fun hoff hst hganged => ?_⟩⟩
  · exact answers _ (.bad 0x11) fun v _ => State.reqSetPair_setting (hpair.trans hk) (by rw [hsetting]; exact hlarge)
  · refine answers _ (.plain _) fun v hv => (State.reqSetPair_on (hpair.trans hk) (by rw [hsetting, hon]; rfl)).trans (if_neg ?_)
    rw [State.chan_of_chans hv.chans, State.chan_of_chans hv.chans]
    tauto
  · refine answers _ (.plain _) fun v hv => (State.reqSetPair_off (hpair.trans hk) (by rw [hsetting, hoff]; rfl)).trans (if_neg ?_)
    rw [State.chan_of_chans hv.chans]
    exact hst
  · refine answers _ (pairDetail_fits k) fun v hv => (State.reqSetPair_off (hpair.trans hk) (by rw [hsetting, hoff]; rfl)).trans ?_
    rw [State.chan_of_chans hv.chans, State.pair_of_pairs hv.pairs, if_pos hst, hganged]
    rfl

end Sys2Proof.Machine

/-!
SET_PAIR accepted (R120, R121): the follower's change of state and what else changes with it.
-/

namespace Sys2Proof.Machine

variable {s t u v : State} {c d : Chan} {r : Reply} {st : ChState} {tag : U32} {k : PairIx}

/-- A change of pair k and its two channels by which the follower's change of state is counted. -/
structure FollowerMoved (s t : State) (k : PairIx) : Prop where
  others : ∀ d, d ≠ leaderOf k → d ≠ followerOf k → t.chan d = s.chan d
  pairs : ∀ j, j ≠ k → t.pair j = s.pair j
  links : t.links = s.links
  slots : t.slots = s.slots
  device : DeviceKept s t
  store : StoreKept s t [noticeArea (followerOf k)]
  counted : t.notices.chan[followerOf k] =
    { s.notices.chan[followerOf k] with stateChanges := (s.notices.chan[followerOf k]).stateChanges + 1 }
  notices : NoticesKept s t (followerOf k)

theorem FollowerMoved.and (h : FollowerMoved s t k) (hc : ∀ d, d ≠ leaderOf k → d ≠ followerOf k → u.chan d = t.chan d)
    (hd : DeviceKept t u) (hp : u.pairs = t.pairs) (hl : u.links = t.links) (hs : u.slots = t.slots) (hm : u.store = t.store)
    (hn : u.notices = t.notices) : FollowerMoved s u k where
  others d h1 h2 := (hc d h1 h2).trans (h.others d h1 h2)
  pairs j hj := (State.pair_of_pairs hp j).trans (h.pairs j hj)
  links := hl.trans h.links
  slots := hs.trans h.slots
  device := h.device.trans hd
  store a ha := (congrArg (·.read a) hm).trans (h.store a ha)
  counted := hn ▸ h.counted
  notices := h.notices.trans (.of hn _)

theorem FollowerMoved.modChan (h : FollowerMoved s t k) (hc : c = leaderOf k ∨ c = followerOf k) (f : Channel → Channel) :
    FollowerMoved s (t.modChan c f) k :=
  h.and (fun d hl hf => State.chan_modChan_ne t f (by rintro rfl; exact hc.elim hl hf))
    ⟨rfl, rfl, rfl, rfl, rfl, rfl, rfl, rfl, rfl, rfl⟩ rfl rfl rfl rfl rfl

theorem FollowerMoved.notify (h : FollowerMoved s t k) (c : Chan) : FollowerMoved s (t.notify c) k := by
  obtain ⟨a, ha, -⟩ := t.notify_eq c
  rw [ha]
  exact h.and (fun _ _ _ => rfl) ⟨rfl, rfl, rfl, rfl, rfl, rfl, rfl, rfl, rfl, rfl⟩ rfl rfl rfl rfl rfl

theorem FollowerMoved.start (s : State) (k : PairIx) (f : Pair → Pair) (hst : (s.chan (followerOf k)).st ≠ st) :
    FollowerMoved s ((s.modPair k f).setSt (followerOf k) st) k := by
  rw [State.setSt_of_ne (s.modPair k f) _ hst]
  have hchan (d : Chan) (hd : d ≠ followerOf k) := State.chan_modChan_ne (s.modPair k f) (fun ch => { ch with st := st }) hd
  have hnotices : ((s.modPair k f).modChan (followerOf k) fun ch => { ch with st := st }).notices = s.notices := rfl
  have hdevice : DeviceKept s ((s.modPair k f).modChan (followerOf k) fun ch => { ch with st := st }) :=
    ⟨rfl, rfl, rfl, rfl, rfl, rfl, rfl, rfl, rfl, rfl⟩
  have hpair (j : PairIx) (hj : j ≠ k) :
      ((s.modPair k f).modChan (followerOf k) fun ch => { ch with st := st }).pair j = s.pair j := State.pair_modPair_ne s f hj
  have hstore : ((s.modPair k f).modChan (followerOf k) fun ch => { ch with st := st }).store = s.store := rfl
  have hlinks : ((s.modPair k f).modChan (followerOf k) fun ch => { ch with st := st }).links = s.links := rfl
  have hslots : ((s.modPair k f).modChan (followerOf k) fun ch => { ch with st := st }).slots = s.slots := rfl
  generalize (s.modPair k f).modChan (followerOf k) (fun ch => { ch with st := st }) = w at *
  exact ⟨fun d _ hf => hchan d hf, hpair, hlinks, hslots, hdevice.trans (w.bumpChan_device _ _),
    fun a ha => (w.bumpChan_storeKept _ _ a ha).trans (congrArg (·.read a) hstore),
    (w.bumpChan_self _ _).trans (by rw [hnotices]; rfl), (NoticesKept.of hnotices _).trans (w.bumpChan_notices _ _)⟩

/-! ### ON -/

theorem State.gang_of_idle (s : State) (hf : (s.chan (followerOf k)).st = .idle) :
    s.gang k = (((((s.modPair k fun p => { p with
        ganged := true, assembly := none, mismatch := 0,
        held := formPairHeld (s.chan (leaderOf k)).held (s.chan (followerOf k)).held }).setSt (followerOf k) .follower).modChan
      (followerOf k) fun ch => { ch with staged := .empty, load := ch.load.map fun ld => { ld with discard := true } }).modChan
      (leaderOf k) Channel.heard).notify (followerOf k)) := by
  unfold State.gang
  dsimp only
  rw [State.moveTo_of_ne]
  rw [State.modPair_chan, hf]
  decide

theorem State.gang_moved (s : State) (hf : (s.chan (followerOf k)).st = .idle) : FollowerMoved s (s.gang k) k := by
  rw [s.gang_of_idle hf]
  exact (((FollowerMoved.start s k _ (by rw [hf]; decide)).modChan (.inr rfl) _).modChan (.inl rfl) _).notify _

theorem State.gang_parts (s : State) (hf : (s.chan (followerOf k)).st = .idle) :
    (s.gang k).chan (leaderOf k) = (s.chan (leaderOf k)).heard ∧
    (s.gang k).chan (followerOf k) = { s.chan (followerOf k) with
      st := .follower, staged := .empty, load := (s.chan (followerOf k)).load.map fun ld => { ld with discard := true } } ∧
    (s.gang k).pair k = { s.pair k with
      ganged := true, assembly := none, mismatch := 0
      held := formPairHeld (s.chan (leaderOf k)).held (s.chan (followerOf k)).held } := by
  have hne := leaderOf_ne_followerOf k
  rw [s.gang_of_idle hf]
  refine ⟨?_, ?_, ?_⟩
  · rw [State.notify_chan, State.chan_modChan_self, State.chan_modChan_ne _ _ hne, State.setSt_of_ne _ _ (by rw [State.modPair_chan, hf]; decide),
      State.bumpChan_chan, State.chan_modChan_ne _ _ hne, State.modPair_chan]
  · rw [State.notify_chan, State.chan_modChan_ne _ _ hne.symm, State.chan_modChan_self, State.setSt_chan_self, State.modPair_chan]
  · rw [State.pair_of_pairs (State.notify_pairs _ _)]
    refine (State.pair_of_pairs (State.setSt_pairs _ _ _) k).trans ?_
    rw [State.pair_modPair_self]

theorem State.gang_arb (s : State) (hf : (s.chan (followerOf k)).st = .idle) :
    ArbiterKept s (s.gang k) (followerOf k) ∧ (s.gang k).arb.wanted[followerOf k] = ⟨.none, 0⟩ := by
  obtain ⟨-, hchan, -⟩ := s.gang_parts hf
  have hne : ChState.follower ≠ .running := by decide
  rw [s.gang_of_idle hf, State.notify_chan] at hchan
  rw [s.gang_of_idle hf]
  refine ⟨?_, (State.notify_wanted _ _).trans (Channel.wants_of_ne (by rw [hchan]; exact hne) _)⟩
  obtain ⟨a, ha, hkept, -⟩ := State.notify_eq _ (followerOf k)
  rw [ha]
  refine ArbiterKept.trans (.of ?_ _) hkept
  rw [State.modChan_arb, State.modChan_arb, State.setSt_arb, State.modPair_arb]

/-! ### OFF -/

theorem State.separate_of_follower (s : State) (hf : (s.chan (followerOf k)).st = .follower) :
    s.separate k = ((s.modPair k fun p => { p with ganged := false, assembly := none, mismatch := 0 }).setSt
      (followerOf k) .idle).modChan (leaderOf k) Channel.heard := by
  unfold State.separate
  dsimp only
  rw [State.moveTo_of_ne]
  rw [State.modPair_chan, hf]
  decide

theorem State.separate_moved (s : State) (hf : (s.chan (followerOf k)).st = .follower) : FollowerMoved s (s.separate k) k := by
  rw [s.separate_of_follower hf]
  exact (FollowerMoved.start s k _ (by rw [hf]; decide)).modChan (.inl rfl) _

theorem State.separate_parts (s : State) (hf : (s.chan (followerOf k)).st = .follower) :
    (s.separate k).chan (leaderOf k) = (s.chan (leaderOf k)).heard ∧
    (s.separate k).chan (followerOf k) = { s.chan (followerOf k) with st := .idle } ∧
    (s.separate k).pair k = { s.pair k with ganged := false, assembly := none, mismatch := 0 } ∧ (s.separate k).arb = s.arb := by
  have hne := leaderOf_ne_followerOf k
  rw [s.separate_of_follower hf]
  refine ⟨?_, ?_, ?_, State.setSt_arb _ _ _⟩
  · rw [State.chan_modChan_self, State.setSt_of_ne _ _ (by rw [State.modPair_chan, hf]; decide), State.bumpChan_chan,
      State.chan_modChan_ne _ _ hne, State.modPair_chan]
  · rw [State.chan_modChan_ne _ _ hne.symm, State.setSt_chan_self, State.modPair_chan]
  · refine (State.pair_of_pairs (State.setSt_pairs _ _ _) k).trans ?_
    rw [State.pair_modPair_self]

/-- Settles O42: each move of the follower is counted for it, and the response for the device. -/
theorem setPairGangsAndSeparates : Obligations.SetPairGangsAndSeparates := by
  intro tag pair k s hfree hk
  have moved {v u t : State} (hv : SlotOnly s v deviceSlot) (hm : FollowerMoved v u k)
      (hl : u.chan (leaderOf k) = (v.chan (leaderOf k)).heard) (hans : OnlyDeviceAnswered u t tag.toNat 33 ⟨.done, pairDetail k, []⟩)
      (hn : t.notices = (u.bumpDev .responses).notices) :
      Answered t deviceSlot tag.toNat 33 ⟨.done, leBytes 1 (leaderOf k).val ++ leBytes 1 (followerOf k).val, []⟩ ∧
      t.notices.dev = { s.notices.dev with responses := s.notices.dev.responses + 1 } ∧
      t.notices.chan[followerOf k] =
        { s.notices.chan[followerOf k] with stateChanges := (s.notices.chan[followerOf k]).stateChanges + 1 } ∧
      (∀ d : Chan, d ≠ followerOf k → t.notices.chan[d] = s.notices.chan[d]) ∧
      (∀ d, d ≠ leaderOf k → d ≠ followerOf k → t.chan d = s.chan d) ∧
      t.chan (leaderOf k) = { s.chan (leaderOf k) with silence := 0, silenceReached := false } ∧
      (∀ j, j ≠ k → t.pair j = s.pair j) ∧ t.links = s.links ∧ DeviceKept s t ∧ (∀ n, n ≠ deviceSlot → t.slot n = s.slot n) ∧
      StoreKept s t [slotArea deviceSlot, devNoticeArea, noticeArea (followerOf k)] := by
    have hchan (d : Chan) := (State.chan_of_chans hans.chans d)
    have hvc (d : Chan) := (State.chan_of_chans hv.chans d)
    refine ⟨hans.answered, ?_, ?_, fun d hd => ?_, fun d h1 h2 => ?_, ?_, fun j hj => ?_, ?_, ?_, fun n hn => ?_, ?_⟩
    · rw [hn, State.bumpDev_dev, hm.notices.dev, hv.notices]
      rfl
    · rw [hans.notices.chans, hm.counted, hv.notices]
    · rw [hans.notices.chans, hm.notices.chans d hd, hv.notices]
    · rw [hchan, hm.others d h1 h2, hvc]
    · rw [hchan, hl, hvc]
      rfl
    · rw [State.pair_of_pairs hans.pairs, hm.pairs j hj, State.pair_of_pairs hv.pairs]
    · exact hans.links.trans (hm.links.trans hv.links)
    · exact (hv.device.trans hm.device).trans hans.device
    · exact (hans.slots n hn).trans ((State.slot_of_slots hm.slots n).trans (hv.slots n hn))
    · exact (hv.store.mono (by simp)).trans ((hm.store.mono (by simp)).trans (hans.store.mono (by simp)))
  refine ⟨fun hl hf => ?_, fun hl hganged hf => ?_⟩
  · obtain ⟨v, hv, hdone⟩ := State.deviceExchange_owner (k := .setPair) (l := [pair, 1]) hfree (Nat.le_of_ble_eq_true rfl) rfl tag
    obtain ⟨hpair, hsetting⟩ := pairBytes_requestHalf tag pair 1
    rw [← State.chan_of_chans hv.chans] at hl hf
    obtain ⟨hans, hnotices⟩ := hdone (v.gang k) ⟨.done, pairDetail k, []⟩
      (congrArg atTake ((State.reqSetPair_on (hpair.trans hk) (by rw [hsetting]; rfl)).trans (if_pos ⟨hl, hf⟩))) (pairDetail_fits k)
    obtain ⟨hleader, hfollower, hgang⟩ := v.gang_parts hf
    obtain ⟨harb, hwanted⟩ := v.gang_arb hf
    refine ⟨_, rfl, moved hv (v.gang_moved hf) hleader hans hnotices, ?_, ?_, ?_, ?_⟩
    · rw [State.chan_of_chans hans.chans, hfollower, State.chan_of_chans hv.chans]
    · rw [State.pair_of_pairs hans.pairs, hgang, State.pair_of_pairs hv.pairs, State.chan_of_chans hv.chans,
        State.chan_of_chans hv.chans]
      rfl
    · rw [hans.arb, hwanted]
    · exact (ArbiterKept.of hv.arb _).trans (harb.trans (.of hans.arb _))
  · obtain ⟨v, hv, hdone⟩ := State.deviceExchange_owner (k := .setPair) (l := [pair, 0]) hfree (Nat.le_of_ble_eq_true rfl) rfl tag
    obtain ⟨hpair, hsetting⟩ := pairBytes_requestHalf tag pair 0
    rw [← State.chan_of_chans hv.chans] at hl hf
    rw [← State.pair_of_pairs hv.pairs] at hganged
    have howner := State.reqSetPair_off (s := v) (hpair.trans hk) (by rw [hsetting]; rfl)
    rw [if_pos hl, if_pos hganged] at howner
    obtain ⟨hans, hnotices⟩ := hdone (v.separate k) ⟨.done, pairDetail k, []⟩ (congrArg atTake howner) (pairDetail_fits k)
    obtain ⟨hleader, hfollower, hpairk, harb⟩ := v.separate_parts hf
    refine ⟨_, rfl, moved hv (v.separate_moved hf) hleader hans hnotices, ?_, ?_, ?_⟩
    · rw [State.chan_of_chans hans.chans, hfollower, State.chan_of_chans hv.chans]
    · rw [State.pair_of_pairs hans.pairs, hpairk, State.pair_of_pairs hv.pairs]
    · exact hans.arb.trans (harb.trans hv.arb)

end Sys2Proof.Machine

/-!
The requests that move a channel between the plan states (R5, R6, R13, R15): START, PAUSE and RESUME of a tripped channel. Their
records are generated outside RUNNING, so a latch entry adds LOG_FULL to the hold causes and nothing else (R155).
-/

namespace Sys2Proof.Machine

variable {s t u v w : State} {c d : Chan} {r : Reply} {st : ChState} {tag : U32} {k : PairIx}

/-! ### An exchange whose owner acts locally -/

/-- The exchange of a request by which channel c's link and the pairs stand, its counts grow by changes of state and faults, and its
record and wanted power become those that the owner left. -/
structure LocalAnswered (s u t : State) (c : Chan) (tag kind : Nat) (r : Reply) (stateChanges faults : U32) : Prop where
  answered : Answered t (chanSlot c) tag kind r
  counted : Counted s t c 1 stateChanges faults
  chan : t.chan c = u.chan c
  arb : t.arb = u.arb
  pair : t.pair (pairOf c) = u.pair (pairOf c)
  pairs : u.pairs = s.pairs → t.pairs = s.pairs
  link : t.link c = s.link c
  frame : Frame s t c (slotArea (chanSlot c) :: logAreas c)

theorem OnlyAnswered.localAnswered {tag kind : Nat} {x y : U32} (hans : OnlyAnswered u t c tag kind r) (hv : SlotOnly s v (chanSlot c))
    (hlocal : Local c v u) (hlog : (s.chan c).log.Ok) (htally : Tallied v u c x y) : LocalAnswered s u t c tag kind r x y := by
  rw [← State.chan_of_chans hv.chans] at hlog
  have hfacts := hlocal hlog.sound
  exact ⟨hans.answered, hans.tallied ((CountsKept.of hv.notices c).tally htally), State.chan_of_chans hans.chans c, hans.arb,
    State.pair_of_pairs hans.pairs _, hans.pairs.trans,
    (State.link_of_links hans.links c).trans ((State.link_of_links hfacts.links c).trans (State.link_of_links hv.links c)),
    (hans.exchangeFrame hv (hlocal.frame hlog) (State.leads_congr hfacts.ganged)).mono (by simp [logAreas])⟩

/-! ### PAUSE -/

theorem State.reqPause_accepted (h : (s.chan c).st = .running ∨ (s.chan c).st = .held) :
    s.reqPause c = ((s.moveTo c .paused).event c c subPause 0 (leBytes 1 (s.chan c).st.code)).done := if_pos h

theorem ne_of_running_or_held {x y : ChState} (h : x = .running ∨ x = .held) (hr : .running ≠ y) (hh : .held ≠ y) : x ≠ y := by
  obtain rfl | rfl := h
  · exact hr
  · exact hh

/-- Settles O30: the channel is PAUSED before its record is generated. -/
theorem pauseStopsTheDrive : Obligations.PauseStopsTheDrive := by
  intro c tag s hfree hlog hst
  obtain ⟨v, hv, -, hdone⟩ := State.channelExchange_owner (k := .pause) (l := []) hfree (by decide) rfl
    (.inl (ne_of_running_or_held hst (by decide) (by decide))) tag
  have hc := State.chan_of_chans hv.chans c
  rw [← hc] at hst
  have howner := State.reqPause_accepted hst
  have hbody : (leBytes 1 (v.chan c).st.code).length ≤ 18 := by simp
  generalize leBytes 1 (v.chan c).st.code = body at howner hbody
  obtain ⟨az, hmoved⟩ := v.moveTo_chan_self c .paused
  have hpaused : ((v.moveTo c .paused).chan c).st ≠ .running := by
    rw [hmoved]
    exact (by decide : ChState.paused ≠ .running)
  have hreported := ((Recorded.refl c (v.moveTo c .paused)).reported).event hpaused c subPause 0 body
  have hlocal : Local c v _ := ((Local.refl c v).moveTo .paused).event c subPause 0 body hbody
  have hne : (v.chan c).st ≠ .paused := ne_of_running_or_held hst (by decide) (by decide)
  have hans := (hdone _ _ (congrArg atTake howner) (.plain _)).localAnswered hv hlocal hlog
    ((v.moveTo_tallied c hne).kept hreported.counts)
  obtain ⟨log, hold, hchan, hdown, hfull⟩ := hreported.chan
  rw [hmoved, hc] at hchan hdown hfull
  refine ⟨_, rfl, hans.answered, hans.counted, ?_, ?_, ⟨az, log, hold, hans.chan.trans hchan⟩, ?_, hans.link,
    hans.pairs (hreported.pairs.trans ((v.moveTo_pairs c _).trans hv.pairs)), hans.frame⟩
  · rw [hans.chan, State.done, hchan]
    exact hdown
  · rw [hans.chan, State.done, hchan]
    exact hfull
  · rw [hans.arb, State.done, hreported.arb, v.moveTo_wanted c (by decide), hc, hv.arb]

/-! ### RESUME in TRIPPED -/

/-- R115: no acknowledgement is missing where the policy does not ask for one or has it. -/
theorem Channel.ackMissing_false {ch : Channel} (h : ∀ l, ch.limits = some l → l.resumePolicy = .afterAck → ch.fault.acked = true) :
    ch.ackMissing = false := by
  unfold Channel.ackMissing
  split
  case h_1 l hl =>
    by_cases hp : l.resumePolicy = .afterAck
    · rw [h l hl hp]
      simp
    · simp [hp]
  case h_2 => rfl

/-- Settles O32: the channel is CHECKING before its record is generated. -/
theorem resumeRechecksATrippedChannel : Obligations.ResumeRechecksATrippedChannel := by
  intro c tag s hfree hlog hst hstop hack
  obtain ⟨v, hv, -, hdone⟩ := State.channelExchange_owner (k := .resume) (l := []) hfree (by decide) rfl (.inl (by rw [hst]; decide)) tag
  have hc := State.chan_of_chans hv.chans c
  rw [← hc] at hst hack
  have hset : v.moveTo c .checking = v.setSt c .checking := State.moveTo_of_ne (by rw [hst]; decide) _
  have hchanged : ((v.setSt c .checking).modChan c Channel.recheck).chan c =
      { s.chan c with st := .checking, contact := ⟨true, 0, 0⟩, linkHold := ⟨(s.chan c).hold.linkDown, 0, false⟩ } := by
    rw [State.chan_modChan_self, State.setSt_chan_self, hc]
    unfold Channel.recheck
    dsimp only
    cases (s.chan c).hold.linkDown <;> rfl
  have howner := State.reqResume_tripped hst (hv.device.stopAll.trans hstop)
  rw [if_neg (ne_true_of_eq_false (Channel.ackMissing_false hack)), hset] at howner
  have hreported := ((Recorded.refl c ((v.setSt c .checking).modChan c Channel.recheck)).reported).event
    (by rw [hchanged]; exact (by decide : ChState.checking ≠ .running)) c subResume 0 (leBytes 1 ChState.tripped.code)
  have hlocal : Local c v _ := (((Local.refl c v).setSt .checking).modChan Channel.recheck rfl).event c subResume 0
    (leBytes 1 ChState.tripped.code) (by simp)
  have hans := (hdone _ _ (congrArg atTake howner) (.plain _)).localAnswered hv hlocal hlog
    (((v.setSt_tallied c (by rw [hst]; decide)).kept (.of (State.modChan_notices _ c Channel.recheck) c)).kept hreported.counts)
  obtain ⟨log, hold, hchan, hdown, hfull⟩ := hreported.chan
  rw [hchanged] at hchan hdown hfull
  refine ⟨_, rfl, hans.answered, hans.counted, ?_, ?_, ⟨log, hold, hans.chan.trans hchan⟩, ?_, hans.link,
    hans.pairs (hreported.pairs.trans ((v.setSt_pairs c _).trans hv.pairs)), hans.frame⟩
  · rw [hans.chan, State.done, hchan]
    exact hdown
  · rw [hans.chan, State.done, hchan]
    exact hfull
  · exact hans.arb.trans (hreported.arb.trans ((v.setSt_arb c _).trans hv.arb))

/-! ### START -/

/-- R8, R155: the HOLD records of a START, whose channel is CHECKING. -/
theorem Reported.startHolds (h : Reported c s t) (hs : (s.chan c).st ≠ .running) : Reported c s (t.startHolds c) := by
  unfold State.startHolds
  dsimp only
  split
  · split
    · exact (h.event hs _ _ _ _).event hs _ _ _ _
    · exact h.event hs _ _ _ _
  · split
    · exact h.event hs _ _ _ _
    · exact h

/-- R6: the channel and its pair at an accepted START, before its records. -/
def State.started (s : State) (c : Chan) (p : Plan) : State :=
  let s1 := s.modChan c fun ch => ch.start p (!s.linkOk)
  let s2 := if s.leads c then s1.modPair (pairOf c) fun k => { k with mismatch := 0 } else s1
  s2.setSt c .checking

theorem State.startPlan_eq (h : (s.chan c).st = .idle) (p : Plan) : s.startPlan c p = (s.started c p).startHolds c := by
  have hst : ((s.modChan c fun ch => ch.start p (!s.linkOk)).chan c).st ≠ .running := by
    rw [State.chan_modChan_self]
    exact (show (s.chan c).st ≠ .running by rw [h]; decide)
  unfold State.startPlan State.started
  dsimp only
  rw [State.moveTo_of_ne]
  split
  · rwa [State.modPair_chan]
  · exact hst

theorem State.started_parts (h : (s.chan c).st = .idle) (p : Plan) :
    (s.started c p).chan c = { (s.chan c).start p (!s.linkOk) with st := .checking } ∧
    (s.started c p).pair (pairOf c) =
      (if s.leads c then { s.pair (pairOf c) with mismatch := 0 } else s.pair (pairOf c)) ∧
    (s.started c p).arb = s.arb ∧ Tallied s (s.started c p) c 1 0 ∧ Local c s (s.started c p) := by
  have hlocal := (Local.refl c s).modChan (fun ch => ch.start p (!s.linkOk)) rfl
  have hne : ((s.modChan c fun ch => ch.start p (!s.linkOk)).chan c).st ≠ .checking := by
    rw [State.chan_modChan_self]
    exact (show (s.chan c).st ≠ .checking by rw [h]; decide)
  have hkept : CountsKept s (s.modChan c fun ch => ch.start p (!s.linkOk)) c := .of (State.modChan_notices s c _) c
  unfold State.started
  dsimp only
  split
  · refine ⟨?_, ?_, State.setSt_arb _ _ _, hkept.tally ?_, (hlocal.modPair (fun k => { k with mismatch := 0 }) rfl).setSt .checking⟩
    · rw [State.setSt_chan_self, State.modPair_chan, State.chan_modChan_self]
    · exact (State.pair_of_pairs (State.setSt_pairs _ _ _) _).trans (State.pair_modPair_self _ _ _)
    · exact (CountsKept.of (State.modPair_notices _ (pairOf c) _) c).tally (State.setSt_tallied _ c hne)
  · refine ⟨?_, State.pair_of_pairs (State.setSt_pairs _ _ _) _, State.setSt_arb _ _ _, hkept.tally (State.setSt_tallied _ c hne),
      hlocal.setSt .checking⟩
    rw [State.setSt_chan_self, State.chan_modChan_self]

/-- Settles O29: the hold causes of the START stand before its HOLD records. -/
theorem startBeginsThePlan : Obligations.StartBeginsThePlan := by
  intro c tag s p hfree hlog hst hstop hstaged hloaded hlink
  obtain ⟨v, hv, -, hdone⟩ := State.channelExchange_owner (k := .start) (l := []) hfree (by decide) rfl (.inl (by rw [hst]; decide)) tag
  have hc := State.chan_of_chans hv.chans c
  have hvl := State.leads_of_pairs hv.pairs c
  have hvok := hv.device.linkOk
  have hlatch : (s.chan c).log.latch.isSome = (v.chan c).log.latch.isSome := by rw [hc]
  rw [← hc] at hst hstaged hloaded
  have howner := State.reqStart_valid hst (hv.device.stopAll.trans hstop) hstaged
  simp only [hloaded, hv.arb, hlink, State.startPlan_eq hst, Bool.not_true, Bool.false_eq_true, if_false] at howner
  obtain ⟨hstarted, hpair, harb, htally, hlocal⟩ := State.started_parts hst p
  have hreported := ((Recorded.refl c (v.started c p)).reported).startHolds
    (by rw [hstarted]; exact (by decide : ChState.checking ≠ .running))
  have hans := (hdone _ _ (congrArg atTake howner) (.plain _)).localAnswered hv hlocal.startHolds hlog (htally.kept hreported.counts)
  obtain ⟨log, hold, hchan, hdown, hfull⟩ := hreported.chan
  rw [hstarted, hvok, hc] at hchan hdown hfull
  refine ⟨_, rfl, hans.answered, hans.counted, ?_, ?_, ?_, ⟨log, hold, ⟨!s.linkOk, 0, false⟩, ?_⟩, ?_, hans.link, ?_, hans.frame⟩
  · rw [hans.chan, State.done, hchan]
    exact hdown
  · intro hl
    rw [hans.chan, State.done, hchan]
    exact hfull hl
  · rw [hans.chan, State.done, hchan]
    cases s.linkOk <;> rfl
  · rw [hans.chan, State.done, hchan]
    cases s.linkOk <;> rfl
  · rw [hans.pair]
    refine (State.pair_of_pairs hreported.pairs _).trans ?_
    rw [hpair, hvl, State.pair_of_pairs hv.pairs]
  · exact hans.arb.trans (hreported.arb.trans (harb.trans hv.arb))

end Sys2Proof.Machine

/-!
The end of a plan (R49) by STOP and by an ABORT post (R17, R18), and RESUME of a paused channel (R14).
-/

namespace Sys2Proof.Machine

variable {s t u v w : State} {c d : Chan} {r : Reply} {st : ChState} {tag : U32} {k : PairIx}

/-! ### The end of a plan -/

theorem ne_followerOf_of_leads (h : s.leads c = true) : c ≠ followerOf (pairOf c) := by
  rw [State.leads, Bool.and_eq_true, isEven, beq_iff_eq] at h
  intro hc
  have := congrArg Fin.val hc
  simp only [followerOf, pairOf] at this
  omega

/-- R62: the auto-zero state of the channel itself. -/
theorem State.modAz_chan_self (s : State) (c : Chan) (f : AutoZero → AutoZero) :
    (s.modAz c f).chan c = { s.chan c with az := f (s.chan c).az } := by
  unfold State.modAz
  dsimp only
  split
  · rw [State.chan_modChan_ne _ _ (ne_followerOf_of_leads ‹_›), State.chan_modChan_self]
  · rw [State.chan_modChan_self]

/-- R155: a report outside the plan states is acted on by nothing else. -/
theorem Recorded.settle (h : Recorded c s t) (hst : (t.chan c).st.inPlan = false) : Recorded c s (t.settle c) ∧
    (t.settle c).notices = t.notices := by
  unfold State.settle
  dsimp only
  split
  · rw [if_neg]
    · exact ⟨h.modLog _, rfl⟩
    · rw [State.modLog_chan, if_pos rfl]
      exact fun hin => by
        rw [Bool.and_eq_true] at hin
        exact absurd (hst.symm.trans hin.1) (by decide)
  · exact ⟨h, rfl⟩

/-- R1, R186: a change of state raises the channel's ATTENTION bit. -/
theorem State.moveTo_bit (s : State) (c : Chan) (h : (s.chan c).st ≠ st) :
    (s.moveTo c st).notices.attention.getLsbD c.val = true := by
  by_cases hr : (s.chan c).st = .running
  · obtain ⟨a, ha⟩ := s.departLocal_chan_self c
    rw [State.moveTo_of_running hr, State.notify_notices, State.setSt_of_ne _ _ (by rw [ha]; exact h)]
    exact State.bumpChan_bit _ c _
  · rw [State.moveTo_of_ne hr, State.setSt_of_ne _ _ h]
    exact State.bumpChan_bit _ c _

/-- What the end of a plan of channel c leaves (R49), the areas of its records aside. -/
structure PlanEndedIn (s t : State) (c : Chan) : Prop where
  chan : PlanEnded (s.chan c) (t.chan c)
  tallied : Tallied s t c 1 0
  bit : t.notices.attention.getLsbD c.val = true
  pairs : t.pairs = s.pairs
  wanted : t.arb.wanted[c] = if (s.chan c).st = .running then ⟨.none, 0⟩ else s.arb.wanted[c]

/-- Records generated before the end of a plan are no part of it. -/
theorem PlanEndedIn.afterRecorded (h : Recorded c s u) (k : PlanEndedIn u t c) : PlanEndedIn s t c := by
  obtain ⟨l, hl⟩ := h.chan
  obtain ⟨az, log, haz, hchan⟩ := k.chan
  have hst : (u.chan c).st = (s.chan c).st := by
    rw [hl]
    rfl
  refine ⟨⟨az, log, haz, ?_⟩, h.counts.tally k.tallied, k.bit, k.pairs.trans h.pairs, ?_⟩
  · rw [hchan, hl]
    rfl
  · rw [k.wanted, hst, h.arb]

/-- R49: the move to IDLE and what it leaves of the channel. -/
theorem State.idle_planEnded (s : State) (c : Chan) (h : (s.chan c).st.inPlan = true) :
    PlanEndedIn s ((((s.moveTo c .idle).modChan c Channel.endPlan).modAz c AutoZero.ended).settle c) c := by
  have hne : (s.chan c).st ≠ .idle := fun e => by
    rw [e] at h
    cases h
  obtain ⟨az, hmoved⟩ := s.moveTo_chan_self c .idle
  have hchan : (((s.moveTo c .idle).modChan c Channel.endPlan).modAz c AutoZero.ended).chan c =
      { ((s.moveTo c .idle).chan c).endPlan with az := ((s.moveTo c .idle).chan c).endPlan.az.ended } := by
    rw [State.modAz_chan_self, State.chan_modChan_self]
  have hnotices : (((s.moveTo c .idle).modChan c Channel.endPlan).modAz c AutoZero.ended).notices = (s.moveTo c .idle).notices := by
    rw [State.modAz_notices, State.modChan_notices]
  have hpairs : (((s.moveTo c .idle).modChan c Channel.endPlan).modAz c AutoZero.ended).pairs = s.pairs := by
    rw [State.modAz_pairs, State.modChan_pairs, State.moveTo_pairs]
  have harb : (((s.moveTo c .idle).modChan c Channel.endPlan).modAz c AutoZero.ended).arb = (s.moveTo c .idle).arb := by
    rw [State.modAz_arb, State.modChan_arb]
  rw [hmoved] at hchan
  generalize ((s.moveTo c .idle).modChan c Channel.endPlan).modAz c AutoZero.ended = w at hchan hnotices hpairs harb
  obtain ⟨hrec, hsettled⟩ := (Recorded.refl c w).settle (by rw [hchan]; rfl)
  obtain ⟨log, hlog⟩ := hrec.chan
  rw [hchan] at hlog
  refine ⟨⟨az.ended, log, rfl, hlog⟩, (s.moveTo_tallied c hne).kept ((CountsKept.of hnotices c).trans hrec.counts), ?_,
    hrec.pairs.trans hpairs, ?_⟩
  · rw [hsettled, hnotices]
    exact s.moveTo_bit c hne
  · rw [hrec.arb, harb]
    exact s.moveTo_wanted c (by decide)

/-- R49: the end of a plan: its record and its handover, then IDLE. -/
theorem State.endPlan_ended (s : State) (c : Chan) (q : PlanReason) (h : (s.chan c).st.inPlan = true) : PlanEndedIn s (s.endPlan c q) c := by
  have hrec := ((Recorded.refl c s).emit .planEnd 2 (planEndBytes (s.chan c) c q)).closePool .planEnd
  unfold State.endPlan
  dsimp only
  generalize (s.emit c .planEnd 2 (planEndBytes (s.chan c) c q)).closePool c .planEnd = u at hrec ⊢
  obtain ⟨l, hl⟩ := hrec.chan
  exact (u.idle_planEnded c (by rw [hl]; exact h)).afterRecorded hrec

/-! ### STOP and ABORT -/

theorem inPlan_ne_follower {x : ChState} (h : x.inPlan = true) : x ≠ .follower := by
  rintro rfl
  cases h

/-- Settles O33: the step-end record, then the end of the plan. -/
theorem stopEndsThePlan : Obligations.StopEndsThePlan := by
  intro c tag s hfree hlog hst
  obtain ⟨v, hv, -, hdone⟩ := State.channelExchange_owner (k := .stop) (l := []) hfree (by decide) rfl
    (.inl (inPlan_ne_follower hst)) tag
  have hc := State.chan_of_chans hv.chans c
  rw [← hc] at hst
  have howner : v.reqStop c = ((v.endStepBy c .stopped).endPlan c .stopped).done := if_pos hst
  have hrec := (Recorded.refl c v).endStepBy .stopped
  have hlocal := ((Local.refl c v).endStepBy .stopped).endPlan .stopped
  obtain ⟨l, hl⟩ := hrec.chan
  have hended := ((v.endStepBy c .stopped).endPlan_ended c .stopped (by rw [hl]; exact hst)).afterRecorded hrec
  have hans := (hdone _ _ (congrArg atTake howner) (.plain _)).localAnswered hv hlocal hlog hended.tallied
  have hplan := hended.chan
  have hwanted := hended.wanted
  rw [hc] at hplan hwanted
  refine ⟨_, rfl, hans.answered, hans.counted, ?_, ?_, hans.link, hans.pairs (hended.pairs.trans hv.pairs), hans.frame⟩
  · rw [hans.chan]
    exact hplan
  · rw [hans.arb, ← hv.arb]
    exact hwanted

theorem postOf_abort (c : Chan) : postOf (64 + c.val) = .abort c := by
  revert c
  decide

theorem State.takePost_abort (h : s.phase = .ready) (c : Chan) : s.takePost (64 + c.val) = s.abortPost c := by
  rw [State.takePost, if_neg (by rw [h]; decide), postOf_abort]

/-- Settles O21: the post ends the plan of the channel that conducts it. -/
theorem abortEndsThePlan : Obligations.AbortEndsThePlan := by
  refine ⟨fun c s hphase => ?_, fun c s hphase => ?_⟩
  · intro d hin hlog
    have hended := s.endPlan_ended d .aborted hin
    have hlocal := (Local.refl d s).abort
    have hfacts := hlocal hlog.sound
    obtain ⟨hr, hs, hw, hf⟩ := hended.tallied
    exact ⟨_, congrArg Host.Outcome.next ((State.takePost_abort hphase c).trans (if_pos hin)), hended.chan,
      ⟨hr.trans (BitVec.add_zero _).symm, hs, hw, hf, hended.bit⟩, hended.wanted, hlocal.frame hlog, hfacts.links, hfacts.slots, hended.pairs⟩
  · intro d hin
    exact congrArg Host.Outcome.next ((State.takePost_abort hphase c).trans (if_neg (ne_true_of_eq_false hin)))

end Sys2Proof.Machine

/-!
Step entries (R33): RESUME of a paused channel (R14, R12) and JUMP (R48).
-/

namespace Sys2Proof.Machine

variable {s t u v w : State} {c d : Chan} {r : Reply} {st : Step} {tag : U32} {k : PairIx} {ch : Channel} {n : Nat}

/-! ### The entry of a step -/

/-- R90: a restart of the regulator keeps its clamp markers and CV phase. -/
theorem Regulator.restart_kept (g : Regulator) (h : PlanHeader) :
    (g.restart h).integ = 0 ∧ (g.restart h).cvPhase = g.cvPhase := by
  unfold Regulator.restart
  dsimp only
  split <;> exact ⟨rfl, rfl⟩

theorem Channel.restart_eq (ch : Channel) : ∃ g, ch.restart = { ch with reg := g } ∧ g.cvPhase = ch.reg.cvPhase ∧
    (ch.active.isSome = true → g.integ = 0) := by
  unfold Channel.restart
  split
  case h_1 p hp => exact ⟨_, rfl, (Regulator.restart_kept _ _).2, fun _ => (Regulator.restart_kept _ _).1⟩
  case h_2 hp => exact ⟨ch.reg, rfl, rfl, fun h => by rw [hp] at h; cases h⟩

/-- R33: what the entry of step n makes of the sequencer. -/
def Sequencer.entered (q : Sequencer) (n : Nat) (st : Step) : Sequencer :=
  { q with
    position := n
    cycle := if st.cycleMark then satSucc 32 q.cycle else q.cycle
    stepTime := 0
    peak := none
    qualify := [0, 0, 0, 0]
    firstDue := true
    learnClamp := false }

/-- R33: what the entry of a step makes of its channel. -/
theorem Channel.enterStep_eq (ch : Channel) (n : Nat) (st : Step) (b : Bool) :
    ∃ g, ch.enterStep n st b = { ch with
      stepEntered := true
      seqr := ch.seqr.entered n st
      stepSet := .zero
      reg := g
      blanking := .start ch.limits } ∧ g.cvPhase = false := by
  unfold Channel.enterStep
  dsimp only
  split
  · obtain ⟨g, hg, hcv, -⟩ := Channel.restart_eq { ch with
      stepEntered := true
      seqr := ch.seqr.entered n st
      stepSet := .zero
      reg := { ch.reg with clamped := false, cvPhase := false }
      blanking := .start ch.limits }
    exact ⟨g, hg, hcv⟩
  · exact ⟨_, rfl, rfl⟩

@[simp] theorem State.notifyEntry_notices (s : State) (c : Chan) : (s.notifyEntry c).notices = s.notices := by
  unfold State.notifyEntry
  split
  · rfl
  · exact s.notify_notices c

@[simp] theorem State.notifyEntry_pairs (s : State) (c : Chan) : (s.notifyEntry c).pairs = s.pairs := by
  unfold State.notifyEntry
  split
  · rfl
  · exact s.notify_pairs c

/-- R33: step n of channel c entered. -/
theorem State.enterStep_parts (h : (s.chan c).stepAt n = some st) (b : Bool) :
    (s.enterStep c n b).chan c = { (s.chan c).enterStep n st b with az := .begin st.azRest } ∧
      (s.enterStep c n b).notices = s.notices ∧ (s.enterStep c n b).pairs = s.pairs := by
  unfold State.enterStep
  rw [h]
  dsimp only
  refine ⟨?_, ?_, ?_⟩
  · rw [State.notifyEntry_chan, State.modAz_chan_self, State.chan_modChan_self]
  · rw [State.notifyEntry_notices, State.modAz_notices, State.modChan_notices]
  · rw [State.notifyEntry_pairs, State.modAz_pairs, State.modChan_pairs]

/-! ### RESUME in PAUSED -/

/-- A channel whose step is entered or goes on, in RUNNING. -/
structure Entered (ch ch' : Channel) : Prop where
  st : ch'.st = .running
  hold : ch'.hold = ch.hold
  continued : ch.stepEntered = true → ch'.reg.integ = 0 ∧ ch'.seqr = { ch.seqr with qualify := [0, 0, 0, 0] } ∧ ch'.stepSet = ch.stepSet
  entered : ch.stepEntered = false → ch'.stepEntered = true ∧ ch'.seqr.position = ch.seqr.position ∧ ch'.seqr.stepTime = 0 ∧
    ch'.stepSet = .zero
  rest : ∃ stepEntered seqr stepSet reg blanking az, ch' = { ch with
    st := .running, stepEntered := stepEntered, seqr := seqr, stepSet := stepSet, reg := reg, blanking := blanking, az := az }

/-- R12, R14: channel c goes to RUNNING with its interrupted step, or into the step at its position. -/
theorem State.enterRunning_entered (hst : (s.chan c).st ≠ .running) (hstep : (s.chan c).curStep = some st) (b : Bool) :
    Entered (s.chan c) ((s.enterRunning c b).chan c) ∧ Tallied s (s.enterRunning c b) c 1 0 ∧ (s.enterRunning c b).pairs = s.pairs := by
  have hrun : ((s.setSt c .running).modChan c fun ch => { ch with seqr := { ch.seqr with qualify := [0, 0, 0, 0] } }).chan c =
      { s.chan c with st := .running, seqr := { (s.chan c).seqr with qualify := [0, 0, 0, 0] } } := by
    rw [State.chan_modChan_self, State.setSt_chan_self]
  have htally : Tallied s ((s.setSt c .running).modChan c fun ch => { ch with seqr := { ch.seqr with qualify := [0, 0, 0, 0] } }) c 1 0 :=
    (s.setSt_tallied c hst).kept (.of (State.modChan_notices _ c _) c)
  have hpairs : ((s.setSt c .running).modChan c fun ch => { ch with seqr := { ch.seqr with qualify := [0, 0, 0, 0] } }).pairs = s.pairs :=
    s.setSt_pairs c _
  unfold State.enterRunning
  dsimp only
  generalize (s.setSt c .running).modChan c (fun ch => { ch with seqr := { ch.seqr with qualify := [0, 0, 0, 0] } }) = w
    at hrun htally hpairs ⊢
  split
  case isTrue hentered =>
    have hactive : (w.chan c).active.isSome = true := by
      rw [hrun]
      have hbind : ((s.chan c).active.bind fun p => p.steps[(s.chan c).seqr.position]?) = some st := hstep
      cases ha : (s.chan c).active with
      | none =>
        rw [ha] at hbind
        cases hbind
      | some p => rfl
    obtain ⟨g, hg, -, hinteg⟩ := (w.chan c).restart_eq
    have hchan : ((w.modChan c Channel.restart).notify c).chan c = { w.chan c with reg := g } := by
      rw [State.notify_chan, State.chan_modChan_self, hg]
    rw [hrun] at hchan
    refine ⟨?_, htally.kept (.of ?_ c), ?_⟩
    · rw [hchan]
      exact ⟨rfl, rfl, fun _ => ⟨hinteg hactive, rfl, rfl⟩, fun h => absurd (hentered.symm.trans h) (by decide),
        _, _, _, _, _, _, rfl⟩
    · rw [State.notify_notices, State.modChan_notices]
    · rw [State.notify_pairs, State.modChan_pairs, hpairs]
  case isFalse hentered =>
    have hat : (w.chan c).stepAt (s.chan c).seqr.position = some st := by
      rw [hrun]
      exact hstep
    obtain ⟨hchan, hnotices, hp⟩ := State.enterStep_parts hat b
    obtain ⟨g, hg, -⟩ := (w.chan c).enterStep_eq (s.chan c).seqr.position st b
    rw [hg, hrun] at hchan
    refine ⟨?_, htally.kept (.of hnotices c), hp.trans hpairs⟩
    rw [hchan]
    exact ⟨rfl, rfl, fun h => absurd h hentered, fun _ => ⟨rfl, rfl, rfl, rfl⟩, _, _, _, _, _, _, rfl⟩

/-- Settles O31: the RESUME record is generated first, and the hold causes that then stand decide. -/
theorem resumeContinuesAPausedChannel : Obligations.ResumeContinuesAPausedChannel := by
  intro c tag s st hfree hlog hst hstop hstep
  obtain ⟨v, hv, -, hdone⟩ := State.channelExchange_owner (k := .resume) (l := []) hfree (by decide) rfl (.inl (by rw [hst]; decide)) tag
  have hc := State.chan_of_chans hv.chans c
  have hvst : (v.chan c).st = .paused := by rw [hc]; exact hst
  have howner : v.reqResume c = ((v.event c c subResume 0 (leBytes 1 ChState.paused.code)).resumePaused c).done := by
    simp only [State.reqResume, hvst, hv.device.stopAll.trans hstop, Bool.false_eq_true, if_false]
  have hreported := ((Recorded.refl c v).reported).event (by rw [hvst]; decide) c subResume 0 (leBytes 1 ChState.paused.code)
  have hlocal := ((Local.refl c v).event c subResume 0 (leBytes 1 ChState.paused.code) (by simp)).resumePaused
  generalize v.event c c subResume 0 (leBytes 1 ChState.paused.code) = w at howner hreported hlocal
  obtain ⟨log, hold, hchan, hdown, hfull⟩ := hreported.chan
  rw [hc] at hchan hdown hfull
  have hwst : (w.chan c).st = .paused := by rw [hchan]; exact hst
  have hwpairs := hreported.pairs.trans hv.pairs
  by_cases hempty : (w.chan c).hold.isEmpty = true
  · obtain ⟨hentered, htally, hpairs⟩ := State.enterRunning_entered (s := w) (st := st) (by rw [hwst]; decide)
      (by rw [hchan]; exact hstep) true
    rw [State.resumePaused, if_pos hempty] at howner hlocal
    have hans := (hdone _ _ (congrArg atTake howner) (.plain _)).localAnswered hv hlocal hlog (hreported.counts.tally htally)
    have htchan := hans.chan
    obtain ⟨hst', hhold', hcontinued, hentered', sE, q, sS, g, bl, az, hrest⟩ := hentered
    rw [State.done, hrest] at htchan
    rw [hrest] at hst' hhold' hcontinued hentered'
    rw [hchan] at hcontinued hentered' hempty htchan
    refine ⟨_, rfl, hans.answered, hans.counted, ?_, ?_, ?_, ?_, ?_, ?_, ⟨hold, sE, q, sS, g, bl, az, log, ?_⟩, hans.link,
      hans.pairs (hpairs.trans hwpairs), hans.frame⟩
    · rw [htchan]
      exact (if_pos hempty).symm
    · rw [htchan]
      exact hdown
    · rw [htchan]
      exact hfull
    · rw [htchan]
      exact fun _ => hcontinued
    · rw [htchan]
      exact fun _ => hentered'
    · rw [htchan]
      exact fun h => by cases h
    · rw [htchan]
      rfl
  · rw [State.resumePaused, if_neg hempty, State.moveTo_of_ne (by rw [hwst]; decide)] at howner hlocal
    have hans := (hdone _ _ (congrArg atTake howner) (.plain _)).localAnswered hv hlocal hlog
      (hreported.counts.tally (w.setSt_tallied c (by rw [hwst]; decide)))
    have htchan := hans.chan
    rw [State.done, State.setSt_chan_self, hchan] at htchan
    rw [hchan] at hempty
    refine ⟨_, rfl, hans.answered, hans.counted, ?_, ?_, ?_, ?_, ?_, ?_,
      ⟨hold, (s.chan c).stepEntered, (s.chan c).seqr, (s.chan c).stepSet, (s.chan c).reg, (s.chan c).blanking, (s.chan c).az, log, ?_⟩,
      hans.link, hans.pairs ((w.setSt_pairs c _).trans hwpairs), hans.frame⟩
    · rw [htchan]
      exact (if_neg hempty).symm
    · rw [htchan]
      exact hdown
    · rw [htchan]
      exact hfull
    · rw [htchan]
      exact fun h => by cases h
    · rw [htchan]
      exact fun h => by cases h
    · rw [htchan]
      exact fun _ => ⟨rfl, rfl⟩
    · rw [htchan]
      rfl

end Sys2Proof.Machine

/-!
What a report of a latch entry makes of a channel in a plan state (R155), and JUMP (R48).
-/

namespace Sys2Proof.Machine

variable {s t u v w : State} {c d : Chan} {r : Reply} {st : Step} {tag : U32} {k : PairIx} {ch : Channel} {n : Nat}

/-! ### The report of a latch entry -/

/-- R8, R155: LOG_FULL has joined the causes of a RUNNING channel, which is HELD. -/
structure HeldByLog (s t : State) (c : Chan) : Prop where
  running : (s.chan c).st = .running
  chan : ∃ az log, t.chan c = { s.chan c with
    st := .held, demand := 0, chop := none, hold := (s.chan c).hold.put .logFull true, az := az, log := log }
  tallied : Tallied s t c 1 0
  pairs : t.pairs = s.pairs

theorem State.joinCause_heldByLog (h : (s.chan c).st = .running) : HeldByLog s (s.joinCause c .logFull) c := by
  have hcaused : (s.modChan c fun ch => { ch with hold := ch.hold.put .logFull true }).chan c =
      { s.chan c with hold := (s.chan c).hold.put .logFull true } := by
    rw [State.chan_modChan_self]
  have hkept : CountsKept s (s.modChan c fun ch => { ch with hold := ch.hold.put .logFull true }) c := .of (State.modChan_notices s c _) c
  have hpairs : (s.modChan c fun ch => { ch with hold := ch.hold.put .logFull true }).pairs = s.pairs := rfl
  unfold State.joinCause
  dsimp only
  generalize s.modChan c (fun ch => { ch with hold := ch.hold.put .logFull true }) = w at hcaused hkept hpairs ⊢
  have hw : (w.chan c).st = .running := by rw [hcaused]; exact h
  obtain ⟨az, hmoved⟩ := w.moveTo_chan_self c .held
  have htally := w.moveTo_tallied c (st := .held) (by rw [hw]; decide)
  have hrec := (Recorded.refl c (w.moveTo c .held)).emitEvent c subHold 0 (leBytes 1 HoldCause.logFull.code)
  obtain ⟨log, hlog⟩ := hrec.chan
  rw [if_pos hw]
  refine ⟨h, ⟨az, log, ?_⟩, hkept.tally (htally.kept hrec.counts), hrec.pairs.trans ((w.moveTo_pairs c _).trans hpairs)⟩
  rw [hlog, hmoved, if_pos hw, if_pos hw, hcaused]
  rfl

theorem HeldByLog.afterRecorded (h : Recorded c s u) (k : HeldByLog u t c) : HeldByLog s t c := by
  obtain ⟨l, hl⟩ := h.chan
  obtain ⟨hrun, ⟨az, log, hchan⟩, htally, hpairs⟩ := k
  rw [hl] at hrun hchan
  exact ⟨hrun, ⟨az, log, hchan⟩, h.counts.tally htally, hpairs.trans h.pairs⟩

/-- R155: a report acted on adds to the records and hold causes of a channel, unless it holds a RUNNING one. -/
theorem State.settle_outcome (s : State) (c : Chan) : Reported c s (s.settle c) ∨ HeldByLog s (s.settle c) c := by
  by_cases hrun : (s.chan c).st = .running
  · have hrec := (Recorded.refl c s).modLog fun l => { l with report := false }
    obtain ⟨l, hl⟩ := hrec.chan
    unfold State.settle
    dsimp only
    split
    · split
      · exact .inr ((State.joinCause_heldByLog (by rw [hl]; exact hrun)).afterRecorded hrec)
      · exact .inl hrec.reported
    · exact .inl (Recorded.refl c s).reported
  · exact .inl ((Recorded.refl c s).reported.settle hrun)

/-! ### JUMP -/

theorem State.jumpTo_entered {p : Plan} (hp : (s.chan c).active = some p) (hn : p.steps[n]? = some st) :
    ∃ w, (s.jumpTo c n) = w.settle c ∧ CountsKept s w c ∧ w.pairs = s.pairs ∧ ∃ g log, g.cvPhase = false ∧
      w.chan c = { s.chan c with
        demand := 0
        stepEntered := true
        seqr := Sequencer.entered { (s.chan c).seqr with loops := p.prune n (s.chan c).seqr.loops } n st
        stepSet := .zero
        reg := g
        blanking := .start (s.chan c).limits
        az := .begin st.azRest
        log := log } := by
  have hrec := (Recorded.refl c s).endStepBy .jumped
  obtain ⟨log, hlog⟩ := hrec.chan
  have hpruned : ((s.endStepBy c .jumped).modChan c fun ch => { ch with
      demand := 0
      seqr := { ch.seqr with loops := match ch.active with
        | some p => p.prune n ch.seqr.loops
        | none => ch.seqr.loops } }).chan c =
      { s.chan c with demand := 0, seqr := { (s.chan c).seqr with loops := p.prune n (s.chan c).seqr.loops }, log := log } := by
    rw [State.chan_modChan_self, hlog, Channel.withLog]
    simp only [hp]
  unfold State.jumpTo
  dsimp only
  have hkept : CountsKept s ((s.endStepBy c .jumped).modChan c fun ch => { ch with
      demand := 0
      seqr := { ch.seqr with loops := match ch.active with
        | some p => p.prune n ch.seqr.loops
        | none => ch.seqr.loops } }) c := hrec.counts.trans (.of (State.modChan_notices _ c _) c)
  have hpairs : ((s.endStepBy c .jumped).modChan c fun ch => { ch with
      demand := 0
      seqr := { ch.seqr with loops := match ch.active with
        | some p => p.prune n ch.seqr.loops
        | none => ch.seqr.loops } }).pairs = s.pairs := hrec.pairs
  generalize (s.endStepBy c .jumped).modChan c _ = w at hpruned hkept hpairs ⊢
  have hat : (w.chan c).stepAt n = some st := by
    rw [hpruned, Channel.stepAt]
    simp only [hp, Option.bind_some, hn]
  obtain ⟨hchan, hnotices, hp'⟩ := State.enterStep_parts hat false
  obtain ⟨g, hg, hcv⟩ := (w.chan c).enterStep_eq n st false
  rw [hg, hpruned] at hchan
  exact ⟨_, rfl, hkept.trans (.of hnotices c), hp'.trans hpairs, g, log, hcv, hchan⟩

theorem Channel.jumpOk_of {p : Plan} (hp : ch.active = some p) (hn : p.steps[n]? = some st) (hl : st.body.isLoop = false) :
    ch.jumpOk n = true := by
  have hat : ch.stepAt n = some st := by
    rw [Channel.stepAt, hp]
    exact hn
  rw [Channel.jumpOk, hat]
  exact congrArg not hl

theorem State.reqJump_accepted {half : List Byte} (h : (s.chan c).st = .running ∨ (s.chan c).st = .paused)
    (hx : param1 half 0x10 = n) : s.reqJump c half = if (s.chan c).jumpOk n then (s.jumpTo c n).done else (s, .bad 0x10) := by
  unfold State.reqJump
  dsimp only
  rw [if_pos h, hx]

theorem ne_of_running_or_paused {x y : ChState} (h : x = .running ∨ x = .paused) (hr : .running ≠ y) (hp : .paused ≠ y) : x ≠ y := by
  obtain rfl | rfl := h
  · exact hr
  · exact hp

/-- Settles O38: the target is entered, and a report made on the way may hold the channel after it. -/
theorem jumpEntersTheNamedStep : Obligations.JumpEntersTheNamedStep := by
  refine ⟨fun c tag step s p st hfree hlog hst hp hn hloop => ?_, fun c tag step s hfree hst hbad => ⟨_, rfl, ?_⟩⟩
  · obtain ⟨v, hv, -, hdone⟩ := State.channelExchange_owner (k := .jump) (l := [step]) hfree (Nat.le_of_ble_eq_true rfl) rfl
      (.inl (ne_of_running_or_paused hst (by decide) (by decide))) tag
    have hc := State.chan_of_chans hv.chans c
    rw [← hc] at hst hp
    have howner := State.reqJump_accepted hst (param1_of_byte .jump tag step [])
    rw [if_pos (Channel.jumpOk_of hp hn hloop)] at howner
    have hlocal := (Local.refl c v).jumpTo step.toNat
    obtain ⟨w, hw, hkept, hpairs, g, log, hcv, hentered⟩ := State.jumpTo_entered hp hn
    rw [hw] at howner hlocal
    rw [hc] at hentered hst
    rcases w.settle_outcome c with hreported | hheld
    · have hans := (hdone _ _ (congrArg atTake howner) (.plain _)).localAnswered hv hlocal hlog (hkept.tally hreported.counts.tallied)
      obtain ⟨log', hold, hchan, -⟩ := hreported.chan
      rw [hentered] at hchan
      have htchan := hans.chan
      rw [State.done, hchan] at htchan
      have hstand : ((s.channelExchange c .jump tag [step]).chan c).st = (s.chan c).st := by
        rw [htchan]
        rfl
      refine ⟨_, rfl, hans.answered, .inl hstand, ?_, ?_⟩
      · rw [if_pos hstand]
        exact hans.counted
      · rw [htchan]
        exact ⟨rfl, rfl, rfl, rfl, rfl, rfl, rfl, rfl, hcv, ⟨hold, _, _, _, _, _, (s.chan c).chop, _, log', rfl⟩, hans.link,
          hans.pairs (hreported.pairs.trans (hpairs.trans hv.pairs)), hans.frame⟩
    · have hans := (hdone _ _ (congrArg atTake howner) (.plain _)).localAnswered hv hlocal hlog (hkept.tally hheld.tallied)
      obtain ⟨hrun, ⟨az, log', hchan⟩, -, hp'⟩ := hheld
      rw [hentered] at hchan hrun
      have htchan := hans.chan
      rw [State.done, hchan] at htchan
      have hrun' : (s.chan c).st = .running := hrun
      have hmoved : ((s.channelExchange c .jump tag [step]).chan c).st ≠ (s.chan c).st := by
        rw [htchan, hrun']
        exact (by decide : ChState.held ≠ .running)
      refine ⟨_, rfl, hans.answered, .inr ⟨hrun', ?_⟩, ?_, ?_⟩
      · rw [htchan]
        exact ⟨rfl, rfl⟩
      · rw [if_neg hmoved]
        exact hans.counted
      · rw [htchan]
        exact ⟨rfl, rfl, rfl, rfl, rfl, rfl, rfl, rfl, hcv, ⟨_, _, _, _, _, _, none, az, log', rfl⟩, hans.link,
          hans.pairs (hp'.trans (hpairs.trans hv.pairs)), hans.frame⟩
  · refine State.channelExchange_same (k := .jump) (l := [step]) hfree (Nat.le_of_ble_eq_true rfl) rfl
      (.inl (ne_of_running_or_paused hst (by decide) (by decide))) (.bad 0x10) fun v hv => ?_
    rw [← State.chan_of_chans hv.chans] at hst hbad
    rw [State.channelRequest, State.reqJump_accepted hst (param1_of_byte .jump tag step []), if_neg (ne_true_of_eq_false hbad)]
    rfl

end Sys2Proof.Machine

/-!
Completions outside the take: the end of a load (R29, R21) and of a bring-up (R172, R173); and the examination of response frames
(R168).
-/

namespace Sys2Proof.Machine

variable {s t u v w : State} {c d : Chan} {r : Reply} {half : List Byte} {n : Nat} {l : Link} {frame : BitVec 96}

/-- R181: a request in execution completed. -/
theorem State.complete_only (he : Executing s (chanSlot c) half) (hr : r.Fits) :
    OnlyAnswered s (s.complete (chanSlot c) r) c (reqTag half) (reqKindCode half) r :=
  OnlyAnswered.complete (SlotOnly.refl s (chanSlot c)) he hr.detail hr.payload

/-- A frame of the owner's followed by the completion's. -/
theorem OnlyAnswered.frameAfter {tag kind : Nat} (h : OnlyAnswered u t c tag kind r) (hu : Frame s u c [noticeArea c])
    (hl : u.leads c = s.leads c) : Frame s t c [slotArea (chanSlot c), noticeArea c] :=
  (hu.append h.frame hl).mono (by simp)

/-! ### The end of a load -/

theorem Load.readNext_discard (ld : Load) (m : Mem) (c : Chan) : (ld.readNext m c).discard = ld.discard := by
  unfold Load.readNext
  split
  · rfl
  · split <;> rfl

/-- R27: reading further records leaves the discard mark. -/
theorem Load.read_discard (m : Mem) (c : Chan) (n : Nat) (ld : Load) : (Load.read m c n ld).discard = ld.discard := by
  induction n generalizing ld with
  | zero => rfl
  | succ n ih => exact (ih _).trans (ld.readNext_discard m c)

theorem State.advanceLoad_modChan (s : State) (c : Chan) (n : Nat) (f : Channel → Channel)
    (hf : ∀ ch ld, f { ch with load := ld } = f ch) : (s.advanceLoad c n).modChan c f = s.modChan c f := by
  rw [State.advanceLoad, State.modChan_modChan]
  simp only [hf]

theorem State.completeLoad_none (h : (s.chan c).load = none) : s.completeLoad c = s := by
  unfold State.completeLoad
  have hload : ((s.advanceLoad c loadRecords).chan c).load = none := by
    rw [State.advanceLoad, State.chan_modChan_self, h]
    rfl
  dsimp only
  rw [hload]

/-- R27: the reading made complete at the end of a load. -/
theorem State.advanceLoad_load {ld : Load} (h : (s.chan c).load = some ld) :
    ((s.advanceLoad c loadRecords).chan c).load = some (Load.read s.store c 65 ld) := by
  rw [State.advanceLoad, State.chan_modChan_self, h]
  rfl

theorem State.completeLoad_plan {ld : Load} {p : Plan} (h : (s.chan c).load = some ld) (hfin : (Load.read s.store c 65 ld).finish = .plan p) :
    s.completeLoad c = (s.modChan c fun ch => { ch with load := none, staged := if ld.discard then .empty else .valid p }).complete
      (chanSlot c) ⟨.done, planDetail p, []⟩ := by
  unfold State.completeLoad
  dsimp only
  rw [State.advanceLoad_load h]
  dsimp only
  rw [hfin, Load.read_discard]
  dsimp only
  rw [State.advanceLoad_modChan _ _ _ _ fun _ _ => rfl]

theorem State.completeLoad_fault {ld : Load} {f : PlanFault} {ix : Nat} (h : (s.chan c).load = some ld)
    (hfin : (Load.read s.store c 65 ld).finish = .fault f ix) :
    s.completeLoad c = (s.modChan c fun ch => { ch with load := none, staged := .empty }).complete (chanSlot c)
      ⟨.badPlan, badPlanDetail f ix, []⟩ := by
  unfold State.completeLoad
  dsimp only
  rw [State.advanceLoad_load h]
  dsimp only
  rw [hfin]
  dsimp only
  rw [State.advanceLoad_modChan _ _ _ _ fun _ _ => rfl]

/-- R181: an owner that writes the record of channel c and completes its request. -/
theorem State.modChan_complete (he : Executing s (chanSlot c) half) (f : Channel → Channel) (hr : r.Fits) :
    let t := (s.modChan c f).complete (chanSlot c) r
    Answered t (chanSlot c) (reqTag half) (reqKindCode half) r ∧ Counted s t c 1 0 0 ∧ t.chan c = f (s.chan c) ∧ t.links = s.links ∧
      t.pairs = s.pairs ∧ t.arb = s.arb ∧ Frame s t c [slotArea (chanSlot c), noticeArea c] := by
  have hans := State.complete_only (s := s.modChan c f) (r := r) ⟨he.taken, he.slot⟩ hr
  exact ⟨hans.answered, hans.countedSame (State.modChan_notices s c f), (State.chan_of_chans hans.chans c).trans (State.chan_modChan_self s c f),
    hans.links, hans.pairs, hans.arb, hans.frameAfter ((Frame.modChan s c f).mono (by simp)) rfl⟩

/-- Settles O27: the finished reading decides between the plan and its fault. -/
theorem loadCompletionStagesOrReportsTheFault : Obligations.LoadCompletionStagesOrReportsTheFault := by
  refine ⟨fun c s ld half hload hslot htaken => ?_, fun c s hload => congrArg Host.Outcome.next (State.completeLoad_none hload)⟩
  have he : Executing s (chanSlot c) half := ⟨htaken, hslot⟩
  cases hfin : (Load.read s.store c 65 ld).finish with
  | plan p =>
    obtain ⟨hans, hcount, hchan, hlinks, hpairs, harb, hframe⟩ := State.modChan_complete he
      (fun ch => { ch with load := none, staged := if ld.discard then .empty else .valid p })
      (r := ⟨.done, planDetail p, []⟩) (.ofDetail (Nat.le_of_ble_eq_true rfl))
    exact ⟨_, congrArg Host.Outcome.next (State.completeLoad_plan hload hfin), hcount, hlinks, hpairs, harb, hframe, hchan, hans⟩
  | fault f ix =>
    obtain ⟨hans, hcount, hchan, hlinks, hpairs, harb, hframe⟩ := State.modChan_complete he
      (fun ch => { ch with load := none, staged := .empty }) (r := ⟨.badPlan, badPlanDetail f ix, []⟩)
      (.ofDetail (Nat.le_of_ble_eq_true rfl))
    exact ⟨_, congrArg Host.Outcome.next (State.completeLoad_fault hload hfin), hcount, hlinks, hpairs, harb, hframe, hchan, hans⟩

/-! ### The examination of a response frame -/

theorem Response.ofFrame_kind (frame : BitVec 96) : (Response.ofFrame frame).kind = frame.toNat % 16 := by
  rw [Response.ofFrame, frameBits]
  simp only [Nat.pow_zero, Nat.div_one, Nat.reducePow]

theorem Link.examine_silent (h : l.state = .silent) : l.examine frame = some .unsolicited := if_pos h

theorem Link.examine_parity (h : l.state ≠ .silent) (hp : evenParity frame = false) : l.examine frame = some .parity := by
  rw [Link.examine, if_neg h, hp]
  rfl

theorem Link.examine_kind (h : l.state ≠ .silent) (hp : evenParity frame = true) (hk : (Response.ofFrame frame).kind ≠ senseKind) :
    l.examine frame = some .kind := by
  rw [Link.examine, if_neg h, hp]
  exact if_pos hk

theorem Link.examine_index (h : l.state ≠ .silent) (hp : evenParity frame = true) (hk : (Response.ofFrame frame).kind = senseKind)
    (hi : ∀ f, l.frame = some f → f.index ≠ (Response.ofFrame frame).index) : l.examine frame = some .index := by
  rw [Link.examine, if_neg h, hp]
  simp only [hk, Bool.not_true, Bool.false_eq_true, if_false, ne_eq, not_true_eq_false]
  split
  · rfl
  · exact if_pos (hi _ ‹_›)

theorem Link.examine_answers {f : FrameRecord} (h : l.state ≠ .silent) (hp : evenParity frame = true)
    (hk : (Response.ofFrame frame).kind = senseKind) (hf : l.frame = some f) (hi : f.index = (Response.ofFrame frame).index) :
    l.examine frame = if l.received then some .duplicate else none := by
  rw [Link.examine, if_neg h, hp]
  simp only [hk, hf, hi, Bool.not_true, Bool.false_eq_true, if_false, ne_eq, not_true_eq_false]

theorem State.responseFrame_discard {x : Discard} (h : (s.link c).examine frame = some x) (late : Bool) :
    s.responseFrame c frame late = s.modLink c fun l => l.discard x := by
  unfold State.responseFrame
  dsimp only
  rw [h]

/-- R168: a valid response answers the frame of its period. -/
theorem Link.frame_of_examine (h : l.examine frame = none) : ∃ f, l.frame = some f := by
  unfold Link.examine at h
  dsimp only at h
  split at h
  · cases h
  · split at h
    · cases h
    · split at h
      · cases h
      · split at h
        · cases h
        · exact ⟨_, ‹_›⟩

theorem State.responseFrame_valid {f : FrameRecord} (h : (s.link c).examine frame = none) (hf : (s.link c).frame = some f) (late : Bool) :
    s.responseFrame c frame late =
      (s.modLink c fun l => { l with received := true }).validResponse c (Response.ofFrame frame) f late := by
  unfold State.responseFrame
  dsimp only
  rw [h, hf]

/-- Settles O47: each check stands after those before it in R168. -/
theorem responseFramesAreExaminedInOrder : Obligations.ResponseFramesAreExaminedInOrder := by
  intro c frame late s
  have hkind := Response.ofFrame_kind frame
  have discarded (x : Discard) (h : (s.link c).examine frame = some x) :
      exec (.responseFrame c frame late) s = .next (s.modLink c fun l => l.discard x) :=
    congrArg Host.Outcome.next (State.responseFrame_discard h late)
  refine ⟨fun h => discarded .unsolicited (Link.examine_silent h), fun h hp => discarded .parity (Link.examine_parity h hp),
    fun h hp hk => discarded .kind (Link.examine_kind h hp (by rw [hkind]; exact hk)),
    fun h hp hk hi => discarded .index (Link.examine_index h hp (hkind.trans hk) hi), fun f h hp hk hf hi hr => ?_,
    fun f h hp hk hf hi hr => ?_⟩
  · exact discarded .duplicate ((Link.examine_answers h hp (hkind.trans hk) hf hi).trans (if_pos hr))
  · exact (Link.examine_answers h hp (hkind.trans hk) hf hi).trans (if_neg (ne_true_of_eq_false hr))

/-! ### The end of a bring-up -/

theorem State.validResponse_bringUp (h : (s.link c).state = .bringUp) (r : Response) (f : FrameRecord) (late : Bool) :
    s.validResponse c r f late = if r.ready then s.completeBringUp c r f else s := by
  unfold State.validResponse
  rw [h]

/-- R172: the link in service and the channel IDLE with the response's values, before the ENABLE is answered. -/
def State.broughtUp (s : State) (c : Chan) (x : Sample) : State :=
  (((s.modLink c fun l => { l with state := .inService }).modChan c fun ch => ch.report x).modChan c Channel.heard).setSt c .idle

theorem State.completeBringUp_eq (h : (s.chan c).st = .disabled) (r : Response) (f : FrameRecord) :
    s.completeBringUp c r f = (s.broughtUp c (s.correctSample c r f)).complete (chanSlot c) (.plain .done) := by
  unfold State.completeBringUp State.broughtUp
  dsimp only
  rw [State.moveTo_of_ne]
  · rfl
  · rw [State.chan_modChan_self, State.chan_modChan_self]
    exact (show (s.chan c).st ≠ .running by rw [h]; decide)

theorem State.broughtUp_parts (h : (s.chan c).st = .disabled) (x : Sample) :
    (s.broughtUp c x).chan c = { ((s.chan c).report x).heard with st := .idle } ∧
    (s.broughtUp c x).link c = { s.link c with state := .inService } ∧ (s.broughtUp c x).pairs = s.pairs ∧
    (s.broughtUp c x).arb = s.arb ∧ (s.broughtUp c x).slots = s.slots ∧
    Tallied s (s.broughtUp c x) c 1 0 ∧ Frame s (s.broughtUp c x) c [noticeArea c] := by
  have hne : ((((s.modLink c fun l => { l with state := .inService }).modChan c fun ch => ch.report x).modChan c
      Channel.heard).chan c).st ≠ .idle := by
    rw [State.chan_modChan_self, State.chan_modChan_self]
    exact (show (s.chan c).st ≠ .idle by rw [h]; decide)
  have hframe : Frame s (((s.modLink c fun l => { l with state := .inService }).modChan c fun ch => ch.report x).modChan c
      Channel.heard) c [] := ((Frame.modLink s c _).trans (.modChan _ c _) rfl).trans (.modChan _ c _) rfl
  have hkept : CountsKept s (((s.modLink c fun l => { l with state := .inService }).modChan c fun ch => ch.report x).modChan c
      Channel.heard) c := .of (by rfl) c
  have hlink := State.link_modLink_self s c fun l => { l with state := .inService }
  unfold State.broughtUp
  refine ⟨?_, ?_, State.setSt_pairs _ _ _, State.setSt_arb _ _ _, ?_, hkept.tally (State.setSt_tallied _ c hne),
    (hframe.append (.setSt _ c .idle) rfl).mono (by simp)⟩
  · rw [State.setSt_chan_self, State.chan_modChan_self, State.chan_modChan_self, State.modLink_chan]
  · rw [State.link_of_links (State.setSt_links _ _ _)]
    exact hlink
  · rw [State.setSt_of_ne _ _ hne]
    rfl

theorem noticeArea_slots (c : Chan) (n : SlotIx) :
    Config.slotBase n + 4 ≤ (noticeArea c).1 ∨ (noticeArea c).1 + (noticeArea c).2 ≤ Config.slotBase n := by
  simp only [noticeArea, Config.chanNotice, Config.slotBase]
  omega

theorem Channel.broughtUp_eq (ch : Channel) (x : Sample) :
    ∃ clampCtr faultCtr hotCtr hot, { (ch.report x).heard with st := ChState.idle } = { ch with
      st := .idle, held := x.val, silence := 0, silenceReached := false, clampCtr := clampCtr, stageFaultCtr := faultCtr,
      stageHotCtr := hotCtr, stageHot := hot } := ⟨_, _, _, _, rfl⟩

/-- Settles O46: the limit ends the bring-up with NO_STAGE, and the first response carrying READY with DONE. -/
theorem bringUpEndsInServiceOrSilent : Obligations.BringUpEndsInServiceOrSilent := by
  refine ⟨fun c s half hup hlimit hslot htaken => ?_, fun c s hbelow => ?_, fun c frame late s hup hvalid hready => ?_,
    fun c frame late s half hup hvalid hready hst hslot htaken => ?_⟩
  · have hat : (s.link c).atLimit = true := by
      rw [Link.atLimit, hup, Bool.and_eq_true]
      exact ⟨rfl, decide_eq_true hlimit⟩
    have hans := State.complete_only (s := s.modLink c fun l => { l with state := .silent }) (r := .plain .noStage) (half := half)
      ⟨htaken, hslot⟩ (.plain _)
    have hlink := State.link_modLink_self s c fun l => { l with state := .silent }
    exact ⟨_, congrArg Host.Outcome.next (if_pos hat), (State.link_of_links hans.links c).trans hlink, State.chan_of_chans hans.chans c,
      hans.answered, hans.countedSame rfl, hans.arb, hans.pairs, hans.frameAfter ((Frame.modLink s c _).mono (by simp)) rfl⟩
  · have hat : (s.link c).atLimit ≠ true := by
      rw [Link.atLimit, ne_eq, Bool.and_eq_true, decide_eq_true_eq, decide_eq_true_eq]
      rintro ⟨hup, hlimit⟩
      obtain h | h := hbelow
      · exact h hup
      · exact absurd hlimit (Nat.not_le.mpr h)
    exact congrArg Host.Outcome.next (if_neg hat)
  · obtain ⟨f, hf⟩ := Link.frame_of_examine hvalid
    have hup' : ((s.modLink c fun l => { l with received := true }).link c).state = .bringUp := by
      rw [State.link_modLink_self]
      exact hup
    refine congrArg Host.Outcome.next ((State.responseFrame_valid hvalid hf late).trans
      ((State.validResponse_bringUp hup' _ f late).trans (if_neg (ne_true_of_eq_false hready))))
  · obtain ⟨f, hf⟩ := Link.frame_of_examine hvalid
    have hlink := State.link_modLink_self s c fun l => { l with received := true }
    have hreceived := State.responseFrame_valid hvalid hf late
    have hframe := Frame.modLink s c fun l => { l with received := true }
    have hslots : (s.modLink c fun l => { l with received := true }).slots = s.slots := rfl
    have hstore : (s.modLink c fun l => { l with received := true }).store = s.store := rfl
    have hchan : (s.modLink c fun l => { l with received := true }).chan c = s.chan c := rfl
    have hnotices : (s.modLink c fun l => { l with received := true }).notices = s.notices := rfl
    have harb : (s.modLink c fun l => { l with received := true }).arb = s.arb := rfl
    have hpairs : (s.modLink c fun l => { l with received := true }).pairs = s.pairs := rfl
    generalize (s.modLink c fun l => { l with received := true }) = v at *
    rw [State.validResponse_bringUp (by rw [hlink]; exact hup), if_pos (show (Response.ofFrame frame).ready = true from hready),
      State.completeBringUp_eq (by rw [hchan]; exact hst)] at hreceived
    obtain ⟨hchan', hlink', hpairs', harb', hslots', htally, hframe'⟩ := State.broughtUp_parts (s := v) (c := c)
      (by rw [hchan]; exact hst) (v.correctSample c (Response.ofFrame frame) f)
    have hx : (v.correctSample c (Response.ofFrame frame) f).val = (s.chan c).cal.correct (Response.ofFrame frame) f.range := by
      rw [State.correctSample, hchan]
    generalize v.correctSample c (Response.ofFrame frame) f = x at *
    have hfield : (v.broughtUp c x).stateField (chanSlot c) = stateTaken := by
      have hkept := hframe'.store.readBytes (a := Config.slotBase (chanSlot c)) (n := 4) fun y hy => by
        rw [List.mem_singleton.mp hy]
        exact noticeArea_slots c (chanSlot c)
      rw [hstore] at hkept
      exact (congrArg ofLE hkept).trans htaken
    have hans := State.complete_only (s := v.broughtUp c x) (r := .plain .done) (half := half)
      ⟨hfield, (State.slot_of_slots (hslots'.trans hslots) _).trans hslot⟩ (.plain _)
    have htchan := (State.chan_of_chans hans.chans c).trans hchan'
    obtain ⟨clampCtr, faultCtr, hotCtr, hot, hrest⟩ := (v.chan c).broughtUp_eq x
    rw [hrest, hchan] at htchan
    refine ⟨_, f, hf, congrArg Host.Outcome.next hreceived, ?_, hans.answered, hans.tallied ((CountsKept.of hnotices c).tally htally), ?_, ?_,
      ⟨clampCtr, faultCtr, hotCtr, hot, ?_⟩, hans.arb.trans (harb'.trans harb), hans.pairs.trans (hpairs'.trans hpairs), ?_⟩
    · rw [State.link_of_links hans.links, hlink', hlink]
    · rw [htchan]
    · rw [htchan]
      exact hx
    · rw [htchan]
    · exact hans.frameAfter ((hframe.append hframe' (State.leads_of_pairs hpairs c)).mono (by simp))
        (State.leads_of_pairs (hpairs'.trans hpairs) c)

end Sys2Proof.Machine

/-!
Counted ends outside a sample's handling (R102, R104, R105) and the Arbiter's rows (R137, R142).
-/

namespace Sys2Proof.Machine

variable {s : State} {c : Chan} {l : LimitSet} {f : Channel → Channel}

/-- A change that leaves the channel as it is changes nothing. -/
theorem State.modChan_same (h : f (s.chan c) = s.chan c) : s.modChan c f = s := by
  have hset : s.chans.set c (s.chan c) = s.chans := Vector.set_getElem_self _
  change { s with chans := s.chans.set c (f (s.chan c)) } = s
  rw [h, hset]

/-- Functions that agree on the channel make the same change. -/
theorem State.modChan_agree {g : Channel → Channel} (h : f (s.chan c) = g (s.chan c)) : s.modChan c f = s.modChan c g := by
  change s.setChan c (f (s.chan c)) = s.setChan c (g (s.chan c))
  rw [h]

/-! ### Ends of counted times -/

theorem Channel.chopEnd_ends {ch : Channel} {k : Nat} {p : Plan} (hl : ch.limits = some l) (hst : ch.st = .running)
    (hk : ch.chop = some k) (hle : l.chopOff ≤ k) (hp : ch.active = some p) :
    ch.chopEnd = { ch with chop := none, reg := ch.reg.restart p.header } := by
  simp [Channel.chopEnd, Channel.endChop, Channel.restart, hk, hl, hst, hle, hp]

theorem Channel.chopEnd_idle {ch : Channel} (hl : ch.limits = some l)
    (h : ch.st ≠ .running ∨ ∀ k, ch.chop = some k → k < l.chopOff) : ch.chopEnd = ch := by
  unfold Channel.chopEnd
  split
  next k l' hk hl' =>
    obtain rfl : l = l' := Option.some.inj (hl.symm.trans hl')
    refine if_neg fun hc => ?_
    rcases h with h | h
    · exact h hc.1
    · exact absurd hc.2 (Nat.not_le.2 (h k hk))
  next => rfl

theorem Channel.blankingEnd_of {ch : Channel} (hl : ch.limits = some l) (hst : ch.st = .running) :
    ch.blankingEnd = ch.blankingExpiry l := by
  simp [Channel.blankingEnd, hl, hst]

theorem Channel.blankingEnd_idle {ch : Channel} (hl : ch.limits = some l)
    (h : ch.st ≠ .running ∨ ch.blanking.running = false ∨ ch.blanking.count < l.blankTime) : ch.blankingEnd = ch := by
  by_cases hst : ch.st = .running
  · rw [Channel.blankingEnd_of hl hst]
    refine if_neg fun hc => ?_
    rcases h with h | h | h
    · exact h hst
    · exact absurd hc.1 (by simp [h])
    · exact absurd hc.2 (Nat.not_le.2 h)
  · simp [Channel.blankingEnd, hl, hst]

theorem Channel.windowEnd_ends {ch : Channel} (hl : ch.limits = some l) (hst : ch.st = .running) (hw : l.softWindow ≤ ch.window) :
    ch.windowEnd = { ch with hits := 0, window := 0 } := by
  simp [Channel.windowEnd, hl, hst, hw]

theorem Channel.windowEnd_idle {ch : Channel} (hl : ch.limits = some l) (h : ch.st ≠ .running ∨ ch.window < l.softWindow) :
    ch.windowEnd = ch := by
  have hn : ¬ (ch.st = .running ∧ l.softWindow ≤ ch.window) := fun hc =>
    h.elim (fun h => h hc.1) fun h => absurd hc.2 (Nat.not_le.2 h)
  simp [Channel.windowEnd, hl, hn]

/-- Settles O54: each row changes its channel by a function that is the identity outside its condition. -/
theorem chopBlankingAndWindowEnds : Obligations.ChopBlankingAndWindowEnds := by
  intro c s l hl
  refine ⟨fun k p hst hk hle hp => ?_, fun h => ?_, fun hst hr hle => ?_, fun h => ?_, fun hst hw => ?_, fun h => ?_⟩
  · exact congrArg Host.Outcome.next (State.modChan_agree (Channel.chopEnd_ends hl hst hk hle hp))
  · exact congrArg Host.Outcome.next (State.modChan_same (Channel.chopEnd_idle hl h))
  · exact congrArg Host.Outcome.next (State.modChan_agree ((Channel.blankingEnd_of hl hst).trans (if_pos ⟨hr, hle⟩)))
  · exact congrArg Host.Outcome.next (State.modChan_same (Channel.blankingEnd_idle hl h))
  · exact congrArg Host.Outcome.next (State.modChan_agree (Channel.windowEnd_ends hl hst hw))
  · exact congrArg Host.Outcome.next (State.modChan_same (Channel.windowEnd_idle hl h))

/-! ### The Arbiter's rows -/

theorem State.evaluate_of {l : LinkSettings} (h : s.arb.settings = some l) :
    s.evaluate = { s with arb := s.arb.evaluate s.prio l } := by
  unfold State.evaluate
  rw [h]
  rfl

/-- Settles O58: an evaluation reads the settings and the limit sets, which the edge and the timer's restart leave. -/
theorem arbiterEdgesAndInterval : Obligations.ArbiterEdgesAndInterval := by
  refine ⟨fun s => rfl, fun s h => ?_, fun s l h => ?_, fun s l k h hk hle => ?_, fun s h => ?_⟩
  · refine congrArg Host.Outcome.next ?_
    simp [State.arbiterEdge, State.modArb, h]
  · refine congrArg Host.Outcome.next ?_
    have he := State.evaluate_of (s := s.modArb fun a => { a with linkUp := true }) h
    have hs : (s.modArb fun a => { a with linkUp := true }).arb.settings = some l := h
    simp only [State.arbiterEdge, if_true, hs]
    exact he
  · have hdue : s.arb.intervalDue = true := by simp [Arbiter.intervalDue, h, hk, hle]
    refine congrArg Host.Outcome.next ?_
    rw [State.intervalExpire, if_pos hdue]
    exact State.evaluate_of (s := s.modArb fun a => { a with timer := some 0 }) h
  · refine congrArg Host.Outcome.next ?_
    rw [State.intervalExpire, h]
    rfl

end Sys2Proof.Machine

/-!
The plan of a copy without fault (R28).
-/

namespace Sys2Proof.Machine

variable {h : RawHeader} {st : RawStep} {steps : List RawStep} {j : Nat}

/-! ### Partial maps of lists -/

/-- A partial function that has a value on each entry has one on the list, entry by entry. -/
theorem List.exists_mapM {α β : Type} (f : α → Option β) :
    ∀ l : List α, (∀ x ∈ l, ∃ y, f x = some y) → ∃ ys, l.mapM f = some ys ∧ List.Forall₂ (fun x y => f x = some y) l ys
  | [], _ => ⟨[], rfl, .nil⟩
  | x :: l, hl => by
    obtain ⟨y, hy⟩ := hl x (by simp)
    obtain ⟨ys, hys, hall⟩ := List.exists_mapM f l fun z hz => hl z (by simp [hz])
    exact ⟨y :: ys, by simp [List.mapM_cons, hy, hys], .cons hy hall⟩

/-! ### Copies without fault -/

/-- The second pass finds no fault exactly where it finds none on any step. -/
theorem stepFaults_eq_none : ∀ (j : Nat) (rest : List RawStep), stepFaults steps j rest = none →
    ∀ st ∈ rest, ∃ j, st.fault steps j = none
  | _, [], _ => by simp
  | j, r :: rest, h => by
    unfold stepFaults at h
    split at h
    · exact absurd h (by simp)
    next hr =>
      intro st hst
      rcases List.mem_cons.1 hst with rfl | hst
      · exact ⟨j, hr⟩
      · exact stepFaults_eq_none (j + 1) rest h st hst

/-- The first two passes on a copy in which no fault is found. -/
theorem planFault_eq_none (hf : planFault h steps = none) :
    h.fault = none ∧ ∀ st ∈ steps, ∃ j, st.fault steps j = none := by
  unfold planFault at hf
  split at hf
  · exact absurd hf (by simp)
  next hh =>
    split at hf
    · exact absurd hf (by simp)
    next hs => exact ⟨hh, stepFaults_eq_none 0 steps hs⟩

/-- What the first pass establishes of a header. -/
theorem RawHeader.of_fault (hf : h.fault = none) : countOk h.count = true ∧ (∃ r, rangeOfCode h.range = some r) ∧
    (∃ p, LossPolicy.ofCode h.loss = some p) ∧ (∃ m, SwitchMode.ofCode h.switchMode = some m) ∧
    ∃ g, GainMode.ofCode h.gainMode = some g := by
  unfold RawHeader.fault at hf
  split at hf
  · exact absurd hf (by simp)
  next hc =>
    split at hf
    · exact absurd hf (by simp)
    next hk =>
      simp only [Bool.or_eq_true, Option.isNone_iff_eq_none, not_or, ← ne_eq, Option.ne_none_iff_exists'] at hk
      obtain ⟨⟨⟨hr, hp⟩, hm⟩, hg⟩ := hk
      exact ⟨by simpa using hc, hr, hp, hm, hg⟩

theorem RawHeader.typed_label (hf : h.fault = none) : ∃ p, h.typed = some p ∧ p.label = h.label := by
  obtain ⟨-, ⟨r, hr⟩, ⟨p, hp⟩, ⟨m, hm⟩, g, hg⟩ := RawHeader.of_fault hf
  exact ⟨_, by simp only [RawHeader.typed, hr, hp, hm, hg]; rfl, rfl⟩

/-- What the second pass establishes of a step. -/
theorem RawStep.of_fault (hf : st.fault steps j = none) : st.kind ≤ loopKind ∧ (st.isLoop = false →
    (∀ e ∈ st.conds, e.kindOk = true) ∧ 1 ≤ st.nConds ∧ st.nConds ≤ 4 ∧ st.logInterval ≠ 0) := by
  unfold RawStep.fault at hf
  split at hf
  · exact absurd hf (by simp)
  next hkind =>
    split at hf
    · exact absurd hf (by simp)
    next hcount =>
      split at hf
      · exact absurd hf (by simp)
      next hqualify =>
        simp only [RawStep.kindOk, Bool.not_eq_true', Bool.not_eq_false, Bool.and_eq_true, decide_eq_true_eq] at hkind
        refine ⟨hkind.1, fun hloop => ?_⟩
        simp only [hloop, Bool.false_or, Bool.and_eq_true, List.all_eq_true] at hkind
        simp only [hloop, Bool.not_false, Bool.true_and, Bool.or_eq_true, beq_iff_eq, decide_eq_true_eq, not_or] at hcount
        simp only [RawStep.qualifyOk, hloop, Bool.false_eq_true, if_false, Bool.not_eq_true', Bool.not_eq_false, Bool.and_eq_true,
          decide_eq_true_eq] at hqualify
        exact ⟨hkind.2.1, by omega, by omega, hqualify.1⟩

theorem RawCond.typed_of_kindOk {e : RawCond} (h : e.kindOk = true) : ∃ t, e.typed = some t := by
  simp only [RawCond.kindOk, Bool.and_eq_true, Option.isSome_iff_exists] at h
  obtain ⟨⟨⟨q, hq⟩, k, hk⟩, a, ha⟩ := h
  exact ⟨_, by simp only [RawCond.typed, hq, hk, ha]; rfl⟩

/-- A kind in range has a body, a LOOP body for LOOP steps only. -/
theorem RawStep.body_of_kind (h : st.kind ≤ loopKind) : ∃ b, st.body = some b ∧ b.isLoop = st.isLoop := by
  unfold RawStep.body RawStep.isLoop
  change st.kind ≤ 4 at h
  obtain hk | hk | hk | hk | hk : st.kind = 0 ∨ st.kind = 1 ∨ st.kind = 2 ∨ st.kind = 3 ∨ st.kind = 4 := by omega
  all_goals rw [hk]; exact ⟨_, rfl, rfl⟩

theorem RawStep.typed_of_body {b : StepBody} {conds : List EndCond} (hb : st.body = some b) (hloop : b.isLoop = false)
    (hc : st.conds.mapM RawCond.typed = some conds) : st.typed =
      some ⟨b, st.flags.testBit 0, st.flags.testBit 1, st.flags.testBit 2, st.logInterval, conds, st.retention⟩ := by
  unfold RawStep.typed
  rw [hb, hc]
  cases b with
  | loop target count => exact absurd hloop (by simp [StepBody.isLoop])
  | _ => rfl

/-- A step in which the second pass finds no fault has a typed form; that of a step that is no LOOP step has a condition and a log
interval. -/
theorem RawStep.typed_of_fault (hf : st.fault steps j = none) (hlen : st.conds.length = condsRead st.nConds) :
    ∃ t, st.typed = some t ∧ (t.body.isLoop = false → 1 ≤ t.conds.length ∧ t.logInterval ≠ 0) := by
  obtain ⟨hkind, hother⟩ := RawStep.of_fault hf
  obtain ⟨b, hb, hloop⟩ := RawStep.body_of_kind hkind
  cases hcase : b.isLoop with
  | true =>
    cases b with
    | loop target count =>
      exact ⟨_, by simp only [RawStep.typed, hb]; rfl, fun h => absurd h (by simp [StepBody.isLoop])⟩
    | _ => exact absurd hcase (by simp [StepBody.isLoop])
  | false =>
    obtain ⟨hconds, hge, hle, hlog⟩ := hother (hloop.symm.trans hcase)
    obtain ⟨conds, hc, hall⟩ := List.exists_mapM RawCond.typed st.conds fun e he => RawCond.typed_of_kindOk (hconds e he)
    have hn : conds.length = st.nConds := by rw [← hall.length_eq, hlen, condsRead, if_pos hle]
    exact ⟨_, RawStep.typed_of_body hb hcase hc, fun _ => ⟨by rw [hn]; exact hge, hlog⟩⟩

/-- Settles O28: the first two passes judge every code and count that the plan is made of. -/
theorem faultlessCopyIsAPlan : Obligations.FaultlessCopyIsAPlan := by
  intro h steps hlen hf
  obtain ⟨hhead, hsteps⟩ := planFault_eq_none hf
  obtain ⟨p, hp, hlabel⟩ := RawHeader.typed_label hhead
  have hcount := (RawHeader.of_fault hhead).1
  simp only [countOk, Bool.and_eq_true, decide_eq_true_eq] at hcount
  have htyped (st : RawStep) (hst : st ∈ steps) :
      ∃ t, st.typed = some t ∧ (t.body.isLoop = false → 1 ≤ t.conds.length ∧ t.logInterval ≠ 0) := by
    obtain ⟨j, hj⟩ := hsteps st hst
    exact RawStep.typed_of_fault hj (hlen st hst)
  obtain ⟨ts, hts, hall⟩ := List.exists_mapM RawStep.typed steps fun st hst => (htyped st hst).imp fun _ ht => ht.1
  refine ⟨hcount.1, hcount.2, ⟨p, ts⟩, by simp only [rawPlan, hp, hts], hall.length_eq.symm, hlabel, fun j t ht hloop => ?_⟩
  obtain ⟨hj, hget⟩ := List.getElem?_eq_some_iff.1 ht
  have hj' : j < steps.length := hall.length_eq ▸ hj
  have hjt : steps[j].typed = some ts[j] := hall.get hj' hj
  obtain ⟨t', ht', hend⟩ := htyped steps[j] (List.getElem_mem hj')
  obtain rfl : t' = t := Option.some.inj (ht'.symm.trans (hjt.trans (congrArg some hget)))
  exact hend hloop

end Sys2Proof.Machine

/-!
Demand frames on the wire (R167, R192) and the shares of a pair demand (R123).
-/

namespace Sys2Proof.Machine

/-! ### Parity -/

/-- Low bits and high bits of a number are counted apart. -/
theorem oddOnes_add : ∀ (m n v : Nat), oddOnes (m + n) v = (oddOnes m (v % 2 ^ m) != oddOnes n (v / 2 ^ m))
  | 0, n, v => by simp [oddOnes]
  | m + 1, n, v => by
    have hlow : v % 2 ^ (m + 1) % 2 = v % 2 := Nat.mod_mod_of_dvd v (Dvd.intro_left (2 ^ m) rfl)
    have hrest : v % 2 ^ (m + 1) / 2 = v / 2 % 2 ^ m := by
      rw [Nat.pow_succ', Nat.mod_mul_right_div_self]
    have hhigh : v / 2 / 2 ^ m = v / 2 ^ (m + 1) := by rw [Nat.div_div_eq_div_mul, Nat.pow_succ']
    rw [show m + 1 + n = m + n + 1 by omega]
    change ((v % 2 == 1) != oddOnes (m + n) (v / 2)) =
      (((v % 2 ^ (m + 1) % 2 == 1) != oddOnes m (v % 2 ^ (m + 1) / 2)) != oddOnes n (v / 2 ^ (m + 1)))
    rw [oddOnes_add m n, hlow, hrest, hhigh, Bool.bne_assoc]

/-- A number with its parity above it has an even number of ones. -/
theorem oddOnes_parity {n v : Nat} (hv : v < 2 ^ n) : oddOnes (n + 1) (v + bit (oddOnes n v) * 2 ^ n) = false := by
  have hpos : 0 < 2 ^ n := Nat.two_pow_pos n
  rw [oddOnes_add, Nat.add_mul_mod_self_right, Nat.mod_eq_of_lt hv, Nat.add_mul_div_right _ _ hpos, Nat.div_eq_of_lt hv,
    Nat.zero_add]
  cases oddOnes n v <;> rfl

/-! ### Fields -/

/-- A field of a number written with what lies below it and what lies above. -/
theorem field_eq {w lo x hi base size : Nat} (hw : w = lo + (x + hi * size) * base) (hlo : lo < base) (hx : x < size) :
    w / base % size = x := by
  rw [hw, Nat.add_mul_div_right _ _ (by omega), Nat.div_eq_of_lt hlo, Nat.zero_add, Nat.add_mul_mod_self_right,
    Nat.mod_eq_of_lt hx]

/-- The 22-bit field of a demand in range reads back as the demand. -/
theorem toSigned_ofSigned_22 {d : Int} (hlow : -(2 ^ 21 : Int) ≤ d) (hhigh : d < 2 ^ 21) :
    ofSigned 22 d < 2 ^ 22 ∧ toSigned 22 (ofSigned 22 d) = d := by
  unfold ofSigned toSigned
  norm_num at hlow hhigh ⊢
  omega

theorem checkNibble_eq (index : BitVec 8) (range : Fin 3) (drive : Bool) (d : Int) :
    (checkNibble index range drive d : Int) = (index.toNat + range.val + (if drive then 1 else 0) + d) % 16 := by
  unfold checkNibble bit
  cases drive <;> simp <;> omega

/-- The fields of a frame below its parity bit. -/
def frameBody (f : FrameRecord) : Nat :=
  f.kind.code + f.index.toNat * 2 ^ 4 + bit f.drive * 2 ^ 12 + f.range.val * 2 ^ 13
    + ofSigned 22 f.demand * 2 ^ 15 + checkNibble f.index f.range f.drive f.demand * 2 ^ 37

theorem FrameRecord.encode_eq (f : FrameRecord) :
    f.encode = BitVec.ofNat 64 (frameBody f + bit (oddOnes 63 (frameBody f)) * 2 ^ 63) := rfl

theorem bit_le_one (b : Bool) : bit b ≤ 1 := by cases b <;> decide

/-- The bounds of the fields. -/
theorem frameBody_bounds (f : FrameRecord) : (f.kind.code = 5 ∨ f.kind.code = 6) ∧ f.index.toNat < 256 ∧ bit f.drive ≤ 1 ∧
    f.range.val < 3 ∧ checkNibble f.index f.range f.drive f.demand < 16 :=
  ⟨by cases f.kind <;> decide, f.index.isLt, bit_le_one _, f.range.isLt, Nat.mod_lt _ (by decide)⟩

theorem frameBody_lt {f : FrameRecord} (hd : ofSigned 22 f.demand < 2 ^ 22) : frameBody f < 2 ^ 63 := by
  obtain ⟨hk, hi, hb, hr, hc⟩ := frameBody_bounds f
  unfold frameBody
  norm_num at hd ⊢
  omega

/-- The 64 bits of a frame: the body with its parity above it. -/
theorem FrameRecord.encode_toNat {f : FrameRecord} (hd : ofSigned 22 f.demand < 2 ^ 22) :
    f.encode.toNat = frameBody f + bit (oddOnes 63 (frameBody f)) * 2 ^ 63 := by
  have hlt := frameBody_lt hd
  have hb := bit_le_one (oddOnes 63 (frameBody f))
  rw [FrameRecord.encode_eq, BitVec.toNat_ofNat]
  refine Nat.mod_eq_of_lt ?_
  norm_num at hlt ⊢
  omega

theorem shares_sum (d : Int) : leaderShare d + followerShare d = d := by
  unfold leaderShare; omega

theorem followerShare_natAbs (d : Int) : (followerShare d).natAbs = d.natAbs / 2 := Int.natAbs_tdiv d 2

/-- Settles O60: the fields are digits of the frame's number, and the parity bit stands above them. -/
theorem demandFramesAndPairShares : Obligations.DemandFramesAndPairShares := by
  refine ⟨fun d => ?_, fun f hlow hhigh => ?_⟩
  · have hsum := shares_sum d
    have habs := followerShare_natAbs d
    have hsign : followerShare d * 2 = d - d.tmod 2 := by
      have := Int.tdiv_mul_add_tmod d 2
      unfold followerShare; omega
    have hmod : (d.tmod 2).natAbs < 2 := by rw [Int.natAbs_tmod]; exact Nat.mod_lt _ (by decide)
    refine ⟨hsum, ?_, ?_, habs⟩ <;> omega
  · obtain ⟨hd, hback⟩ := toSigned_ofSigned_22 hlow hhigh
    obtain ⟨hk, hi, hb, hr, hc⟩ := frameBody_bounds f
    have hp := bit_le_one (oddOnes 63 (frameBody f))
    have hcheck := checkNibble_eq f.index f.range f.drive f.demand
    have hdrive : (if f.drive then 1 else 0) = bit f.drive := rfl
    have hodd := oddOnes_parity (frameBody_lt hd)
    intro w
    have hw : w = f.kind.code + f.index.toNat * 16 + bit f.drive * 4096 + f.range.val * 8192 + ofSigned 22 f.demand * 32768
        + checkNibble f.index f.range f.drive f.demand * 137438953472
        + bit (oddOnes 63 (frameBody f)) * 9223372036854775808 := FrameRecord.encode_toNat hd
    rw [← hcheck, hdrive]
    rw [← FrameRecord.encode_toNat hd] at hodd
    change oddOnes 64 w = false at hodd
    clear_value w
    generalize f.index.toNat = index, bit f.drive = drive, f.range.val = range, ofSigned 22 f.demand = demand,
      checkNibble f.index f.range f.drive f.demand = check, bit (oddOnes 63 (frameBody f)) = parity at hw hi hb hr hd hc hp hback
    have hdemand : w / 2 ^ 15 % 2 ^ 22 = demand :=
      field_eq (lo := f.kind.code + index * 16 + drive * 4096 + range * 8192) (hi := check + parity * 67108864)
        (by omega) (by omega) hd
    have hnibble : w / 2 ^ 37 % 16 = check :=
      field_eq (lo := f.kind.code + index * 16 + drive * 4096 + range * 8192 + demand * 32768) (hi := parity * 4194304)
        (by omega) (by omega) hc
    have hzero : w / 2 ^ 41 % 2 ^ 22 = 0 :=
      field_eq (lo := f.kind.code + index * 16 + drive * 4096 + range * 8192 + demand * 32768 + check * 137438953472)
        (hi := parity) (by rw [hw]; ring) (by omega) (by decide)
    refine ⟨?_, ?_, ?_, ?_, ?_, ?_, hzero, hodd⟩
    · have hkind : w % 16 = f.kind.code := by omega
      exact hkind.trans (by cases f.kind <;> rfl)
    · exact field_eq (lo := f.kind.code)
        (hi := drive + range * 2 + demand * 8 + check * 33554432 + parity * 2251799813685248) (by omega) (by omega) hi
    · exact field_eq (lo := f.kind.code + index * 16)
        (hi := range + demand * 4 + check * 16777216 + parity * 1125899906842624) (by omega) (by omega) (by omega)
    · exact field_eq (lo := f.kind.code + index * 16 + drive * 4096) (hi := demand + check * 4194304 + parity * 281474976710656)
        (by omega) (by omega) (by omega)
    · rw [hdemand, hback]
    · rw [hnibble]

end Sys2Proof.Machine

/-!
The regulation stage (R73 to R85) and the bound of a missed sample (R74).
-/

namespace Sys2Proof.Machine

variable {ch : Channel} {l : LimitSet} {body : StepBody} {mag v t setpoint : Int} {g : Grant}

/-! ### The terms -/

/-- R75, R76: the setpoint of a step with a direction gives its magnitude, and the sign of the direction. -/
theorem setpointMag_of (h : setpointOf body v = some (mag, setpoint)) :
    setpointMag body v = some mag ∧ 0 ≤ mag ∧ ∀ m, signed body.dir m = setpoint.sign * m := by
  have hsign (i m : Int) : signed (dirOf i) m = i.sign * m := by
    unfold dirOf signed
    rcases lt_trichotomy i 0 with hi | hi | hi
    · simp [hi, hi.not_gt, Int.sign_eq_neg_one_of_neg hi]
    · simp [hi]
    · simp [hi, Int.sign_eq_one_of_pos hi]
  cases body with
  | cc i | cccv i target | cp i =>
    obtain ⟨rfl, rfl⟩ := Prod.mk.inj (Option.some.inj h)
    exact ⟨rfl, Int.natCast_nonneg _, hsign i⟩
  | _ => exact absurd h (by simp [setpointOf])

theorem setpointMag_of_none (h : setpointOf body v = none) : setpointMag body v = none := by
  cases body with
  | rest | loop target count => rfl
  | _ => exact absurd h (by simp [setpointOf])

theorem minOpt_nonneg {x : Int} {b : Option Int} (hx : 0 ≤ x) (hb : ∀ y, b = some y → 0 ≤ y) : 0 ≤ minOpt x b := by
  cases b with
  | none => exact hx
  | some y => exact le_min hx (hb y rfl)

/-- R81: the ceiling is no less than zero. -/
theorem ceiling_nonneg (hl : l.Ok) (hmag : 0 ≤ mag) : 0 ≤ minOpt (min (min mag l.iRunMax) (deratedLimit l t)) (budgetCap g v) := by
  have hrun : 0 ≤ l.iRunMax := by have := hl.iRunMax.1; omega
  exact minOpt_nonneg (le_min (le_min hmag hrun) (deratedLimit_nonneg hl t)) fun _ => budgetCap_nonneg

theorem limitFlags_derated {s d c m : Int} {b : Option Int} :
    (limitFlags s d b c m).1 = true ↔ m = c ∧ d < s ∧ ∀ y, b = some y → d ≤ y := by
  cases b with
  | none => simp [limitFlags]
  | some x => simp [limitFlags, and_assoc]

theorem limitFlags_budget {s d c m : Int} {b : Option Int} :
    (limitFlags s d b c m).2 = true ↔ m = c ∧ ∃ y, b = some y ∧ y < s ∧ y ≤ d := by
  cases b with
  | none => simp [limitFlags]
  | some x => simp [limitFlags, and_assoc]

/-- R78: the target is clamped exactly when it lies outside the voltage limits. -/
theorem targetInForce_ne (hl : l.Ok) {target : Int} : targetInForce l target ≠ target ↔ target < l.vMin ∨ l.vMax < target := by
  have := hl.voltages
  unfold targetInForce clampInt
  omega

/-! ### The regulator -/

/-- R86 to R91: the selection of the gain level changes the level, the climb-down flag and the restart marker, and does not read the terms
last formed. -/
theorem Regulator.select_fields (h : PlanHeader) (r : Nat) (g : Regulator) : ∃ level climb mark, ∀ last,
    { g with last := last }.select h r = { g with last := last, level := level, climb := climb, restartMark := mark } := by
  refine ⟨(g.select h r).level, (g.select h r).climb, (g.select h r).restartMark, fun last => ?_⟩
  unfold Regulator.select
  dsimp only
  repeat' split
  all_goals rfl

/-- R84, R85: the update of a CCCV step moves the integrator within the ceiling and may set the CV phase, besides what the selection
does. -/
theorem Regulator.update_fields (h : PlanHeader) (e c : Int) (g : Regulator) : ∃ level climb mark, ∀ last,
    let d := nearest (e * h.kb * 2 ^ (level - 1)) 4096
    { g with last := last }.update h e c = { g with
      last := last, level := level, climb := climb, restartMark := mark, integ := clampInt 0 c (g.integ + d)
      cvPhase := g.cvPhase || decide (d < 0) } := by
  obtain ⟨level, climb, mark, hsel⟩ := Regulator.select_fields h (bandRatio e h.window) g
  refine ⟨level, climb, mark, fun last => ?_⟩
  unfold Regulator.update increment
  rw [hsel last]
  push_cast
  rfl

/-! ### The missed sample -/

theorem Channel.bound_of {st : Step} (hst : ch.curStep = some st) (hl : ch.limits = some l) :
    let m := leastTerm l st.body v t g
    ch.bound v t g = { ch with
      demand := if m < ch.demand.natAbs then (if ch.demand < 0 then -m else m) else ch.demand
      reg := { ch.reg with integ := min ch.reg.integ m } } := by
  simp only [Channel.bound, hst, hl]

/-- A demand of reduced magnitude keeps its sign. -/
theorem reduced_eq_sign_mul {d m : Int} (hm : 0 ≤ m) :
    (if m < d.natAbs then (if d < 0 then -m else m) else d) = d.sign * min (d.natAbs : Int) m := by
  rcases lt_trichotomy d 0 with hd | rfl | hd
  · rw [Int.sign_eq_neg_one_of_neg hd]
    split_ifs <;> omega
  · simp [hm.not_gt]
  · rw [Int.sign_eq_one_of_pos hd]
    split_ifs <;> omega

/-! ### The stage -/

/-- The terms of a stage, and its flags where the demand magnitude is m (R77 to R82). -/
def termsOf (l : LimitSet) (mag v t : Int) (g : Grant) (m : Int) : RegReport :=
  let s := min mag l.iRunMax
  let d := deratedLimit l t
  let b := budgetCap g v
  let c := minOpt (min s d) b
  ⟨s, d, b, c, (limitFlags s d b c m).1, (limitFlags s d b c m).2⟩

/-- What a stage of demand magnitude m makes of a regulator (R77, R78, R82). -/
def Regulator.staged (reg : Regulator) (r : RegReport) (clamp : Bool) : Regulator :=
  { reg with
    clamped := reg.clamped || clamp
    last := some r
    deratedCtr := if r.derated then reg.deratedCtr + 1 else reg.deratedCtr
    budgetCtr := if r.budget then reg.budgetCtr + 1 else reg.budgetCtr }

theorem Channel.regulate_of {p : Plan} {st : Step} (hp : ch.active = some p) (hst : ch.curStep = some st) (hl : ch.limits = some l)
    (hmag : setpointMag st.body v = some mag) : ch.regulate v t g = ch.regulateStep p.header l st.body mag v t g := by
  simp only [Channel.regulate, hp, hst, hl, hmag]

/-- R75 to R77: the stage of a CC or CP step. -/
theorem Channel.regulateStep_plain (hb : body.isCccv = false) (h : PlanHeader) :
    let c := minOpt (min (min mag l.iRunMax) (deratedLimit l t)) (budgetCap g v)
    ch.regulateStep h l body mag v t g = { ch with
      demand := signed body.dir (min mag c)
      reg := ch.reg.staged (termsOf l mag v t g (min mag c)) (decide (l.iRunMax < mag)) } := by
  cases body with
  | cccv i target => exact absurd hb (by simp [StepBody.isCccv])
  | _ => simp [Channel.regulateStep, Regulator.staged, termsOf]

/-- R83 to R85: the stage of a CCCV step. -/
theorem Channel.regulateStep_cccv {i target : Int} (h : PlanHeader) :
    let c := minOpt (min (min mag l.iRunMax) (deratedLimit l t)) (budgetCap g v)
    let reg := ch.reg.update h (errorOf (StepBody.cccv i target).dir (targetInForce l target) v) c
    ch.regulateStep h l (.cccv i target) mag v t g = { ch with
      demand := signed (StepBody.cccv i target).dir (min reg.integ c)
      reg := reg.staged (termsOf l mag v t g (min reg.integ c)) (decide (l.iRunMax < mag) || decide (targetInForce l target ≠ target)) } := by
  simp [Channel.regulateStep, Regulator.staged, termsOf, Bool.or_assoc]

/-- R81: the ceiling bounds the integrator of an update from both sides. -/
theorem clampInt_bounds {c x : Int} (hc : 0 ≤ c) : 0 ≤ clampInt 0 c x ∧ clampInt 0 c x ≤ c := by
  unfold clampInt
  omega

/-- Settles O50: a stage of each kind written out, with its flags as statements about its terms; the missed sample's bound by the sign of
the standing demand. -/
theorem ceilingIsTheLeastTerm : Obligations.CeilingIsTheLeastTerm := by
  unfold Obligations.CeilingIsTheLeastTerm
  intro derated cap least
  have hcap (g : Grant) (v : Int) : budgetCap g v = cap g v := by cases g <;> rfl
  have hleast (x : Int) (b : Option Int) : minOpt x b = least x b := by cases b <;> rfl
  refine ⟨?stage, fun ch v t g p st l hp hst hl hrest => ?_, ?bound⟩
  case stage =>
    intro ch v t g p st l mag setpoint hp hst hl hok hset
    obtain ⟨hmag, hnonneg, hsigned⟩ := setpointMag_of hset
    have hc := ceiling_nonneg (t := t) (g := g) (v := v) hok hnonneg
    have hold (old : Option RegReport) : ({ ch with reg := { ch.reg with last := old } } : Channel).regulate v t g =
        ({ ch with reg := { ch.reg with last := old } } : Channel).regulateStep p.header l st.body mag v t g :=
      Channel.regulate_of (ch := { ch with reg := { ch.reg with last := old } }) hp hst hl hmag
    rw [Channel.regulate_of hp hst hl hmag]
    simp only [hold]
    cases hkind : st.body.isCccv with
    | false =>
      have hno (i target : Int) : st.body ≠ .cccv i target := fun h => by simp [h, StepBody.isCccv] at hkind
      simp only [Channel.regulateStep_plain hkind]
      refine ⟨_, rfl, rfl, rfl, hcap g v, (hleast _ _).trans (by rw [hcap]; rfl), ?_⟩
      refine ⟨hsigned _, le_min hnonneg hc, min_le_right _ _, limitFlags_derated, limitFlags_budget, rfl, rfl, ?_,
        fun _ => ⟨rfl, rfl⟩, fun i target h => absurd h (hno i target), fun _ => rfl⟩
      simp [Regulator.staged, hno]
    | true =>
      obtain ⟨i, target, hbody⟩ : ∃ i target, st.body = .cccv i target := by
        cases hb : st.body with
        | cccv i target => exact ⟨i, target, rfl⟩
        | _ => exact absurd hkind (by simp [hb, StepBody.isCccv])
      rw [hbody] at hsigned ⊢
      simp only [Channel.regulateStep_cccv]
      obtain ⟨level, climb, mark, hupdate⟩ := Regulator.update_fields p.header
        (errorOf (StepBody.cccv i target).dir (targetInForce l target) v)
        (minOpt (min (min mag l.iRunMax) (deratedLimit l t)) (budgetCap g v)) ch.reg
      have hbounds := clampInt_bounds (x := ch.reg.integ +
        nearest (errorOf (StepBody.cccv i target).dir (targetInForce l target) v * p.header.kb * 2 ^ (level - 1)) 4096) hc
      rw [show ch.reg.update p.header _ _ = _ from hupdate ch.reg.last]
      simp only [hupdate, min_eq_left hbounds.2]
      refine ⟨_, rfl, rfl, rfl, hcap g v, (hleast _ _).trans (by rw [hcap]; rfl), ?_⟩
      refine ⟨hsigned _, hbounds.1, hbounds.2, limitFlags_derated, limitFlags_budget, rfl, rfl, ?_,
        fun h => absurd h (by simp), fun i' target' h => ?_, fun _ => rfl⟩
      · simp [Regulator.staged, targetInForce_ne hok]
      · obtain ⟨rfl, rfl⟩ := StepBody.cccv.inj h
        exact ⟨rfl, rfl⟩
  case bound =>
    intro ch v t g st l hst hl hok
    have hterm : leastTerm l st.body v t g = least (min (match setpointOf st.body v with
        | some (mag, _) => min mag l.iRunMax
        | none => derated l t) (derated l t)) (cap g v) := by
      unfold leastTerm
      rw [hleast, hcap]
      cases hset : setpointOf st.body v with
      | none => simp only [setpointMag_of_none hset, min_self]; rfl
      | some x => simp only [(setpointMag_of (mag := x.1) (setpoint := x.2) hset).1]; rfl
    have hm := leastTerm_nonneg hok st.body v t g
    simp only [Channel.bound_of hst hl, reduced_eq_sign_mul hm]
    rw [hterm] <;> rfl
  · simp [Channel.regulate, hp, hst, hl, hrest, setpointMag]

end Sys2Proof.Machine

/-!
The Arbiter's evaluation: the wanted power of a channel (R134), the order of a cut (R139), and what the grants allow (R138, R140).
-/

namespace Sys2Proof.Machine

variable {a : Arbiter} {dir : WantDir} {total : Nat → Nat} {ks : List Nat} {k x w : Nat}

/-! ### Wanted power -/

theorem ceilDiv_bounds (n : Nat) : n ≤ ceilDiv n 1000000 * 1000000 ∧ ceilDiv n 1000000 * 1000000 < n + 1000000 := by
  unfold ceilDiv
  omega

/-- R132: a magnitude that is zero where the setpoint is has the setpoint's direction. -/
theorem Wanted.mk'_dirOf {i : Int} {m : Nat} (h : i = 0 → m = 0) : (Wanted.mk' (dirOf i) m).mag = m ∧
    (Wanted.mk' (dirOf i) m).dir = if m = 0 then .none else if 0 < i then .charge else .discharge := by
  by_cases hm : m = 0
  · simp [Wanted.mk', hm]
  · rcases lt_trichotomy i 0 with hi | hi | hi
    · simp [Wanted.mk', dirOf, hm, hi, hi.not_gt]
    · exact absurd (h hi) hm
    · simp [Wanted.mk', dirOf, hm, hi]

theorem Channel.wants_of {ch : Channel} {st : Step} {l : LimitSet} (hst : ch.curStep = some st) (hl : ch.limits = some l)
    (hrun : ch.st = .running) (v : Int) : ch.wants v = stepWants st.body l.iRunMax v := by
  simp [Channel.wants, hst, hl, hrun]

theorem wantedPower : WantedPower := by
  unfold WantedPower
  intro up ch v st l hst hl hok hv
  have hmax : l.iRunMax.natAbs = l.iRunMax.toNat := by have := hok.iRunMax.1; omega
  refine ⟨fun h => Channel.wants_of_ne h v, fun h => ?_, fun hrun i hi => ?_, fun hrun p hp => ?_⟩
  · by_cases hrun : ch.st = .running
    · rw [Channel.wants_of hst hl hrun, h]
      rfl
    · exact Channel.wants_of_ne hrun v
  · have hw : ch.wants v = .mk' (dirOf i) (ceilDiv (min i.natAbs l.iRunMax.toNat * v.toNat) 1000000) := by
      rw [Channel.wants_of hst hl hrun, ← hmax]
      rcases hi with hi | ⟨target, hi⟩ <;> rw [hi] <;> rfl
    obtain ⟨hmag, hdir⟩ := Wanted.mk'_dirOf (i := i) (m := ceilDiv (min i.natAbs l.iRunMax.toNat * v.toNat) 1000000)
      fun h => by simp [h, ceilDiv]
    simp only [hw, hmag, hdir]
    exact ⟨ceilDiv_bounds _, trivial⟩
  · have hvolt : max v.toNat 1000 = (max v 1000).toNat := by omega
    have hw : ch.wants v = .mk' (dirOf p) (min p.natAbs (ceilDiv (l.iRunMax.toNat * max v.toNat 1000) 1000000)) := by
      rw [Channel.wants_of hst hl hrun, hp, ← hmax, hvolt]
      rfl
    obtain ⟨hmag, hdir⟩ := Wanted.mk'_dirOf (i := p)
      (m := min p.natAbs (ceilDiv (l.iRunMax.toNat * max v.toNat 1000) 1000000)) fun h => by simp [h]
    simp only [hw, hmag, hdir]
    exact ⟨⟨_, ceilDiv_bounds _, rfl⟩, trivial⟩

/-! ### The order of a cut -/

/-- What a cut leaves of a class total. -/
def ClassCut.leaves (total : Nat) : ClassCut → Nat
  | .full => total
  | .zero => 0
  | .frac f => total * f / 1024

theorem ClassCut.leaves_full (t : Nat) : ClassCut.full.leaves t = t := rfl

theorem ClassCut.leaves_zero (t : Nat) : ClassCut.zero.leaves t = 0 := rfl

theorem ClassCut.leaves_frac (t f : Nat) : (ClassCut.frac f).leaves t = t * f / 1024 := rfl

/-- What a cut by x does to class k (R139). -/
def cutOf (total : Nat → Nat) (ks : List Nat) (x k : Nat) : ClassCut := ((cutPlan total ks x).lookup k).getD .full

theorem lookup_full (k : Nat) : ∀ ks : List Nat, ((ks.map fun j => (j, ClassCut.full)).lookup k).getD .full = .full
  | [] => rfl
  | j :: ks => by
    rw [List.map_cons, List.lookup_cons]
    split
    · rfl
    · exact lookup_full k ks

theorem cutOf_head : cutOf total (k :: ks) x k =
    if total k = 0 then .full else if x ≤ total k then .frac ((total k - x) * 1024 / total k) else .zero := by
  unfold cutOf cutPlan
  split_ifs <;> simp

theorem cutOf_tail {j : Nat} (hj : j ≠ k) : cutOf total (k :: ks) x j =
    if total k = 0 then cutOf total ks x j else if x ≤ total k then .full else cutOf total ks (x - total k) j := by
  have hne : (j == k) = false := beq_eq_false_iff_ne.2 hj
  unfold cutOf
  rw [cutPlan]
  split_ifs
  · rw [List.lookup_cons, hne]
  · rw [List.lookup_cons, hne]
    exact lookup_full j ks
  · rw [List.lookup_cons, hne]

/-- R139: a class is left whole where the classes before it make up the excess, cut to a fraction where it ends in it, and to nothing
where it goes beyond. -/
theorem cutOf_eq : ∀ (ks : List Nat) (x : Nat), k ∈ ks → 0 < x → 0 < total k →
    let before := ((ks.takeWhile (· ≠ k)).map total).sum
    cutOf total ks x k = if x ≤ before then .full
      else if x ≤ before + total k then .frac ((total k - (x - before)) * 1024 / total k) else .zero
  | [], _, hk, _, _ => absurd hk (by simp)
  | j :: ks, x, hk, hx, ht => by
    by_cases hj : k = j
    · subst hj
      rw [cutOf_head, if_neg ht.ne']
      simp [hx.ne']
    · have hmem : k ∈ ks := (List.mem_cons.1 hk).resolve_left hj
      have htake : (j :: ks).takeWhile (· ≠ k) = j :: ks.takeWhile (· ≠ k) := by
        simp [Ne.symm hj]
      rw [cutOf_tail hj]
      dsimp only
      rw [htake, List.map_cons, List.sum_cons]
      by_cases hzero : total j = 0
      · rw [if_pos hzero, cutOf_eq ks x hmem hx ht, hzero, Nat.zero_add]
      · rw [if_neg hzero]
        by_cases hle : x ≤ total j
        · rw [if_pos hle, if_pos (by omega)]
        · rw [if_neg hle, cutOf_eq ks (x - total j) hmem (by omega) ht]
          generalize ((ks.takeWhile (· ≠ k)).map total).sum = before
          have hsub : x - total j - before = x - (total j + before) := by omega
          have hbefore : x - total j ≤ before ↔ x ≤ total j + before := by omega
          have hwithin : x - total j ≤ before + total k ↔ x ≤ total j + before + total k := by omega
          simp only [hsub, hbefore, hwithin]

/-- R139: a cut takes the whole excess from the totals, where they reach it. -/
theorem leaves_add_excess_le : ∀ (ks : List Nat) (x : Nat), ks.Nodup → x ≤ (ks.map total).sum →
    (ks.map fun k => (cutOf total ks x k).leaves (total k)).sum + x ≤ (ks.map total).sum
  | [], x, _, hx => by simpa using hx
  | k :: ks, x, hnd, hx => by
    obtain ⟨hk, hnd⟩ := List.nodup_cons.1 hnd
    have hne (j : Nat) (hj : j ∈ ks) : j ≠ k := fun h => hk (h ▸ hj)
    simp only [List.map_cons, List.sum_cons] at hx ⊢
    rw [cutOf_head]
    by_cases hzero : total k = 0
    · have ih := leaves_add_excess_le ks x hnd (by omega)
      rw [if_pos hzero, List.map_congr_left fun j hj => by rw [cutOf_tail (hne j hj), if_pos hzero]]
      rw [ClassCut.leaves_full]
      omega
    · rw [if_neg hzero]
      by_cases hle : x ≤ total k
      · rw [if_pos hle, List.map_congr_left (g := total) fun j hj => by
          rw [cutOf_tail (hne j hj), if_neg hzero, if_pos hle, ClassCut.leaves_full]]
        have hfrac : total k * ((total k - x) * 1024 / total k) ≤ (total k - x) * 1024 := Nat.mul_div_le _ _
        rw [ClassCut.leaves_frac]
        omega
      · have ih := leaves_add_excess_le ks (x - total k) hnd (by omega)
        rw [if_neg hle, List.map_congr_left fun j hj => by rw [cutOf_tail (hne j hj), if_neg hzero, if_neg hle]]
        rw [ClassCut.leaves_zero]
        omega

end Sys2Proof.Machine

/-!
The Arbiter's evaluation, continued: the grants of a cut (R139, R140) and the limits that they keep (R138, R142).
-/

namespace Sys2Proof.Machine

variable {a b : Arbiter} {dir : WantDir} {x k : Nat} {c : Chan}

/-! ### Sums over channels -/

/-- The sum of a figure over the channels that want power in a direction and pass a test. -/
def Arbiter.sumOf (a : Arbiter) (dir : WantDir) (p : Chan → Prop) [DecidablePred p] (f : Chan → Nat) : Nat :=
  (allChans.map fun c => if a.wanted[c].dir = dir ∧ p c then f c else 0).sum

theorem Arbiter.total_eq_classTotal (a : Arbiter) (dir : WantDir) (k : Nat) :
    a.total dir (fun c => a.classes[c] == k) = classTotal a dir k := by
  simp [Arbiter.total, classTotal]

theorem Arbiter.sumOf_le {f g : Chan → Nat} {p : Chan → Prop} [DecidablePred p]
    (h : ∀ c : Chan, a.wanted[c].dir = dir → p c → f c ≤ g c) : a.sumOf dir p f ≤ a.sumOf dir p g := by
  refine List.sum_le_sum fun c _ => ?_
  split
  next hc => exact h c hc.1 hc.2
  next => exact le_rfl

/-- A sum over all channels of a direction by class. -/
theorem Arbiter.sumOf_by_class (hk : ∀ c : Chan, a.classes[c] ≤ 2) (f : Chan → Nat) : a.sumOf dir (fun _ => True) f =
    ([2, 1, 0].map fun k => a.sumOf dir (fun c => a.classes[c] = k) f).sum := by
  simp only [Arbiter.sumOf, List.map_cons, List.map_nil, List.sum_cons, List.sum_nil, Nat.add_zero, ← List.sum_map_add]
  congr 1
  refine List.map_congr_left fun c _ => ?_
  have := hk c
  obtain h | h | h : a.classes[c] = 0 ∨ a.classes[c] = 1 ∨ a.classes[c] = 2 := by omega
  all_goals simp [h]

/-- The sum of the parts, each rounded down, is no more than the part of the sum. -/
theorem sum_frac_le (f : Nat) (g : Chan → Nat) : ∀ l : List Chan,
    (l.map fun c => g c * f / 1024).sum ≤ (l.map g).sum * f / 1024
  | [] => by simp
  | c :: l => by
    have ih := sum_frac_le f g l
    simp only [List.map_cons, List.sum_cons, Nat.add_mul]
    exact (Nat.add_le_add_left ih _).trans Nat.div_add_div_le_add_div

theorem Arbiter.sumOf_class (a : Arbiter) (dir : WantDir) (k : Nat) :
    a.sumOf dir (fun c => a.classes[c] = k) (fun c => a.wanted[c].mag) = classTotal a dir k := rfl

/-- What the grants of a class allow is no more than what the cut leaves of its total. -/
theorem Arbiter.sumOf_grant_le (a : Arbiter) (dir : WantDir) (k : Nat) (q : ClassCut) :
    a.sumOf dir (fun c => a.classes[c] = k) (fun c => Grant.counts (q.grant a.wanted[c].mag) a.wanted[c].mag) ≤
      q.leaves (classTotal a dir k) := by
  cases q with
  | full => exact le_rfl
  | zero => exact (List.sum_eq_zero fun n hn => by
      obtain ⟨c, -, rfl⟩ := List.mem_map.1 hn
      exact ite_self 0).le
  | frac f =>
    refine le_trans (le_of_eq ?_) (sum_frac_le f (fun c => if a.wanted[c].dir = dir ∧ a.classes[c] = k then a.wanted[c].mag else 0) allChans)
    simp only [Arbiter.sumOf, ClassCut.grant, Grant.counts]
    congr 1
    refine List.map_congr_left fun c _ => ?_
    split_ifs <;> simp

/-! ### The grants of a cut -/

/-- R139: the plan of a cut of a direction, class by class. -/
def Arbiter.cutOf (a : Arbiter) (dir : WantDir) (x k : Nat) : ClassCut := Machine.cutOf (classTotal a dir) [2, 1, 0] x k

theorem Arbiter.cut_of_dir (h : a.wanted[c].dir = dir) :
    (a.cut dir x)[c] = (a.cutOf dir x a.classes[c]).grant a.wanted[c].mag := by
  have htotal : (fun k => a.total dir fun c => a.classes[c] == k) = classTotal a dir :=
    funext fun k => a.total_eq_classTotal dir k
  refine (Vector.getElem_ofFn c.isLt).trans ((if_pos h).trans ?_)
  rw [htotal]
  unfold Arbiter.cutOf Machine.cutOf
  change _ = ClassCut.grant a.wanted[c].mag (((cutPlan (classTotal a dir) [2, 1, 0] x).lookup a.classes[c]).getD .full)
  generalize (cutPlan (classTotal a dir) [2, 1, 0] x).lookup a.classes[c] = q
  cases q <;> rfl

theorem Arbiter.cut_of_ne (h : a.wanted[c].dir ≠ dir) : (a.cut dir x)[c] = .full :=
  (Vector.getElem_ofFn c.isLt).trans (if_neg h)

theorem Arbiter.mag_le_classTotal (h : a.wanted[c].dir = dir) : a.wanted[c].mag ≤ classTotal a dir a.classes[c] := by
  refine List.single_le_sum (fun _ _ => Nat.zero_le _) _ (List.mem_map.2 ⟨c, List.mem_finRange c, ?_⟩)
  rw [if_pos ⟨h, rfl⟩]

/-- R139: a cut is what the plan names for each class. -/
theorem Arbiter.cut_cutBy (hk : ∀ c : Chan, a.classes[c] ≤ 2) (hx : 0 < x) (hg : a.grants = a.cut dir x) : CutBy a dir x := by
  intro c
  dsimp only
  rw [hg]
  refine ⟨fun h => Arbiter.cut_of_ne h, fun h hmag => ?_⟩
  rw [Arbiter.cut_of_dir h, Arbiter.cutOf]
  have htotal := Arbiter.mag_le_classTotal h
  have hle := hk c
  have hmem : ∀ n ≤ 2, n ∈ [2, 1, 0] := by decide
  have hcut := cutOf_eq (total := classTotal a dir) (k := a.classes[c]) [2, 1, 0] x (hmem _ hle) hx (by omega)
  dsimp only at hcut
  have hbefore : (([2, 1, 0].takeWhile (· ≠ a.classes[c])).map (classTotal a dir)).sum =
      if a.classes[c] = 0 then classTotal a dir 2 + classTotal a dir 1 else if a.classes[c] = 1 then classTotal a dir 2 else 0 := by
    obtain h | h | h : a.classes[c] = 0 ∨ a.classes[c] = 1 ∨ a.classes[c] = 2 := by omega
    all_goals simp [h]
  rw [hbefore] at hcut
  rw [hcut]
  generalize (if a.classes[c] = 0 then classTotal a dir 2 + classTotal a dir 1 else if a.classes[c] = 1 then classTotal a dir 2 else 0)
    = before
  refine ⟨fun h => ?_, fun h h' => ?_, fun h => ?_⟩
  · rw [if_pos h]
    rfl
  · rw [if_neg (by omega), if_pos h']
    rfl
  · rw [if_neg (by omega), if_neg (by omega)]
    simp [ClassCut.grant]

theorem ClassCut.counts_le (q : ClassCut) (w : Nat) (h : ∀ f, q = .frac f → f ≤ 1024) : Grant.counts (q.grant w) w ≤ w := by
  cases q with
  | full => exact le_rfl
  | zero => exact Nat.zero_le w
  | frac f =>
    have hf := Nat.mul_le_mul_left w (h f rfl)
    exact Nat.div_le_of_le_mul (by omega)

end Sys2Proof.Machine

/-!
The Arbiter's evaluation, concluded: the link limits are kept (R138, R140, R142, R143).
-/

namespace Sys2Proof.Machine

variable {a b : Arbiter} {dir : WantDir} {x : Nat} {c : Chan} {prio : Chan → Option Nat} {l : LinkSettings}

/-! ### What the grants allow -/

theorem Arbiter.sumOf_all (a : Arbiter) (dir : WantDir) (f : Chan → Nat) :
    a.sumOf dir (fun _ => True) f = (allChans.map fun c => if a.wanted[c].dir = dir then f c else 0).sum := by
  simp [Arbiter.sumOf]

theorem Arbiter.total_all (a : Arbiter) (dir : WantDir) :
    a.total dir (fun _ => true) = a.sumOf dir (fun _ => True) fun c => a.wanted[c].mag := by
  simp [Arbiter.sumOf, Arbiter.total]

theorem allowed_eq (a : Arbiter) (dir : WantDir) :
    allowed a dir = a.sumOf dir (fun _ => True) fun c => Grant.counts a.grants[c] a.wanted[c].mag :=
  (Arbiter.sumOf_all a dir _).symm

/-- Where no grant of a direction counts for more than is wanted, the direction is allowed no more than is wanted. -/
theorem allowed_le_total (h : ∀ c : Chan, Grant.counts a.grants[c] a.wanted[c].mag ≤ a.wanted[c].mag) (dir : WantDir) :
    allowed a dir ≤ a.total dir fun _ => true := by
  rw [allowed_eq, Arbiter.total_all]
  exact Arbiter.sumOf_le fun c _ _ => h c

/-- R139, R140: a cut by no more than the whole takes the excess off what is allowed. -/
theorem allowed_add_excess_le (hk : ∀ c : Chan, a.classes[c] ≤ 2) (hg : a.grants = a.cut dir x)
    (hx : x ≤ a.total dir fun _ => true) : allowed a dir + x ≤ a.total dir fun _ => true := by
  have htotal : a.total dir (fun _ => true) = ([2, 1, 0].map (classTotal a dir)).sum :=
    (Arbiter.total_all a dir).trans (Arbiter.sumOf_by_class hk _)
  have hclass (k : Nat) : a.sumOf dir (fun c => a.classes[c] = k) (fun c => Grant.counts a.grants[c] a.wanted[c].mag) ≤
      (a.cutOf dir x k).leaves (classTotal a dir k) := by
    refine (Arbiter.sumOf_le fun c hdir hc => ?_).trans (Arbiter.sumOf_grant_le a dir k (a.cutOf dir x k))
    rw [hg, Arbiter.cut_of_dir hdir, hc]
  have hallowed : allowed a dir ≤ ([2, 1, 0].map fun k => (a.cutOf dir x k).leaves (classTotal a dir k)).sum := by
    rw [allowed_eq, Arbiter.sumOf_by_class hk]
    exact List.sum_le_sum fun k _ => hclass k
  rw [htotal] at hx ⊢
  exact (Nat.add_le_add_right hallowed x).trans (leaves_add_excess_le [2, 1, 0] x (by decide) hx)

/-- R139: no grant of a cut counts for more than is wanted. -/
theorem counts_cut_le (hk : ∀ c : Chan, a.classes[c] ≤ 2) (hx : 0 < x) (hg : a.grants = a.cut dir x) (c : Chan) :
    Grant.counts a.grants[c] a.wanted[c].mag ≤ a.wanted[c].mag := by
  obtain ⟨hother, hcut⟩ := Arbiter.cut_cutBy hk hx hg c
  by_cases hdir : a.wanted[c].dir = dir
  · rcases Nat.eq_zero_or_pos a.wanted[c].mag with hmag | hmag
    · rw [hg, Arbiter.cut_of_dir hdir, hmag]
      cases a.cutOf dir x a.classes[c] <;> simp [ClassCut.grant, Grant.counts]
    · obtain ⟨hfull, hfrac, hzero⟩ := hcut hdir hmag
      generalize (if a.classes[c] = 0 then _ else _) = before at hfull hfrac hzero
      rcases Nat.lt_or_ge before x with hx | hx
      · rcases Nat.lt_or_ge (before + classTotal a dir a.classes[c]) x with hx' | hx'
        · rw [hzero hx']
          exact Nat.zero_le _
        · rw [hfrac hx hx']
          refine Nat.div_le_of_le_mul ((Nat.mul_le_mul_left _ ?_).trans (Nat.mul_comm _ _).le)
          refine Nat.div_le_of_le_mul ?_
          exact Nat.mul_le_mul_right _ (Nat.sub_le _ _)
      · rw [hfull hx]
        exact le_rfl
  · rw [hother hdir]
    exact le_rfl

/-! ### The evaluation -/

theorem Arbiter.readClasses_get (a : Arbiter) (prio : Chan → Option Nat) (c : Chan) :
    (a.readClasses prio).classes[c] = if a.wanted[c].dir = .none then a.classes[c] else (prio c).getD a.classes[c] :=
  Vector.getElem_ofFn c.isLt

theorem Arbiter.readClasses_le (hk : ∀ c : Chan, a.classes[c] ≤ 2) (hp : ∀ c n, prio c = some n → n ≤ 2) (c : Chan) :
    (a.readClasses prio).classes[c] ≤ 2 := by
  rw [Arbiter.readClasses_get]
  split
  · exact hk c
  · cases hn : prio c with
    | none => exact hk c
    | some n => exact hp c n hn

/-- R138: the net wanted power. -/
def Arbiter.net (a : Arbiter) : Int := (a.total .charge fun _ => true : Nat) - (a.total .discharge fun _ => true : Nat)

/-- R138: an evaluation with the link-up flag set. -/
theorem Arbiter.evaluate_up (hup : a.linkUp = true) : a.evaluate prio l = { a.readClasses prio with
    grants := (a.readClasses prio).grantsFor l a.net
    summary := ⟨a.total .charge fun _ => true, a.total .discharge fun _ => true, a.net, evalOutcome l a.net⟩
    evals := a.evals + 1
    importCuts := if evalOutcome l a.net = .importCut then a.importCuts + 1 else a.importCuts
    exportCuts := if evalOutcome l a.net = .exportCut then a.exportCuts + 1 else a.exportCuts } := if_pos hup

/-- R142: an evaluation with the flag clear. -/
theorem Arbiter.evaluate_down (hup : a.linkUp = false) : a.evaluate prio l = { a with
    grants := Vector.replicate 16 (.watts 0)
    summary := ⟨a.total .charge fun _ => true, a.total .discharge fun _ => true, a.net, .linkDown⟩
    evals := a.evals + 1
    linkDowns := a.linkDowns + 1 } := if_neg (by simp [hup])

theorem Arbiter.evaluate_total (a : Arbiter) (prio : Chan → Option Nat) (l : LinkSettings) (dir : WantDir) (p : Chan → Bool) :
    (a.evaluate prio l).total dir p = a.total dir p := by
  unfold Arbiter.total
  rw [Arbiter.evaluate_wanted]

theorem Arbiter.evaluate_classes (hup : a.linkUp = true) : (a.evaluate prio l).classes = (a.readClasses prio).classes := by
  rw [Arbiter.evaluate_up hup]

/-- A cut reads the wanted powers and the classes alone. -/
theorem Arbiter.cut_congr (hw : b.wanted = a.wanted) (hc : b.classes = a.classes) (dir : WantDir) (x : Nat) :
    b.cut dir x = a.cut dir x := by
  unfold Arbiter.cut Arbiter.total
  rw [hw, hc]

theorem Arbiter.evaluate_cut (hup : a.linkUp = true) (dir : WantDir) (x : Nat) :
    (a.evaluate prio l).cut dir x = (a.readClasses prio).cut dir x := by
  have hwanted : (a.evaluate prio l).wanted = (a.readClasses prio).wanted := Arbiter.evaluate_wanted a prio l
  exact Arbiter.cut_congr hwanted (Arbiter.evaluate_classes hup) dir x

/-- An outcome with the grants and the counters that go with it. -/
structure Judged (a b : Arbiter) (out : EvalOutcome) (grants : Vector Grant 16) (imports exports : U32) : Prop where
  outcome : b.summary.outcome = out
  importCuts : b.importCuts = a.importCuts + imports
  exportCuts : b.exportCuts = a.exportCuts + exports
  grants : b.grants = grants

theorem Arbiter.evaluate_within (hup : a.linkUp = true) (hlow : -(l.exportLimit : Int) ≤ a.net) (hhigh : a.net ≤ l.importLimit) :
    Judged a (a.evaluate prio l) .within (Vector.replicate 16 .full) 0 0 := by
  have hout : evalOutcome l a.net = .within := (if_neg (by omega)).trans (if_neg (by omega))
  rw [Arbiter.evaluate_up hup, hout]
  exact ⟨rfl, by simp, by simp, by simp [Arbiter.grantsFor, hout]⟩

theorem Arbiter.evaluate_import (hup : a.linkUp = true) (h : (l.importLimit : Int) < a.net) :
    Judged a (a.evaluate prio l) .importCut ((a.evaluate prio l).cut .charge (a.net - l.importLimit).toNat) 1 0 := by
  have hout : evalOutcome l a.net = .importCut := if_pos h
  rw [Arbiter.evaluate_cut hup, Arbiter.evaluate_up hup, hout]
  exact ⟨rfl, by simp, by simp, by simp only [Arbiter.grantsFor, hout]⟩

theorem Arbiter.evaluate_export (hup : a.linkUp = true) (h : a.net < -(l.exportLimit : Int)) :
    Judged a (a.evaluate prio l) .exportCut ((a.evaluate prio l).cut .discharge (-(l.exportLimit : Int) - a.net).toNat) 0 1 := by
  have hout : evalOutcome l a.net = .exportCut := (if_neg (by omega)).trans (if_pos h)
  rw [Arbiter.evaluate_cut hup, Arbiter.evaluate_up hup, hout]
  exact ⟨rfl, by simp, by simp, by simp only [Arbiter.grantsFor, hout]⟩

theorem full_get (c : Chan) : (Vector.replicate 16 Grant.full)[c] = .full := Vector.getElem_replicate c.isLt

/-- R138 to R140: what an evaluation with the link-up flag set keeps. -/
theorem Arbiter.evaluate_keeps_limits (hup : a.linkUp = true) (hk : ∀ c : Chan, a.classes[c] ≤ 2)
    (hp : ∀ c n, prio c = some n → n ≤ 2) :
    (allowed (a.evaluate prio l) .charge : Int) - (a.total .discharge fun _ => true : Nat) ≤ l.importLimit ∧
    (allowed (a.evaluate prio l) .discharge : Int) - (a.total .charge fun _ => true : Nat) ≤ l.exportLimit ∧
    ∀ c : Chan, Grant.counts (a.evaluate prio l).grants[c] (a.evaluate prio l).wanted[c].mag ≤ (a.evaluate prio l).wanted[c].mag := by
  have hclasses : ∀ c : Chan, (a.evaluate prio l).classes[c] ≤ 2 := by
    rw [Arbiter.evaluate_classes hup]
    exact Arbiter.readClasses_le hk hp
  have htotal := Arbiter.evaluate_total a prio l
  have hnet : a.net = (a.total .charge fun _ => true : Nat) - (a.total .discharge fun _ => true : Nat) := rfl
  have hcharge := allowed_le_total (a := a.evaluate prio l) (dir := .charge)
  have hdischarge := allowed_le_total (a := a.evaluate prio l) (dir := .discharge)
  rw [htotal] at hcharge hdischarge
  rcases lt_or_ge (l.importLimit : Int) a.net with himport | himport
  · obtain ⟨-, -, -, hgrants⟩ := Arbiter.evaluate_import (prio := prio) hup himport
    have hcounts := counts_cut_le hclasses (by omega) hgrants
    have hallowed := allowed_add_excess_le hclasses hgrants (by rw [htotal]; omega)
    rw [htotal] at hallowed
    have := hdischarge hcounts
    exact ⟨by omega, by omega, hcounts⟩
  · rcases lt_or_ge a.net (-(l.exportLimit : Int)) with hexport | hexport
    · obtain ⟨-, -, -, hgrants⟩ := Arbiter.evaluate_export (prio := prio) hup hexport
      have hcounts := counts_cut_le hclasses (by omega) hgrants
      have hallowed := allowed_add_excess_le hclasses hgrants (by rw [htotal]; omega)
      rw [htotal] at hallowed
      have := hcharge hcounts
      exact ⟨by omega, by omega, hcounts⟩
    · obtain ⟨-, -, -, hgrants⟩ := Arbiter.evaluate_within (prio := prio) hup hexport himport
      have hcounts (c : Chan) : Grant.counts (a.evaluate prio l).grants[c] (a.evaluate prio l).wanted[c].mag ≤
          (a.evaluate prio l).wanted[c].mag := by
        rw [hgrants, full_get]
        exact le_rfl
      have := hcharge hcounts
      have := hdischarge hcounts
      exact ⟨by omega, by omega, hcounts⟩

/-- Settles O59: by the three places of the net power, each with its grants; a cut takes the whole excess from the direction it cuts. -/
theorem grantsKeepTheLinkLimits : Obligations.GrantsKeepTheLinkLimits := by
  refine ⟨wantedPower, fun a prio l hk hp => ?_⟩
  intro b n
  have hsummary : b.summary.sPlus = (a.total .charge fun _ => true) ∧ b.summary.sMinus = (a.total .discharge fun _ => true) ∧
      n = a.net ∧ b.evals = a.evals + 1 := by
    cases hup : a.linkUp with
    | true => simp only [n, b, Arbiter.evaluate_up hup]; exact ⟨trivial, trivial, trivial, trivial⟩
    | false => simp only [n, b, Arbiter.evaluate_down hup]; exact ⟨trivial, trivial, trivial, trivial⟩
  obtain ⟨hplus, hminus, hn, hevals⟩ := hsummary
  refine ⟨hevals, Arbiter.evaluate_wanted a prio l, Arbiter.evaluate_settings a prio l, Arbiter.evaluate_timer a prio l,
    Arbiter.evaluate_linkSet a prio l, Arbiter.evaluate_linkUp a prio l, hplus, hminus, by rw [hn, hplus, hminus]; rfl,
    fun hup => ?up, fun hup => ?down⟩
  case up =>
    have hclasses : ∀ c : Chan, b.classes[c] = (a.readClasses prio).classes[c] := fun c => by
      rw [Arbiter.evaluate_classes hup]
    have hle : ∀ c : Chan, b.classes[c] ≤ 2 := fun c => by rw [hclasses]; exact Arbiter.readClasses_le hk hp c
    obtain ⟨himport, hexport, hcounts⟩ := Arbiter.evaluate_keeps_limits (l := l) hup hk hp
    rw [hn, hplus, hminus]
    refine ⟨fun c => (hclasses c).trans (Arbiter.readClasses_get a prio c), by simp only [b, Arbiter.evaluate_up hup]; rfl,
      fun hlow hhigh => ?_, fun h => ?_, fun h => ?_, himport, hexport, hcounts⟩
    · obtain ⟨hout, hi, he, hg⟩ := Arbiter.evaluate_within (prio := prio) hup hlow hhigh
      exact ⟨hout, by simpa using hi, by simpa using he, fun c => by rw [hg, full_get]⟩
    · obtain ⟨hout, hi, he, hg⟩ := Arbiter.evaluate_import (prio := prio) hup h
      exact ⟨hout, hi, by simpa using he, Arbiter.cut_cutBy hle (by omega) hg⟩
    · obtain ⟨hout, hi, he, hg⟩ := Arbiter.evaluate_export (prio := prio) hup h
      exact ⟨hout, by simpa using hi, he, Arbiter.cut_cutBy hle (by omega) hg⟩
  case down =>
    simp only [b, Arbiter.evaluate_down hup]
    exact ⟨trivial, trivial, trivial, trivial, trivial, fun c => Vector.getElem_replicate c.isLt⟩

end Sys2Proof.Machine

/-!
The release of a pool (R153, R156): what writing a record leaves in the pool and its header, and the held record, its GAP and the RELEASE
record that a release writes.
-/

namespace Sys2Proof.Machine

variable {s t u : State} {c : Chan} {p : PoolId} {x : Record} {n : Nat} {l : Logger}

/-! ### A record written -/

theorem pool_headers_apart (c : Chan) (p : PoolId) : Config.headerBase c p + 32 ≤ Config.poolBase c p := by
  have := c.isLt
  have := poolNo_le p
  simp only [Config.headerBase, Config.poolBase]
  omega

/-- R150: the bytes of a record stand after the last used slot. -/
theorem State.writeRecord_readBytes (hn : ((s.chan c).log.pool p).used = n) (hx : x.Fits) :
    (s.writeRecord c p x).store.readBytes (Config.poolBase c p + 32 * n) (32 * x.slots) = x.bytes := by
  have hapart := pool_headers_apart c p
  have hread := Mem.readBytes_writeBytes s.store (Config.poolBase c p + 32 * n) x.bytes
  rw [hx.2, Config.recordSlot] at hread
  refine (Mem.readBytes_writeBytes_ne _ _ _ _ _ (.inr ?_)).trans ?_
  · rw [PoolHeader.bytes_length]
    omega
  · rw [hn, Nat.mul_comm n Config.recordSlot]
    exact hread

/-- R150: the slots used before stand. -/
theorem State.writeRecord_earlier (hn : ((s.chan c).log.pool p).used = n) {a k : Nat} (hle : a + k ≤ 32 * n) :
    (s.writeRecord c p x).store.readBytes (Config.poolBase c p + a) k = s.store.readBytes (Config.poolBase c p + a) k := by
  have hapart := pool_headers_apart c p
  refine (Mem.readBytes_writeBytes_ne _ _ _ _ _ (.inr ?_)).trans (Mem.readBytes_writeBytes_ne _ _ _ _ _ (.inl ?_))
  · rw [PoolHeader.bytes_length]
    omega
  · rw [hn, Config.recordSlot]
    omega

/-- The Logger of a channel after a record is written. -/
theorem State.writeRecord_log (s : State) (c : Chan) (p : PoolId) (x : Record) :
    (s.writeRecord c p x).chan c = (s.chan c).withLog ((s.chan c).log.recorded p x) := by
  rw [State.writeRecord_chan, if_pos rfl]

/-- R145: the header that covers a record written stands in the store. -/
theorem State.writeRecord_header (s : State) (c : Chan) (p : PoolId) (x : Record) :
    (s.writeRecord c p x).store.readBytes (Config.headerBase c p) 32 = (((s.writeRecord c p x).chan c).log.pool p).bytes := by
  have hput (w : State) (h : PoolHeader) :
      (w.putHeader c p h).store.readBytes (Config.headerBase c p) 32 = (((w.putHeader c p h).chan c).log.pool p).bytes := by
    rw [State.putHeader_readBytes, State.putHeader_chan, if_pos rfl, Channel.withLog_log, Logger.pool_setPool]
  exact hput _ _

theorem Logger.recorded_pool (l : Logger) (p : PoolId) (x : Record) : (l.recorded p x).pool p =
    { l.pool p with
      used := (l.pool p).used + x.slots, firstSeq := if (l.pool p).used = 0 then x.seq else (l.pool p).firstSeq, lastSeq := x.seq } :=
  Logger.pool_setPool _ _ _

theorem Logger.recorded_rest (l : Logger) (p : PoolId) (x : Record) : (l.recorded p x).nextSeq = l.nextSeq ∧
    (l.recorded p x).latch = l.latch ∧ (l.recorded p x).pendingLoss = l.pendingLoss ∧ (l.recorded p x).filling = l.filling ∧
    (l.recorded p x).report = l.report := by
  cases p <;> exact ⟨rfl, rfl, rfl, rfl, rfl⟩

/-! ### GAP and EVENT records -/

theorem State.writeGap_of_none (h : (s.chan c).log.pendingLoss = none) : s.writeGap c p = s := by
  simp only [State.writeGap, h]

/-- R157: the GAP record of a pending loss. -/
def gapRecord (ch : Channel) (c : Chan) (first count : U32) : Record :=
  ⟨.gap, ch.log.nextSeq, 1, gapBytes ch c ch.log.nextSeq first count⟩

theorem State.writeGap_of_some {first count : U32} (h : (s.chan c).log.pendingLoss = some (first, count)) :
    s.writeGap c p = (s.modLog c Logger.gapped).writeRecord c p (gapRecord (s.chan c) c first count) := by
  simp only [State.writeGap, h]
  rfl

theorem gapBytes_plain (ch : Channel) (c : Chan) (seq first count : U32) :
    gapBytes ch c seq first count = plainRecord ch c 5 0 seq (leBytes 4 first.toNat ++ leBytes 4 count.toNat) := by
  simp [gapBytes, plainRecord, commonBytes, padTo, fieldU, Config.top, RecKind.code]

theorem eventBytes_plain (ch : Channel) (c : Chan) (sub : Nat) (seq : U32) (body : List Byte) :
    padTo 32 (commonBytes RecKind.event.code sub c 1 0 ch.seqr.position 0 0 seq ch.planTime ++ body) =
      plainRecord ch c 3 sub seq body := by
  simp [plainRecord, commonBytes, padTo, fieldU, Config.top, RecKind.code]
  omega

/-- R150: a record for which the pool has more than enough room. -/
theorem State.placeIn_room (h : (((s.writeGap c p).chan c).log.pool p).used + x.slots < Config.poolSlots) :
    s.placeIn c p x = (s.writeGap c p).writeRecord c p x := by
  unfold State.placeIn
  dsimp only
  rw [State.writeRecord_log, Channel.withLog_log, Logger.recorded_used, if_neg (by omega)]

/-- R147, R148, R150: a record generated while a pool is FILLING with room and no loss is pending. -/
theorem State.emit_placed (hf : (s.chan c).log.filling = some p) (hl : (s.chan c).log.pendingLoss = none) (k : RecKind)
    (mk : U32 → List Byte) (hroom : ((s.chan c).log.pool p).used + n < Config.poolSlots) :
    s.emit c k n mk = (s.modLog c fun l => { l with nextSeq := l.nextSeq + 1 }).writeRecord c p
      ⟨k, (s.chan c).log.nextSeq, n, mk (s.chan c).log.nextSeq⟩ := by
  have hlog : ((s.modLog c fun l => { l with nextSeq := l.nextSeq + 1 }).chan c).log =
      { (s.chan c).log with nextSeq := (s.chan c).log.nextSeq + 1 } := by
    rw [State.modLog_chan, if_pos rfl, Channel.withLog_log]
  have hpool (m : U32) : Logger.pool { (s.chan c).log with nextSeq := m } p = (s.chan c).log.pool p := by cases p <;> rfl
  unfold State.emit
  dsimp only
  generalize s.modLog c (fun l => { l with nextSeq := l.nextSeq + 1 }) = w at hlog ⊢
  have hnone : (w.chan c).log.pendingLoss = none := by rw [hlog]; exact hl
  have hfill : (w.chan c).log.filling = some p := by rw [hlog]; exact hf
  have hused : ((w.chan c).log.pool p).used + n < Config.poolSlots := by rw [hlog, hpool]; exact hroom
  unfold State.place
  dsimp only
  rw [hfill]
  dsimp only
  rw [if_pos (by simp only [Logger.need, hnone]; simp; omega), State.placeIn_room (by rw [State.writeGap_of_none hnone]; exact hused),
    State.writeGap_of_none hnone]

end Sys2Proof.Machine

/-!
The release of a pool (R153, R156), continued: the Logger and the store after it.
-/

namespace Sys2Proof.Machine

variable {s t u : State} {c : Chan} {p : PoolId} {r x : Record} {n : Nat} {l : Logger}

/-! ### Entry to RUNNING -/

theorem State.notify_store (s : State) (c : Chan) : (s.notify c).store = s.store := by
  obtain ⟨a, ha, -⟩ := s.notify_eq c
  rw [ha]

theorem State.modAz_store (s : State) (c : Chan) (f : AutoZero → AutoZero) : (s.modAz c f).store = s.store := by
  unfold State.modAz
  dsimp only
  split <;> rfl

theorem State.setSt_storeKept (s : State) (c : Chan) (st : ChState) : StoreKept s (s.setSt c st) [noticeArea c] := by
  unfold State.setSt
  split
  · exact .refl s _
  · exact State.bumpChan_storeKept (s.modChan c fun ch => { ch with st := st }) c .stateChanges

theorem State.enterStep_store (s : State) (c : Chan) (n : Nat) (b : Bool) : (s.enterStep c n b).store = s.store := by
  unfold State.enterStep State.notifyEntry
  split
  · split
    · rw [State.modAz_store]
      rfl
    · rw [State.notify_store, State.modAz_store]
      rfl
  · rfl

/-- A channel of the same Logger and hold causes. -/
structure LoggedSame (ch ch' : Channel) : Prop where
  log : ch'.log = ch.log
  hold : ch'.hold = ch.hold

theorem Channel.enterStep_logged (ch : Channel) (n : Nat) (st : Step) (b : Bool) : LoggedSame ch (ch.enterStep n st b) := by
  obtain ⟨g, hg, -⟩ := ch.enterStep_eq n st b
  rw [hg]
  exact ⟨rfl, rfl⟩

theorem State.enterStep_logged (s : State) (c : Chan) (n : Nat) (b : Bool) :
    LoggedSame (s.chan c) ((s.enterStep c n b).chan c) := by
  cases h : (s.chan c).stepAt n with
  | none =>
    simp only [State.enterStep, h]
    exact ⟨rfl, rfl⟩
  | some st =>
    rw [(State.enterStep_parts h b).1]
    obtain ⟨hlog, hhold⟩ := (s.chan c).enterStep_logged n st b
    exact ⟨hlog, hhold⟩

theorem State.enterStep_pairs (s : State) (c : Chan) (n : Nat) (b : Bool) : (s.enterStep c n b).pairs = s.pairs := by
  cases h : (s.chan c).stepAt n with
  | none => simp only [State.enterStep, h]
  | some st => exact (State.enterStep_parts h b).2.2

theorem State.enterRunning_pairs (s : State) (c : Chan) (b : Bool) : (s.enterRunning c b).pairs = s.pairs := by
  have hpairs : ((s.setSt c .running).modChan c fun ch => { ch with seqr := { ch.seqr with qualify := [0, 0, 0, 0] } }).pairs = s.pairs :=
    s.setSt_pairs c _
  unfold State.enterRunning
  dsimp only
  split
  · rw [State.notify_pairs]
    exact hpairs
  · rw [State.enterStep_pairs]
    exact hpairs

/-- R12: an entry to RUNNING generates no record. -/
theorem State.enterRunning_logged (s : State) (c : Chan) (b : Bool) :
    LoggedSame (s.chan c) ((s.enterRunning c b).chan c) ∧ StoreKept s (s.enterRunning c b) [noticeArea c] := by
  have hrun : LoggedSame (s.chan c)
      (((s.setSt c .running).modChan c fun ch => { ch with seqr := { ch.seqr with qualify := [0, 0, 0, 0] } }).chan c) := by
    rw [State.chan_modChan_self, State.setSt_chan_self]
    exact ⟨rfl, rfl⟩
  have hstore : StoreKept s ((s.setSt c .running).modChan c fun ch => { ch with seqr := { ch.seqr with qualify := [0, 0, 0, 0] } })
      [noticeArea c] := s.setSt_storeKept c .running
  unfold State.enterRunning
  dsimp only
  generalize (s.setSt c .running).modChan c (fun ch => { ch with seqr := { ch.seqr with qualify := [0, 0, 0, 0] } }) = w
    at hrun hstore ⊢
  obtain ⟨hlog, hhold⟩ := hrun
  split
  · rw [State.notify_chan, State.chan_modChan_self]
    obtain ⟨hlog', -, hhold'⟩ := Channel.restart_same (w.chan c)
    refine ⟨⟨hlog'.trans hlog, hhold'.trans hhold⟩, fun a ha => ?_⟩
    rw [State.notify_store]
    exact hstore a ha
  · obtain ⟨hlog', hhold'⟩ := w.enterStep_logged c (s.chan c).seqr.position b
    refine ⟨⟨hlog'.trans hlog, hhold'.trans hhold⟩, fun a ha => ?_⟩
    rw [State.enterStep_store]
    exact hstore a ha

/-! ### LOG_FULL leaves the set -/

/-- The channel as its RELEASE record is generated. -/
def Channel.unfull (ch : Channel) : Channel := { ch with hold := ch.hold.put .logFull false }

/-- The RELEASE record of LOG_FULL (R9). -/
def releaseRecord (ch : Channel) (c : Chan) : Record :=
  ⟨.event, ch.log.nextSeq, 1, plainRecord ch c 3 4 ch.log.nextSeq (leBytes 1 0)⟩

theorem State.leaveCause_idle (h : ((s.chan c).st.inPlan && (s.chan c).hold.logFull) = false) : s.leaveCause c .logFull = s := by
  have hcond : ((s.chan c).st.inPlan && (s.chan c).hold.has .logFull) = false := h
  simp only [State.leaveCause, hcond]
  rfl

theorem State.leaveCause_full (h : ((s.chan c).st.inPlan && (s.chan c).hold.logFull) = true) :
    let t := (s.modChan c Channel.unfull).event c c subRelease 0 (leBytes 1 0)
    s.leaveCause c .logFull = if (t.chan c).st = .held ∧ (t.chan c).hold.isEmpty = true then t.enterRunning c true else t := by
  have hcond : ((s.chan c).st.inPlan && (s.chan c).hold.has .logFull) = true := h
  unfold State.leaveCause
  dsimp only
  rw [if_pos hcond]
  rfl

/-- R9, R156: LOG_FULL leaves the set, and its RELEASE record is written. -/
theorem State.leaveCause_released (hleaves : ((s.chan c).st.inPlan && (s.chan c).hold.logFull) = true)
    (hf : (s.chan c).log.filling = some p) (hl : (s.chan c).log.pendingLoss = none) (hrep : (s.chan c).log.report = false)
    (hroom : ((s.chan c).log.pool p).used + 1 < Config.poolSlots) :
    ∃ u, u = ((s.modChan c Channel.unfull).modLog c fun l => { l with nextSeq := l.nextSeq + 1 }).writeRecord c p
        (releaseRecord (s.chan c) c) ∧ (s.leaveCause c .logFull = u ∨ s.leaveCause c .logFull = u.enterRunning c true) := by
  refine ⟨_, rfl, ?_⟩
  have hlog : ((s.modChan c Channel.unfull).chan c).log = (s.chan c).log := by
    rw [State.chan_modChan_self]
    rfl
  have hbytes (seq : U32) : padTo 32 (commonBytes RecKind.event.code subRelease c 1 0
      ((s.modChan c Channel.unfull).chan c).seqr.position 0 0 seq ((s.modChan c Channel.unfull).chan c).planTime ++ leBytes 1 0) =
      plainRecord (s.chan c) c 3 4 seq (leBytes 1 0) := by
    rw [eventBytes_plain, State.chan_modChan_self]
    rfl
  have hemit : (s.modChan c Channel.unfull).emitEvent c c subRelease 0 (leBytes 1 0) =
      ((s.modChan c Channel.unfull).modLog c fun l => { l with nextSeq := l.nextSeq + 1 }).writeRecord c p
        (releaseRecord (s.chan c) c) := by
    have h := State.emit_placed (s := s.modChan c Channel.unfull) (p := p) (n := 1) (by rw [hlog]; exact hf) (by rw [hlog]; exact hl)
      .event (fun seq => padTo 32 (commonBytes RecKind.event.code subRelease c 1 0
        ((s.modChan c Channel.unfull).chan c).seqr.position 0 0 seq ((s.modChan c Channel.unfull).chan c).planTime ++ leBytes 1 0))
      (by rw [hlog]; exact hroom)
    rw [hbytes, hlog] at h
    exact h
  have hsettle : ((s.modChan c Channel.unfull).emitEvent c c subRelease 0 (leBytes 1 0)).settle c =
      (s.modChan c Channel.unfull).emitEvent c c subRelease 0 (leBytes 1 0) := by
    refine if_neg ?_
    rw [hemit, State.writeRecord_log, Channel.withLog_log, Logger.recorded_report, State.modLog_chan, if_pos rfl,
      Channel.withLog_log, hlog, hrep]
    decide
  rw [State.leaveCause_full hleaves, State.event, hsettle, hemit]
  generalize State.writeRecord _ _ _ _ = w
  split
  · exact .inr rfl
  · exact .inl rfl

end Sys2Proof.Machine

/-!
The release of a pool (R153, R156, R157), concluded.
-/

namespace Sys2Proof.Machine

variable {s t u : State} {c : Chan} {p : PoolId} {r x : Record} {n : Nat} {l : Logger}

/-! ### The held record written -/

/-- The slots of the GAP that precedes the next record. -/
def Logger.gapSlots (l : Logger) : Nat := if l.pendingLoss.isSome then 1 else 0

/-- The Logger after the release of pool p while none is FILLING, its latch taken out. -/
def Logger.refilled (l : Logger) (p : PoolId) : Logger := (l.setPool p ((l.pool p).released .filling)).unlatched

theorem Logger.refilled_pool (l : Logger) (p : PoolId) : (l.refilled p).pool p = (l.pool p).released .filling := by
  rw [Logger.refilled, Logger.unlatched_pool, Logger.pool_setPool]

theorem Logger.refilled_rest (l : Logger) (p : PoolId) : (l.refilled p).nextSeq = l.nextSeq ∧
    (l.refilled p).pendingLoss = l.pendingLoss ∧ (l.refilled p).latch = none ∧ (l.refilled p).report = l.report := by
  cases p <;> exact ⟨rfl, rfl, rfl, rfl⟩

theorem Logger.refilled_filling (h : l.Sound) (hf : l.filling = none) (hrep : l.report = false) (p : PoolId) :
    (l.refilled p).Sound ∧ (l.refilled p).filling = some p := by
  obtain ⟨hsound, hfilling, -⟩ := h.refilled (l' := l.refilled p) hf p (l.refilled_pool p)
    (by rw [Logger.refilled, Logger.unlatched_pool, Logger.pool_setPool_other]) rfl (by rw [(l.refilled_rest p).2.2.2]; exact hrep)
  exact ⟨hsound, hfilling⟩

/-- The header of a released pool that holds a GAP of `gap` slots and the record r. -/
def PoolHeader.holding (h : PoolHeader) (gap : Nat) (seq : U32) (r : Record) : PoolHeader :=
  { h with
    owner := .part, side := .filling, used := gap + r.slots, firstSeq := if gap = 1 then seq else r.seq, lastSeq := r.seq
    reason := .none }

/-- R153, R156, R157: what the release of pool p leaves once the held record r is written. -/
structure HeldOut (s u : State) (c : Chan) (p : PoolId) (r : Record) : Prop where
  chan : ∃ log, u.chan c = (s.chan c).withLog log
  pool : (u.chan c).log.pool p = ((s.chan c).log.pool p).holding (s.chan c).log.gapSlots (s.chan c).log.nextSeq r
  nextSeq : (u.chan c).log.nextSeq = (s.chan c).log.nextSeq + BitVec.ofNat 32 (s.chan c).log.gapSlots
  latch : (u.chan c).log.latch = none
  filling : (u.chan c).log.filling = some p
  loss : (u.chan c).log.pendingLoss = none
  report : (u.chan c).log.report = false
  held : u.store.readBytes (Config.poolBase c p + 32 * (s.chan c).log.gapSlots) (32 * r.slots) = r.bytes
  gap : ∀ first count, (s.chan c).log.pendingLoss = some (first, count) → u.store.readBytes (Config.poolBase c p) 32 =
    plainRecord (s.chan c) c 5 0 (s.chan c).log.nextSeq (leBytes 4 first.toNat ++ leBytes 4 count.toNat)
  header : u.store.readBytes (Config.headerBase c p) 32 = ((u.chan c).log.pool p).bytes
  loc : Local c s u

/-- The state in which the held record is placed. -/
def State.refilled (s : State) (c : Chan) (p : PoolId) : State :=
  (s.putHeader c p (((s.chan c).log.pool p).released .filling)).modLog c fun l => { l with latch := none }

theorem State.refilled_chan (s : State) (c d : Chan) (p : PoolId) :
    (s.refilled c p).chan d = if d = c then (s.chan c).withLog ((s.chan c).log.refilled p) else s.chan d :=
  State.refill_chan s c d p _

theorem State.refilled_rest (s : State) (c : Chan) (p : PoolId) : RestKept s (s.refilled c p) := by
  unfold State.refilled
  exact (State.putHeader_rest s c p _).trans (State.modLog_rest _ c _)

theorem State.refilled_store (s : State) (c : Chan) (p : PoolId) : StoreKept s (s.refilled c p) (logAreas c) := by
  have hkept := State.putHeader_kept s c p (((s.chan c).log.pool p).released .filling)
  unfold State.refilled
  generalize s.putHeader c p _ = w at hkept ⊢
  exact hkept

theorem State.refilled_local (hf : (s.chan c).log.filling = none) (hrep : (s.chan c).log.report = false) :
    Local c s (s.refilled c p) := by
  have hrest := s.refilled_rest c p
  have hstore := s.refilled_store c p
  have hchan (d : Chan) := s.refilled_chan c d p
  generalize s.refilled c p = w at hrest hstore hchan ⊢
  exact (Local.refl c s).change hchan hrest.device (.of hrest.notices c) hrest.arb hrest.links hrest.slots hrest.pairs
    (fun _ => hstore) fun o => (Logger.refilled_filling o hf hrep p).1

theorem Record.slots_bounds (hx : x.Fits) : 1 ≤ x.slots ∧ x.slots ≤ 2 := by rcases hx.1 with h | h <;> omega

theorem Logger.gapSlots_le (l : Logger) : l.gapSlots ≤ 1 := by
  unfold Logger.gapSlots
  split <;> omega

/-- R156: the held record in a released pool, no loss pending. -/
theorem heldOut_of_no_loss {w : State} (hw : w.chan c = (s.chan c).withLog ((s.chan c).log.refilled p)) (hfits : r.Fits)
    (hfilling : ((s.chan c).log.refilled p).filling = some p) (hrep : (s.chan c).log.report = false)
    (hnone : (s.chan c).log.pendingLoss = none) (hlocal : Local c s (w.writeRecord c p r)) :
    HeldOut s (w.writeRecord c p r) c p r := by
  obtain ⟨hseq, hloss, hlatch, hreport⟩ := (s.chan c).log.refilled_rest p
  obtain ⟨hseq', hlatch', hloss', hfilling', hreport'⟩ := ((s.chan c).log.refilled p).recorded_rest p r
  have hpool := (s.chan c).log.refilled_pool p
  have hslots : (s.chan c).log.gapSlots = 0 := by simp [Logger.gapSlots, hnone]
  have hused : ((w.chan c).log.pool p).used = 0 := by
    rw [hw, Channel.withLog_log, hpool]
    rfl
  have hchan : (w.writeRecord c p r).chan c = (s.chan c).withLog (((s.chan c).log.refilled p).recorded p r) := by
    rw [State.writeRecord_log, hw, Channel.withLog_withLog, Channel.withLog_log]
  have hlog := congrArg Channel.log hchan
  rw [Channel.withLog_log] at hlog
  refine ⟨⟨_, hchan⟩, ?_, ?_, ?_, ?_, ?_, ?_, ?_, fun first count h => ?_, State.writeRecord_header w c p r, hlocal⟩
  · rw [hlog, Logger.recorded_pool, hpool, hslots]
    simp [PoolHeader.released, PoolHeader.holding]
  · rw [hlog, hseq', hseq, hslots]
    simp
  · rw [hlog, hlatch', hlatch]
  · rw [hlog, hfilling', hfilling]
  · rw [hlog, hloss', hloss, hnone]
  · rw [hlog, hreport', hreport, hrep]
  · rw [hslots]
    exact State.writeRecord_readBytes hused hfits
  · exact absurd (hnone.symm.trans h) (by simp)

/-- R156, R157: the GAP of a pending loss and the held record in a released pool. -/
theorem heldOut_of_loss {w : State} {first count : U32} (hw : w.chan c = (s.chan c).withLog ((s.chan c).log.refilled p)) (hfits : r.Fits)
    (hfilling : ((s.chan c).log.refilled p).filling = some p) (hrep : (s.chan c).log.report = false)
    (hsome : (s.chan c).log.pendingLoss = some (first, count))
    (hlocal : Local c s (((w.modLog c Logger.gapped).writeRecord c p (gapRecord (w.chan c) c first count)).writeRecord c p r)) :
    HeldOut s (((w.modLog c Logger.gapped).writeRecord c p (gapRecord (w.chan c) c first count)).writeRecord c p r) c p r := by
  obtain ⟨hseq, hloss, hlatch, hreport⟩ := (s.chan c).log.refilled_rest p
  have hpool := (s.chan c).log.refilled_pool p
  have hslots : (s.chan c).log.gapSlots = 1 := by simp [Logger.gapSlots, hsome]
  have hgap : gapRecord (w.chan c) c first count = ⟨.gap, (s.chan c).log.nextSeq, 1,
      plainRecord (s.chan c) c 5 0 (s.chan c).log.nextSeq (leBytes 4 first.toNat ++ leBytes 4 count.toNat)⟩ := by
    rw [gapRecord, gapBytes_plain, hw, Channel.withLog_log, hseq]
    rfl
  have hgapFits : (gapRecord (w.chan c) c first count).Fits := gapBytes_fits _ _ _ _ _
  have hgapped : (w.modLog c Logger.gapped).chan c = (s.chan c).withLog ((s.chan c).log.refilled p).gapped := by
    rw [State.modLog_chan, if_pos rfl, hw, Channel.withLog_withLog, Channel.withLog_log]
  rw [hgap] at hgapFits hlocal ⊢
  generalize w.modLog c Logger.gapped = w' at hgapped hlocal ⊢
  have hused : ((w'.chan c).log.pool p).used = 0 := by
    rw [hgapped, Channel.withLog_log, Logger.gapped_pool, hpool]
    rfl
  have hread := State.writeRecord_readBytes hused hgapFits
  have hlogged := w'.writeRecord_log c p ⟨.gap, (s.chan c).log.nextSeq, 1,
      plainRecord (s.chan c) c 5 0 (s.chan c).log.nextSeq (leBytes 4 first.toNat ++ leBytes 4 count.toNat)⟩
  generalize w'.writeRecord c p _ = w'' at hread hlogged hlocal ⊢
  generalize hx : (⟨.gap, (s.chan c).log.nextSeq, 1,
      plainRecord (s.chan c) c 5 0 (s.chan c).log.nextSeq (leBytes 4 first.toNat ++ leBytes 4 count.toNat)⟩ : Record) = x
    at hread hlogged
  rw [hgapped, Channel.withLog_withLog, Channel.withLog_log] at hlogged
  obtain ⟨hseq1, hlatch1, hloss1, hfilling1, hreport1⟩ := ((s.chan c).log.refilled p).gapped.recorded_rest p x
  have hpool1 := ((s.chan c).log.refilled p).gapped.recorded_pool p x
  rw [Logger.gapped_pool, hpool] at hpool1
  generalize ((s.chan c).log.refilled p).gapped.recorded p x = m at hlogged hseq1 hlatch1 hloss1 hfilling1 hreport1 hpool1
  obtain ⟨hseq2, hlatch2, hloss2, hfilling2, hreport2⟩ := m.recorded_rest p r
  have hused' : ((w''.chan c).log.pool p).used = 1 := by
    rw [hlogged, Channel.withLog_log, hpool1, ← hx]
    rfl
  have hchan : (w''.writeRecord c p r).chan c = (s.chan c).withLog (m.recorded p r) := by
    rw [State.writeRecord_log, hlogged, Channel.withLog_withLog, Channel.withLog_log]
  have hlog := congrArg Channel.log hchan
  rw [Channel.withLog_log] at hlog
  refine ⟨⟨_, hchan⟩, ?_, ?_, ?_, ?_, ?_, ?_, ?_, fun first' count' h => ?_, State.writeRecord_header w'' c p r, hlocal⟩
  · rw [hlog, Logger.recorded_pool, hpool1, hslots, ← hx]
    simp [PoolHeader.released, PoolHeader.holding]
  · rw [hlog, hseq2, hseq1, hslots]
    exact congrArg (· + 1) hseq
  · rw [hlog, hlatch2, hlatch1]
    exact hlatch
  · rw [hlog, hfilling2, hfilling1]
    exact hfilling
  · rw [hlog, hloss2, hloss1]
    rfl
  · rw [hlog, hreport2, hreport1]
    exact hreport.trans hrep
  · rw [hslots]
    exact State.writeRecord_readBytes hused' hfits
  · obtain ⟨rfl, rfl⟩ := Prod.mk.inj (Option.some.inj (hsome.symm.trans h))
    have hearlier := State.writeRecord_earlier (x := r) hused' (a := 0) (k := 32) (by omega)
    rw [← hx] at hread
    exact hearlier.trans hread

/-- R156, R157: the held record placed in the released pool. -/
theorem State.refilled_placeIn (ho : (s.chan c).log.Ok) (hl : (s.chan c).log.latch = some r) (p : PoolId) :
    HeldOut s ((s.refilled c p).placeIn c p r) c p r := by
  obtain ⟨hf, hfits⟩ := ho.latch r hl
  obtain ⟨-, hfilling⟩ := Logger.refilled_filling ho.sound hf ho.report p
  obtain ⟨hseq, hloss, hlatch, hrep⟩ := (s.chan c).log.refilled_rest p
  have hpool := (s.chan c).log.refilled_pool p
  have hslots := Record.slots_bounds hfits
  have hchan : (s.refilled c p).chan c = (s.chan c).withLog ((s.chan c).log.refilled p) := by
    rw [State.refilled_chan, if_pos rfl]
  have hlocal := (State.refilled_local (p := p) hf ho.report).placeIn p r hfits fun _ => by
    refine ⟨by rw [hchan]; exact hfilling, ?_⟩
    rw [hchan, Channel.withLog_log, hpool]
    exact (Nat.zero_add _).le.trans (Record.need_le hfits _)
  generalize s.refilled c p = w at hchan hlocal ⊢
  have hwloss : (w.chan c).log.pendingLoss = (s.chan c).log.pendingLoss := by rw [hchan]; exact hloss
  cases hp : (s.chan c).log.pendingLoss with
  | none =>
    have hgap : w.writeGap c p = w := State.writeGap_of_none (hwloss.trans hp)
    have hplace : w.placeIn c p r = w.writeRecord c p r := by
      rw [State.placeIn_room, hgap]
      rw [hgap, hchan, Channel.withLog_log, hpool]
      exact (Nat.zero_add _).trans_lt (hslots.2.trans_lt (by decide))
    rw [hplace] at hlocal ⊢
    exact heldOut_of_no_loss hchan hfits hfilling ho.report hp hlocal
  | some x =>
    have hgap := State.writeGap_of_some (p := p) (first := x.1) (count := x.2) (hwloss.trans hp)
    have hplace : w.placeIn c p r = ((w.modLog c Logger.gapped).writeRecord c p (gapRecord (w.chan c) c x.1 x.2)).writeRecord c p r := by
      rw [State.placeIn_room, hgap]
      rw [hgap, State.writeRecord_log, Channel.withLog_log, Logger.recorded_used, State.modLog_chan, if_pos rfl, Channel.withLog_log,
        Logger.gapped_pool, hchan, Channel.withLog_log, hpool]
      change 0 + 1 + r.slots < 256
      omega
    rw [hplace] at hlocal ⊢
    exact heldOut_of_loss hchan hfits hfilling ho.report hp hlocal

end Sys2Proof.Machine

/-!
POOL_RELEASE (R153): its three cases.
-/

namespace Sys2Proof.Machine

variable {s t u : State} {c : Chan} {p : PoolId} {r : Record}

/-! ### The release taken -/

theorem postOf_release (c : Chan) (p : PoolId) : postOf (32 + 2 * c.val + Config.poolNo p) = .release c p := by
  have hc := c.isLt
  have hp := poolNo_le p
  have hix : (32 + 2 * c.val + Config.poolNo p - 32) / 2 = c.val := by omega
  unfold postOf
  rw [dif_neg (by omega), dif_pos (by omega)]
  simp only [hix]
  cases p
  · rw [if_pos (by simp only [Config.poolNo]; omega)]
  · rw [if_neg (by simp only [Config.poolNo]; omega)]

theorem exec_poolRelease_ready (h : s.phase = .ready) (c : Chan) (p : PoolId) : exec (.poolRelease c p) s = .next (s.release c p) := by
  have htake : s.takePost (32 + 2 * c.val + Config.poolNo p) = s.release c p := by
    unfold State.takePost
    rw [if_neg (by rw [h]; decide), postOf_release]
  exact congrArg _ htake

/-- R153: with no record held, the header alone is written. -/
theorem State.release_of_no_latch (ho : ((s.chan c).log.pool p).owner = .host) (hl : (s.chan c).log.latch = none) :
    s.release c p = s.putHeader c p
      (((s.chan c).log.pool p).released (if (s.chan c).log.filling.isSome then .waiting else .filling)) := by
  unfold State.release
  dsimp only
  rw [if_pos ho]
  cases hf : (s.chan c).log.filling with
  | some q => rfl
  | none =>
    dsimp only
    unfold State.writeOut
    rw [State.putHeader_chan, if_pos rfl, Channel.withLog_log, Logger.setPool_latch, hl]
    rfl

/-- R156: with a record held, it is written out, and LOG_FULL leaves the set. -/
theorem State.release_of_latch (ho : ((s.chan c).log.pool p).owner = .host) (hf : (s.chan c).log.filling = none)
    (hl : (s.chan c).log.latch = some r) : s.release c p = ((s.refilled c p).placeIn c p r).leaveCause c .logFull := by
  unfold State.release
  dsimp only
  rw [if_pos ho, hf]
  dsimp only
  unfold State.writeOut
  rw [State.putHeader_chan, if_pos rfl, Channel.withLog_log, Logger.setPool_latch, hl]
  rfl

/-! ### The RELEASE record -/

/-- What the release leaves once LOG_FULL has left the set of a channel that had it. -/
structure Released (u t : State) (c : Chan) (p : PoolId) : Prop where
  pool : (t.chan c).log.pool p =
    { (u.chan c).log.pool p with used := ((u.chan c).log.pool p).used + 1, lastSeq := (u.chan c).log.nextSeq }
  nextSeq : (t.chan c).log.nextSeq = (u.chan c).log.nextSeq + 1
  latch : (t.chan c).log.latch = (u.chan c).log.latch
  filling : (t.chan c).log.filling = (u.chan c).log.filling
  loss : (t.chan c).log.pendingLoss = (u.chan c).log.pendingLoss
  hold : (t.chan c).hold = { (u.chan c).hold with logFull := false }
  earlier : ∀ a k, a + k ≤ 32 * ((u.chan c).log.pool p).used →
    t.store.readBytes (Config.poolBase c p + a) k = u.store.readBytes (Config.poolBase c p + a) k
  record : t.store.readBytes (Config.poolBase c p + 32 * ((u.chan c).log.pool p).used) 32 =
    plainRecord (u.chan c) c 3 4 (u.chan c).log.nextSeq (leBytes 1 0)
  header : t.store.readBytes (Config.headerBase c p) 32 = ((t.chan c).log.pool p).bytes
  pairs : t.pairs = u.pairs

theorem plainRecord_length (ch : Channel) (c : Chan) (kind upper : Nat) (seq : U32) {body : List Byte} (h : body.length ≤ 18) :
    (plainRecord ch c kind upper seq body).length = 32 := by
  simp [plainRecord]
  omega

/-- An entry to RUNNING leaves what a release has written. -/
theorem Released.enterRunning (h : Released u t c p) (b : Bool) : Released u (t.enterRunning c b) c p := by
  obtain ⟨⟨hlog, hhold⟩, hstore⟩ := t.enterRunning_logged c b
  have hpool (a k : Nat) : (t.enterRunning c b).store.readBytes (Config.poolBase c p + a) k =
      t.store.readBytes (Config.poolBase c p + a) k := hstore.readBytes fun x hx => by
    have hc := c.isLt
    rw [List.mem_singleton.1 hx]
    simp only [noticeArea, Config.chanNotice, Config.poolBase]
    omega
  have hheader : (t.enterRunning c b).store.readBytes (Config.headerBase c p) 32 =
      t.store.readBytes (Config.headerBase c p) 32 := hstore.readBytes fun x hx => by
    rw [List.mem_singleton.1 hx]
    exact noticeArea_headers c c p
  exact ⟨by rw [hlog, h.pool], by rw [hlog, h.nextSeq], by rw [hlog, h.latch], by rw [hlog, h.filling], by rw [hlog, h.loss],
    hhold.trans h.hold, fun a k hle => (hpool a k).trans (h.earlier a k hle), (hpool _ _).trans h.record,
    by rw [hheader, h.header, hlog], (t.enterRunning_pairs c b).trans h.pairs⟩

/-- R9, R156: the RELEASE record follows in the same pool. -/
theorem State.leaveCause_written (hleaves : ((u.chan c).st.inPlan && (u.chan c).hold.logFull) = true)
    (hf : (u.chan c).log.filling = some p) (hl : (u.chan c).log.pendingLoss = none) (hrep : (u.chan c).log.report = false)
    (hpos : 0 < ((u.chan c).log.pool p).used) (hroom : ((u.chan c).log.pool p).used + 1 < Config.poolSlots) :
    Released u (u.leaveCause c .logFull) c p := by
  obtain ⟨t, ht, hend⟩ := State.leaveCause_released hleaves hf hl hrep hroom
  have hreleased : Released u t c p := by
    have hfits : (releaseRecord (u.chan c) c).Fits := ⟨.inl rfl, plainRecord_length _ _ _ _ _ (by decide)⟩
    have hchan : ((u.modChan c Channel.unfull).modLog c fun l => { l with nextSeq := l.nextSeq + 1 }).chan c =
        (u.chan c).unfull.withLog { (u.chan c).log with nextSeq := (u.chan c).log.nextSeq + 1 } := by
      rw [State.modLog_chan, if_pos rfl, State.chan_modChan_self]
      rfl
    have hstore : ((u.modChan c Channel.unfull).modLog c fun l => { l with nextSeq := l.nextSeq + 1 }).store = u.store := rfl
    have hwpairs : ((u.modChan c Channel.unfull).modLog c fun l => { l with nextSeq := l.nextSeq + 1 }).pairs = u.pairs := rfl
    have hpool (m : U32) : Logger.pool { (u.chan c).log with nextSeq := m } p = (u.chan c).log.pool p := by cases p <;> rfl
    generalize ((u.modChan c Channel.unfull).modLog c fun l => { l with nextSeq := l.nextSeq + 1 }) = w at hchan hstore hwpairs ht
    have hlogw := congrArg Channel.log hchan
    rw [Channel.withLog_log] at hlogw
    have hused : ((w.chan c).log.pool p).used = ((u.chan c).log.pool p).used := by rw [hlogw, hpool]
    have hhold : (w.chan c).hold = { (u.chan c).hold with logFull := false } := by rw [hchan]; rfl
    obtain ⟨hseq, hlatch, hloss, hfilling, -⟩ := (w.chan c).log.recorded_rest p (releaseRecord (u.chan c) c)
    have hread := State.writeRecord_readBytes hused hfits
    have hearlier (a k : Nat) := State.writeRecord_earlier (x := releaseRecord (u.chan c) c) hused (a := a) (k := k)
    have hheader := w.writeRecord_header c p (releaseRecord (u.chan c) c)
    have hlog := w.writeRecord_log c p (releaseRecord (u.chan c) c)
    have hpairs := (w.writeRecord_rest c p (releaseRecord (u.chan c) c)).pairs
    rw [← ht] at hread hearlier hheader hlog hpairs
    refine ⟨?_, ?_, ?_, ?_, ?_, ?_, fun a k hle => ?_, hread, hheader, hpairs.trans hwpairs⟩
    · rw [hlog, Channel.withLog_log, Logger.recorded_pool, hlogw, hpool, if_neg hpos.ne']
      rfl
    · rw [hlog, Channel.withLog_log, hseq, hlogw]
    · rw [hlog, Channel.withLog_log, hlatch, hlogw]
    · rw [hlog, Channel.withLog_log, hfilling, hlogw]
      rfl
    · rw [hlog, Channel.withLog_log, hloss, hlogw]
    · rw [hlog]
      exact hhold
    · rw [hearlier a k hle, hstore]
  rcases hend with h | h <;> rw [h]
  · exact hreleased
  · exact hreleased.enterRunning true

/-- Settles O20: the post decodes to the release; the held record's writing is that of `HeldOut`, the RELEASE record's that of
`Released`. -/
theorem poolReleaseReturnsThePool : Obligations.PoolReleaseReturnsThePool := by
  refine ⟨fun c p s hready ho => ?stray, fun c p s hready ho hl => ?empty, fun c p s r hready hok ho hl => ?held⟩
  case stray =>
    rw [exec_poolRelease_ready hready]
    exact congrArg Host.Outcome.next (if_neg (by rw [ho]; decide))
  case empty =>
    refine ⟨_, exec_poolRelease_ready hready c p, ?_⟩
    rw [State.release_of_no_latch ho hl]
    refine ⟨rfl, State.putHeader_readBytes s c p _, fun a ha => ?_⟩
    have hout := ha _ (List.mem_singleton_self _)
    refine Mem.read_writeBytes_ne _ _ _ _ ?_
    rw [PoolHeader.bytes_length]
    exact hout
  case held =>
    obtain ⟨hf, hfits⟩ := hok.latch r hl
    have hslots := Record.slots_bounds hfits
    have hgapLe := (s.chan c).log.gapSlots_le
    have hheld := State.refilled_placeIn hok hl p
    have hpairs : ((s.refilled c p).placeIn c p r).pairs = s.pairs :=
      ((Recorded.refl c (s.refilled c p)).placeIn p r).pairs.trans (s.refilled_rest c p).pairs
    refine ⟨_, exec_poolRelease_ready hready c p, ?_⟩
    rw [State.release_of_latch ho hf hl]
    generalize (s.refilled c p).placeIn c p r = u at hheld hpairs ⊢
    obtain ⟨⟨log, hchan⟩, hpool, hseq, hlatch, hfilling, hloss, hrep, hbytes, hgap, hheader, hlocal⟩ := hheld
    have hfacts := (hlocal.leaveCause .logFull) hok.sound
    have hframe := (hlocal.leaveCause .logFull).frame hok
    have hused : ((u.chan c).log.pool p).used = (s.chan c).log.gapSlots + r.slots := by rw [hpool]; rfl
    have hst : (u.chan c).st = (s.chan c).st := by rw [hchan]; rfl
    have hhold : (u.chan c).hold = (s.chan c).hold := by rw [hchan]; rfl
    have hlinks := hfacts.links
    have hlslots := hfacts.slots
    cases hleaves : (s.chan c).st.inPlan && (s.chan c).hold.logFull with
    | false =>
      have hidle : u.leaveCause c .logFull = u := State.leaveCause_idle (by rw [hst, hhold]; exact hleaves)
      rw [hidle] at hframe hlinks hlslots ⊢
      intro ch base gap leaves second h
      have hl : leaves = false := hleaves
      rw [hl]
      refine ⟨hbytes, hgap, fun h => absurd h (by decide), hused, congrArg PoolHeader.firstSeq hpool,
        congrArg PoolHeader.lastSeq hpool, congrArg PoolHeader.reason hpool, (congrArg PoolHeader.gen hpool :), hheader,
        hseq.trans (BitVec.add_zero _).symm, hlatch, hfilling, hloss, hused ▸ (by omega), fun hin => ?_, by rw [hhold],
        hframe, State.link_of_links hlinks c, State.slot_of_slots hlslots _, State.pair_of_pairs hpairs _⟩
      rw [hhold]
      rw [hin] at hleaves
      exact hleaves
    | true =>
      have hreleased := State.leaveCause_written (p := p) (by rw [hst, hhold]; exact hleaves) hfilling hloss hrep (by omega)
        (by rw [hused]; simp only [Config.poolSlots]; omega)
      generalize u.leaveCause c .logFull = t at hreleased hframe hlinks hlslots ⊢
      intro ch base gap leaves second h
      have hl : leaves = true := hleaves
      rw [hl]
      have hearlier := hreleased.earlier
      have hrecord := hreleased.record
      rw [hused] at hearlier hrecord
      have hheader' := hreleased.pool
      rw [hpool] at hheader'
      refine ⟨(hearlier _ _ (by change 32 * gap + _ ≤ 32 * (gap + _); omega)).trans hbytes,
        fun first count hsome => (hearlier 0 32 (by change _ ≤ 32 * (gap + _); omega)).trans (hgap first count hsome),
        fun _ => hrecord.trans ?_, congrArg PoolHeader.used hheader', congrArg PoolHeader.firstSeq hheader',
        (congrArg PoolHeader.lastSeq hheader').trans hseq, congrArg PoolHeader.reason hheader', (congrArg PoolHeader.gen hheader' :),
        hreleased.header, hreleased.nextSeq.trans (congrArg (· + 1) hseq), hreleased.latch.trans hlatch,
        hreleased.filling.trans hfilling, hreleased.loss.trans hloss, ?_, fun _ => congrArg HoldSet.logFull hreleased.hold,
        (congrArg HoldSet.linkDown hreleased.hold).trans (congrArg HoldSet.linkDown hhold :), hframe, State.link_of_links hlinks c,
        State.slot_of_slots hlslots _, State.pair_of_pairs (hreleased.pairs.trans hpairs) _⟩
      · rw [hseq, hchan]
        rfl
      · rw [congrArg PoolHeader.used hheader']
        exact Nat.succ_pos _

end Sys2Proof.Machine

/-!
Trips and later faults (R110 to R113): what they leave of their channel, of its counts and of the other channels.
-/

namespace Sys2Proof.Machine

variable {s t u w : State} {c d : Chan} {cause : Cause} {coincident : List Cause} {v i x : Int} {ended : Option Nat}

/-! ### The departure -/

/-- R110, effect 1: the departure of a RUNNING channel. -/
def State.departs (s : State) (c : Chan) : State := if (s.chan c).st = .running then s.departLocal c else s

theorem State.departs_chan_self (s : State) (c : Chan) : ∃ az, (s.departs c).chan c = { s.chan c with
    demand := if (s.chan c).st = .running then 0 else (s.chan c).demand
    chop := if (s.chan c).st = .running then none else (s.chan c).chop
    az := az } := by
  unfold State.departs
  split
  · exact s.departLocal_chan_self c
  · exact ⟨(s.chan c).az, rfl⟩

/-- The other channels but for their auto-zero state (R62). -/
def AzOnly (s t : State) (c : Chan) : Prop := ∀ d, d ≠ c → ∃ az, t.chan d = { s.chan d with az := az }

theorem AzOnly.of (h : ∀ d, d ≠ c → t.chan d = s.chan d) : AzOnly s t c := fun d hd => ⟨(s.chan d).az, h d hd⟩

theorem AzOnly.trans (h : AzOnly s u c) (k : AzOnly u t c) : AzOnly s t c := by
  intro d hd
  obtain ⟨a, ha⟩ := h d hd
  obtain ⟨b, hb⟩ := k d hd
  exact ⟨b, by rw [hb, ha]⟩

theorem AzOnly.of_othersKept (h : OthersKept s t c) : AzOnly s t c := by
  intro d hd
  rcases h d hd with e | ⟨-, -, a, e⟩
  · exact ⟨(s.chan d).az, e⟩
  · exact ⟨a, e⟩

theorem State.departs_azOnly (s : State) (c : Chan) : AzOnly s (s.departs c) c := by
  unfold State.departs
  split
  · intro d hd
    obtain ⟨a, ha⟩ := State.modAz_chan_same (s.modChan c fun ch => { ch with demand := 0, chop := none }) c d AutoZero.discard
    refine ⟨a, ha.trans ?_⟩
    rw [State.chan_modChan_ne _ _ hd]
  · exact .of fun _ _ => rfl

theorem State.departs_notices (s : State) (c : Chan) : (s.departs c).notices = s.notices := by
  unfold State.departs
  split
  · rw [State.departLocal, State.modAz_notices, State.modChan_notices]
  · rfl

theorem State.departs_pairs (s : State) (c : Chan) : (s.departs c).pairs = s.pairs := by
  unfold State.departs
  split
  · rw [State.departLocal, State.modAz_pairs, State.modChan_pairs]
  · rfl

theorem State.setSt_azOnly (s : State) (c : Chan) (st : ChState) : AzOnly s (s.setSt c st) c := by
  refine .of fun d hd => ?_
  unfold State.setSt
  split
  · rfl
  · rw [State.bumpChan_chan, State.chan_modChan_ne _ _ hd]

/-! ### Trips -/

/-- R110, R111: what a trip with the given fault record leaves of a channel. -/
def TrippedWith (ch ch' : Channel) (f : FaultRecord) : Prop :=
  ∃ az log hold, hold.linkDown = ch.hold.linkDown ∧ (ch.hold.logFull = true → hold.logFull = true) ∧ ch' = { ch with
    st := .tripped
    demand := if ch.st = .running then 0 else ch.demand
    chop := if ch.st = .running then none else ch.chop
    contact := { ch.contact with inProgress := false }
    linkHold := .stopped
    hits := 0
    window := 0
    fault := f
    tripCtr := ch.tripCtr + 1
    hold := hold
    az := az
    log := log }

theorem TrippedWith.tripped {ch ch' : Channel} (h : TrippedWith ch ch' (ch.faultRecord cause [] v i x none)) :
    Tripped ch ch' cause v i x := h

/-- What a trip of channel c with the given fault record leaves. -/
structure TrippedIn (s t : State) (c : Chan) (f : FaultRecord) : Prop where
  chan : TrippedWith (s.chan c) (t.chan c) f
  tallied : Tallied s t c 1 1
  bit : t.notices.attention.getLsbD c.val = true
  wanted : t.arb.wanted[c] = ⟨.none, 0⟩
  pairs : t.pairs = s.pairs
  others : AzOnly s t c

theorem State.bumpFaults_tallied (s : State) (c : Chan) : Tallied s (s.bumpChan c .faults) c 0 1 := by
  refine ⟨?_, ?_, ?_, ?_⟩ <;> rw [State.bumpChan_self]
  · rfl
  · exact (BitVec.add_zero _).symm
  · rfl
  · rfl

theorem Tallied.trans {a b a' b' : U32} (h : Tallied s u c a b) (k : Tallied u t c a' b') : Tallied s t c (a + a') (b + b') :=
  ⟨k.responses.trans h.responses, by rw [k.stateChanges, h.stateChanges, BitVec.add_assoc], k.watchHits.trans h.watchHits,
    by rw [k.faults, h.faults, BitVec.add_assoc]⟩

/-- R110, R111: a trip of a channel that is not TRIPPED. -/
theorem State.trip_trippedIn (h : (s.chan c).st ≠ .tripped) (cause : Cause) (coincident : List Cause) (v i x : Int)
    (ended : Option Nat) :
    TrippedIn s (s.trip c cause coincident v i x ended) c ((s.chan c).faultRecord cause coincident v i x ended) := by
  obtain ⟨az, hdeparted⟩ := s.departs_chan_self c
  have hst : ((s.departs c).chan c).st ≠ .tripped := by rw [hdeparted]; exact h
  have htally := (CountsKept.of (s.departs_notices c) c).tally ((s.departs c).setSt_tallied c hst)
  have hpairs := ((s.departs c).setSt_pairs c .tripped).trans (s.departs_pairs c)
  have hothers := (s.departs_azOnly c).trans ((s.departs c).setSt_azOnly c .tripped)
  have hset := (s.departs c).setSt_chan_self c .tripped
  rw [hdeparted] at hset
  change TrippedIn s (((((((s.departs c).setSt c .tripped).modChan c fun ch => ch.tripLocal cause coincident v i x ended).event c c subTrip 0
    (tripBody cause coincident v i x)).closePool c .trip).bumpChan c .faults).notify c) c _
  generalize (s.departs c).setSt c .tripped = w at htally hpairs hothers hset
  have hlocal : (w.modChan c fun ch => ch.tripLocal cause coincident v i x ended).chan c = (w.chan c).tripLocal cause coincident v i x ended :=
    State.chan_modChan_self _ _ _
  have htally := htally.kept (.of (State.modChan_notices w c fun ch => ch.tripLocal cause coincident v i x ended) c)
  have hpairs := (State.modChan_pairs w c fun ch => ch.tripLocal cause coincident v i x ended).trans hpairs
  have hothers := hothers.trans (.of fun d hd => State.chan_modChan_ne w (fun ch => ch.tripLocal cause coincident v i x ended) hd)
  rw [hset] at hlocal
  generalize w.modChan c (fun ch => ch.tripLocal cause coincident v i x ended) = w at htally hpairs hothers hlocal
  have hne : (w.chan c).st ≠ .running := by
    rw [hlocal]
    exact fun e : ChState.tripped = .running => nomatch e
  have hevent := (Recorded.refl c w).reported.event hne c subTrip 0 (tripBody cause coincident v i x)
  have hclosed := hevent.trans ((Recorded.refl c _).closePool .trip).reported
  generalize (w.event c c subTrip 0 (tripBody cause coincident v i x)).closePool c .trip = w' at hclosed ⊢
  obtain ⟨log, hold, hchan, hdown, hfull⟩ := hclosed.chan
  rw [hlocal] at hchan hdown hfull
  have hend : ((w'.bumpChan c .faults).notify c).chan c = w'.chan c := by rw [State.notify_chan, State.bumpChan_chan]
  refine ⟨⟨az, log, hold, hdown, hfull, hend.trans hchan⟩, ?_, ?_, ?_, ?_, ?_⟩
  · exact ((htally.kept hclosed.counts).trans (w'.bumpFaults_tallied c)).kept (.of (State.notify_notices _ c) c)
  · rw [State.notify_notices]
    exact State.bumpChan_bit _ c _
  · rw [State.notify_wanted, State.bumpChan_chan, hchan]
    exact Channel.wants_of_ne (fun e : ChState.tripped = .running => nomatch e) _
  · rw [State.notify_pairs]
    exact hclosed.pairs.trans hpairs
  · exact hothers.trans ((AzOnly.of hclosed.others).trans (.of fun d _ => by rw [State.notify_chan, State.bumpChan_chan]))

/-! ### Later faults -/

/-- R113: a fault record with one later fault more. -/
def FaultRecord.later (f : FaultRecord) (cause : Cause) : FaultRecord :=
  { f with laterCount := satSucc 16 f.laterCount, lastLater := some cause, acked := false }

/-- What later faults of channel c, n in number, leave. -/
structure LaterIn (s t : State) (c : Chan) (f : FaultRecord) (n : U32) : Prop where
  chan : ∃ log hold, hold.linkDown = (s.chan c).hold.linkDown ∧ ((s.chan c).hold.logFull = true → hold.logFull = true) ∧
    t.chan c = { s.chan c with log := log, hold := hold, fault := f }
  tallied : Tallied s t c 0 n
  arb : t.arb = s.arb
  pairs : t.pairs = s.pairs
  others : ∀ d, d ≠ c → t.chan d = s.chan d

theorem LaterIn.refl (s : State) (c : Chan) : LaterIn s s c (s.chan c).fault 0 :=
  ⟨⟨(s.chan c).log, (s.chan c).hold, rfl, id, rfl⟩, (CountsKept.of rfl c).tallied, rfl, rfl, fun _ _ => rfl⟩

theorem LaterIn.trans {f g : FaultRecord} {m n : U32} (h : LaterIn s u c f m) (k : LaterIn u t c g n) : LaterIn s t c g (m + n) := by
  obtain ⟨log, hold, hdown, hfull, hchan⟩ := h.chan
  obtain ⟨log', hold', hdown', hfull', hchan'⟩ := k.chan
  rw [hchan] at hdown' hfull' hchan'
  exact ⟨⟨log', hold', hdown'.trans hdown, fun e => hfull' (hfull e), hchan'⟩, (h.tallied.trans k.tallied), k.arb.trans h.arb,
    k.pairs.trans h.pairs, fun d hd => (k.others d hd).trans (h.others d hd)⟩

/-- R113: a later fault of a channel that is not RUNNING. -/
theorem State.laterFault_laterIn (h : (s.chan c).st ≠ .running) (cause : Cause) (v i x : Int) :
    LaterIn s (s.laterFault c cause v i x) c ((s.chan c).fault.later cause) 1 ∧
      (s.laterFault c cause v i x).notices.attention.getLsbD c.val = true := by
  have hfault : (s.modChan c fun ch => { ch with
      fault := { ch.fault with laterCount := satSucc 16 ch.fault.laterCount, lastLater := some cause, acked := false } }).chan c =
      { s.chan c with fault := (s.chan c).fault.later cause } := State.chan_modChan_self _ _ _
  have hkept : CountsKept s (s.modChan c fun ch => { ch with
      fault := { ch.fault with laterCount := satSucc 16 ch.fault.laterCount, lastLater := some cause, acked := false } }) c :=
    .of (State.modChan_notices s c _) c
  have hrest : (s.modChan c fun ch => { ch with
      fault := { ch.fault with laterCount := satSucc 16 ch.fault.laterCount, lastLater := some cause, acked := false } }).arb = s.arb ∧
    (s.modChan c fun ch => { ch with
      fault := { ch.fault with laterCount := satSucc 16 ch.fault.laterCount, lastLater := some cause, acked := false } }).pairs = s.pairs ∧
    ∀ d, d ≠ c → (s.modChan c fun ch => { ch with
      fault := { ch.fault with laterCount := satSucc 16 ch.fault.laterCount, lastLater := some cause, acked := false } }).chan d = s.chan d :=
    ⟨rfl, rfl, fun d hd => State.chan_modChan_ne s _ hd⟩
  unfold State.laterFault
  dsimp only
  generalize s.modChan c (fun ch => { ch with
    fault := { ch.fault with laterCount := satSucc 16 ch.fault.laterCount, lastLater := some cause, acked := false } }) = w
    at hfault hkept hrest ⊢
  obtain ⟨harb, hpairs, hothers⟩ := hrest
  have hne : (w.chan c).st ≠ .running := by rw [hfault]; exact h
  have hevent := (Recorded.refl c w).reported.event hne c subTrip 1 (tripBody cause [] v i x)
  generalize w.event c c subTrip 1 (tripBody cause [] v i x) = w' at hevent ⊢
  obtain ⟨log, hold, hchan, hdown, hfull⟩ := hevent.chan
  rw [hfault] at hchan hdown hfull
  exact ⟨⟨⟨log, hold, hdown, hfull, (State.bumpChan_chan _ _ _ _).trans hchan⟩,
    (hkept.tally hevent.counts.tallied).trans (w'.bumpFaults_tallied c), hevent.arb.trans harb, hevent.pairs.trans hpairs,
    fun d hd => (State.bumpChan_chan _ _ _ _).trans ((hevent.others d hd).trans (hothers d hd))⟩, State.bumpChan_bit _ c _⟩

/-- R112, R113: the later faults of one sample. -/
theorem State.laterFaults_laterIn (h : (s.chan c).st ≠ .running) (x : Input) (l : List Cause) :
    LaterIn s (s.laterFaults c x l) c (l.foldl FaultRecord.later (s.chan c).fault) (BitVec.ofNat 32 l.length) := by
  induction l generalizing s with
  | nil => exact LaterIn.refl s c
  | cons k ks ih =>
    obtain ⟨hone, -⟩ := State.laterFault_laterIn h k x.v x.i x.t
    obtain ⟨log, hold, -, -, hchan⟩ := hone.chan
    have hrest := ih (s := s.laterFault c k x.v x.i x.t) (by rw [hchan]; exact h)
    have hfault : ((s.laterFault c k x.v x.i x.t).chan c).fault = (s.chan c).fault.later k := by rw [hchan]
    rw [hfault] at hrest
    have hcount : BitVec.ofNat 32 (k :: ks).length = 1 + BitVec.ofNat 32 ks.length := by
      rw [List.length_cons, BitVec.ofNat_add, BitVec.add_comm]
      rfl
    rw [hcount]
    exact hone.trans hrest

/-- R113: the fault record after later faults: their number, saturated, and the last of them. -/
theorem foldl_later (f : FaultRecord) (hf : f.laterCount ≤ 65535) (l : List Cause) :
    ∀ last, l.getLast? = some last → l.foldl FaultRecord.later f =
      { f with laterCount := min (f.laterCount + l.length) 65535, lastLater := some last, acked := false } := by
  induction l generalizing f with
  | nil => exact fun _ h => absurd h (by simp)
  | cons k ks ih =>
    intro last hlast
    have hcount : satSucc 16 f.laterCount = min (f.laterCount + 1) 65535 := rfl
    cases ks with
    | nil =>
      obtain rfl : k = last := Option.some.inj hlast
      rfl
    | cons k' ks =>
      have hle : (f.later k).laterCount ≤ 65535 := by
        change satSucc 16 f.laterCount ≤ 65535
        omega
      rw [List.foldl_cons, ih (f.later k) hle last (by simpa using hlast)]
      have hsum : min ((f.later k).laterCount + (k' :: ks).length) 65535 = min (f.laterCount + (k :: k' :: ks).length) 65535 := by
        change min (satSucc 16 f.laterCount + _) 65535 = _
        simp only [List.length_cons]
        omega
      rw [hsum]
      rfl

/-! ### Causes outside a sample -/

theorem ne_tripped_of_tripable {x : ChState} (h : x.tripable = true) : x ≠ .tripped := by
  rintro rfl
  cases h

/-- R109: a cause that reaches a channel in CHECKING, RUNNING, PAUSED or HELD with the held values. -/
theorem State.tripHeld_trippedIn (h : (s.chan c).st.tripable = true) (cause : Cause) :
    TrippedIn s (s.tripHeld c cause) c
      ((s.chan c).faultRecord cause [] (s.lastVit c).1 (s.lastVit c).2.1 (s.lastVit c).2.2 none) := by
  unfold State.tripHeld
  rw [if_pos h]
  exact State.trip_trippedIn (ne_tripped_of_tripable h) cause [] _ _ _ none

/-- What a trip outside a sample leaves of the machine, in the form of the statements. -/
theorem TrippedIn.statement {f : FaultRecord} (h : TrippedIn s t c f) (hl : Local c s t) (ho : (s.chan c).log.Ok) :
    Counted s t c 0 1 1 ∧ t.arb.wanted[c] = ⟨.none, 0⟩ ∧ Frame s t c (logAreas c) ∧ t.links = s.links ∧ t.slots = s.slots ∧
      t.pairs = s.pairs := by
  obtain ⟨hr, hs, hw, hf⟩ := h.tallied
  exact ⟨⟨hr.trans (BitVec.add_zero _).symm, hs, hw, hf, h.bit⟩, h.wanted, hl.frame ho, (hl ho.sound).links, (hl ho.sound).slots, h.pairs⟩

end Sys2Proof.Machine

/-!
CONTACT_CHECK_FAIL and LINK_HOLD_EXPIRY (R108, R109, R117), and the protection judgement where no hard check is violated: the contact check
(R107, R108) and the soft limit (R103, R104).
-/

namespace Sys2Proof.Machine

variable {s t u w : State} {c d : Chan} {l : LimitSet} {x : Input}

/-! ### The rows outside a sample -/

theorem State.contactFail_of (hl : (s.chan c).limits = some l) (hst : (s.chan c).st = .checking)
    (hc : (s.chan c).contact.inProgress = true) (ht : 5 * l.filterTime ≤ (s.chan c).contact.timer) :
    s.contactFail c = s.tripHeld c .contactFail := by
  simp only [State.contactFail, hl]
  exact if_pos ⟨hst, hc, ht⟩

theorem State.contactFail_idle (h : (s.chan c).st ≠ .checking ∨ (s.chan c).contact.inProgress = false ∨ (s.chan c).limits = none ∨
    ∃ l, (s.chan c).limits = some l ∧ (s.chan c).contact.timer < 5 * l.filterTime) : s.contactFail c = s := by
  unfold State.contactFail
  split
  next l hl =>
    refine if_neg fun hc => ?_
    obtain ⟨hst, hprogress, htimer⟩ := hc
    rcases h with h | h | h | ⟨l', hl', h⟩
    · exact h hst
    · exact absurd (hprogress.symm.trans h) (by decide)
    · exact absurd (hl.symm.trans h) (by simp)
    · obtain rfl : l = l' := Option.some.inj (hl.symm.trans hl')
      omega
  next => rfl

/-- R109: the row of a cause that reaches its channel with the held values. -/
theorem tripHeld_statement (ho : (s.chan c).log.Ok) (h : (s.chan c).st.tripable = true) (cause : Cause) :
    Tripped (s.chan c) ((s.tripHeld c cause).chan c) cause (s.lastVit c).1 (s.lastVit c).2.1 (s.lastVit c).2.2 ∧
      Counted s (s.tripHeld c cause) c 0 1 1 ∧ (s.tripHeld c cause).arb.wanted[c] = ⟨.none, 0⟩ ∧
      Frame s (s.tripHeld c cause) c (logAreas c) ∧ (s.tripHeld c cause).links = s.links ∧ (s.tripHeld c cause).slots = s.slots ∧
      (s.tripHeld c cause).pairs = s.pairs :=
  have htrip := State.tripHeld_trippedIn h cause
  ⟨htrip.chan.tripped, htrip.statement ((Local.refl c s).tripHeld cause) ho⟩

theorem tripable_of {x : ChState} (h : x = .checking ∨ x = .running ∨ x = .paused ∨ x = .held) : x.tripable = true := by
  rcases h with rfl | rfl | rfl | rfl <;> rfl

/-! ### Checks that pass -/

theorem LimitSet.judge_passes (h : ChecksPass l x) : l.judge x = ⟨false, false, false, false, false⟩ := by
  obtain ⟨hv, hv', hi, ht, hf, -⟩ := h
  simp only [LimitSet.judge, hf, Checks.mk.injEq, decide_eq_false_iff_not, and_true]
  omega

/-- R98: a valid sample on which no hard check is violated sets the check states alone. -/
theorem State.judgeChecks_passes (h : ChecksPass l x) (hst : (s.chan c).st.tripable = true) :
    s.judgeChecks c l x = s.modChan c fun ch => { ch with checks := ⟨false, false, false, false, false⟩ } := by
  have hjudge := LimitSet.judge_passes h
  have hpair := h.2.2.2.2.2
  have hdisagrees : disagrees l x = false := by simp only [disagrees, hpair]
  unfold State.judgeChecks
  simp only [hst, if_true, hjudge, hdisagrees, State.judgeMismatch, hpair]
  rfl

/-- R98: the judgement of a sample of a channel that is not RUNNING goes on with the contact check in CHECKING. -/
theorem State.protect_checking (hst : (s.chan c).st = .checking) (hl : (s.chan c).limits = some l)
    (hu : u = if x.valid then s.judgeChecks c l x else s.judgeSilence c l x) (hne : (u.chan c).st ≠ .tripped) :
    s.protect c x = u.judgeContact c l x := by
  unfold State.protect
  rw [hl]
  dsimp only
  rw [hst]
  simp only [ChState.inPlan, if_true, reduceCtorEq, if_false, ← hu]
  rw [if_neg hne]

theorem State.protect_running (hst : (s.chan c).st = .running) (hl : (s.chan c).limits = some l)
    (hu : u = if x.valid then (s.modChan c fun ch => ch.blankingExpiry l).judgeChecks c l x
      else (s.modChan c fun ch => ch.blankingExpiry l).judgeSilence c l x) (hne : (u.chan c).st ≠ .tripped) :
    s.protect c x = u.judgeSoft c l x := by
  unfold State.protect
  rw [hl]
  dsimp only
  rw [hst]
  simp only [ChState.inPlan, if_true, ← hu]
  rw [if_neg hne]

/-! ### The contact check -/

/-- R12, R33: what an entry to RUNNING changes of its channel, whether or not there is a step to enter. -/
theorem State.enterRunning_rest (s : State) (c : Chan) (b : Bool) : ∃ stepEntered seqr stepSet reg blanking az,
    (s.enterRunning c b).chan c = { s.chan c with
      st := .running, stepEntered := stepEntered, seqr := seqr, stepSet := stepSet, reg := reg, blanking := blanking, az := az } := by
  have hrun : (((s.setSt c .running).modChan c fun ch => { ch with seqr := { ch.seqr with qualify := [0, 0, 0, 0] } }).chan c) =
      { s.chan c with st := .running, seqr := { (s.chan c).seqr with qualify := [0, 0, 0, 0] } } := by
    rw [State.chan_modChan_self, State.setSt_chan_self]
  unfold State.enterRunning
  dsimp only
  generalize (s.setSt c .running).modChan c (fun ch => { ch with seqr := { ch.seqr with qualify := [0, 0, 0, 0] } }) = w at hrun ⊢
  split
  · obtain ⟨g, hg, -⟩ := (w.chan c).restart_eq
    rw [State.notify_chan, State.chan_modChan_self, hg, hrun]
    exact ⟨_, _, _, _, _, _, rfl⟩
  · cases h : (w.chan c).stepAt (s.chan c).seqr.position with
    | none =>
      simp only [State.enterStep, h]
      rw [hrun]
      exact ⟨_, _, _, _, _, _, rfl⟩
    | some st =>
      obtain ⟨g, hg, -⟩ := (w.chan c).enterStep_eq (s.chan c).seqr.position st b
      rw [(State.enterStep_parts h b).1, hg, hrun]
      exact ⟨_, _, _, _, _, _, rfl⟩

/-- R107, R108: the count of a contact check. -/
theorem State.judgeContact_cases (hst : (s.chan c).st = .checking) :
    let k := (s.chan c).contact.count l x
    let ch' := (s.judgeContact c l x).chan c
    (x.valid = true → l.filterTime ≤ k.inWindow → ch'.contact = { k with inProgress := false } ∧
      ch'.st = (if (s.chan c).hold.logFull = false ∧ (s.chan c).hold.linkDown = false then .running else .held)) ∧
    (¬ (x.valid = true ∧ l.filterTime ≤ k.inWindow) → 5 * l.filterTime ≤ k.timer →
      TrippedWith { s.chan c with contact := k } ch' (Channel.faultRecord (s.chan c) .contactFail [] x.v x.i x.t none)) ∧
    (¬ (x.valid = true ∧ l.filterTime ≤ k.inWindow) → k.timer < 5 * l.filterTime → ch' = { s.chan c with contact := k }) := by
  have hcounted : (s.modChan c fun ch => { ch with contact := (s.chan c).contact.count l x }).chan c =
      { s.chan c with contact := (s.chan c).contact.count l x } := State.chan_modChan_self _ _ _
  unfold State.judgeContact
  dsimp only
  generalize s.modChan c (fun ch => { ch with contact := (s.chan c).contact.count l x }) = w at hcounted ⊢
  refine ⟨fun hv hn => ?_, fun hn ht => ?_, fun hn ht => ?_⟩
  · rw [if_pos ⟨hv, hn⟩]
    have hpassed : (w.modChan c fun ch => { ch with contact := { ch.contact with inProgress := false } }).chan c =
        { w.chan c with contact := { (w.chan c).contact with inProgress := false } } := State.chan_modChan_self _ _ _
    unfold State.contactPass
    dsimp only
    generalize w.modChan c (fun ch => { ch with contact := { ch.contact with inProgress := false } }) = w' at hpassed ⊢
    rw [hcounted] at hpassed ⊢
    by_cases hhold : (s.chan c).hold.logFull = false ∧ (s.chan c).hold.linkDown = false
    · have hempty : (s.chan c).hold.isEmpty = true := by simp [HoldSet.isEmpty, hhold]
      obtain ⟨_, _, _, _, _, _, hrun⟩ := w'.enterRunning_rest c false
      rw [if_pos hempty, if_pos hhold, hrun, hpassed]
      exact ⟨rfl, rfl⟩
    · have hempty : ¬ (s.chan c).hold.isEmpty = true := by simpa [HoldSet.isEmpty] using hhold
      obtain ⟨az, hmoved⟩ := w'.moveTo_chan_self c .held
      rw [if_neg hempty, if_neg hhold, hmoved, hpassed]
      exact ⟨rfl, rfl⟩
  · rw [if_neg hn, if_pos ht]
    have hne : (w.chan c).st ≠ .tripped := by
      rw [hcounted]
      exact fun e => by cases hst.symm.trans e
    have htrip := (State.trip_trippedIn hne .contactFail [] x.v x.i x.t none).chan
    rw [hcounted] at htrip
    exact htrip
  · rw [if_neg hn, if_neg (Nat.not_le.2 ht), hcounted]

/-! ### The soft limit -/

/-- A channel after its blanking timer's expiry is judged and its checks pass (R100, R102). -/
def Channel.unblanked (ch : Channel) (l : LimitSet) : Channel :=
  { ch with
    checks := ⟨false, false, false, false, false⟩
    blanking := if l.blankTime ≤ ch.blanking.count then { ch.blanking with running := false } else ch.blanking }

theorem Channel.unblanked_eq (ch : Channel) (l : LimitSet) :
    { ch.blankingExpiry l with checks := ⟨false, false, false, false, false⟩ } = ch.unblanked l := by
  unfold Channel.blankingExpiry Channel.unblanked
  by_cases hle : l.blankTime ≤ ch.blanking.count
  · cases hr : ch.blanking.running with
    | true => simp [hle]
    | false =>
      have hstopped : { ch.blanking with running := false } = ch.blanking := by rw [← hr]
      simp [hle, hstopped]
  · simp [hle]

/-- R102, R103: the blanking timer counts as STOPPED once it is at its time. -/
theorem Channel.unblanked_stopped (ch : Channel) (l : LimitSet) :
    (ch.unblanked l).blanking.running = false ↔ ch.blanking.running = false ∨ l.blankTime ≤ ch.blanking.count := by
  unfold Channel.unblanked
  by_cases hle : l.blankTime ≤ ch.blanking.count <;> simp [hle]

theorem Channel.softHit_eq (ch : Channel) (l : LimitSet) (i : Int) :
    ch.softHit l i = true ↔ l.iSoft < i.natAbs ∧ ch.chop = none ∧ ch.blanking.running = false := by
  simp only [Channel.softHit, Bool.and_eq_true, decide_eq_true_eq, Option.isNone_iff_eq_none, Bool.not_eq_true', and_assoc]

theorem Channel.endChop_of {ch : Channel} {p : Plan} (hp : ch.active = some p) :
    ch.endChop = { ch with chop := none, reg := ch.reg.restart p.header } := by
  simp only [Channel.endChop, Channel.restart, hp]

/-- R98: the judgement of a valid sample in RUNNING on which no hard check is violated. -/
theorem State.protect_running_passes (hst : (s.chan c).st = .running) (hl : (s.chan c).limits = some l) (hv : x.valid = true)
    (hx : ChecksPass l x) : ∃ w : State, w.chan c = (s.chan c).unblanked l ∧ s.protect c x = w.judgeSoft c l x := by
  have hexpired : ((s.modChan c fun ch => ch.blankingExpiry l).chan c) = (s.chan c).blankingExpiry l := State.chan_modChan_self _ _ _
  have hkept : ((s.chan c).blankingExpiry l).st = .running := by
    unfold Channel.blankingExpiry
    split <;> exact hst
  have hjudged := State.judgeChecks_passes (s := s.modChan c fun ch => ch.blankingExpiry l) (c := c) hx (by rw [hexpired, hkept]; rfl)
  have hchan : (((s.modChan c fun ch => ch.blankingExpiry l).modChan c fun ch =>
      { ch with checks := ⟨false, false, false, false, false⟩ }).chan c) = (s.chan c).unblanked l := by
    rw [State.chan_modChan_self, hexpired]
    exact (s.chan c).unblanked_eq l
  refine ⟨_, hchan, State.protect_running hst hl ?_ ?_⟩
  · rw [if_pos hv, hjudged]
  · rw [hchan]
    exact fun e => by cases hst.symm.trans e

/-- R103, R104: the soft-limit stage, by the chop after its advance. -/
theorem State.judgeSoft_of {ch : Channel} (hadv : (s.chan c).advanceChop l = ch) (hv : x.valid = true) :
    (ch.softHit l x.i = false → (s.judgeSoft c l x).chan c = ch) ∧
    (ch.softHit l x.i = true → ch.hits + 1 ≤ l.softMax → (s.judgeSoft c l x).chan c =
      { ch with hits := ch.hits + 1, chop := some 0, demand := 0, chopCtr := ch.chopCtr + 1 }) ∧
    (ch.softHit l x.i = true → l.softMax < ch.hits + 1 → ch.st ≠ .tripped → TrippedWith { ch with hits := ch.hits + 1 }
      ((s.judgeSoft c l x).chan c) (ch.faultRecord .softRepeat [] x.v x.i x.t none)) := by
  have hadvanced : (s.modChan c fun ch => ch.advanceChop l).chan c = ch := (State.chan_modChan_self _ _ _).trans hadv
  unfold State.judgeSoft
  dsimp only
  generalize s.modChan c (fun ch => ch.advanceChop l) = w at hadvanced ⊢
  rw [hadvanced, hv, Bool.true_and]
  refine ⟨fun h => ?_, fun h hle => ?_, fun h hlt hst => ?_⟩
  · rw [h]
    exact hadvanced
  · rw [h, if_pos rfl, State.hit]
    rw [hadvanced, if_pos hle, State.chan_modChan_self, hadvanced]
  · have hhit : (w.modChan c fun ch' => { ch' with hits := ch.hits + 1 }).chan c = { ch with hits := ch.hits + 1 } := by
      rw [State.chan_modChan_self, hadvanced]
    rw [h, if_pos rfl, State.hit]
    rw [hadvanced, if_neg (Nat.not_le.2 hlt)]
    have htrip := (State.trip_trippedIn (s := w.modChan c fun ch' => { ch' with hits := ch.hits + 1 }) (c := c)
      (by rw [hhit]; exact hst) .softRepeat [] x.v x.i x.t none).chan
    rw [hhit] at htrip
    exact htrip

/-- What a trip leaves, as far as the statements name it. -/
theorem TrippedWith.facts {ch ch' : Channel} {f : FaultRecord} (h : TrippedWith ch ch' f) : ch'.st = .tripped ∧ ch'.fault = f ∧
    ch'.contact = { ch.contact with inProgress := false } ∧ ch'.hits = 0 ∧ ch'.window = 0 ∧ ch'.linkHold = ⟨false, 0, false⟩ ∧
    ch'.tripCtr = ch.tripCtr + 1 ∧ ch'.demand = (if ch.st = .running then 0 else ch.demand) ∧
    ch'.chop = (if ch.st = .running then none else ch.chop) := by
  obtain ⟨az, log, hold, -, -, h⟩ := h
  rw [h]
  exact ⟨rfl, rfl, rfl, rfl, rfl, rfl, rfl, rfl, rfl⟩

/-- R107, R108: the judgement in CHECKING on a sample that leaves the checks as given. -/
theorem contactCheck_statement {k : Checks} (hst : (s.chan c).st = .checking) (hprogress : (s.chan c).contact.inProgress = true)
    (hw : w.chan c = { s.chan c with checks := k }) (hp : s.protect c x = w.judgeContact c l x) :
    let n := ((s.chan c).contact.count l x).inWindow
    let timer := (s.chan c).contact.timer + 1
    let ch' := (s.protect c x).chan c
    (x.valid = true → l.filterTime ≤ n → ch'.contact = ⟨false, n, timer⟩ ∧
      ch'.st = (if (s.chan c).hold.logFull = false ∧ (s.chan c).hold.linkDown = false then .running else .held)) ∧
    (¬ (x.valid = true ∧ l.filterTime ≤ n) → 5 * l.filterTime ≤ timer → ch'.st = .tripped ∧ ch'.fault.first = some .contactFail ∧
      ch'.fault.coincident = [] ∧ ch'.fault.v = x.v ∧ ch'.fault.i = x.i ∧ ch'.fault.t = x.t ∧ ch'.contact.inProgress = false) ∧
    (¬ (x.valid = true ∧ l.filterTime ≤ n) → timer < 5 * l.filterTime →
      ch' = { s.chan c with checks := k, contact := ⟨true, n, timer⟩ }) := by
  obtain ⟨hpass, hfail, hgoes⟩ := State.judgeContact_cases (s := w) (c := c) (l := l) (x := x) (by rw [hw]; exact hst)
  have hkept : (s.chan c).contact.count l x = ⟨true, ((s.chan c).contact.count l x).inWindow, (s.chan c).contact.timer + 1⟩ := by
    rw [← hprogress]
    rfl
  rw [hw] at hpass hfail hgoes
  rw [hp]
  refine ⟨fun hv hn => ?_, fun hn ht => ?_, fun hn ht => ?_⟩
  · exact hpass hv hn
  · obtain ⟨htripped, hfault, hcontact, -⟩ := (hfail hn ht).facts
    refine ⟨htripped, ?_, ?_, ?_, ?_, ?_, ?_⟩
    · rw [hfault]
      rfl
    · rw [hfault]
      rfl
    · rw [hfault]
      rfl
    · rw [hfault]
      rfl
    · rw [hfault]
      rfl
    · rw [hcontact]
  · rw [hgoes hn ht, ← hkept]

/-- Settles O55: the two rows are trips with the held values; the judgement goes through `judgeContact_cases` and `judgeSoft_of` once the
hard checks have passed. -/
theorem contactChecksSoftLimitAndLinkHold : Obligations.ContactChecksSoftLimitAndLinkHold := by
  refine ⟨fun c s l ho hst hc hl ht => ?contactFail, fun c s h => ?contactIdle, fun c s ho hst hr hd => ?linkLost,
    fun c s h => ?linkIdle, fun s c l x hst hprogress hl => ?contact, fun s c l x hst hl hv hx => ?soft⟩
  case contactFail =>
    refine ⟨_, congrArg Host.Outcome.next (State.contactFail_of hl hst hc ht), ?_⟩
    exact tripHeld_statement ho (tripable_of (.inl hst)) .contactFail
  case contactIdle => exact congrArg Host.Outcome.next (State.contactFail_idle h)
  case linkLost =>
    have hexpire : s.linkHoldExpire c = s.tripHeld c .linkLost := if_pos (by rw [hr, hd]; rfl)
    refine ⟨_, congrArg Host.Outcome.next hexpire, ?_⟩
    exact tripHeld_statement ho (tripable_of hst) .linkLost
  case linkIdle =>
    refine congrArg Host.Outcome.next ?_
    unfold State.linkHoldExpire State.tripHeld
    rcases h with h | h | h <;> simp [h]
  case contact =>
    intro k n ch' failed
    refine ⟨fun hv hx => ?_, fun hv hs => ?_⟩
    · have hjudged := State.judgeChecks_passes (s := s) (c := c) hx (tripable_of (.inl hst))
      have hw : (s.modChan c fun ch => { ch with checks := ⟨false, false, false, false, false⟩ }).chan c =
          { s.chan c with checks := ⟨false, false, false, false, false⟩ } := State.chan_modChan_self _ _ _
      have hp := State.protect_checking (x := x) (u := s.modChan c fun ch => { ch with checks := ⟨false, false, false, false, false⟩ }) hst hl
        (by rw [if_pos hv, hjudged]) (by rw [hw]; exact fun e => by cases hst.symm.trans e)
      obtain ⟨hpass, hfail, hgoes⟩ := contactCheck_statement hst hprogress hw hp
      have hn : ((s.chan c).contact.count l x).inWindow = n := if_pos hv
      rw [hn] at hpass hfail hgoes
      exact ⟨hpass hv, fun hlt => hfail fun h => Nat.not_le.2 hlt h.2, fun hlt => hgoes fun h => Nat.not_le.2 hlt h.2⟩
    · have hv' : ¬ x.valid = true := by simp [hv]
      have hsilent : s.judgeSilence c l x = s := if_neg (Nat.not_le.2 hs)
      have hp := State.protect_checking (u := s) (x := x) hst hl (by rw [if_neg hv', hsilent]) fun e => by cases hst.symm.trans e
      obtain ⟨-, hfail, hgoes⟩ := contactCheck_statement (k := (s.chan c).checks) hst hprogress rfl hp
      have hn : ((s.chan c).contact.count l x).inWindow = k.inWindow := if_neg hv'
      rw [hn] at hgoes
      exact ⟨hfail fun h => hv' h.1, hgoes fun h => hv' h.1⟩
  case soft =>
    obtain ⟨w, hw, hp⟩ := State.protect_running_passes hst hl hv hx
    intro ch stopped ch1 ch'
    have hch' : ch' = (w.judgeSoft c l x).chan c := congrArg (fun t : State => t.chan c) hp
    have hstopped : (ch.unblanked l).blanking.running = false ↔ stopped := ch.unblanked_stopped l
    have hrunning : (ch.unblanked l).blanking.running = true ↔ ¬ stopped := by rw [← hstopped]; simp
    have hnohit (ch2 : Channel) (hb : ch2.blanking = (ch.unblanked l).blanking) (h : (x.i.natAbs : Int) ≤ l.iSoft ∨ ¬ stopped) :
        ch2.softHit l x.i = false := by
      rw [← Bool.not_eq_true, Channel.softHit_eq, hb, hstopped]
      rintro ⟨hi, -, hs⟩
      rcases h with h | h
      · omega
      · exact h hs
    rw [hch']
    refine ⟨fun hi hs hchop => ?_, fun h hchop => ?_, fun k hchop hlt => ?_, fun k p hchop hle hactive h => ?_⟩
    · have hadv : (w.chan c).advanceChop l = ch.unblanked l := by
        have hnone : (w.chan c).chop = none := by rw [hw]; exact hchop
        simp only [Channel.advanceChop, hnone]
        exact hw
      have hhit : (ch.unblanked l).softHit l x.i = true := (Channel.softHit_eq _ _ _).2 ⟨hi, hchop, hstopped.2 hs⟩
      obtain ⟨-, hchopped, htripped⟩ := State.judgeSoft_of (x := x) hadv hv
      refine ⟨hchopped hhit, fun hlt => ?_⟩
      obtain ⟨hst', hfault, -, hhits, -, -, -, hdemand, hchop'⟩ := (htripped hhit hlt fun e => by cases hst.symm.trans e).facts
      rw [if_pos (show ({ ch.unblanked l with hits := (ch.unblanked l).hits + 1 } : Channel).st = .running from hst)] at hdemand hchop'
      rw [hfault]
      exact ⟨hst', rfl, rfl, rfl, rfl, rfl, hchop', hdemand, hhits⟩
    · have hadv : (w.chan c).advanceChop l = ch.unblanked l := by
        have hnone : (w.chan c).chop = none := by rw [hw]; exact hchop
        simp only [Channel.advanceChop, hnone]
        exact hw
      exact (State.judgeSoft_of (x := x) hadv hv).1 (hnohit _ rfl h)
    · have hadv : (w.chan c).advanceChop l = { ch.unblanked l with chop := some (k + 1) } := by
        have hsome : (w.chan c).chop = some k := by rw [hw]; exact hchop
        simp only [Channel.advanceChop, hsome]
        rw [if_neg (Nat.not_le.2 hlt), hw]
      refine (State.judgeSoft_of (x := x) hadv hv).1 ?_
      rw [← Bool.not_eq_true, Channel.softHit_eq]
      exact fun h => absurd h.2.1 (by simp)
    · have hadv : (w.chan c).advanceChop l = { ch.unblanked l with chop := none, reg := ch.reg.restart p.header } := by
        have hsome : (w.chan c).chop = some k := by rw [hw]; exact hchop
        simp only [Channel.advanceChop, hsome]
        rw [if_pos hle, hw]
        exact Channel.endChop_of (ch := ch.unblanked l) hactive
      exact (State.judgeSoft_of (x := x) hadv hv).1 (hnohit _ rfl h)

end Sys2Proof.Machine

/-!
Operations made on every channel in turn: what is left of each channel, of its counts and of the rest of the machine.
-/

namespace Sys2Proof.Machine

variable {s t u : State} {c d : Chan} {f : State → Chan → State}

/-! ### One channel after another -/

/-- A channel but for its auto-zero state, which the leader's events change too (R62). -/
def SameButAz (ch ch' : Channel) : Prop := ∃ az, ch' = { ch with az := az }

theorem SameButAz.refl (ch : Channel) : SameButAz ch ch := ⟨ch.az, rfl⟩

theorem SameButAz.trans {a b e : Channel} (h : SameButAz a b) (k : SameButAz b e) : SameButAz a e := by
  obtain ⟨x, rfl⟩ := h
  obtain ⟨y, rfl⟩ := k
  exact ⟨y, rfl⟩

/-- What an event of any one channel has left of the machine. -/
structure OneActs (s t : State) (c : Chan) : Prop where
  facts : LocalFacts c s t
  pairs : t.pairs = s.pairs

theorem OneActs.others (h : OneActs s t c) (hd : d ≠ c) : SameButAz (s.chan d) (t.chan d) :=
  AzOnly.of_othersKept h.facts.others d hd

theorem OneActs.logsSound (h : OneActs s t c) (hs : s.LogsSound) : t.LogsSound := by
  intro d
  by_cases hd : d = c
  · rw [hd]
    exact h.facts.sound
  · obtain ⟨az, haz⟩ := h.others hd
    rw [haz]
    exact hs d

/-- A channel that an operation has not reached: it, its counts and its wanted power. -/
structure Unreached (s t : State) (c : Chan) : Prop where
  chan : SameButAz (s.chan c) (t.chan c)
  notice : t.notices.chan[c] = s.notices.chan[c]
  wanted : t.arb.wanted[c] = s.arb.wanted[c]

theorem Unreached.refl (s : State) (c : Chan) : Unreached s s c := ⟨.refl _, rfl, rfl⟩

theorem Unreached.trans (h : Unreached s u c) (k : Unreached u t c) : Unreached s t c :=
  ⟨h.chan.trans k.chan, k.notice.trans h.notice, k.wanted.trans h.wanted⟩

theorem OneActs.unreached (h : OneActs s t d) (hc : c ≠ d) : Unreached s t c :=
  ⟨h.others hc, h.facts.notices.chans c hc, h.facts.arb.wanted c hc⟩

/-- The rest of the machine after an operation on channels. -/
structure WholeKept (s t : State) : Prop where
  device : DeviceKept s t
  links : t.links = s.links
  slots : t.slots = s.slots
  pairs : t.pairs = s.pairs
  dev : t.notices.dev = s.notices.dev
  store : StoreKept s t (allChans.flatMap logAreas)
  sound : t.LogsSound

theorem WholeKept.refl (h : s.LogsSound) : WholeKept s s := ⟨.refl s, rfl, rfl, rfl, rfl, .refl s _, h⟩

theorem WholeKept.trans (h : WholeKept s u) (k : WholeKept u t) : WholeKept s t :=
  ⟨h.device.trans k.device, k.links.trans h.links, k.slots.trans h.slots, k.pairs.trans h.pairs, k.dev.trans h.dev,
    h.store.trans k.store, k.sound⟩

theorem OneActs.wholeKept (h : OneActs s t c) : s.LogsSound → WholeKept s t := fun hs =>
  ⟨h.facts.device, h.facts.links, h.facts.slots, h.pairs, h.facts.notices.dev,
    h.facts.store.mono fun _ hx => List.mem_flatMap.2 ⟨c, List.mem_finRange c, hx⟩, h.logsSound hs⟩

/-- What an operation made on every channel of a list leaves: the rest of the machine, the channels not in the list, and of each channel in
it what the operation makes of the channel as it stood. -/
structure EachActs (f : State → Chan → State) (s t : State) (l : List Chan) : Prop where
  whole : WholeKept s t
  out : ∀ c, c ∉ l → Unreached s t c
  each : ∀ c ∈ l, ∃ u, WholeKept s u ∧ Unreached s u c ∧ Unreached (f u c) t c

/-- R19, R20: an operation that acts on one channel, made on each channel of a list once. -/
theorem State.forChans_each (hf : ∀ u d, u.LogsSound → OneActs u (f u d) d) :
    ∀ (l : List Chan) (s : State), l.Nodup → s.LogsSound → EachActs f s (s.forChans f l) l
  | [], s, _, hs => ⟨.refl hs, fun c _ => .refl s c, fun _ h => absurd h (by simp)⟩
  | d :: l, s, hnd, hs => by
    obtain ⟨hd, hnd⟩ := List.nodup_cons.1 hnd
    have hone := hf s d hs
    obtain ⟨hwhole, hout, heach⟩ := State.forChans_each hf l (f s d) hnd (hone.logsSound hs)
    refine ⟨(hone.wholeKept hs).trans hwhole, fun c hc => ?_, fun c hc => ?_⟩
    · obtain ⟨hne, hc⟩ := not_or.1 (mt List.mem_cons.2 hc)
      exact (hone.unreached hne).trans (hout c hc)
    · rcases List.mem_cons.1 hc with rfl | hc
      · exact ⟨s, .refl hs, .refl s c, hout c hd⟩
      · obtain ⟨u, hu, hbefore, hafter⟩ := heach c hc
        have hne : c ≠ d := fun e => hd (e ▸ hc)
        exact ⟨u, (hone.wholeKept hs).trans hu, (hone.unreached hne).trans hbefore, hafter⟩

theorem allChans_nodup : allChans.Nodup := List.nodup_finRange 16

/-- The same on all channels. -/
theorem State.forAll_each (hf : ∀ u d, u.LogsSound → OneActs u (f u d) d) (hs : s.LogsSound) :
    EachActs f s (s.forChans f allChans) allChans := State.forChans_each hf allChans s allChans_nodup hs

end Sys2Proof.Machine

/-!
The lines: STOP_ALL (R19, R116) and LINK_OK (R20, R8 to R10).
-/

namespace Sys2Proof.Machine

variable {s t u w : State} {c d : Chan} {f : State → Chan → State}

/-! ### STOP_ALL -/

theorem State.externalStop_of_tripped (h : (s.chan c).st = .tripped) : s.externalStop c =
    s.laterFault c .externalStop (s.lastVit c).1 (s.lastVit c).2.1 (s.lastVit c).2.2 := if_pos h

theorem State.externalStop_of_ne (h : (s.chan c).st ≠ .tripped) : s.externalStop c = s.tripHeld c .externalStop := if_neg h

theorem State.tripHeld_idle (h : (s.chan c).st.tripable = false) (cause : Cause) : s.tripHeld c cause = s := by
  unfold State.tripHeld
  rw [h]
  rfl

theorem State.tripHeld_pairs (s : State) (c : Chan) (cause : Cause) : (s.tripHeld c cause).pairs = s.pairs := by
  cases h : (s.chan c).st.tripable with
  | true => exact (State.tripHeld_trippedIn h cause).pairs
  | false => rw [State.tripHeld_idle h]

theorem State.externalStop_acts (s : State) (c : Chan) (hs : s.LogsSound) : OneActs s (s.externalStop c) c := by
  by_cases h : (s.chan c).st = .tripped
  · rw [State.externalStop_of_tripped h]
    exact ⟨(Local.refl c s).laterFault _ _ _ _ (hs c),
      (State.laterFault_laterIn (by rw [h]; decide) .externalStop _ _ _).1.pairs⟩
  · rw [State.externalStop_of_ne h]
    exact ⟨(Local.refl c s).tripHeld _ (hs c), s.tripHeld_pairs c _⟩

theorem inPlan_eq_false {x : ChState} (h : x.inPlan = false) : x.tripable = false ∧ x ≠ .tripped := by
  revert h
  cases x <;> decide

/-- R42, R116: the last corrected values depend on the channel's held values and on its pair. -/
theorem State.lastVit_congr (hp : t.pairs = s.pairs) (hc : (t.chan c).held = (s.chan c).held) : t.lastVit c = s.lastVit c := by
  have hpair := State.pair_of_pairs hp (pairOf c)
  unfold State.lastVit
  rw [State.leads_of_pairs hp c, hpair, hc]

theorem Unreached.lastVit (h : Unreached s t c) (hp : t.pairs = s.pairs) : t.lastVit c = s.lastVit c := by
  obtain ⟨az, haz⟩ := h.chan
  exact State.lastVit_congr hp (by rw [haz])

/-- The first and last parts of what is made of a channel are changes of its auto-zero state. -/
theorem Tripped.around {a b a' b' : Channel} {cause : Cause} {v i x : Int} (ha : SameButAz a a') (h : Tripped a' b' cause v i x)
    (hb : SameButAz b' b) : Tripped a b cause v i x := by
  obtain ⟨az, rfl⟩ := ha
  obtain ⟨az', log, hold, hdown, hfull, rfl⟩ := h
  obtain ⟨az'', rfl⟩ := hb
  exact ⟨az'', log, hold, hdown, hfull, rfl⟩

/-- What an edge of a line leaves of the machine: the line at its new level, its count, and ATTENTION bit 16. -/
theorem edge_whole {k : DevCount} (h : WholeKept s w) : DeviceKept s (w.bumpDev k) ∧
    (w.bumpDev k).notices.dev = s.notices.dev.bump k ∧ (w.bumpDev k).notices.attention.getLsbD 16 = true ∧
    (w.bumpDev k).links = s.links ∧ (w.bumpDev k).slots = s.slots ∧ (w.bumpDev k).pairs = s.pairs ∧
    StoreKept s (w.bumpDev k) (devNoticeArea :: allChans.flatMap logAreas) :=
  ⟨h.device.trans (w.bumpDev_deviceKept k), by rw [State.bumpDev_dev, h.dev], NoticeUnit.setBit_bit _ _ (by decide), h.links, h.slots,
    h.pairs, (h.store.mono fun _ hx => List.mem_cons_of_mem _ hx).trans
      ((w.bumpDev_storeKept k).mono fun _ hx => List.mem_singleton.1 hx ▸ List.mem_cons_self)⟩

theorem State.LogsOk.sound (h : s.LogsOk) : s.LogsSound := fun c => (h.logs c).sound

/-- Settles O56: every channel is reached once, as it stood, and the edge is counted after them. -/
theorem stopAllTripsEveryActiveChannel : Obligations.StopAllTripsEveryActiveChannel := by
  refine ⟨fun s ho hstop => ?assert, fun s hstop => ?release, fun s hstop => ?noAssert, fun s hstop => ?noRelease⟩
  case assert =>
    have hexec : exec .stopAllAssert s =
        .next (({ s with stopAll := true }.forChans State.externalStop allChans).bumpDev .stopAllChanges) :=
      congrArg Host.Outcome.next (if_neg (by rw [hstop]; decide))
    have heach := State.forAll_each (s := { s with stopAll := true }) (f := State.externalStop)
      (fun u d hu => State.externalStop_acts u d hu) ho.sound
    refine ⟨_, hexec, ?_⟩
    generalize ({ s with stopAll := true } : State).forChans State.externalStop allChans = w at heach
    obtain ⟨hwhole, -, heach⟩ := heach
    obtain ⟨hdev, hcount, hbit, hlinks, hslots, hpairs, hstore⟩ := edge_whole (k := .stopAllChanges) hwhole
    have hnotices (c : Chan) : (w.bumpDev .stopAllChanges).notices.chan[c] = w.notices.chan[c] := by
      rw [(w.bumpDev_noticesKept .stopAllChanges).chans]
    refine ⟨hdev, hcount, hbit, hlinks, hslots, hpairs, fun c hc => ?_, fun c hc => ?_, fun c hc => ?_, hstore⟩
    all_goals
      obtain ⟨u, hu, hbefore, hafter⟩ := heach c (List.mem_finRange c)
      have hlast := hbefore.lastVit hu.pairs
      obtain ⟨az, haz⟩ := hbefore.chan
      have hst : (u.chan c).st = (s.chan c).st := by rw [haz]; rfl
    · have htrip := State.tripHeld_trippedIn (s := u) (c := c) (by rw [hst]; exact hc) .externalStop
      rw [State.externalStop_of_ne (by rw [hst]; exact ne_tripped_of_tripable hc)] at hafter
      rw [hlast] at htrip
      refine ⟨Tripped.around ⟨az, haz⟩ htrip.chan.tripped hafter.chan, ?_⟩
      rw [hnotices, hafter.notice, htrip.tallied.faults, hbefore.notice]
    · obtain ⟨hlater, -⟩ := State.laterFault_laterIn (s := u) (c := c) (by rw [hst, hc]; decide) .externalStop
        (u.lastVit c).1 (u.lastVit c).2.1 (u.lastVit c).2.2
      rw [State.externalStop_of_tripped (by rw [hst]; exact hc)] at hafter
      obtain ⟨log, hold, -, -, hchan⟩ := hlater.chan
      obtain ⟨az', haz'⟩ := hafter.chan
      refine ⟨by rw [hnotices, hafter.notice, hlater.tallied.faults, hbefore.notice], az', log, hold, ?_⟩
      refine haz'.trans ?_
      rw [hchan, haz]
      rfl
    · obtain ⟨htripable, hne⟩ := inPlan_eq_false hc
      rw [State.externalStop_of_ne (by rw [hst]; exact hne), State.tripHeld_idle (by rw [hst]; exact htripable)] at hafter
      exact (SameButAz.trans ⟨az, haz⟩ hafter.chan)
  case release =>
    have hexec : exec .stopAllRelease s = .next ({ s with stopAll := false }.bumpDev .stopAllChanges) :=
      congrArg Host.Outcome.next (if_pos hstop)
    have hkept := State.bumpDev_noticesKept { s with stopAll := false } .stopAllChanges
    refine ⟨_, hexec, State.bumpDev_deviceKept _ _, ⟨?_, ?_, ?_, NoticeUnit.setBit_bit _ _ (by decide)⟩,
      ⟨hkept.chans, hkept.bits, hkept.attnEnable, hkept.paceTime⟩, rfl, rfl, rfl, rfl, rfl, State.bumpDev_storeKept _ _⟩
    all_goals rw [State.bumpDev_dev]
    · exact (BitVec.add_zero _).symm
    · exact (BitVec.add_zero _).symm
    · rfl
  case noAssert => exact congrArg Host.Outcome.next (if_pos hstop)
  case noRelease => exact congrArg Host.Outcome.next (if_neg (by rw [hstop]; decide))

/-! ### LINK_OK -/

/-- What the fall of LINK_OK makes of a channel in a plan state that has no LINK_DOWN (R8, R10). -/
structure LinkFell (s t : State) (c : Chan) : Prop where
  chan : ∃ az log hold, hold.linkDown = true ∧ t.chan c = { s.chan c with
    st := if (s.chan c).st = .running then .held else (s.chan c).st
    demand := if (s.chan c).st = .running then 0 else (s.chan c).demand
    chop := if (s.chan c).st = .running then none else (s.chan c).chop
    linkHold := if (s.chan c).st.tripable then .started else (s.chan c).linkHold
    az := az
    log := log
    hold := hold }
  wanted : (s.chan c).st = .running → t.arb.wanted[c] = ⟨.none, 0⟩
  pairs : t.pairs = s.pairs

theorem State.joinLinkDown_idle (h : ((s.chan c).st.inPlan && !(s.chan c).hold.linkDown) = false) : s.joinLinkDown c = s := by
  unfold State.joinLinkDown
  dsimp only
  rw [h]
  rfl

/-- R8, R10: LINK_DOWN joins the set. -/
theorem State.joinLinkDown_fell (hin : (s.chan c).st.inPlan = true) (hdown : (s.chan c).hold.linkDown = false) :
    LinkFell s (s.joinLinkDown c) c := by
  have hmoved (w : State) : ∃ az, ((if (w.chan c).st = .running then w.moveTo c .held else w).chan c) = { w.chan c with
      st := if (w.chan c).st = .running then .held else (w.chan c).st
      demand := if (w.chan c).st = .running then 0 else (w.chan c).demand
      chop := if (w.chan c).st = .running then none else (w.chan c).chop
      az := az } := by
    split
    next h =>
      obtain ⟨az, haz⟩ := w.moveTo_chan_self c .held
      rw [if_pos h, if_pos h] at haz
      exact ⟨az, haz⟩
    next => exact ⟨(w.chan c).az, rfl⟩
  have hwanted (w : State) (h : (w.chan c).st = .running) :
      (if (w.chan c).st = .running then w.moveTo c .held else w).arb.wanted[c] = ⟨.none, 0⟩ := by
    rw [if_pos h, w.moveTo_wanted c (by decide), if_pos h]
  have hpairs (w : State) : (if (w.chan c).st = .running then w.moveTo c .held else w).pairs = w.pairs := by
    split
    · exact w.moveTo_pairs c .held
    · rfl
  have hcaused : ((s.modChan c fun ch => { ch with linkHold := if ch.st.tripable then .started else ch.linkHold }).modChan c fun ch =>
      { ch with hold := ch.hold.put .linkDown true }).chan c = { s.chan c with
        linkHold := if (s.chan c).st.tripable then .started else (s.chan c).linkHold
        hold := (s.chan c).hold.put .linkDown true } := by
    rw [State.chan_modChan_self, State.chan_modChan_self]
  have hcausedPairs : ((s.modChan c fun ch => { ch with linkHold := if ch.st.tripable then .started else ch.linkHold }).modChan c fun ch =>
      { ch with hold := ch.hold.put .linkDown true }).pairs = s.pairs := rfl
  unfold State.joinLinkDown State.joinCause
  dsimp only
  rw [hin, hdown]
  simp only [Bool.not_false, Bool.and_true, if_true]
  generalize ((s.modChan c fun ch => { ch with linkHold := if ch.st.tripable then .started else ch.linkHold }).modChan c fun ch =>
      { ch with hold := ch.hold.put .linkDown true }) = w at hcaused hcausedPairs ⊢
  obtain ⟨az, haz⟩ := hmoved w
  have hw := hwanted w
  have hp := (hpairs w).trans hcausedPairs
  generalize (if (w.chan c).st = .running then w.moveTo c .held else w) = w' at haz hw hp ⊢
  rw [hcaused] at haz hw
  have hne : (w'.chan c).st ≠ .running := by
    rw [haz]
    change (if (s.chan c).st = .running then ChState.held else (s.chan c).st) ≠ .running
    split
    · decide
    next h => exact h
  have hsettled := ((Recorded.refl c w').reported).event hne c subHold 0 (leBytes 1 HoldCause.linkDown.code)
  change LinkFell s (w'.event c c subHold 0 (leBytes 1 HoldCause.linkDown.code)) c
  obtain ⟨log, hold, hchan, hdown', -⟩ := hsettled.chan
  rw [haz] at hchan hdown'
  exact ⟨⟨az, log, hold, hdown', hchan⟩, fun h => by rw [hsettled.arb]; exact hw h, hsettled.pairs.trans hp⟩

/-- What the rise of LINK_OK makes of a channel in a plan state that has LINK_DOWN (R9, R10). -/
structure LinkRose (s t : State) (c : Chan) : Prop where
  linkDown : (t.chan c).hold.linkDown = false
  st : (t.chan c).st = if (s.chan c).st = .held ∧ (t.chan c).hold.isEmpty = true then .running else (s.chan c).st
  linkHold : (t.chan c).linkHold = ⟨false, 0, false⟩
  planSet : (t.chan c).planSet = (s.chan c).planSet
  pairs : t.pairs = s.pairs

theorem State.leaveLinkDown_idle (h : ((s.chan c).st.inPlan && (s.chan c).hold.linkDown) = false) : s.leaveLinkDown c = s := by
  have hcond : ((s.chan c).st.inPlan && (s.chan c).hold.has .linkDown) = false := h
  unfold State.leaveLinkDown State.leaveCause
  dsimp only
  rw [hcond]
  rfl

/-- R8 to R10: LINK_DOWN leaves the set. -/
theorem State.leaveLinkDown_rose (hin : (s.chan c).st.inPlan = true) (hdown : (s.chan c).hold.linkDown = true)
    (hne : (s.chan c).st ≠ .running) : LinkRose s (s.leaveLinkDown c) c := by
  have hcond : ((s.chan c).st.inPlan && (s.chan c).hold.has .linkDown) = true := by rw [hin]; exact hdown
  have hleft : (s.modChan c fun ch => { ch with hold := ch.hold.put .linkDown false, linkHold := .stopped }).chan c =
      { s.chan c with hold := (s.chan c).hold.put .linkDown false, linkHold := .stopped } := State.chan_modChan_self _ _ _
  have hleftPairs : (s.modChan c fun ch => { ch with hold := ch.hold.put .linkDown false, linkHold := .stopped }).pairs = s.pairs := rfl
  unfold State.leaveLinkDown State.leaveCause
  dsimp only
  rw [if_pos hcond]
  simp only [if_true]
  generalize s.modChan c (fun ch => { ch with hold := ch.hold.put .linkDown false, linkHold := .stopped }) = w at hleft hleftPairs ⊢
  have hevent := ((Recorded.refl c w).reported).event (by rw [hleft]; exact hne) c subRelease 0 (leBytes 1 HoldCause.linkDown.code)
  generalize w.event c c subRelease 0 (leBytes 1 HoldCause.linkDown.code) = w' at hevent ⊢
  obtain ⟨log, hold, hchan, hdown', -⟩ := hevent.chan
  have hpairs := hevent.pairs.trans hleftPairs
  rw [hleft] at hchan hdown'
  have hst : (w'.chan c).st = (s.chan c).st := by rw [hchan]; rfl
  by_cases hempty : (w'.chan c).st = .held ∧ (w'.chan c).hold.isEmpty = true
  · obtain ⟨_, _, _, _, _, _, hrun⟩ := w'.enterRunning_rest c true
    have hpairs' := w'.enterRunning_pairs c true
    rw [if_pos hempty]
    generalize w'.enterRunning c true = w'' at hrun hpairs' ⊢
    have hsame : (w''.chan c).hold = (w'.chan c).hold := by rw [hrun]
    refine ⟨?_, ?_, ?_, ?_, hpairs'.trans hpairs⟩
    · rw [hsame, hchan]
      exact hdown'
    · rw [if_pos ⟨hst ▸ hempty.1, hsame ▸ hempty.2⟩, hrun]
    · rw [hrun, hchan]
      rfl
    · rw [hrun, hchan]
      rfl
  · rw [if_neg hempty]
    refine ⟨?_, ?_, ?_, ?_, hpairs⟩
    · rw [hchan]
      exact hdown'
    · rw [← hst, if_neg hempty]
    · rw [hchan]
      rfl
    · rw [hchan]
      rfl

theorem State.joinLinkDown_acts (s : State) (c : Chan) (hs : s.LogsSound) : OneActs s (s.joinLinkDown c) c := by
  refine ⟨(Local.refl c s).joinLinkDown (hs c), ?_⟩
  cases h : (s.chan c).st.inPlan && !(s.chan c).hold.linkDown with
  | false => rw [State.joinLinkDown_idle h]
  | true =>
    simp only [Bool.and_eq_true, Bool.not_eq_true'] at h
    exact (State.joinLinkDown_fell h.1 h.2).pairs

theorem State.settle_pairs (s : State) (c : Chan) : (s.settle c).pairs = s.pairs :=
  (s.settle_outcome c).elim Reported.pairs fun ⟨_, _, _, hpairs⟩ => hpairs

theorem State.event_pairs (s : State) (c a : Chan) (k n : Nat) (b : List Byte) : (s.event c a k n b).pairs = s.pairs :=
  (State.settle_pairs _ c).trans ((Recorded.refl c s).emitEvent a k n b).pairs

theorem State.leaveCause_pairs (s : State) (c : Chan) (k : HoldCause) : (s.leaveCause c k).pairs = s.pairs := by
  have hevent := (s.modChan c fun ch => { ch with
    hold := ch.hold.put k false, linkHold := if k = .linkDown then .stopped else ch.linkHold }).event_pairs c c subRelease 0 (leBytes 1 k.code)
  unfold State.leaveCause
  dsimp only
  generalize State.event _ c c subRelease 0 (leBytes 1 k.code) = w at hevent ⊢
  split
  · split
    · exact (w.enterRunning_pairs c true).trans hevent
    · exact hevent
  · rfl

theorem State.leaveLinkDown_acts (s : State) (c : Chan) (hs : s.LogsSound) : OneActs s (s.leaveLinkDown c) c :=
  ⟨(Local.refl c s).leaveCause .linkDown (hs c), s.leaveCause_pairs c .linkDown⟩

/-- An edge of LINK_OK: what it leaves of the machine and of the channels that are in no plan state, and each channel of a plan state as its
operation finds it and leaves it. -/
theorem linkEdge_each {ok : Bool} (ho : s.LogsOk) (hacts : ∀ (u : State) (d : Chan), u.LogsSound → OneActs u (f u d) d)
    (hidle : ∀ (u : State) (d : Chan), (u.chan d).st.inPlan = false → f u d = u) :
    let t := (({ s with linkOk := ok } : State).forChans f allChans).bumpDev .linkChanges
    (DeviceKept { s with linkOk := ok } t ∧
      t.notices.dev = { s.notices.dev with linkChanges := s.notices.dev.linkChanges + 1 } ∧
      t.notices.attention.getLsbD 16 = true ∧ t.links = s.links ∧ t.slots = s.slots ∧ t.pairs = s.pairs ∧
      (∀ c, (s.chan c).st.inPlan = false → ∃ az, t.chan c = { s.chan c with az := az }) ∧
      StoreKept s t (devNoticeArea :: allChans.flatMap logAreas)) ∧
    ∀ c, ∃ u, SameButAz (s.chan c) (u.chan c) ∧ SameButAz ((f u c).chan c) (t.chan c) ∧ t.arb.wanted[c] = (f u c).arb.wanted[c] := by
  have heach := State.forAll_each (s := { s with linkOk := ok }) hacts ho.sound
  dsimp only
  generalize ({ s with linkOk := ok } : State).forChans f allChans = w at heach ⊢
  obtain ⟨hwhole, -, heach⟩ := heach
  obtain ⟨hdev, hcount, hbit, hlinks, hslots, hpairs, hstore⟩ := edge_whole (k := .linkChanges) hwhole
  have hchannel (c : Chan) : ∃ u, SameButAz (s.chan c) (u.chan c) ∧ SameButAz ((f u c).chan c) (w.chan c) ∧
      w.arb.wanted[c] = (f u c).arb.wanted[c] := by
    obtain ⟨u, -, hbefore, hafter⟩ := heach c (List.mem_finRange c)
    exact ⟨u, hbefore.chan, hafter.chan, hafter.wanted⟩
  refine ⟨⟨hdev, hcount, hbit, hlinks, hslots, hpairs, fun c hc => ?_, hstore⟩, hchannel⟩
  obtain ⟨u, ⟨az, hu⟩, hw, -⟩ := hchannel c
  rw [hidle u c (by rw [hu]; exact hc)] at hw
  exact SameButAz.trans ⟨az, hu⟩ hw

/-- Settles O57: at each edge every channel is reached once, as it stood. -/
theorem linkEdgesHoldAndRelease : Obligations.LinkEdgesHoldAndRelease := by
  refine ⟨fun s ho hok => ?fall, fun s ho hok => ?rise, fun s hok => ?noFall, fun s hok => ?noRise⟩
  case fall =>
    obtain ⟨hwhole, heach⟩ := linkEdge_each (ok := false) (f := State.joinLinkDown) ho (fun u d hu => u.joinLinkDown_acts d hu)
      fun u d hd => State.joinLinkDown_idle (by rw [hd]; rfl)
    refine ⟨_, congrArg Host.Outcome.next (if_pos hok), hwhole, fun c hin => ?_⟩
    obtain ⟨u, ⟨az, hu⟩, ⟨az', ht⟩, hwanted⟩ := heach c
    cases hdown : (s.chan c).hold.linkDown with
    | true =>
      rw [State.joinLinkDown_idle (by rw [hu, hin, hdown]; rfl), hu] at ht
      refine ⟨?_, fun h => absurd h (by decide)⟩
      rw [ht]
      exact hdown
    | false =>
      obtain ⟨⟨az'', log, hold, hheld, hchan⟩, hnothing, -⟩ := State.joinLinkDown_fell (s := u) (c := c) (by rw [hu]; exact hin)
        (by rw [hu]; exact hdown)
      rw [hchan] at ht
      rw [hu] at ht hnothing
      rw [ht]
      refine ⟨hheld, fun _ => ⟨rfl, fun hrun => ⟨if_pos hrun, hwanted.trans (hnothing hrun)⟩, fun hne => ?_, fun htripped => ?_,
        rfl, rfl, rfl⟩⟩
      · have htripable : (s.chan c).st.tripable = true := by
          revert hin hne
          cases (s.chan c).st <;> decide
        exact if_pos htripable
      · exact if_neg (by rw [htripped]; decide)
  case rise =>
    obtain ⟨hwhole, heach⟩ := linkEdge_each (ok := true) (f := State.leaveLinkDown) ho (fun u d hu => u.leaveLinkDown_acts d hu)
      fun u d hd => State.leaveLinkDown_idle (by rw [hd]; rfl)
    refine ⟨_, congrArg Host.Outcome.next (if_neg (by rw [hok]; decide)), hwhole, fun c hin => ?_⟩
    obtain ⟨u, ⟨az, hu⟩, ⟨az', ht⟩, -⟩ := heach c
    cases hdown : (s.chan c).hold.linkDown with
    | false =>
      rw [State.leaveLinkDown_idle (by rw [hu, hin, hdown]; rfl), hu] at ht
      refine ⟨?_, fun h => absurd h (by decide)⟩
      rw [ht]
      exact hdown
    | true =>
      have hne : (s.chan c).st ≠ .running := fun hrun => by
        have hempty := ho.unheld c hrun
        simp [HoldSet.isEmpty, hdown] at hempty
      obtain ⟨hleft, hst, hhold, hplan, -⟩ := State.leaveLinkDown_rose (s := u) (c := c) (by rw [hu]; exact hin)
        (by rw [hu]; exact hdown) (by rw [hu]; exact hne)
      rw [hu] at hst hplan
      rw [ht]
      exact ⟨hleft, fun _ => ⟨hne, hst, hhold, hplan⟩⟩
  case noFall => exact congrArg Host.Outcome.next (if_neg (by rw [hok]; decide))
  case noRise => exact congrArg Host.Outcome.next (if_pos hok)

end Sys2Proof.Machine

/-!
What an event of one channel leaves in any state of the machine: the measures of the samples it has taken, and of the rest all but
itself and the auto-zero of a channel it leads (R62).
-/

namespace Sys2Proof.Machine

variable {s₀ s t u : State} {c d : Chan}

/-! ### The relation -/

/-- What of a channel only the arrival, the miss and the accumulation of a sample change. -/
def Channel.measures (ch : Channel) : Corrected × Nat × Bool × U32 × Acc × Acc :=
  (ch.held, ch.silence, ch.stageHot, ch.missedCtr, ch.planSet, ch.lifeSet)

/-- A channel after auto-zero in its leader's rest (R62). -/
def ZeroedOnly (ch ch' : Channel) : Prop := ∃ az cal ctr, ch' = { ch with az := az, cal := cal, learnCtr := ctr }

theorem ZeroedOnly.trans {a b e : Channel} (h : ZeroedOnly a b) (k : ZeroedOnly b e) : ZeroedOnly a e := by
  obtain ⟨x, y, z, rfl⟩ := h
  obtain ⟨x', y', z', rfl⟩ := k
  exact ⟨x', y', z', rfl⟩

theorem ZeroedOnly.measures {a b : Channel} (h : ZeroedOnly a b) : b.measures = a.measures := by
  obtain ⟨x, y, z, rfl⟩ := h
  rfl

/-- The channels that an event of channel c does not reach. -/
def Beyond (s t : State) (c : Chan) : Prop := ∀ d, d ≠ c → t.chan d = s.chan d ∨
  (s.leads c = true ∧ d = followerOf (pairOf c) ∧ ZeroedOnly (s.chan d) (t.chan d))

/-- t is s after an event of channel c by which no sample is reported, missed or accumulated. -/
structure Gauged (c : Chan) (s t : State) : Prop where
  device : DeviceKept s t
  links : t.links = s.links
  slots : t.slots = s.slots
  pairs : t.pairs = s.pairs
  arb : ArbiterKept s t c
  notices : NoticesKept s t c
  measures : (t.chan c).measures = (s.chan c).measures
  others : Beyond s t c

theorem Gauged.refl (c : Chan) (s : State) : Gauged c s s :=
  ⟨.refl s, rfl, rfl, rfl, .of (by rfl) c, .refl s c, rfl, fun _ _ => .inl rfl⟩

theorem Beyond.trans (h : Beyond s u c) (k : Beyond u t c) (hp : u.pairs = s.pairs) : Beyond s t c := by
  intro d hd
  rcases k d hd with e | ⟨hl, hf, hz⟩
  · rw [e]
    exact h d hd
  · rcases h d hd with e | ⟨hl', -, hz'⟩
    · rw [e] at hz
      exact .inr ⟨(State.leads_of_pairs hp c) ▸ hl, hf, hz⟩
    · exact .inr ⟨hl', hf, hz'.trans hz⟩

theorem Gauged.trans (h : Gauged c s u) (k : Gauged c u t) : Gauged c s t :=
  ⟨h.device.trans k.device, k.links.trans h.links, k.slots.trans h.slots, k.pairs.trans h.pairs, h.arb.trans k.arb,
    h.notices.trans k.notices, k.measures.trans h.measures, h.others.trans k.others h.pairs⟩

theorem Gauged.leads (h : Gauged c s t) (d : Chan) : t.leads d = s.leads d := State.leads_of_pairs h.pairs d

/-- The measures of every channel stand. -/
theorem Gauged.measures_all (h : Gauged c s t) (d : Chan) : (t.chan d).measures = (s.chan d).measures := by
  by_cases hd : d = c
  · rw [hd]
    exact h.measures
  · rcases h.others d hd with e | ⟨-, -, hz⟩
    · rw [e]
    · exact hz.measures

/-! ### Changes of one part -/

theorem Gauged.modChan (h : Gauged c s₀ s) (f : Channel → Channel) (hf : (f (s.chan c)).measures = (s.chan c).measures) :
    Gauged c s₀ (s.modChan c f) :=
  h.trans ⟨⟨rfl, rfl, rfl, rfl, rfl, rfl, rfl, rfl, rfl, rfl⟩, rfl, rfl, rfl, .of (by rfl) c, .of (State.modChan_notices s c f) c,
    (congrArg Channel.measures (State.chan_modChan_self s c f)).trans hf, fun _ hd => .inl (State.chan_modChan_ne s f hd)⟩

theorem Gauged.modFollower (h : Gauged c s₀ s) (f : Channel → Channel) (hl : s.leads c = true)
    (hf : ZeroedOnly (s.chan (followerOf (pairOf c))) (f (s.chan (followerOf (pairOf c))))) :
    Gauged c s₀ (s.modChan (followerOf (pairOf c)) f) := by
  have hne : c ≠ followerOf (pairOf c) := ne_followerOf_of_leads hl
  refine h.trans ⟨⟨rfl, rfl, rfl, rfl, rfl, rfl, rfl, rfl, rfl, rfl⟩, rfl, rfl, rfl, .of (by rfl) c, .of (State.modChan_notices s _ f) c,
    congrArg Channel.measures (State.chan_modChan_ne s f hne), fun d _ => ?_⟩
  by_cases hd : d = followerOf (pairOf c)
  · rw [hd]
    exact .inr ⟨hl, rfl, by rw [State.chan_modChan_self]; exact hf⟩
  · exact .inl (State.chan_modChan_ne s f hd)

theorem Gauged.withLog {l : Logger} (h : Gauged c s₀ s) (hc : ∀ d, t.chan d = if d = c then (s.chan c).withLog l else s.chan d)
    (hr : DeviceKept s t ∧ t.links = s.links ∧ t.slots = s.slots ∧ t.pairs = s.pairs ∧ t.arb = s.arb) (hn : NoticesKept s t c) :
    Gauged c s₀ t := by
  obtain ⟨hdev, hlinks, hslots, hpairs, harb⟩ := hr
  refine h.trans ⟨hdev, hlinks, hslots, hpairs, .of harb c, hn, ?_, fun d hd => .inl ((hc d).trans (if_neg hd))⟩
  rw [hc c, if_pos rfl]
  rfl

theorem Gauged.bumpChan (h : Gauged c s₀ s) (k : ChanCount) : Gauged c s₀ (s.bumpChan c k) :=
  h.trans ⟨s.bumpChan_device c k, rfl, rfl, rfl, .of (by rfl) c, s.bumpChan_notices c k, congrArg Channel.measures (s.bumpChan_chan c k c),
    fun d _ => .inl (s.bumpChan_chan c k d)⟩

theorem Gauged.notify (h : Gauged c s₀ s) : Gauged c s₀ (s.notify c) := by
  obtain ⟨a, ha, hkept, -⟩ := s.notify_eq c
  rw [ha]
  exact h.trans ⟨⟨rfl, rfl, rfl, rfl, rfl, rfl, rfl, rfl, rfl, rfl⟩, rfl, rfl, rfl, hkept, .of (by rfl) c, rfl, fun _ _ => .inl rfl⟩

theorem Gauged.deliver (h : Gauged c s₀ s) (w : Wanted) : Gauged c s₀ (s.deliver c w) := by
  refine h.trans ⟨⟨rfl, rfl, rfl, rfl, rfl, rfl, rfl, rfl, rfl, rfl⟩, rfl, rfl, rfl, ⟨rfl, rfl, rfl, rfl, fun d hd => ?_⟩, .of (by rfl) c, rfl,
    fun _ _ => .inl rfl⟩
  have hne : (c : Nat) ≠ d := fun e => hd (Fin.ext e.symm)
  simp [State.deliver, State.modArb, Vector.getElem_set_ne, hne]

theorem Gauged.setSt (h : Gauged c s₀ s) (st : ChState) : Gauged c s₀ (s.setSt c st) := by
  unfold State.setSt
  split
  · exact h
  · exact (h.modChan _ rfl).bumpChan _

theorem Gauged.modAz (h : Gauged c s₀ s) (f : AutoZero → AutoZero) : Gauged c s₀ (s.modAz c f) := by
  have hself := h.modChan (fun ch => { ch with az := f ch.az }) rfl
  unfold State.modAz
  dsimp only
  split
  · next hl => exact hself.modFollower _ hl ⟨_, _, _, rfl⟩
  · exact hself

/-! ### Records -/

theorem Gauged.modLog (h : Gauged c s₀ s) (f : Logger → Logger) : Gauged c s₀ (s.modLog c f) :=
  have r := State.modLog_rest s c f
  h.withLog (fun d => State.modLog_chan s c d f) ⟨r.device, r.links, r.slots, r.pairs, r.arb⟩ (.of r.notices c)

theorem Gauged.handover (h : Gauged c s₀ s) (p : PoolId) (q : CloseReason) : Gauged c s₀ (s.handover c p q) := by
  have hchan := fun d => State.handover_chan s c d p q
  obtain ⟨t, ht, hrest, -⟩ := State.handover_rest s c p q
  rw [ht] at hchan ⊢
  exact h.withLog hchan ⟨hrest.device.trans (t.bumpChan_device _ _), hrest.links, hrest.slots, hrest.pairs, hrest.arb⟩
    ((NoticesKept.of hrest.notices c).trans (t.bumpChan_notices _ _))

theorem Gauged.closePool (h : Gauged c s₀ s) (q : CloseReason) : Gauged c s₀ (s.closePool c q) := by
  unfold State.closePool
  split
  · split
    · exact h.handover _ q
    · exact h
  · exact h

theorem Gauged.writeRecord (h : Gauged c s₀ s) (p : PoolId) (x : Record) : Gauged c s₀ (s.writeRecord c p x) :=
  have r := State.writeRecord_rest s c p x
  h.withLog (fun d => State.writeRecord_chan s c d p x) ⟨r.device, r.links, r.slots, r.pairs, r.arb⟩ (.of r.notices c)

theorem Gauged.writeGap (h : Gauged c s₀ s) (p : PoolId) : Gauged c s₀ (s.writeGap c p) := by
  unfold State.writeGap
  dsimp only
  split
  · exact h
  · exact (h.modLog _).writeRecord p _

theorem Gauged.placeIn (h : Gauged c s₀ s) (p : PoolId) (x : Record) : Gauged c s₀ (s.placeIn c p x) := by
  have hwritten := (h.writeGap p).writeRecord p x
  unfold State.placeIn
  dsimp only
  split
  · exact hwritten.handover p _
  · exact hwritten

theorem Gauged.place (h : Gauged c s₀ s) (q : LossPolicy) (x : Record) : Gauged c s₀ (s.place c q x) := by
  unfold State.place
  dsimp only
  split
  · split
    · exact h.placeIn _ x
    · split
      · exact (h.handover _ _).placeIn _ x
      · exact (h.handover _ _).modLog _
  · exact h.modLog _

theorem Gauged.emit (h : Gauged c s₀ s) (k : RecKind) (n : Nat) (mk : U32 → List Byte) : Gauged c s₀ (s.emit c k n mk) :=
  (h.modLog _).place _ _

theorem Gauged.emitEvent (h : Gauged c s₀ s) (a : Chan) (k f : Nat) (b : List Byte) : Gauged c s₀ (s.emitEvent c a k f b) := by
  unfold State.emitEvent
  exact h.emit _ _ _

theorem Gauged.emitStepEnd (h : Gauged c s₀ s) (st : Step) (r : StepReason) (o : StepOutcome) (v i x : Int) :
    Gauged c s₀ (s.emitStepEnd c st r o v i x) := by
  unfold State.emitStepEnd
  dsimp only
  split
  · split
    · exact (h.emit _ _ _).closePool _
    · exact h.emit _ _ _
  · exact h.emit _ _ _

/-! ### States, steps and hold causes -/

theorem Gauged.departLocal (h : Gauged c s₀ s) : Gauged c s₀ (s.departLocal c) := (h.modChan _ rfl).modAz _

theorem Gauged.moveTo (h : Gauged c s₀ s) (st : ChState) : Gauged c s₀ (s.moveTo c st) := by
  unfold State.moveTo
  split
  · exact (h.departLocal.setSt st).notify
  · exact h.setSt st

theorem Channel.restart_measures (ch : Channel) : ch.restart.measures = ch.measures := by
  unfold Channel.restart
  split <;> rfl

theorem Channel.enterStep_measures (ch : Channel) (n : Nat) (st : Step) (r : Bool) : (ch.enterStep n st r).measures = ch.measures := by
  unfold Channel.enterStep
  dsimp only
  split
  · exact Channel.restart_measures _
  · rfl

theorem Gauged.notifyEntry (h : Gauged c s₀ s) : Gauged c s₀ (s.notifyEntry c) := by
  unfold State.notifyEntry
  split
  · exact h
  · exact h.notify

theorem Gauged.enterStep (h : Gauged c s₀ s) (n : Nat) (r : Bool) : Gauged c s₀ (s.enterStep c n r) := by
  unfold State.enterStep
  split
  · exact ((h.modChan _ (Channel.enterStep_measures _ _ _ _)).modAz _).notifyEntry
  · exact h

theorem Gauged.enterRunning (h : Gauged c s₀ s) (r : Bool) : Gauged c s₀ (s.enterRunning c r) := by
  have hset := (h.setSt .running).modChan (fun ch => { ch with seqr := { ch.seqr with qualify := [0, 0, 0, 0] } }) rfl
  unfold State.enterRunning
  dsimp only
  split
  · exact (hset.modChan _ (Channel.restart_measures _)).notify
  · exact hset.enterStep _ _

theorem Gauged.joinCause (h : Gauged c s₀ s) (k : HoldCause) : Gauged c s₀ (s.joinCause c k) := by
  have hput := h.modChan (fun ch => { ch with hold := ch.hold.put k true }) rfl
  unfold State.joinCause
  dsimp only
  split
  · exact (hput.moveTo _).emitEvent _ _ _ _
  · exact hput.emitEvent _ _ _ _

theorem Gauged.settle (h : Gauged c s₀ s) : Gauged c s₀ (s.settle c) := by
  unfold State.settle
  dsimp only
  split
  · split
    · exact (h.modLog _).joinCause _
    · exact h.modLog _
  · exact h

theorem Gauged.event (h : Gauged c s₀ s) (a : Chan) (k f : Nat) (b : List Byte) : Gauged c s₀ (s.event c a k f b) :=
  (h.emitEvent a k f b).settle

/-! ### Trips, plan ends and step ends -/

theorem Gauged.trip (h : Gauged c s₀ s) (k : Cause) (l : List Cause) (v i x : Int) (e : Option Nat) :
    Gauged c s₀ (s.trip c k l v i x e) := by
  have rest {w : State} (hw : Gauged c s₀ w) : Gauged c s₀ ((((w.setSt c .tripped).modChan c fun ch => ch.tripLocal k l v i x e).event c c
      subTrip 0 (tripBody k l v i x)).closePool c .trip |>.bumpChan c .faults |>.notify c) :=
    (((((hw.setSt _).modChan _ rfl).event _ _ _ _).closePool _).bumpChan _).notify
  unfold State.trip
  dsimp only
  split
  · exact rest h.departLocal
  · exact rest h

theorem Gauged.laterFault (h : Gauged c s₀ s) (k : Cause) (v i x : Int) : Gauged c s₀ (s.laterFault c k v i x) := by
  have hfault := h.modChan (fun ch => { ch with
    fault := { ch.fault with laterCount := satSucc 16 ch.fault.laterCount, lastLater := some k, acked := false } }) rfl
  unfold State.laterFault
  exact (hfault.event _ _ _ _).bumpChan _

theorem Gauged.laterFaults (h : Gauged c s₀ s) (x : Input) (l : List Cause) : Gauged c s₀ (s.laterFaults c x l) := by
  induction l generalizing s with
  | nil => exact h
  | cons k ks ih => exact ih (h.laterFault k _ _ _)

theorem Gauged.tripHeld (h : Gauged c s₀ s) (k : Cause) : Gauged c s₀ (s.tripHeld c k) := by
  unfold State.tripHeld
  dsimp only
  split
  · exact h.trip _ _ _ _ _ _
  · exact h

theorem Channel.endPlan_measures (ch : Channel) : ch.endPlan.measures = ch.measures := rfl

theorem Gauged.endPlan (h : Gauged c s₀ s) (r : PlanReason) : Gauged c s₀ (s.endPlan c r) := by
  unfold State.endPlan
  have hidle := ((h.emit .planEnd 2 (planEndBytes (s.chan c) c r)).closePool .planEnd).moveTo .idle
  exact ((hidle.modChan Channel.endPlan (Channel.endPlan_measures _)).modAz _).settle

theorem Gauged.switchPlan (h : Gauged c s₀ s) : Gauged c s₀ (s.switchPlan c) := by
  unfold State.switchPlan
  split
  · exact ((h.modChan _ rfl).emitEvent _ _ _ _).enterStep _ _
  · exact h

theorem Gauged.follow (h : Gauged c s₀ s) (f : Follow) : Gauged c s₀ (s.follow c f) := by
  have hloops (l : List (Nat × Nat)) : Gauged c s₀ (s.modChan c fun ch => { ch with seqr := { ch.seqr with loops := l } }) :=
    h.modChan _ rfl
  unfold State.follow
  dsimp only
  split
  · exact h.endPlan _
  · split
    · exact (hloops _).enterStep _ _
    · exact (hloops _).endPlan _
  · exact h

theorem Gauged.endStep (h : Gauged c s₀ s) (st : Step) (n : Nat) (e : EndCond) (v i x : Int) :
    Gauged c s₀ (s.endStep c st n e v i x) := by
  unfold State.endStep
  dsimp only
  split
  · exact ((h.emitStepEnd _ _ _ _ _ _).modChan _ rfl).trip _ _ _ _ _ _
  · have href (r : StepReason) (o : StepOutcome) (q : Option Nat) : Gauged c s₀ ((s.emitStepEnd c st r o v i x).modChan c fun ch =>
        { ch with seqr := { ch.seqr with retRef := q } }) := (h.emitStepEnd st r o v i x).modChan _ rfl
    split
    · exact (href _ _ _).switchPlan.settle
    · exact ((href _ _ _).follow _).settle

end Sys2Proof.Machine

/-!
The handling of a sample but for its accumulation changes no measure; accumulation adds the sample to the sets of R71.
-/

namespace Sys2Proof.Machine

variable {s₀ s t u : State} {c d : Chan} {x : Input} {l : LimitSet}

/-! ### Auto-zero -/

theorem Channel.learn_zeroedOnly (ch : Channel) (r : Fin 3) : ZeroedOnly ch (ch.learn r) := ⟨_, _, _, rfl⟩

theorem Gauged.modZeroed (h : Gauged c s₀ s) (f : Channel → Channel) (hd : d = c ∨ (s.leads c = true ∧ d = followerOf (pairOf c)))
    (hf : ∀ ch, ZeroedOnly ch (f ch)) : Gauged c s₀ (s.modChan d f) := by
  rcases hd with rfl | ⟨hl, rfl⟩
  · exact h.modChan f (hf _).measures
  · exact h.modFollower f hl (hf _)

theorem Gauged.learn (h : Gauged c s₀ s) (hd : d = c ∨ (s.leads c = true ∧ d = followerOf (pairOf c))) (r : Fin 3) :
    Gauged c s₀ (s.learn c d r) := by
  have hlearnt := h.modZeroed (fun ch => ch.learn r) hd fun ch => ch.learn_zeroedOnly r
  unfold State.learn
  exact (hlearnt.modChan _ rfl).event _ _ _ _

theorem Gauged.autoZero (h : Gauged c s₀ s) (hd : d = c ∨ (s.leads c = true ∧ d = followerOf (pairOf c))) (own : Option (Int × Bool)) :
    Gauged c s₀ (s.autoZero c d own) := by
  have hset (az : AutoZero) := h.modZeroed (fun ch => { ch with az := az }) hd fun _ => ⟨_, _, _, rfl⟩
  unfold State.autoZero
  dsimp only
  split
  · exact (hset _).learn hd _
  · exact hset _

/-! ### The protection judgement -/

/-- R98, R127: the judgement's change of the mismatch count, made on a formed pair sample of a channel in a plan state. -/
def State.mismatched (s : State) (c : Chan) (x : Input) : State :=
  match (s.chan c).limits with
  | some l => if (s.chan c).st.inPlan && x.valid then s.judgeMismatch c l x else s
  | none => s

theorem State.judgeMismatch_of (s : State) (c : Chan) (l : LimitSet) (h : x.followerV = none) : s.judgeMismatch c l x = s := by
  unfold State.judgeMismatch
  rw [h]

theorem State.mismatched_of (s : State) (c : Chan) (h : x.followerV = none) : s.mismatched c x = s := by
  unfold State.mismatched
  split
  · rw [s.judgeMismatch_of c _ h, ite_self]
  · rfl

theorem State.judgeMismatch_chan (s : State) (c : Chan) (l : LimitSet) (x : Input) (d : Chan) : (s.judgeMismatch c l x).chan d = s.chan d := by
  unfold State.judgeMismatch
  split <;> rfl

theorem State.modChan_judgeMismatch (s : State) (f : Channel → Channel) (l : LimitSet) (x : Input) :
    (s.modChan d f).judgeMismatch c l x = (s.judgeMismatch c l x).modChan d f := by
  unfold State.judgeMismatch
  split <;> rfl

theorem Gauged.judgeChecks (h : Gauged c s₀ (s.judgeMismatch c l x)) : Gauged c s₀ (s.judgeChecks c l x) := by
  have hchecks := h.modChan (fun ch => { ch with checks := l.judge x }) rfl
  rw [← State.modChan_judgeMismatch] at hchecks
  unfold State.judgeChecks
  dsimp only
  split
  · split
    · exact hchecks
    · exact hchecks.trip _ _ _ _ _ _
  · exact hchecks.laterFaults x _

theorem Gauged.judgeSilence (h : Gauged c s₀ s) (l : LimitSet) (x : Input) : Gauged c s₀ (s.judgeSilence c l x) := by
  have hreached := h.modChan (fun ch => { ch with silenceReached := true }) rfl
  unfold State.judgeSilence
  dsimp only
  split
  · split
    · exact hreached.trip _ _ _ _ _ _
    · split
      · exact hreached
      · exact hreached.laterFault _ _ _ _
  · exact h

theorem Channel.blankingExpiry_measures (ch : Channel) (l : LimitSet) : (ch.blankingExpiry l).measures = ch.measures := by
  unfold Channel.blankingExpiry
  split <;> rfl

theorem Channel.advanceChop_measures (ch : Channel) (l : LimitSet) : (ch.advanceChop l).measures = ch.measures := by
  unfold Channel.advanceChop
  split
  · split
    · exact Channel.restart_measures _
    · rfl
  · rfl

theorem Gauged.judgeSoft (h : Gauged c s₀ s) (l : LimitSet) (x : Input) : Gauged c s₀ (s.judgeSoft c l x) := by
  have hchop := h.modChan (fun ch => ch.advanceChop l) (Channel.advanceChop_measures _ _)
  unfold State.judgeSoft
  dsimp only
  split
  · unfold State.hit
    dsimp only
    split
    · exact hchop.modChan _ rfl
    · exact (hchop.modChan _ rfl).trip _ _ _ _ _ _
  · exact hchop

theorem Gauged.judgeContact (h : Gauged c s₀ s) (l : LimitSet) (x : Input) : Gauged c s₀ (s.judgeContact c l x) := by
  have hcount := h.modChan (fun ch => { ch with contact := (s.chan c).contact.count l x }) rfl
  unfold State.judgeContact
  dsimp only
  split
  · unfold State.contactPass
    dsimp only
    split
    · exact (hcount.modChan _ rfl).enterRunning _
    · exact (hcount.modChan _ rfl).moveTo _
  · split
    · exact hcount.trip _ _ _ _ _ _
    · exact hcount

theorem Gauged.protect (h : Gauged c s₀ (s.mismatched c x)) : Gauged c s₀ (s.protect c x) := by
  unfold State.mismatched at h
  unfold State.protect
  split
  · next hl => rwa [hl] at h
  · next l hl =>
    rw [hl] at h
    dsimp only at h ⊢
    split
    · next hplan =>
      rw [hplan, Bool.true_and] at h
      have hjudged : Gauged c s₀ (if x.valid then (if (s.chan c).st = .running then s.modChan c fun ch => ch.blankingExpiry l
          else s).judgeChecks c l x else (if (s.chan c).st = .running then s.modChan c fun ch => ch.blankingExpiry l
          else s).judgeSilence c l x) := by
        have hblank := h.modChan (fun ch => ch.blankingExpiry l) (Channel.blankingExpiry_measures _ _)
        split
        · next hv =>
          rw [if_pos hv] at h hblank
          refine Gauged.judgeChecks ?_
          split
          · rw [State.modChan_judgeMismatch]
            exact hblank
          · exact h
        · next hv =>
          rw [if_neg hv] at h hblank
          split
          · exact hblank.judgeSilence l x
          · exact h.judgeSilence l x
      revert hjudged
      generalize (if x.valid then _ else _ : State) = w
      intro hjudged
      split
      · exact hjudged
      · split
        · exact hjudged.judgeSoft l x
        · split
          · exact hjudged.judgeContact l x
          · exact hjudged
    · next hplan =>
      rw [Bool.not_eq_true] at hplan
      rwa [hplan, Bool.false_and, if_neg Bool.false_ne_true] at h

/-! ### The stages after accumulation -/

theorem Gauged.endConditions (h : Gauged c s₀ s) (x : Input) : Gauged c s₀ (s.endConditions c x).1 := by
  unfold State.endConditions
  dsimp only
  split
  · next st _ =>
    have hcounted := h.modChan (fun ch => { ch with
        seqr := { ch.seqr with qualify := ch.qualifyNext st x st.conds ch.seqr.qualify } }) rfl
    split
    · exact hcounted.endStep _ _ _ _ _ _
    · exact hcounted
  · exact h

theorem Channel.regulate_measures (ch : Channel) (v i : Int) (g : Grant) : (ch.regulate v i g).measures = ch.measures := by
  unfold Channel.regulate
  split
  · split <;> rfl
  · rfl

theorem Channel.bound_measures (ch : Channel) (v i : Int) (g : Grant) : (ch.bound v i g).measures = ch.measures := by
  unfold Channel.bound
  split <;> rfl

theorem Gauged.regulate (h : Gauged c s₀ s) (x : Input) (g : Grant) : Gauged c s₀ (s.regulate c x g) := by
  unfold State.regulate
  split
  · split
    · exact (h.deliver _).modChan _ (Channel.regulate_measures _ _ _ _)
    · exact h
  · exact h.modChan _ (Channel.bound_measures _ _ _ _)

theorem Gauged.sampleRecord (h : Gauged c s₀ s) (x : Input) (f : Bool) : Gauged c s₀ (s.sampleRecord c x f) := by
  unfold State.sampleRecord
  dsimp only
  split
  · exact ((h.emit _ _ _).modChan _ rfl).settle
  · exact h

theorem Gauged.drive (h : Gauged c s₀ s) (x : Input) (f e : Bool) : Gauged c s₀ (s.drive c x f e) := by
  have hended := h.endConditions x
  unfold State.drive
  dsimp only
  split
  · split
    · exact hended.regulate x _
    · exact (hended.regulate x _).sampleRecord x f
  · exact hended

theorem Gauged.watch (h : Gauged c s₀ s) (x : Input) (n : Fin 3) : Gauged c s₀ (s.watch c x n) := by
  have hset (w : Watch) : Gauged c s₀ (s.modChan c fun ch => { ch with watches := ch.watches.set n w }) := h.modChan _ rfl
  unfold State.watch
  dsimp only
  split
  · exact h
  · split
    · exact ((hset _).event _ _ _ _).bumpChan _
    · exact hset _

theorem Gauged.watchAll (h : Gauged c s₀ s) (x : Input) : Gauged c s₀ (s.watchAll c x) := by
  unfold State.watchAll
  split
  · exact ((h.watch x 0).watch x 1).watch x 2
  · exact h

/-! ### Accumulation -/

/-- R67, R71: the sets of a sample taken in RUNNING, before auto-zero. -/
def State.added (s : State) (c : Chan) (x : Input) : State :=
  let s1 := s.modChan c fun ch => ch.accumulate x (decide ((s.chan c).st = .tripped))
  if s.leads c then s1.modChan (followerOf (pairOf c)) fun ch => { ch with lifeSet := ch.lifeSet.add ch.held.v ch.held.i } else s1

theorem Gauged.accumulate (s : State) (c : Chan) (x : Input) : Gauged c (s.added c x) (s.accumulate c x) := by
  have hadded := Gauged.refl c (s.added c x)
  unfold State.accumulate
  change Gauged c _ (match (s.chan c).curStep with
    | some st =>
      if !decide ((s.chan c).st = .tripped) && st.azRest then
        let s3 := (s.added c x).autoZero c c x.own
        if s.leads c ∧ (s3.chan c).st = .running then s3.autoZero c (followerOf (pairOf c)) x.follower else s3
      else s.added c x
    | none => s.added c x)
  have hleads : (s.added c x).leads c = s.leads c := by
    unfold State.added
    dsimp only
    split <;> rfl
  generalize s.added c x = w at hadded hleads ⊢
  split
  · dsimp only
    split
    · have hown := hadded.autoZero (.inl rfl) x.own
      split
      · next h => exact hown.autoZero (.inr ⟨(hown.leads c).trans (hleads.trans h.1), rfl⟩) x.follower
      · exact hown
    · exact hadded
  · exact hadded

/-- R98, R67: what the handling of a sample accumulates. -/
def State.accounted (s : State) (c : Chan) (x : Input) : State :=
  if (s.chan c).st = .running then (s.protect c x).added c x else s.protect c x

/-- R98, R67, R37, R73, R149, R161: the handling of a sample, but for the judgement's change of the mismatch count and the accumulation,
changes no measure. -/
theorem State.handle_gauged (s : State) (c : Chan) (x : Input) (e : Bool) :
    Gauged c (s.mismatched c x) (s.protect c x) ∧ Gauged c (s.accounted c x) (s.handle c x e) := by
  refine ⟨Gauged.protect (.refl c _), ?_⟩
  unfold State.handle State.accounted
  dsimp only
  by_cases hr : (s.chan c).st = .running
  · rw [if_pos hr, decide_eq_true hr, if_pos rfl]
    refine Gauged.watchAll ?_ x
    split
    · exact (Gauged.accumulate _ c x).drive x _ e
    · exact Gauged.accumulate _ c x
  · rw [if_neg hr, decide_eq_false hr, if_neg Bool.false_ne_true]
    refine Gauged.watchAll ?_ x
    rw [Bool.false_and, if_neg Bool.false_ne_true]
    exact .refl c _

end Sys2Proof.Machine

/-!
A valid sample of a channel of a SEPARATE pair: what its arrival and its handling leave (R63, R64, R67, R169).
-/

namespace Sys2Proof.Machine

variable {s t u : State} {c d : Chan} {x : Input} {frame : BitVec 96} {f : FrameRecord}

/-- What the handling of a single channel's valid sample works on, of a response r to a frame f and its corrected values (R63). -/
def singleInput (r : Response) (f : FrameRecord) (x : Corrected) : Input :=
  ⟨true, x.v, x.i, x.t1, x.t2, x.t, x.clampV || x.clampI || x.clampT1 || x.clampT2, r.fault, r.hot, none, some (r.i, f.drive), none⟩

/-- R55, R63, R64, R101: the state in which the handling of a single channel's sample begins. -/
def State.arrived (s : State) (c : Chan) (r : Response) (f : FrameRecord) : State :=
  (s.modLink c fun l => { l with received := true }).setChan c (ReportedChannel (s.chan c) r ((s.chan c).cal.correct r f.range) true)

theorem State.arrived_chan (s : State) (c : Chan) (r : Response) (f : FrameRecord) :
    (s.arrived c r f).chan c = ReportedChannel (s.chan c) r ((s.chan c).cal.correct r f.range) true := State.chan_setChan_self ..

theorem State.validReport_single (hg : (s.pair (pairOf c)).ganged = false) (r : Response) (f : FrameRecord) (late : Bool) :
    (s.modLink c fun l => { l with received := true }).validReport c r f late =
      (s.arrived c r f).handle c (singleInput r f ((s.chan c).cal.correct r f.range)) late := by
  have hheard : ((s.modLink c fun l => { l with received := true }).modChan c fun ch =>
      ch.report ((s.modLink c fun l => { l with received := true }).correctSample c r f)).modChan c Channel.heard = s.arrived c r f :=
    State.modChan_modChan ..
  have hl : (s.modLink c fun l => { l with received := true }).leads c = false := State.leads_false hg
  unfold State.validReport
  dsimp only
  rw [if_neg (ne_true_of_eq_false hl), hheard, State.modLink_pair, hg]
  rfl

/-- R169: a valid response of a channel of a SEPARATE pair whose link is in service. -/
theorem State.responseFrame_single (hs : (s.link c).state = .inService) (he : (s.link c).examine frame = none)
    (hf : (s.link c).frame = some f) (hg : (s.pair (pairOf c)).ganged = false) (late : Bool) :
    s.responseFrame c frame late = (s.arrived c (Response.ofFrame frame) f).handle c
      (singleInput (Response.ofFrame frame) f ((s.chan c).cal.correct (Response.ofFrame frame) f.range)) late := by
  rw [State.responseFrame_valid he hf, ← State.validReport_single hg]
  unfold State.validResponse
  rw [State.link_modLink_self]
  dsimp only
  rw [hs]

theorem State.arrived_frame (s : State) (c : Chan) (r : Response) (f : FrameRecord) : Frame s (s.arrived c r f) c [] :=
  (Frame.modLink s c _).trans (Frame.modChan _ c fun _ => ReportedChannel (s.chan c) r ((s.chan c).cal.correct r f.range) true) rfl

/-! ### The handling -/

/-- R68, R71: the measures of a channel that led no pair when it took a sample. -/
theorem State.added_single (hl : s.leads c = false) (x : Input) :
    ((s.added c x).chan c).measures = ((s.chan c).held, (s.chan c).silence, (s.chan c).stageHot, (s.chan c).missedCtr,
      (s.chan c).planSet.add x.v x.i, (s.chan c).lifeSet.add x.v x.i) ∧ (s.added c x).links = s.links ∧
      (s.added c x).slots = s.slots ∧ (s.added c x).pairs = s.pairs := by
  unfold State.added
  dsimp only
  rw [if_neg (ne_true_of_eq_false hl), State.chan_modChan_self]
  exact ⟨rfl, rfl, rfl, rfl⟩

/-- R71: the plan or lifetime set of a channel in the given state after a sample. -/
def Acc.takenIn (a : Acc) (st : ChState) (v i : Int) : Acc := if st = .running then a.add v i else a

theorem State.handle_single (hg : (s.pair (pairOf c)).ganged = false) (hx : x.followerV = none) (e : Bool) :
    ((s.handle c x e).chan c).measures = ((s.chan c).held, (s.chan c).silence, (s.chan c).stageHot, (s.chan c).missedCtr,
      (s.chan c).planSet.takenIn (s.chan c).st x.v x.i, (s.chan c).lifeSet.takenIn (s.chan c).st x.v x.i) ∧
      (s.handle c x e).links = s.links ∧ (s.handle c x e).slots = s.slots ∧ (s.handle c x e).pairs = s.pairs := by
  obtain ⟨hprotect, hhandle⟩ := s.handle_gauged c x e
  rw [s.mismatched_of c hx] at hprotect
  have hmeasures : ((s.protect c x).chan c).measures = (s.chan c).measures := hprotect.measures
  unfold State.accounted at hhandle
  by_cases hr : (s.chan c).st = .running
  · rw [if_pos hr] at hhandle
    obtain ⟨hadded, hlinks, hslots, hpairs⟩ := State.added_single (s := s.protect c x)
      ((hprotect.leads c).trans (State.leads_false hg)) x
    refine ⟨hhandle.measures.trans (hadded.trans ?_), hhandle.links.trans (hlinks.trans hprotect.links),
      hhandle.slots.trans (hslots.trans hprotect.slots), hhandle.pairs.trans (hpairs.trans hprotect.pairs)⟩
    simp only [Channel.measures, Prod.mk.injEq] at hmeasures
    obtain ⟨hheld, hsilence, hhot, hmissed, hplan, hlife⟩ := hmeasures
    rw [hheld, hsilence, hhot, hmissed, hplan, hlife, Acc.takenIn, Acc.takenIn, if_pos hr, if_pos hr]
  · rw [if_neg hr] at hhandle
    refine ⟨hhandle.measures.trans (hmeasures.trans ?_), hhandle.links.trans hprotect.links, hhandle.slots.trans hprotect.slots,
      hhandle.pairs.trans hprotect.pairs⟩
    rw [Acc.takenIn, Acc.takenIn, if_neg hr, if_neg hr]
    rfl

/-- R98: a sample is not handled in a state that is no plan state. -/
theorem State.handle_idle (h : (s.chan c).st.inPlan = false) (x : Input) (e : Bool) : s.handle c x e = s := by
  have hr : (s.chan c).st ≠ .running := by
    intro hr
    rw [hr] at h
    cases h
  have hprotect : s.protect c x = s := by
    unfold State.protect
    split
    · rfl
    · dsimp only
      rw [if_neg (ne_true_of_eq_false h)]
  unfold State.handle
  dsimp only
  rw [hprotect, decide_eq_false hr, if_neg Bool.false_ne_true, Bool.false_and, if_neg Bool.false_ne_true]
  unfold State.watchAll
  rw [h, Bool.and_false, if_neg Bool.false_ne_true]

/-- Settles O48: the report sets what R63 and R64 name, and the handling changes no measure but the sets of R71. -/
theorem validSamplesAreHeldAndAccumulated : Obligations.ValidSamplesAreHeldAndAccumulated := by
  intro c frame late s f hs he hf hg ho
  have hexec : exec (.responseFrame c frame late) s = .next ((s.arrived c (Response.ofFrame frame) f).handle c
      (singleInput (Response.ofFrame frame) f ((s.chan c).cal.correct (Response.ofFrame frame) f.range)) late) :=
    congrArg Host.Outcome.next (State.responseFrame_single hs he hf hg late)
  have hlink : (s.arrived c (Response.ofFrame frame) f).link c = { s.link c with received := true } :=
    State.link_modLink_self s c fun l => { l with received := true }
  have hchan := s.arrived_chan c (Response.ofFrame frame) f
  have hframe := s.arrived_frame c (Response.ofFrame frame) f
  have hrest : (s.arrived c (Response.ofFrame frame) f).pairs = s.pairs ∧ (s.arrived c (Response.ofFrame frame) f).slots = s.slots ∧
      (s.arrived c (Response.ofFrame frame) f).arb = s.arb ∧ (s.arrived c (Response.ofFrame frame) f).notices = s.notices ∧
      (s.arrived c (Response.ofFrame frame) f).store = s.store := ⟨rfl, rfl, rfl, rfl, rfl⟩
  generalize s.arrived c (Response.ofFrame frame) f = w at hexec hlink hchan hframe hrest
  obtain ⟨hpairs, hslots, harb, hnotices, hstore⟩ := hrest
  have hst : (w.chan c).st = (s.chan c).st := by rw [hchan]; rfl
  have hlog : (w.chan c).log.Ok := by rw [hchan]; exact ho
  have hgw : (w.pair (pairOf c)).ganged = false := by rw [State.pair_of_pairs hpairs]; exact hg
  obtain ⟨hmeasures, hlinks', hslots', hpairs'⟩ := State.handle_single hgw (x := singleInput (Response.ofFrame frame) f
    ((s.chan c).cal.correct (Response.ofFrame frame) f.range)) rfl late
  simp only [Channel.measures, Prod.mk.injEq] at hmeasures
  obtain ⟨hheld, hsilence, hhot, -, hplan, hlife⟩ := hmeasures
  rw [hst] at hplan hlife
  rw [hchan] at hheld hsilence hhot hplan hlife
  refine ⟨_, hexec, ?_, hheld, hsilence, hhot, hplan, hlife, fun hidle => ?_, ?_, hpairs'.trans hpairs, hslots'.trans hslots⟩
  · exact (State.link_of_links hlinks' c).trans hlink
  · rw [State.handle_idle (by rw [hst]; exact hidle)]
    exact ⟨harb, hnotices, hstore, hchan⟩
  · exact (hframe.mono (by simp)).trans (((Local.refl c w).handle hgw _ late).frame hlog) (State.leads_of_pairs hpairs c)

end Sys2Proof.Machine

/-!
The handling of a sample of a channel that the protection judgement leaves TRIPPED (R98, R110): what the stages after it still change.
-/

namespace Sys2Proof.Machine

variable {s t u : State} {c d : Chan} {x : Input} {l : LimitSet}

/-! ### Watch points outside RUNNING -/

/-- What watch points leave of a channel that is not RUNNING, and of the faults and changes of state that are counted. -/
structure Watched (c : Chan) (s t : State) : Prop where
  chan : ∃ watches log hold, t.chan c = { s.chan c with watches := watches, log := log, hold := hold }
  stateChanges : (t.notices.chan[c]).stateChanges = (s.notices.chan[c]).stateChanges
  faults : (t.notices.chan[c]).faults = (s.notices.chan[c]).faults
  arb : t.arb = s.arb

theorem Watched.refl (c : Chan) (s : State) : Watched c s s :=
  ⟨⟨(s.chan c).watches, (s.chan c).log, (s.chan c).hold, rfl⟩, rfl, rfl, rfl⟩

theorem Watched.trans (h : Watched c s u) (k : Watched c u t) : Watched c s t := by
  obtain ⟨w, l, o, hchan⟩ := h.chan
  obtain ⟨w', l', o', hchan'⟩ := k.chan
  rw [hchan] at hchan'
  exact ⟨⟨w', l', o', hchan'⟩, k.stateChanges.trans h.stateChanges, k.faults.trans h.faults, k.arb.trans h.arb⟩

theorem Watched.st (h : Watched c s t) : (t.chan c).st = (s.chan c).st := by
  obtain ⟨_, _, _, hchan⟩ := h.chan
  rw [hchan]

theorem Watched.bumpHits (s : State) (c : Chan) : Watched c s (s.bumpChan c .watchHits) := by
  refine ⟨⟨(s.chan c).watches, (s.chan c).log, (s.chan c).hold, s.bumpChan_chan c _ c⟩, ?_, ?_, rfl⟩ <;> rw [State.bumpChan_self] <;> rfl

theorem State.watch_watched (h : (s.chan c).st ≠ .running) (x : Input) (n : Fin 3) : Watched c s (s.watch c x n) := by
  have hset (w : Watch) : Watched c s (s.modChan c fun ch => { ch with watches := ch.watches.set n w }) :=
    ⟨⟨_, _, _, State.chan_modChan_self _ _ _⟩, rfl, rfl, rfl⟩
  unfold State.watch
  dsimp only
  split
  · exact .refl c s
  · next value _ =>
    have hjudged := hset ((s.chan c).watches[n].judge value).1
    generalize s.modChan c (fun ch => { ch with watches := ch.watches.set n ((s.chan c).watches[n].judge value).1 }) = w at hjudged ⊢
    split
    · next prev _ =>
      have hevent := (Recorded.refl c w).reported.event (by rw [hjudged.st]; exact h) c subWatch 0
        (watchBody n.val ((s.chan c).watches[n].judge value).1 prev value ((s.chan c).watches[n].judge value).1.hits)
      obtain ⟨log, hold, hchan, -, -⟩ := hevent.chan
      exact hjudged.trans (Watched.trans ⟨⟨_, log, hold, hchan⟩, hevent.counts.stateChanges, hevent.counts.faults, hevent.arb⟩
        (.bumpHits _ c))
    · exact hjudged

theorem State.watchAll_watched (h : (s.chan c).st ≠ .running) (x : Input) : Watched c s (s.watchAll c x) := by
  unfold State.watchAll
  split
  · have hfirst := State.watch_watched h x 0
    have hsecond := State.watch_watched (hfirst.st ▸ h) x 1
    exact (hfirst.trans hsecond).trans (State.watch_watched (hsecond.st ▸ hfirst.st ▸ h) x 2)
  · exact .refl c s

/-! ### After the judgement -/

/-- What the stages after the judgement leave of a channel that is TRIPPED: its accumulated sets, counts and watch points may have
changed, and the reports of its records been taken. -/
structure AfterTrip (c : Chan) (s t : State) : Prop where
  chan : ∃ seqr stepSet planSet lifeSet blanking watches log hold, t.chan c = { s.chan c with
    seqr := seqr, stepSet := stepSet, planSet := planSet, lifeSet := lifeSet, blanking := blanking, watches := watches
    log := log, hold := hold }
  stateChanges : (t.notices.chan[c]).stateChanges = (s.notices.chan[c]).stateChanges
  faults : (t.notices.chan[c]).faults = (s.notices.chan[c]).faults
  arb : t.arb = s.arb

theorem State.added_chan_self (s : State) (c : Chan) (x : Input) :
    (s.added c x).chan c = (s.chan c).accumulate x (decide ((s.chan c).st = .tripped)) := by
  unfold State.added
  dsimp only
  split
  · next hl => rw [State.chan_modChan_ne _ _ (ne_followerOf_of_leads hl), State.chan_modChan_self]
  · exact State.chan_modChan_self _ _ _

theorem State.added_notices (s : State) (c : Chan) (x : Input) : (s.added c x).notices = s.notices ∧ (s.added c x).arb = s.arb := by
  unfold State.added
  dsimp only
  split <;> exact ⟨rfl, rfl⟩

/-- R59: no auto-zero on the sample that trips. -/
theorem State.accumulate_of_tripped (h : (s.chan c).st = .tripped) (x : Input) : s.accumulate c x = s.added c x := by
  unfold State.accumulate
  change (match (s.chan c).curStep with
    | some st =>
      if !decide ((s.chan c).st = .tripped) && st.azRest then
        let s3 := (s.added c x).autoZero c c x.own
        if s.leads c ∧ (s3.chan c).st = .running then s3.autoZero c (followerOf (pairOf c)) x.follower else s3
      else s.added c x
    | none => s.added c x : State) = _
  split
  · rw [h, decide_eq_true rfl, Bool.not_true, Bool.false_and, if_neg Bool.false_ne_true]
  · rfl

theorem State.handle_of_tripped (h : ((s.protect c x).chan c).st = .tripped) (e : Bool) :
    AfterTrip c (s.protect c x) (s.handle c x e) := by
  unfold State.handle
  dsimp only
  generalize s.protect c x = p at h ⊢
  rw [State.accumulate_of_tripped h]
  have hne : (p.chan c).st ≠ .running := by
    rw [h]
    exact fun e : ChState.tripped = .running => nomatch e
  split
  · have hchan := p.added_chan_self c x
    obtain ⟨hnotices, harb⟩ := p.added_notices c x
    rw [h, decide_eq_true rfl] at hchan
    have hst : ((p.added c x).chan c).st ≠ .running := by
      rw [hchan]
      exact hne
    rw [decide_eq_false hst, Bool.and_false, if_neg Bool.false_ne_true]
    generalize p.added c x = w at hchan hnotices harb hst ⊢
    have hwatched := State.watchAll_watched hst x
    obtain ⟨watches, log, hold, hself⟩ := hwatched.chan
    rw [hchan] at hself
    exact ⟨⟨_, _, _, _, _, watches, log, hold, hself⟩, by rw [hwatched.stateChanges, hnotices], by rw [hwatched.faults, hnotices],
      hwatched.arb.trans harb⟩
  · rw [decide_eq_false hne, Bool.and_false, if_neg Bool.false_ne_true]
    have hwatched := State.watchAll_watched hne x
    obtain ⟨watches, log, hold, hself⟩ := hwatched.chan
    exact ⟨⟨_, _, _, _, _, watches, log, hold, hself⟩, hwatched.stateChanges, hwatched.faults, hwatched.arb⟩

/-! ### The judgements that trip -/

/-- The states in which a sample is judged differ from that in which it arrives by what the judgement itself notes. -/
structure Noted (c : Chan) (s t : State) : Prop where
  chan : ∃ blanking checks reached, t.chan c = { s.chan c with
    blanking := blanking, checks := checks, silenceReached := reached }
  notices : t.notices = s.notices
  arb : t.arb = s.arb

theorem Noted.refl (c : Chan) (s : State) : Noted c s s :=
  ⟨⟨(s.chan c).blanking, (s.chan c).checks, (s.chan c).silenceReached, rfl⟩, rfl, rfl⟩

theorem Noted.trans (h : Noted c s u) (k : Noted c u t) : Noted c s t := by
  obtain ⟨b, q, r, hchan⟩ := h.chan
  obtain ⟨b', q', r', hchan'⟩ := k.chan
  rw [hchan] at hchan'
  exact ⟨⟨b', q', r', hchan'⟩, k.notices.trans h.notices, k.arb.trans h.arb⟩

/-- R102: the state in which a sample of a channel in a plan state is judged. -/
def State.blanked (s : State) (c : Chan) (l : LimitSet) : State :=
  if (s.chan c).st = .running then s.modChan c fun ch => ch.blankingExpiry l else s

theorem State.blanked_noted (s : State) (c : Chan) (l : LimitSet) :
    ∃ blanking, (s.blanked c l).chan c = { s.chan c with blanking := blanking } ∧ (s.blanked c l).notices = s.notices ∧
      (s.blanked c l).arb = s.arb ∧ (s.blanked c l).pairs = s.pairs := by
  unfold State.blanked
  split
  · rw [State.chan_modChan_self]
    unfold Channel.blankingExpiry
    split
    · exact ⟨_, rfl, rfl, rfl, rfl⟩
    · exact ⟨(s.chan c).blanking, rfl, rfl, rfl, rfl⟩
  · exact ⟨(s.chan c).blanking, rfl, rfl, rfl, rfl⟩

theorem inPlan_of_tripable {st : ChState} (h : st.tripable = true) : st.inPlan = true := by
  revert h
  cases st <;> decide

/-- R98: the judgement of a channel in a plan state ends with the hard checks or the silence where these leave it TRIPPED. -/
theorem State.protect_of_tripped (hl : (s.chan c).limits = some l) (hp : (s.chan c).st.inPlan = true)
    (hu : u = if x.valid then (s.blanked c l).judgeChecks c l x else (s.blanked c l).judgeSilence c l x)
    (ht : (u.chan c).st = .tripped) : s.protect c x = u := by
  unfold State.protect
  rw [hl]
  dsimp only
  rw [if_pos hp]
  change (if ((if x.valid then (s.blanked c l).judgeChecks c l x else (s.blanked c l).judgeSilence c l x).chan c).st = .tripped then
    (if x.valid then (s.blanked c l).judgeChecks c l x else (s.blanked c l).judgeSilence c l x) else _) = u
  rw [← hu, if_pos ht]

/-- R99, R101, R110: a judgement of a sample that ends in a trip. -/
structure JudgedTrip (c : Chan) (s t : State) (f : FaultRecord) : Prop where
  st : (t.chan c).st = .tripped
  demand : (t.chan c).demand = if (s.chan c).st = .running then 0 else (s.chan c).demand
  fault : (t.chan c).fault = f
  tripCtr : (t.chan c).tripCtr = (s.chan c).tripCtr + 1
  hits : (t.chan c).hits = 0
  window : (t.chan c).window = 0
  contact : (t.chan c).contact.inProgress = false
  linkHold : (t.chan c).linkHold = ⟨false, 0, false⟩
  faults : (t.notices.chan[c]).faults = (s.notices.chan[c]).faults + 1
  stateChanges : (t.notices.chan[c]).stateChanges = (s.notices.chan[c]).stateChanges + 1
  wanted : t.arb.wanted[c] = ⟨.none, 0⟩

theorem JudgedTrip.of_trippedIn {f : FaultRecord} (h : Noted c s u) (k : TrippedIn u t c f) : JudgedTrip c s t f := by
  obtain ⟨hst, hfault, hcontact, hhits, hwindow, hhold, hctr, hdemand, -⟩ := k.chan.facts
  obtain ⟨b, q, r, hchan⟩ := h.chan
  rw [hchan] at hctr hdemand
  refine ⟨hst, hdemand, hfault, hctr, hhits, hwindow, ?_, hhold, ?_, ?_, k.wanted⟩
  · rw [hcontact]
  · rw [k.tallied.faults, h.notices]
  · rw [k.tallied.stateChanges, h.notices]

theorem JudgedTrip.after {f : FaultRecord} (h : JudgedTrip c s u f) (k : AfterTrip c u t) :
    JudgedTrip c s t f ∧ (t.chan c).checks = (u.chan c).checks := by
  obtain ⟨_, _, _, _, _, _, _, _, hchan⟩ := k.chan
  refine ⟨⟨?_, ?_, ?_, ?_, ?_, ?_, ?_, ?_, k.faults.trans h.faults, k.stateChanges.trans h.stateChanges,
    (congrArg (fun a : Arbiter => a.wanted[c]) k.arb).trans h.wanted⟩, ?_⟩ <;> rw [hchan]
  exacts [h.st, h.demand, h.fault, h.tripCtr, h.hits, h.window, h.contact, h.linkHold]

theorem Channel.faultRecord_congr {ch ch' : Channel} {b : Blanking} {q : Checks} {r : Bool} (h : ch' = { ch with
    blanking := b, checks := q, silenceReached := r }) (k : Cause) (rest : List Cause) (v i w : Int) (e : Option Nat) :
    ch'.faultRecord k rest v i w e = ch.faultRecord k rest v i w e := by
  rw [h]
  rfl

/-- R98, R110: the handling of a sample that the hard checks or the silence end in a trip. -/
theorem State.handle_trips {k : Cause} {rest : List Cause} (hl : (s.chan c).limits = some l) (hst : (s.chan c).st.tripable = true)
    (hu : Noted c s u) (hj : (if x.valid then (s.blanked c l).judgeChecks c l x else (s.blanked c l).judgeSilence c l x) =
      u.trip c k rest x.v x.i x.t none) (e : Bool) :
    JudgedTrip c s (s.handle c x e) ((s.chan c).faultRecord k rest x.v x.i x.t none) ∧
      ((s.handle c x e).chan c).checks = (u.chan c).checks := by
  obtain ⟨b, q, r, hchan⟩ := hu.chan
  have hne : (u.chan c).st ≠ .tripped := by
    rw [hchan]
    exact ne_tripped_of_tripable hst
  have htrip := State.trip_trippedIn hne k rest x.v x.i x.t none
  rw [Channel.faultRecord_congr hchan] at htrip
  have hjudged := JudgedTrip.of_trippedIn hu htrip
  have hprotect := State.protect_of_tripped hl (inPlan_of_tripable hst) hj.symm hjudged.st
  obtain ⟨az, log, hold, -, -, hself⟩ := htrip.chan
  have hafter := State.handle_of_tripped (s := s) (x := x) (by rw [hprotect]; exact hjudged.st) e
  rw [hprotect] at hafter
  obtain ⟨hall, hchecks⟩ := hjudged.after hafter
  refine ⟨hall, hchecks.trans ?_⟩
  rw [hself]

end Sys2Proof.Machine

/-!
Violated hard checks of a valid sample (R99 to R101, R109 to R113).
-/

namespace Sys2Proof.Machine

variable {s t u : State} {c d : Chan} {x : Input} {l : LimitSet}

/-! ### The judgement of the hard checks -/

theorem disagrees_of (h : x.followerV = none) (l : LimitSet) : disagrees l x = false := by
  unfold disagrees
  rw [h]

theorem State.judgeChecks_tripable (hx : x.followerV = none) (hst : (s.chan c).st.tripable = true) {k : Cause} {rest : List Cause}
    (hc : (l.judge x).causes = k :: rest) :
    s.judgeChecks c l x = (s.modChan c fun ch => { ch with checks := l.judge x }).trip c k rest x.v x.i x.t none := by
  unfold State.judgeChecks
  dsimp only
  rw [disagrees_of hx, if_pos hst, State.judgeMismatch_of _ c l hx, hc]
  simp only [Bool.false_and, Bool.false_eq_true, if_false, List.append_nil]

theorem State.judgeChecks_tripped (hx : x.followerV = none) (hst : (s.chan c).st = .tripped) :
    s.judgeChecks c l x = (s.modChan c fun ch => { ch with checks := l.judge x }).laterFaults c x
      ((l.judge x).rising (s.chan c).checks).causes := by
  unfold State.judgeChecks
  dsimp only
  rw [disagrees_of hx, hst, State.judgeMismatch_of _ c l hx]
  simp only [Bool.false_and, Bool.false_eq_true, if_false, List.append_nil, ChState.tripable]

theorem State.blanked_of_ne (h : (s.chan c).st ≠ .running) (l : LimitSet) : s.blanked c l = s := if_neg h

theorem State.blanked_checked (s : State) (c : Chan) (l : LimitSet) (k : Checks) :
    Noted c s ((s.blanked c l).modChan c fun ch => { ch with checks := k }) ∧
      (((s.blanked c l).modChan c fun ch => { ch with checks := k }).chan c).checks = k := by
  obtain ⟨b, hchan, hnotices, harb, -⟩ := s.blanked_noted c l
  have hself : (((s.blanked c l).modChan c fun ch => { ch with checks := k }).chan c) =
      { s.chan c with blanking := b, checks := k } := by
    rw [State.chan_modChan_self, hchan]
  exact ⟨⟨⟨b, k, (s.chan c).silenceReached, hself⟩, hnotices, harb⟩, by rw [hself]⟩

/-- R99, R101, R110: a valid sample that violates a check, or reports FAULT, handled. -/
theorem State.handle_violated (hl : (s.chan c).limits = some l) (hst : (s.chan c).st.tripable = true) (hv : x.valid = true)
    (hx : x.followerV = none) {k : Cause} {rest : List Cause} (hc : (l.judge x).causes = k :: rest) (e : Bool) :
    JudgedTrip c s (s.handle c x e) ((s.chan c).faultRecord k rest x.v x.i x.t none) ∧
      ((s.handle c x e).chan c).checks = l.judge x := by
  obtain ⟨hnoted, hchecks⟩ := s.blanked_checked c l (l.judge x)
  obtain ⟨b, hchan, -⟩ := s.blanked_noted c l
  have hj := State.judgeChecks_tripable hx (s := s.blanked c l) (by rw [hchan]; exact hst) hc
  obtain ⟨htrip, hend⟩ := State.handle_trips (x := x) hl hst hnoted (by rw [if_pos hv, hj]) e
  exact ⟨htrip, hend.trans hchecks⟩

/-! ### Later faults -/

/-- R112, R113: the fault record after the given conditions have become VIOLATED in TRIPPED. -/
def FaultRecord.afterLater (f : FaultRecord) (risen : List Cause) : FaultRecord :=
  match risen.getLast? with
  | none => f
  | some last => { f with laterCount := min (f.laterCount + risen.length) 65535, lastLater := some last, acked := false }

theorem foldl_later_eq (f : FaultRecord) (hf : f.laterCount ≤ 65535) (risen : List Cause) :
    risen.foldl FaultRecord.later f = f.afterLater risen := by
  unfold FaultRecord.afterLater
  split
  · next h =>
    rw [List.getLast?_eq_none_iff.1 h]
    rfl
  · next last h => exact foldl_later f hf risen last h

/-- R100, R112, R113: what the judgement of a sample leaves of a TRIPPED channel. -/
structure JudgedLater (c : Chan) (s t : State) (f : FaultRecord) (n : U32) : Prop where
  st : (t.chan c).st = .tripped
  fault : (t.chan c).fault = f
  tripCtr : (t.chan c).tripCtr = (s.chan c).tripCtr
  demand : (t.chan c).demand = (s.chan c).demand
  faults : (t.notices.chan[c]).faults = (s.notices.chan[c]).faults + n
  arb : t.arb = s.arb

theorem JudgedLater.of_laterIn {f : FaultRecord} {n : U32} (h : Noted c s u) (k : LaterIn u t c f n) (hst : (s.chan c).st = .tripped) :
    JudgedLater c s t f n := by
  obtain ⟨log, hold, -, -, hself⟩ := k.chan
  obtain ⟨b, q, r, hchan⟩ := h.chan
  rw [hchan] at hself
  refine ⟨?_, ?_, ?_, ?_, by rw [k.tallied.faults, h.notices], k.arb.trans h.arb⟩ <;> rw [hself]
  exact hst

theorem JudgedLater.after {f : FaultRecord} {n : U32} (h : JudgedLater c s u f n) (k : AfterTrip c u t) : JudgedLater c s t f n := by
  obtain ⟨_, _, _, _, _, _, _, _, hchan⟩ := k.chan
  refine ⟨?_, ?_, ?_, ?_, k.faults.trans h.faults, k.arb.trans h.arb⟩ <;> rw [hchan]
  exacts [h.st, h.fault, h.tripCtr, h.demand]

theorem LaterIn.checks {f : FaultRecord} {n : U32} (h : LaterIn u t c f n) : (t.chan c).checks = (u.chan c).checks := by
  obtain ⟨log, hold, -, -, hself⟩ := h.chan
  rw [hself]

theorem AfterTrip.checks (h : AfterTrip c u t) : (t.chan c).checks = (u.chan c).checks := by
  obtain ⟨_, _, _, _, _, _, _, _, hself⟩ := h.chan
  rw [hself]

/-- R98, R112: the handling of a sample in TRIPPED, by the later faults that the hard checks or the silence find. -/
theorem State.handle_laterFaults {f : FaultRecord} {n : U32} (hl : (s.chan c).limits = some l) (hst : (s.chan c).st = .tripped)
    (hu : Noted c s u) (hk : LaterIn u (if x.valid then s.judgeChecks c l x else s.judgeSilence c l x) c f n) (e : Bool) :
    JudgedLater c s (s.handle c x e) f n ∧ ((s.handle c x e).chan c).checks = (u.chan c).checks := by
  have hne : (s.chan c).st ≠ .running := by
    rw [hst]
    exact fun e : ChState.tripped = .running => nomatch e
  have hjudged := JudgedLater.of_laterIn hu hk hst
  have hprotect := State.protect_of_tripped (x := x) hl (by rw [hst]; rfl) (by rw [State.blanked_of_ne hne]) hjudged.st
  have hafter := State.handle_of_tripped (s := s) (x := x) (by rw [hprotect]; exact hjudged.st) e
  rw [hprotect] at hafter
  exact ⟨hjudged.after hafter, hafter.checks.trans hk.checks⟩

/-- R112, R113: a valid sample of a TRIPPED channel handled. -/
theorem State.handle_risen (hl : (s.chan c).limits = some l) (hst : (s.chan c).st = .tripped) (hv : x.valid = true)
    (hx : x.followerV = none) (hf : (s.chan c).fault.laterCount ≤ 65535) (e : Bool) :
    JudgedLater c s (s.handle c x e) ((s.chan c).fault.afterLater ((l.judge x).rising (s.chan c).checks).causes)
      (BitVec.ofNat 32 ((l.judge x).rising (s.chan c).checks).causes.length) ∧
      ((s.handle c x e).chan c).checks = l.judge x := by
  have hne : (s.chan c).st ≠ .running := by
    rw [hst]
    exact fun e : ChState.tripped = .running => nomatch e
  have hself : (s.modChan c fun ch => { ch with checks := l.judge x }).chan c = { s.chan c with checks := l.judge x } :=
    State.chan_modChan_self _ _ _
  have hnoted : Noted c s (s.modChan c fun ch => { ch with checks := l.judge x }) :=
    ⟨⟨(s.chan c).blanking, _, (s.chan c).silenceReached, hself⟩, rfl, rfl⟩
  have hj := State.judgeChecks_tripped (l := l) hx hst
  generalize s.modChan c (fun ch => { ch with checks := l.judge x }) = w at hself hnoted hj
  have hlater := State.laterFaults_laterIn (s := w) (c := c) (by rw [hself]; exact hne) x ((l.judge x).rising (s.chan c).checks).causes
  have hfault : (w.chan c).fault = (s.chan c).fault := by rw [hself]
  rw [hfault, foldl_later_eq _ hf, ← hj] at hlater
  obtain ⟨hjudged, hchecks⟩ := State.handle_laterFaults hl hst hnoted (by rw [if_pos hv]; exact hlater) e
  exact ⟨hjudged, hchecks.trans (by rw [hself])⟩

/-- Settles O49: the checks are judged in the state that the report leaves, and the stages after the judgement of a channel that is
TRIPPED change nothing the statement names. -/
theorem aViolatedCheckTrips : Obligations.AViolatedCheckTrips := by
  intro c frame late s f l hs he hf hg ho hok hl
  have hexec : exec (.responseFrame c frame late) s = .next ((s.arrived c (Response.ofFrame frame) f).handle c
      (singleInput (Response.ofFrame frame) f ((s.chan c).cal.correct (Response.ofFrame frame) f.range)) late) :=
    congrArg Host.Outcome.next (State.responseFrame_single hs he hf hg late)
  have hchan := s.arrived_chan c (Response.ofFrame frame) f
  have hframe := s.arrived_frame c (Response.ofFrame frame) f
  have hrest : (s.arrived c (Response.ofFrame frame) f).pairs = s.pairs ∧ (s.arrived c (Response.ofFrame frame) f).arb = s.arb ∧
      (s.arrived c (Response.ofFrame frame) f).notices = s.notices := ⟨rfl, rfl, rfl⟩
  generalize s.arrived c (Response.ofFrame frame) f = w at hexec hchan hframe hrest
  obtain ⟨hpairs, harb, hnotices⟩ := hrest
  have hst : (w.chan c).st = (s.chan c).st := by rw [hchan]; rfl
  have hlw : (w.chan c).limits = some l := by rw [hchan]; exact hl
  have hgw : (w.pair (pairOf c)).ganged = false := by rw [State.pair_of_pairs hpairs]; exact hg
  have hdrive : (w.chan c).demand = (s.chan c).demand := by rw [hchan]; rfl
  have hctr : (w.chan c).tripCtr = (s.chan c).tripCtr := by rw [hchan]; rfl
  have hframe' : Frame s (w.handle c (singleInput (Response.ofFrame frame) f ((s.chan c).cal.correct (Response.ofFrame frame) f.range))
      late) c (logAreas c) :=
    (hframe.mono (by simp)).trans (((Local.refl c w).handle hgw _ late).frame (by rw [hchan]; exact ho)) (State.leads_of_pairs hpairs c)
  intro r x now old
  have hnow : l.judge (singleInput r f x) = now := rfl
  refine ⟨fun hstates k rest hcauses => ?_, fun htripped => ?_⟩
  · have htripable : (w.chan c).st.tripable = true := by
      rw [hst]
      rcases hstates with h | h | h | h <;> rw [h] <;> rfl
    have hfirst : (l.judge (singleInput r f x)).causes = k :: rest := by
      rw [← hcauses, hnow]
      simp only [Checks.causes, now, decide_eq_true_eq]
    obtain ⟨hjudged, hchecks⟩ := State.handle_violated hlw htripable rfl rfl hfirst late
    have hfault : (w.chan c).faultRecord k rest (singleInput r f x).v (singleInput r f x).i (singleInput r f x).t none =
        ⟨some k, rest, (s.chan c).planTime, (s.chan c).seqr.position, (s.chan c).stepEntered, (s.chan c).seqr.cycle, x.v, x.i, x.t,
          false, 0, none⟩ := by
      rw [hchan]
      rfl
    refine ⟨_, hexec, hjudged.st, ?_, hchecks.trans hnow, hjudged.fault.trans hfault, hjudged.tripCtr.trans (by rw [hctr]), hjudged.hits,
      hjudged.window, hjudged.contact, hjudged.linkHold, by rw [hjudged.faults, hnotices], by rw [hjudged.stateChanges, hnotices],
      hjudged.wanted, hframe'⟩
    rw [hjudged.demand, hst, hdrive]
    split
    · rfl
    · next hne => exact hok.demand_zero hne
  · have hlater : (w.chan c).fault.laterCount ≤ 65535 := by
      rw [hchan]
      exact hok.later
    obtain ⟨hjudged, hchecks⟩ := State.handle_risen hlw (hst.trans htripped) (x := singleInput r f x) rfl rfl hlater late
    have holdChecks : (w.chan c).checks = old := by rw [hchan]; rfl
    have hfault : (w.chan c).fault = (s.chan c).fault := by rw [hchan]; rfl
    rw [hnow, holdChecks, hfault] at hjudged
    exact ⟨_, hexec, hjudged.st, hchecks.trans hnow, hjudged.fault, by rw [hjudged.faults, hnotices]; rfl, hjudged.tripCtr.trans hctr,
      hjudged.demand.trans hdrive, hjudged.arb.trans harb, hframe'⟩

end Sys2Proof.Machine

/-!
What an event of one channel, a request among them, leaves of the other channels in any state of the machine; and operations made on
every channel in turn, as one channel sees them.
-/

namespace Sys2Proof.Machine

variable {s₀ s t u : State} {c d : Chan} {l : List Chan} {f : State → Chan → State}

/-! ### Events of one channel -/

/-- t is s after an event of channel c, as far as other channels and the Arbiter's settings and timer go: of a channel that c leads it
says only that its missed reports are not counted. -/
structure Aside (c : Chan) (s t : State) : Prop where
  links : ∀ d, d ≠ c → t.link d = s.link d
  pairs : ∀ k, k ≠ pairOf c ∨ isEven c = false → t.pair k = s.pair k
  ganged : ∀ k, (t.pair k).ganged = (s.pair k).ganged
  arb : ArbiterKept s t c
  notices : NoticesKept s t c
  others : ∀ d, d ≠ c → t.chan d = s.chan d ∨
    (s.leads c = true ∧ d = followerOf (pairOf c) ∧ (t.chan d).missedCtr = (s.chan d).missedCtr)

theorem Aside.refl (c : Chan) (s : State) : Aside c s s :=
  ⟨fun _ _ => rfl, fun _ _ => rfl, fun _ => rfl, .of (by rfl) c, .refl s c, fun _ _ => .inl rfl⟩

theorem Aside.trans (h : Aside c s u) (k : Aside c u t) : Aside c s t := by
  refine ⟨fun d hd => (k.links d hd).trans (h.links d hd), fun j hj => (k.pairs j hj).trans (h.pairs j hj),
    fun j => (k.ganged j).trans (h.ganged j), h.arb.trans k.arb, h.notices.trans k.notices, fun d hd => ?_⟩
  have hleads : u.leads c = s.leads c := State.leads_congr (h.ganged _)
  rcases k.others d hd with e | ⟨hl, hf, hm⟩
  · rw [e]
    exact h.others d hd
  · rcases h.others d hd with e | ⟨hl', -, hm'⟩
    · exact .inr ⟨hleads ▸ hl, hf, hm.trans (congrArg Channel.missedCtr e)⟩
    · exact .inr ⟨hl', hf, hm.trans hm'⟩

theorem missedCtr_of_measures {ch ch' : Channel} (h : ch'.measures = ch.measures) : ch'.missedCtr = ch.missedCtr :=
  congrArg (fun m => m.2.2.2.1) h

theorem Gauged.aside (h : Gauged c s t) : Aside c s t := by
  refine ⟨fun d _ => State.link_of_links h.links d, fun k _ => State.pair_of_pairs h.pairs k,
    fun k => congrArg Pair.ganged (State.pair_of_pairs h.pairs k), h.arb, h.notices, fun d hd => ?_⟩
  rcases h.others d hd with e | ⟨hl, hf, hz⟩
  · exact .inl e
  · exact .inr ⟨hl, hf, missedCtr_of_measures hz.measures⟩

theorem Aside.gauged (h : Aside c s u) (k : Gauged c u t) : Aside c s t := h.trans k.aside

theorem Aside.modChan (h : Aside c s₀ s) (f : Channel → Channel) : Aside c s₀ (s.modChan c f) :=
  h.trans ⟨fun _ _ => rfl, fun _ _ => rfl, fun _ => rfl, .of (by rfl) c, .of (State.modChan_notices s c f) c,
    fun _ hd => .inl (State.chan_modChan_ne s f hd)⟩

theorem Aside.modLink (h : Aside c s₀ s) (f : Link → Link) : Aside c s₀ (s.modLink c f) :=
  h.trans ⟨fun _ hd => State.link_modLink_ne s f hd, fun _ _ => rfl, fun _ => rfl, .of (by rfl) c, .of (State.modLink_notices s c f) c,
    fun _ _ => .inl rfl⟩

theorem Aside.modPair (h : Aside c s₀ s) (hc : isEven c = true) (f : Pair → Pair)
    (hf : (f (s.pair (pairOf c))).ganged = (s.pair (pairOf c)).ganged) : Aside c s₀ (s.modPair (pairOf c) f) := by
  refine h.trans ⟨fun _ _ => rfl, fun k hk => ?_, fun k => ?_, .of (by rfl) c, .of (by rfl) c, fun _ _ => .inl rfl⟩
  · rcases hk with hk | hk
    · exact State.pair_modPair_ne s f hk
    · exact absurd (hc.symm.trans hk) (by decide)
  · by_cases hk : k = pairOf c
    · rw [hk, State.pair_modPair_self]
      exact hf
    · rw [State.pair_modPair_ne s f hk]

theorem Aside.bumpChan (h : Aside c s₀ s) (k : ChanCount) : Aside c s₀ (s.bumpChan c k) := h.gauged ((Gauged.refl c s).bumpChan k)

/-- A change of the store, the slots, or the stray counts. -/
theorem Aside.apart (h : Aside c s₀ s) (hl : t.links = s.links) (hp : t.pairs = s.pairs) (ha : t.arb = s.arb)
    (hn : t.notices = s.notices) (hc : t.chans = s.chans) : Aside c s₀ t :=
  h.trans ⟨fun d _ => State.link_of_links hl d, fun k _ => State.pair_of_pairs hp k,
    fun k => congrArg Pair.ganged (State.pair_of_pairs hp k), .of ha c, .of hn c, fun d _ => .inl (State.chan_of_chans hc d)⟩

/-! ### Requests -/

theorem Gauged.endStepBy (h : Gauged c s₀ s) (q : StepReason) : Gauged c s₀ (s.endStepBy c q) := by
  unfold State.endStepBy
  dsimp only
  split
  · split
    · exact h.emitStepEnd _ _ _ _ _ _
    · exact h
  · exact h

theorem Gauged.startHolds (h : Gauged c s₀ s) : Gauged c s₀ (s.startHolds c) := by
  have hdown : Gauged c s₀ (if (s.chan c).hold.linkDown = true then s.event c c subHold 0 (leBytes 1 HoldCause.linkDown.code) else s) := by
    split
    · exact h.event _ _ _ _
    · exact h
  unfold State.startHolds
  dsimp only
  generalize (if (s.chan c).hold.linkDown = true then _ else _ : State) = w at hdown ⊢
  split
  · exact hdown.event _ _ _ _
  · exact hdown

theorem isEven_of_leads (h : s.leads c = true) : isEven c = true := (Bool.and_eq_true_iff.1 h).1

theorem Aside.startPlan (s : State) (c : Chan) (p : Plan) : Aside c s (s.startPlan c p) := by
  have hstart := (Aside.refl c s).modChan fun ch => ch.start p (!s.linkOk)
  unfold State.startPlan
  dsimp only
  refine Aside.gauged ?_ ((Gauged.moveTo (.refl c _) .checking).startHolds)
  split
  · next hl => exact hstart.modPair (isEven_of_leads hl) _ rfl
  · exact hstart

theorem Aside.served (s : State) (c : Chan) (f : Channel → Channel) (r : Reply) : Aside c s ((s.modChan c f, r) : State × Reply).1 :=
  (Aside.refl c s).modChan f

theorem Aside.reqStart (s : State) (c : Chan) : Aside c s (s.reqStart c).1 := by
  have hrefl := Aside.refl c s
  unfold State.reqStart
  dsimp only
  split
  · exact hrefl
  · split
    · exact hrefl
    · split
      · split
        · exact hrefl
        · split
          · exact hrefl
          · exact .startPlan s c _
      · exact hrefl

theorem Aside.reqEnable (s : State) (c : Chan) : Aside c s (s.reqEnable c).1 := by
  unfold State.reqEnable
  split
  · exact ((Aside.refl c s).modLink _).modChan _
  · exact .refl c s

theorem Aside.reqDisable (s : State) (c : Chan) : Aside c s (s.reqDisable c).1 := by
  unfold State.reqDisable
  split
  · exact .refl c s
  · split
    · exact .refl c s
    · exact (((Gauged.refl c s).moveTo .disabled).aside.modLink _).modChan _
  · exact .refl c s

theorem Aside.reqPause (s : State) (c : Chan) : Aside c s (s.reqPause c).1 := by
  unfold State.reqPause
  dsimp only
  split
  · exact (((Gauged.refl c s).moveTo .paused).event _ _ _ _).aside
  · exact .refl c s

theorem Gauged.resumePaused (h : Gauged c s₀ s) : Gauged c s₀ (s.resumePaused c) := by
  unfold State.resumePaused
  split
  · exact h.enterRunning _
  · exact h.moveTo _

theorem Aside.reqResume (s : State) (c : Chan) : Aside c s (s.reqResume c).1 := by
  have hrefl := Gauged.refl c s
  unfold State.reqResume
  dsimp only
  split
  · split
    · exact hrefl.aside
    · exact ((hrefl.event _ _ _ _).resumePaused).aside
  · split
    · exact hrefl.aside
    · split
      · exact hrefl.aside
      · exact (((hrefl.moveTo .checking).modChan Channel.recheck rfl).event _ _ _ _).aside
  · exact hrefl.aside

theorem Aside.reqStop (s : State) (c : Chan) : Aside c s (s.reqStop c).1 := by
  unfold State.reqStop
  split
  · exact (((Gauged.refl c s).endStepBy _).endPlan _).aside
  · exact .refl c s

theorem Aside.reqFaultAck (s : State) (c : Chan) : Aside c s (s.reqFaultAck c).1 := by
  unfold State.reqFaultAck
  dsimp only
  split
  · exact .served s c _ _
  · exact .refl c s

theorem Aside.reqJump (s : State) (c : Chan) (half : List Byte) : Aside c s (s.reqJump c half).1 := by
  unfold State.reqJump
  dsimp only
  split
  · split
    · have hended := ((Gauged.refl c s).endStepBy .jumped).modChan (fun ch => { ch with
        demand := 0
        seqr := { ch.seqr with loops := match ch.active with
          | some p => p.prune (param1 half 0x10) ch.seqr.loops
          | none => ch.seqr.loops } }) rfl
      exact ((hended.enterStep _ _).settle).aside
    · exact .refl c s
  · exact .refl c s

theorem Aside.reqSetLimits (s : State) (c : Chan) (half : List Byte) : Aside c s (s.reqSetLimits c half).1 := by
  unfold State.reqSetLimits
  split
  · exact .refl c s
  · dsimp only
    split
    · exact .refl c s
    · exact .served s c _ _

theorem Aside.reqSetCal (s : State) (c : Chan) (half : List Byte) : Aside c s (s.reqSetCal c half).1 := by
  unfold State.reqSetCal
  dsimp only
  split
  · exact .refl c s
  · unfold State.discardLearning
    dsimp only
    split
    · exact ((Aside.refl c s).modChan _).modChan _
    · exact (Aside.refl c s).modChan _

theorem Aside.reqSetWatch (s : State) (c : Chan) (half : List Byte) : Aside c s (s.reqSetWatch c half).1 := by
  unfold State.reqSetWatch
  split
  · exact .refl c s
  · split
    · exact .refl c s
    · split
      · exact .refl c s
      · split
        · exact .refl c s
        · exact .served s c _ _

theorem Aside.reqClearWatch (s : State) (c : Chan) (half : List Byte) : Aside c s (s.reqClearWatch c half).1 := by
  unfold State.reqClearWatch
  split
  · exact .refl c s
  · exact .served s c _ _

theorem Aside.reqFlush (s : State) (c : Chan) : Aside c s (s.reqFlush c).1 := by
  unfold State.reqFlush
  dsimp only
  split
  · exact .refl c s
  · split
    · exact ((Gauged.refl c s).handover _ _).aside
    · exact .refl c s

theorem Aside.clearCounters (s : State) (c : Chan) : Aside c s (s.clearCounters c) := by
  have hcleared := ((Aside.refl c s).modChan Channel.clearCounters).modLink Link.clearCounters
  unfold State.clearCounters
  dsimp only
  split
  · next hc => exact hcleared.modPair hc _ rfl
  · exact hcleared

theorem Aside.reqCounters (s : State) (c : Chan) (half : List Byte) : Aside c s (s.reqCounters c half).1 := by
  unfold State.reqCounters
  dsimp only
  split
  · exact .clearCounters s c
  · exact .refl c s

/-- R183: a request of channel c is an event of channel c. -/
theorem Aside.channelRequest (s : State) (c : Chan) (half : List Byte) (k : ReqKind) : Aside c s (s.channelRequest c half k).1 := by
  cases k
  case enable => exact .reqEnable s c
  case disable => exact .reqDisable s c
  case loadPlan => exact (Aside.refl c s).modChan fun ch => { ch with staged := .loading, load := some ⟨none, [], false⟩ }
  case start => exact .reqStart s c
  case pause => exact .reqPause s c
  case resume => exact .reqResume s c
  case stop => exact .reqStop s c
  case faultAck => exact .reqFaultAck s c
  case setLimits => exact .reqSetLimits s c half
  case setCal => exact .reqSetCal s c half
  case setWatch => exact .reqSetWatch s c half
  case clearWatch => exact .reqClearWatch s c half
  case jump => exact .reqJump s c half
  case flush => exact .reqFlush s c
  case counters => exact .reqCounters s c half
  all_goals exact .refl c s

theorem slotChan_chanSlot (c : Chan) : slotChan (chanSlot c) = some c := dif_pos c.isLt

theorem Aside.dispatch (s : State) (c : Chan) (half : List Byte) : Aside c s (s.dispatch (chanSlot c) half).1 := by
  unfold State.dispatch
  dsimp only
  rw [slotChan_chanSlot]
  dsimp only
  split
  · exact .refl c s
  · split
    · exact .refl c s
    · exact .channelRequest s c half _

theorem Aside.answered (h : Aside c s₀ s) (f : Slot → Slot) :
    Aside c s₀ ((s.bumpResponses (chanSlot c)).modSlot (chanSlot c) f) := by
  have hcounted : Aside c s₀ (s.bumpResponses (chanSlot c)) := by
    unfold State.bumpResponses
    rw [slotChan_chanSlot]
    exact h.bumpChan _
  exact hcounted.apart rfl rfl rfl rfl rfl

theorem Aside.marked (h : Aside c s₀ s) (n : SlotIx) :
    Aside c s₀ (if s.stateField n = stateTaken then s.putStateField n stateDone else s) := by
  split
  · exact h.apart rfl rfl rfl rfl rfl
  · exact h

theorem Aside.finish (h : Aside c s₀ s) (r : Reply) : Aside c s₀ (s.finish (chanSlot c) r) := by
  unfold State.finish
  split
  · exact h
  · next half _ =>
    have hwritten : Aside c s₀ (s.writeStore (responseBase (chanSlot c)) (r.half (reqTag half) (reqKindCode half))) :=
      h.apart rfl rfl rfl rfl rfl
    exact (hwritten.marked _).answered _

theorem Aside.take (h : Aside c s₀ s) : Aside c s₀ (s.take (chanSlot c)) := by
  unfold State.take
  split
  · next =>
    dsimp only
    have htaken : Aside c s₀ ((s.modSlot (chanSlot c) fun sl =>
        { sl with latch := some (s.store.readBytes (Config.slotBase (chanSlot c)) requestHalfSize) }).putStateField (chanSlot c)
        stateTaken) := h.apart rfl rfl rfl rfl rfl
    revert htaken
    generalize State.putStateField _ _ _ = w
    intro htaken
    have hserved := htaken.trans (.dispatch w c (s.store.readBytes (Config.slotBase (chanSlot c)) requestHalfSize))
    generalize w.dispatch (chanSlot c) (s.store.readBytes (Config.slotBase (chanSlot c)) requestHalfSize) = r at hserved ⊢
    split
    · exact hserved.finish _
    · exact hserved
  · exact h.apart rfl rfl rfl rfl rfl

/-- R181, R182: a completion of channel c's request, and the request that it lets be taken. -/
theorem Aside.complete (h : Aside c s₀ s) (r : Reply) : Aside c s₀ (s.complete (chanSlot c) r) := by
  have hdone := h.finish r
  unfold State.complete State.drain
  split
  · exact Aside.take (hdone.apart rfl rfl rfl rfl rfl)
  · exact hdone

theorem Aside.endBringUp (s : State) (c : Chan) : Aside c s (s.endBringUp c) := ((Aside.refl c s).modLink _).complete _

/-! ### The events of an expiry -/

theorem Aside.linkHoldExpire (s : State) (c : Chan) : Aside c s (s.linkHoldExpire c) := by
  unfold State.linkHoldExpire
  split
  · exact ((Gauged.refl c s).tripHeld _).aside
  · exact .refl c s

theorem Aside.missedReport (s : State) (c : Chan) : Aside c s (s.missedReport c) := by
  have hcounted := (Aside.refl c s).modChan fun ch => { ch with missedCtr := ch.missedCtr + 1 }
  unfold State.missedReport
  dsimp only
  split
  · exact hcounted
  · exact hcounted.modChan _

theorem Aside.added (s : State) (c : Chan) (x : Input) : Aside c s (s.added c x) := by
  have hself := (Aside.refl c s).modChan fun ch => ch.accumulate x (decide ((s.chan c).st = .tripped))
  unfold State.added
  dsimp only
  split
  · next hl =>
    have hne := ne_followerOf_of_leads hl
    refine hself.trans ⟨fun _ _ => rfl, fun _ _ => rfl, fun _ => rfl, .of (by rfl) c, .of (by rfl) c, fun d _ => ?_⟩
    by_cases hd : d = followerOf (pairOf c)
    · rw [hd]
      exact .inr ⟨hl, rfl, by rw [State.chan_modChan_self]⟩
    · exact .inl (State.chan_modChan_ne _ _ hd)
  · exact hself

theorem Aside.handle (s : State) (c : Chan) {x : Input} (hx : x.followerV = none) (e : Bool) : Aside c s (s.handle c x e) := by
  obtain ⟨hprotect, hhandle⟩ := s.handle_gauged c x e
  rw [s.mismatched_of c hx] at hprotect
  refine Aside.gauged ?_ hhandle
  unfold State.accounted
  split
  · exact hprotect.aside.trans (.added _ c x)
  · exact hprotect.aside

theorem pairOf_leaderOf (k : PairIx) : pairOf (leaderOf k) = k := Fin.ext (by simp [pairOf, leaderOf])

theorem isEven_leaderOf (k : PairIx) : isEven (leaderOf k) = true := by simp [isEven, leaderOf]

theorem Aside.missedPair (s : State) (k : PairIx) (e : Bool) : Aside (leaderOf k) s (s.missedPair k e) := by
  have hpair := (Aside.refl (leaderOf k) s).modPair (isEven_leaderOf k) (fun p => { p with assembly := none, missedCtr := p.missedCtr + 1 }) rfl
  rw [pairOf_leaderOf] at hpair
  exact (hpair.modChan Channel.miss).trans (.handle _ _ rfl e)

theorem leaderOf_of_even (h : isEven c = true) : leaderOf (pairOf c) = c := by
  simp only [isEven, beq_iff_eq] at h
  exact Fin.ext (by simp only [leaderOf, pairOf]; omega)

theorem Aside.handleMissed (old : State) (sched : Schedule) (s : State) (c : Chan) : Aside c s (State.handleMissed old sched s c) := by
  unfold State.handleMissed
  dsimp only
  split
  · split
    · next h =>
      have hmissed := Aside.missedPair s (pairOf c) (sched.evalLate.getLsbD c.val)
      rwa [leaderOf_of_even (Bool.and_eq_true_iff.1 h).1] at hmissed
    · exact .refl c s
  · split
    · exact .handle s c rfl _
    · exact .refl c s

end Sys2Proof.Machine

/-!
An expiry of the sample timer as one channel sees it: the operations made on every channel in turn, and the stages of the expiry
(R164, R170, R173).
-/

namespace Sys2Proof.Machine

variable {s₀ s t u : State} {c d : Chan} {l : List Chan} {f : State → Chan → State}

/-! ### One channel's view of the others -/

/-- What no event of an expiry changes before the timers count: the pairs' modes, and the Arbiter's settings and timer. -/
structure Steady (s t : State) : Prop where
  ganged : ∀ k, (t.pair k).ganged = (s.pair k).ganged
  settings : t.arb.settings = s.arb.settings
  timer : t.arb.timer = s.arb.timer

theorem Steady.refl (s : State) : Steady s s := ⟨fun _ => rfl, rfl, rfl⟩

theorem Steady.trans (h : Steady s u) (k : Steady u t) : Steady s t :=
  ⟨fun j => (k.ganged j).trans (h.ganged j), k.settings.trans h.settings, k.timer.trans h.timer⟩

theorem Aside.steady (h : Aside c s t) : Steady s t := ⟨h.ganged, h.arb.settings, h.arb.timer⟩

/-- What events that leave channel c's link and missed reports as they are keep, whoever conducts c. -/
structure Unmissed (c : Chan) (s t : State) : Prop where
  link : t.link c = s.link c
  missed : (t.chan c).missedCtr = (s.chan c).missedCtr

theorem Unmissed.refl (c : Chan) (s : State) : Unmissed c s s := ⟨rfl, rfl⟩

theorem Unmissed.trans (h : Unmissed c s u) (k : Unmissed c u t) : Unmissed c s t := ⟨k.link.trans h.link, k.missed.trans h.missed⟩

theorem Aside.unmissed (h : Aside d s t) (hd : c ≠ d) : Unmissed c s t := by
  refine ⟨h.links c hd, ?_⟩
  rcases h.others c hd with e | ⟨-, -, hm⟩
  · rw [e]
  · exact hm

/-- What events of other channels keep of a channel that conducts itself. -/
structure Unseen (c : Chan) (s t : State) : Prop where
  chan : t.chan c = s.chan c
  link : t.link c = s.link c
  notice : t.notices.chan[c] = s.notices.chan[c]
  pair : isEven c = true → t.pair (pairOf c) = s.pair (pairOf c)

theorem Unseen.refl (c : Chan) (s : State) : Unseen c s s := ⟨rfl, rfl, rfl, fun _ => rfl⟩

theorem Unseen.trans (h : Unseen c s u) (k : Unseen c u t) : Unseen c s t :=
  ⟨k.chan.trans h.chan, k.link.trans h.link, k.notice.trans h.notice, fun e => (k.pair e).trans (h.pair e)⟩

/-- The channel that a leader conducts follows. -/
theorem follows_of_leads (h : s.leads d = true) : s.follows (followerOf (pairOf d)) = true := by
  have hpair : pairOf (followerOf (pairOf d)) = pairOf d := Fin.ext (by simp only [pairOf, followerOf]; omega)
  have hodd : isEven (followerOf (pairOf d)) = false := by simp [isEven, followerOf]
  unfold State.follows
  rw [hpair, hodd, (Bool.and_eq_true_iff.1 h).2]
  rfl

theorem pairOf_ne_or_odd (hd : c ≠ d) (hc : isEven c = true) : pairOf c ≠ pairOf d ∨ isEven d = false := by
  by_cases h : pairOf c = pairOf d
  · refine .inr ?_
    simp only [isEven, beq_iff_eq, beq_eq_false_iff_ne] at hc ⊢
    have hne : c.val ≠ d.val := fun e => hd (Fin.ext e)
    have hp := congrArg Fin.val h
    simp only [pairOf] at hp
    omega
  · exact .inl h

theorem Aside.unseen (h : Aside d s t) (hd : c ≠ d) (hc : s.follows c = false) : Unseen c s t := by
  refine ⟨?_, h.links c hd, h.notices.chans c hd, fun he => h.pairs _ (pairOf_ne_or_odd hd he)⟩
  rcases h.others c hd with e | ⟨hl, hf, -⟩
  · exact e
  · rw [hf, follows_of_leads hl] at hc
    cases hc

theorem follows_of_ganged (h : ∀ k, (t.pair k).ganged = (s.pair k).ganged) (c : Chan) : t.follows c = s.follows c := by
  unfold State.follows
  rw [h]

/-! ### Operations made on every channel -/

/-- A relation of states that chains. -/
structure Chains (R : State → State → Prop) : Prop where
  refl : ∀ s, R s s
  trans : ∀ {s u t}, R s u → R u t → R s t

theorem Steady.chains : Chains Steady := ⟨Steady.refl, Steady.trans⟩

theorem Unmissed.chains (c : Chan) : Chains (Unmissed c) := ⟨Unmissed.refl c, Unmissed.trans⟩

theorem Unseen.chains (c : Chan) : Chains (Unseen c) := ⟨Unseen.refl c, Unseen.trans⟩

/-- What holds before an operation made on each channel in turn holds before and after its part on channel c. -/
theorem State.forChans_once {P : State → Prop} {R : State → State → Prop} (hR : Chains R) (hP : ∀ u d, P u → P (f u d))
    (hf : ∀ u, P u → ∀ d, c ≠ d → R u (f u d)) (hc : c ∈ l) (hl : l.Nodup) (h : P s) :
    ∃ u, P u ∧ R s u ∧ R (f u c) (s.forChans f l) := by
  have untouched : ∀ (l : List Chan) (s : State), P s → c ∉ l → R s (s.forChans f l) := by
    intro l
    induction l with
    | nil => exact fun s _ _ => hR.refl s
    | cons d l ih =>
      intro s hs hd
      obtain ⟨hne, hout⟩ := not_or.1 (mt List.mem_cons.2 hd)
      exact hR.trans (hf s hs d hne) (ih _ (hP s d hs) hout)
  induction l generalizing s with
  | nil => exact absurd hc (by simp)
  | cons d l ih =>
    obtain ⟨hd, hl⟩ := List.nodup_cons.1 hl
    rcases List.mem_cons.1 hc with rfl | hc
    · exact ⟨s, h, hR.refl s, untouched l _ (hP s c h) hd⟩
    · have hne : c ≠ d := fun e => hd (e ▸ hc)
      obtain ⟨u, hu, hbefore, hafter⟩ := ih hc hl (hP s d h)
      exact ⟨u, hu, hR.trans (hf s h d hne) hbefore, hafter⟩

/-- What an operation keeps on each channel it keeps on all. -/
theorem State.forChans_all {P : State → Prop} {R : State → State → Prop} (hR : Chains R) (hP : ∀ u d, P u → P (f u d))
    (hf : ∀ u, P u → ∀ d, R u (f u d)) (h : P s) : R s (s.forChans f l) := by
  induction l generalizing s with
  | nil => exact hR.refl s
  | cons d l ih => exact hR.trans (hf s h d) (ih (hP s d h))

theorem nodup_eraseDups : ∀ l : List Chan, l.eraseDups.Nodup
  | [] => List.nodup_nil
  | c :: l => by
    rw [List.eraseDups_cons, List.nodup_cons]
    refine ⟨?_, nodup_eraseDups _⟩
    rw [List.mem_eraseDups]
    simp
termination_by l => l.length
decreasing_by exact Nat.lt_succ_of_le (List.length_filter_le _ l)

theorem schedChans_nodup (sched : Schedule) : (schedChans sched).Nodup := nodup_eraseDups _

theorem mem_schedChans (sched : Schedule) (c : Chan) : c ∈ schedChans sched := by
  unfold schedChans
  rw [List.mem_eraseDups]
  exact List.mem_append_right _ (List.mem_finRange c)

theorem mem_allChans (c : Chan) : c ∈ allChans := List.mem_finRange c

end Sys2Proof.Machine

/-!
The stages of an expiry of the sample timer (R164, R170, R173), as one channel sees them.
-/

namespace Sys2Proof.Machine

variable {s₀ s t u : State} {c d : Chan} {sched : Schedule}

/-! ### What each event leaves of its own channel -/

theorem Gauged.unmissed (h : Gauged c s t) : Unmissed c s t :=
  ⟨State.link_of_links h.links c, missedCtr_of_measures h.measures⟩

theorem State.added_unmissed (s : State) (c : Chan) (x : Input) : Unmissed c s (s.added c x) := by
  refine ⟨?_, by rw [State.added_chan_self]; rfl⟩
  unfold State.added
  dsimp only
  split <;> rfl

theorem State.handle_unmissed {x : Input} (hx : x.followerV = none) (s : State) (c : Chan) (e : Bool) : Unmissed c s (s.handle c x e) := by
  obtain ⟨hprotect, hhandle⟩ := s.handle_gauged c x e
  rw [s.mismatched_of c hx] at hprotect
  refine Unmissed.trans ?_ hhandle.unmissed
  unfold State.accounted
  split
  · exact hprotect.unmissed.trans (State.added_unmissed _ c x)
  · exact hprotect.unmissed

theorem State.linkHoldExpire_unmissed (s : State) (c : Chan) : Unmissed c s (s.linkHoldExpire c) := by
  unfold State.linkHoldExpire
  split
  · exact ((Gauged.refl c s).tripHeld _).unmissed
  · exact .refl c s

/-- R125: the state in which a missed pair sample is handled. -/
def State.pairMissed (s : State) (c : Chan) : State :=
  (s.modPair (pairOf c) fun p => { p with assembly := none, missedCtr := p.missedCtr + 1 }).modChan c Channel.miss

theorem State.missedPair_eq (h : isEven c = true) (s : State) (e : Bool) : s.missedPair (pairOf c) e =
    (s.pairMissed c).handle c ((s.pair (pairOf c)).missedInput c (followerOf (pairOf c))) e := by
  unfold State.missedPair
  dsimp only
  rw [leaderOf_of_even h]
  rfl

theorem State.pairMissed_chan (s : State) (c : Chan) : (s.pairMissed c).chan c = (s.chan c).miss := State.chan_modChan_self _ _ _

/-- R170: the handling at the end of the period of a channel of a SEPARATE pair. -/
theorem State.handleMissed_single {old : State} (h : (old.pair (pairOf c)).ganged = false) (s : State) :
    State.handleMissed old sched s c =
      if (old.link c).misses then s.handle c (s.chan c).missedInput (sched.evalLate.getLsbD c.val) else s := by
  unfold State.handleMissed
  dsimp only
  rw [h, if_neg Bool.false_ne_true]

/-- R124, R170: the handling at the end of the period of a leader. -/
theorem State.handleMissed_leader {old : State} (h : (old.pair (pairOf c)).ganged = true) (he : isEven c = true) (s : State) :
    State.handleMissed old sched s c = if (old.pair (pairOf c)).formed then s else
      (s.pairMissed c).handle c ((s.pair (pairOf c)).missedInput c (followerOf (pairOf c))) (sched.evalLate.getLsbD c.val) := by
  unfold State.handleMissed
  dsimp only
  rw [h, if_pos rfl, he, Bool.true_and, State.missedPair_eq he]
  cases (old.pair (pairOf c)).formed <;> rfl

theorem State.handleMissed_unmissed (old : State) (sched : Schedule) (s : State) (c : Chan) :
    Unmissed c s (State.handleMissed old sched s c) := by
  by_cases hg : (old.pair (pairOf c)).ganged = true
  · by_cases he : isEven c = true
    · rw [State.handleMissed_leader hg he]
      split
      · exact .refl c s
      · have hmissed : Unmissed c s (s.pairMissed c) := ⟨rfl, by rw [s.pairMissed_chan]; rfl⟩
        exact hmissed.trans (State.handle_unmissed rfl _ c _)
    · have hsame : State.handleMissed old sched s c = s := by
        unfold State.handleMissed
        dsimp only
        rw [hg, if_pos rfl, eq_false_of_ne_true he, Bool.false_and, if_neg Bool.false_ne_true]
      rw [hsame]
      exact .refl c s
  · rw [State.handleMissed_single (eq_false_of_ne_true hg)]
    split
    · exact State.handle_unmissed rfl s c _
    · exact .refl c s

/-- R65, R64: the report missed. -/
theorem State.missedReport_chan (s : State) (c : Chan) : (s.missedReport c).chan c =
    if s.leads c then { s.chan c with missedCtr := (s.chan c).missedCtr + 1 }
    else Channel.miss { s.chan c with missedCtr := (s.chan c).missedCtr + 1 } := by
  unfold State.missedReport
  dsimp only
  split
  · exact State.chan_modChan_self _ _ _
  · rw [State.chan_modChan_self, State.chan_modChan_self]

theorem State.missedReport_rest (s : State) (c : Chan) :
    (s.missedReport c).links = s.links ∧ (s.missedReport c).notices = s.notices ∧ (s.missedReport c).pairs = s.pairs := by
  unfold State.missedReport
  dsimp only
  split <;> exact ⟨rfl, rfl, rfl⟩

/-! ### The expiries that are due -/

theorem State.intervalExpire_parts (s : State) : ∃ a, s.intervalExpire = { s with arb := a } ∧ a.settings = s.arb.settings ∧
    a.timer = if s.arb.intervalDue then some 0 else s.arb.timer := by
  unfold State.intervalExpire
  split
  · obtain ⟨a, ha, hsettings, -, -, htimer, -⟩ := (s.modArb fun a => { a with timer := some 0 }).evaluate_eq
    exact ⟨a, ha, hsettings, htimer⟩
  · exact ⟨s.arb, rfl, rfl, rfl⟩

theorem State.takeDue_steady (s : State) : Steady s.intervalExpire s.takeDue :=
  State.forChans_all (P := fun _ => True) Steady.chains (fun _ _ => id) (fun u _ d => (Aside.linkHoldExpire u d).steady) trivial

theorem State.takeDue_ganged (s : State) (k : PairIx) : (s.takeDue.pair k).ganged = (s.pair k).ganged := by
  obtain ⟨a, ha, -⟩ := s.intervalExpire_parts
  refine (s.takeDue_steady.ganged k).trans ?_
  rw [ha]
  rfl

theorem State.takeDue_unmissed (s : State) (c : Chan) : Unmissed c s s.takeDue := by
  obtain ⟨a, ha, -⟩ := s.intervalExpire_parts
  have hstart : Unmissed c s s.intervalExpire := by
    rw [ha]
    exact ⟨rfl, rfl⟩
  refine hstart.trans (State.forChans_all (P := fun _ => True) (Unmissed.chains c) (fun _ _ => id) (fun u _ d => ?_) trivial)
  by_cases hd : c = d
  · rw [hd]
    exact State.linkHoldExpire_unmissed u d
  · exact (Aside.linkHoldExpire u d).unmissed hd

theorem State.takeDue_unseen (hc : s.follows c = false) (hd : (s.chan c).linkHold.due = false) : Unseen c s s.takeDue := by
  obtain ⟨a, ha, -⟩ := s.intervalExpire_parts
  have hstart : Unseen c s s.intervalExpire := by
    rw [ha]
    exact ⟨rfl, rfl, rfl, fun _ => rfl⟩
  have hfollows : s.intervalExpire.follows c = false := by
    rw [ha]
    exact hc
  obtain ⟨u, -, hbefore, hafter⟩ := State.forChans_once (f := State.linkHoldExpire) (l := allChans) (P := fun u => u.follows c = false)
    (Unseen.chains c) (fun u d hu => (follows_of_ganged (Aside.linkHoldExpire u d).ganged c).trans hu)
    (fun u hu d hne => (Aside.linkHoldExpire u d).unseen hne hu) (mem_allChans c) allChans_nodup hfollows
  have hsame : u.linkHoldExpire c = u := by
    unfold State.linkHoldExpire
    rw [hbefore.chan, hstart.chan, hd, Bool.and_false, if_neg Bool.false_ne_true]
  rw [hsame] at hafter
  exact hstart.trans (hbefore.trans hafter)

/-! ### The ends of bring-ups -/

/-- R173: the bring-ups whose limit is reached, ended. -/
def State.bringUpsEnded (s : State) : State := s.forChans (fun s c => if (s.link c).atLimit then s.endBringUp c else s) allChans

theorem Aside.bringUpEnd (s : State) (c : Chan) : Aside c s (if (s.link c).atLimit then s.endBringUp c else s) := by
  split
  · exact .endBringUp s c
  · exact .refl c s

theorem State.bringUpsEnded_steady (s : State) : Steady s s.bringUpsEnded :=
  State.forChans_all (P := fun _ => True) Steady.chains (fun _ _ => id) (fun u _ d => (Aside.bringUpEnd u d).steady) trivial

theorem State.bringUpsEnded_unmissed (h : (s.link c).atLimit = false) : Unmissed c s s.bringUpsEnded := by
  obtain ⟨u, -, hbefore, hafter⟩ := State.forChans_once (s := s) (f := fun s c => if (s.link c).atLimit then s.endBringUp c else s)
    (l := allChans) (P := fun _ => True) (Unmissed.chains c) (fun _ _ => id) (fun u _ d hne => (Aside.bringUpEnd u d).unmissed hne)
    (mem_allChans c) allChans_nodup trivial
  rw [hbefore.link, h, if_neg Bool.false_ne_true] at hafter
  exact hbefore.trans hafter

theorem State.bringUpsEnded_unseen (hc : s.follows c = false) (h : (s.link c).atLimit = false) : Unseen c s s.bringUpsEnded := by
  obtain ⟨u, -, hbefore, hafter⟩ := State.forChans_once (s := s) (f := fun s c => if (s.link c).atLimit then s.endBringUp c else s)
    (l := allChans) (P := fun u => u.follows c = false) (Unseen.chains c)
    (fun u d hu => (follows_of_ganged (Aside.bringUpEnd u d).ganged c).trans hu)
    (fun u hu d hne => (Aside.bringUpEnd u d).unseen hne hu) (mem_allChans c) allChans_nodup hc
  rw [hbefore.link, h, if_neg Bool.false_ne_true] at hafter
  exact hbefore.trans hafter

/-! ### The missed reports counted -/

/-- R170: the reports that are missed in the period, counted. -/
def State.missesCounted (s : State) : State := s.forChans (fun s c => if (s.link c).misses then s.missedReport c else s) allChans

theorem Aside.missCount (s : State) (c : Chan) : Aside c s (if (s.link c).misses then s.missedReport c else s) := by
  split
  · exact .missedReport s c
  · exact .refl c s

theorem State.missesCounted_steady (s : State) : Steady s s.missesCounted :=
  State.forChans_all (P := fun _ => True) Steady.chains (fun _ _ => id) (fun u _ d => (Aside.missCount u d).steady) trivial

theorem State.missesCounted_missed (s : State) (c : Chan) : s.missesCounted.link c = s.link c ∧
    (s.missesCounted.chan c).missedCtr = if (s.link c).misses then (s.chan c).missedCtr + 1 else (s.chan c).missedCtr := by
  obtain ⟨u, -, hbefore, hafter⟩ := State.forChans_once (s := s) (f := fun s c => if (s.link c).misses then s.missedReport c else s)
    (l := allChans) (P := fun _ => True) (Unmissed.chains c) (fun _ _ => id) (fun u _ d hne => (Aside.missCount u d).unmissed hne)
    (mem_allChans c) allChans_nodup trivial
  rw [hbefore.link] at hafter
  by_cases h : (s.link c).misses = true
  · rw [if_pos h] at hafter ⊢
    have hctr : ((u.missedReport c).chan c).missedCtr = (u.chan c).missedCtr + 1 := by
      rw [State.missedReport_chan]
      split <;> rfl
    exact ⟨hafter.link.trans ((State.link_of_links (u.missedReport_rest c).1 c).trans hbefore.link),
      hafter.missed.trans (hctr.trans (by rw [hbefore.missed]))⟩
  · rw [if_neg h] at hafter ⊢
    exact ⟨hafter.link.trans hbefore.link, hafter.missed.trans hbefore.missed⟩

/-- R64, R65: the channel after the count of its report, missed or not. -/
def Channel.counted (ch : Channel) (misses leads : Bool) : Channel :=
  if misses then
    (if leads then { ch with missedCtr := ch.missedCtr + 1 } else Channel.miss { ch with missedCtr := ch.missedCtr + 1 })
  else ch

/-- What the count of the missed reports leaves of a channel that conducts itself. -/
structure MissCounted (c : Chan) (s t : State) : Prop where
  chan : t.chan c = (s.chan c).counted (s.link c).misses (s.leads c)
  link : t.link c = s.link c
  notice : t.notices.chan[c] = s.notices.chan[c]
  pair : isEven c = true → t.pair (pairOf c) = s.pair (pairOf c)

theorem State.missesCounted_at (hc : s.follows c = false) : MissCounted c s s.missesCounted := by
  obtain ⟨u, ⟨hsteady, -⟩, hbefore, hafter⟩ := State.forChans_once (s := s) (f := fun s c => if (s.link c).misses then s.missedReport c else s)
    (l := allChans) (P := fun u => Steady s u ∧ u.follows c = false) (Unseen.chains c)
    (fun u d hu => ⟨hu.1.trans (Aside.missCount u d).steady, (follows_of_ganged (Aside.missCount u d).ganged c).trans hu.2⟩)
    (fun u hu d hne => (Aside.missCount u d).unseen hne hu.2) (mem_allChans c) allChans_nodup ⟨.refl s, hc⟩
  change Unseen c _ s.missesCounted at hafter
  generalize s.missesCounted = t at hafter ⊢
  have hleads : u.leads c = s.leads c := State.leads_congr (hsteady.ganged _)
  rw [hbefore.link] at hafter
  by_cases h : (s.link c).misses = true
  · rw [if_pos h] at hafter
    obtain ⟨hlinks, hnotices, hpairs⟩ := u.missedReport_rest c
    refine ⟨hafter.chan.trans ?_, hafter.link.trans ((State.link_of_links hlinks c).trans hbefore.link),
      hafter.notice.trans (by rw [hnotices]; exact hbefore.notice),
      fun e => (hafter.pair e).trans ((State.pair_of_pairs hpairs _).trans (hbefore.pair e))⟩
    rw [State.missedReport_chan, hleads, hbefore.chan, Channel.counted, if_pos h]
  · rw [if_neg h] at hafter
    refine ⟨hafter.chan.trans (hbefore.chan.trans ?_), hafter.link.trans hbefore.link, hafter.notice.trans hbefore.notice,
      fun e => (hafter.pair e).trans (hbefore.pair e)⟩
    rw [Channel.counted, if_neg h]

/-! ### The handling of the missed samples -/

theorem State.endPeriods_eq (s : State) (sched : Schedule) : s.endPeriods sched =
    s.bringUpsEnded.missesCounted.forChans (State.handleMissed s.bringUpsEnded.missesCounted sched) (schedChans sched) := rfl

theorem State.endPeriods_steady (s : State) (sched : Schedule) : Steady s (s.endPeriods sched) :=
  (s.bringUpsEnded_steady.trans s.bringUpsEnded.missesCounted_steady).trans (State.forChans_all (P := fun _ => True) Steady.chains
    (fun _ _ => id) (fun u _ d => (Aside.handleMissed _ sched u d).steady) trivial)

/-- R65, R170: the links and the counts of missed reports at the end of the period. -/
theorem State.endPeriods_missed (h : (s.link c).atLimit = false) (sched : Schedule) : (s.endPeriods sched).link c = s.link c ∧
    ((s.endPeriods sched).chan c).missedCtr = if (s.link c).misses then (s.chan c).missedCtr + 1 else (s.chan c).missedCtr := by
  have hended := State.bringUpsEnded_unmissed h
  obtain ⟨hlink, hmissed⟩ := s.bringUpsEnded.missesCounted_missed c
  have hhandled : Unmissed c s.bringUpsEnded.missesCounted (s.endPeriods sched) :=
    State.forChans_all (P := fun _ => True) (Unmissed.chains c) (fun _ _ => id) (fun u _ d => by
      by_cases hd : c = d
      · rw [hd]
        exact State.handleMissed_unmissed _ sched u d
      · exact (Aside.handleMissed _ sched u d).unmissed hd) trivial
  refine ⟨hhandled.link.trans (hlink.trans hended.link), hhandled.missed.trans (hmissed.trans ?_)⟩
  rw [hended.link, hended.missed]

/-- R170: the end of the period of a channel that conducts itself: what its missed sample is handled in, and that nothing else reaches
it. -/
theorem State.endPeriods_at (hc : s.follows c = false) (h : (s.link c).atLimit = false) (sched : Schedule) :
    ∃ old u, MissCounted c s old ∧ (∀ k, (old.pair k).ganged = (s.pair k).ganged) ∧ Unseen c old u ∧
      (∀ k, (u.pair k).ganged = (s.pair k).ganged) ∧ Unseen c (State.handleMissed old sched u c) (s.endPeriods sched) := by
  have hended := State.bringUpsEnded_unseen hc h
  have hcounted := State.missesCounted_at (s := s.bringUpsEnded) ((follows_of_ganged s.bringUpsEnded_steady.ganged c).trans hc)
  have hsteady := s.bringUpsEnded_steady.trans s.bringUpsEnded.missesCounted_steady
  have hleads : s.bringUpsEnded.leads c = s.leads c := State.leads_congr (s.bringUpsEnded_steady.ganged _)
  rw [State.endPeriods_eq]
  obtain ⟨u, ⟨hu, -⟩, hbefore, hafter⟩ := State.forChans_once (s := s.bringUpsEnded.missesCounted)
    (f := State.handleMissed s.bringUpsEnded.missesCounted sched) (l := schedChans sched)
    (P := fun u => Steady s u ∧ u.follows c = false) (Unseen.chains c)
    (fun u d hu => ⟨hu.1.trans (Aside.handleMissed _ sched u d).steady,
      (follows_of_ganged (Aside.handleMissed _ sched u d).ganged c).trans hu.2⟩)
    (fun u hu d hne => (Aside.handleMissed _ sched u d).unseen hne hu.2) (mem_schedChans sched c) (schedChans_nodup sched)
    ⟨hsteady, (follows_of_ganged hsteady.ganged c).trans hc⟩
  refine ⟨_, u, ⟨?_, hcounted.link.trans hended.link, hcounted.notice.trans hended.notice,
    fun e => (hcounted.pair e).trans (hended.pair e)⟩, hsteady.ganged, hbefore, hu.ganged, hafter⟩
  rw [hcounted.chan, hended.chan, hended.link, hleads]

end Sys2Proof.Machine

/-!
The frames of a period (R53, R123, R166, R167), and an expiry of the sample timer put together from its stages.
-/

namespace Sys2Proof.Machine

variable {s₀ s t u : State} {c d : Chan} {sched : Schedule} {early read : State} {readFirst : BitVec 16}

/-! ### The frames -/

/-- The link of channel c after the frame of a period, demand and range read from `read`. -/
def Link.framed (l : Link) (index : BitVec 8) (read : State) (c : Chan) : Link :=
  match l.state with
  | .inService => l.sendDemand index (read.frameRange c) (read.frameDemand c)
  | .bringUp => l.sendProbe index
  | .silent => l

theorem State.sendFrame_link (s read : State) (c : Chan) : (s.sendFrame read c).link c = (s.link c).framed s.sampleIndex read c := by
  unfold State.sendFrame Link.framed
  cases h : (s.link c).state
  case inService => exact State.link_modLink_self s c fun l => l.sendDemand s.sampleIndex (read.frameRange c) (read.frameDemand c)
  case bringUp => exact State.link_modLink_self s c fun l => l.sendProbe s.sampleIndex
  case silent => rfl

/-- Frames of other links. -/
def FramedApart (c : Chan) (s t : State) : Prop := t.link c = s.link c ∧ t.sampleIndex = s.sampleIndex

theorem FramedApart.chains (c : Chan) : Chains (FramedApart c) :=
  ⟨fun _ => ⟨rfl, rfl⟩, fun h k => ⟨k.1.trans h.1, k.2.trans h.2⟩⟩

/-- Only links differ. -/
def LinksOnly (s t : State) : Prop := ∃ ls, t = { s with links := ls }

theorem LinksOnly.chains : Chains LinksOnly := by
  refine ⟨fun s => ⟨s.links, rfl⟩, fun h k => ?_⟩
  obtain ⟨ls, rfl⟩ := h
  obtain ⟨ms, rfl⟩ := k
  exact ⟨ms, rfl⟩

theorem State.sendFrame_linksOnly (s read : State) (c : Chan) : LinksOnly s (s.sendFrame read c) := by
  unfold State.sendFrame
  split
  · exact ⟨_, rfl⟩
  · exact ⟨_, rfl⟩
  · exact ⟨s.links, rfl⟩

theorem State.sendFrame_apart (s read : State) (h : c ≠ d) : FramedApart c s (s.sendFrame read d) := by
  unfold State.sendFrame
  split
  · exact ⟨State.link_modLink_ne s _ h, rfl⟩
  · exact ⟨State.link_modLink_ne s _ h, rfl⟩
  · exact ⟨rfl, rfl⟩

theorem State.sendFrames_linksOnly (s early : State) (readFirst : BitVec 16) : LinksOnly s (s.sendFrames early readFirst) :=
  State.forChans_all (P := fun _ => True) LinksOnly.chains (fun _ _ => id) (fun u _ d => by
    split
    · exact LinksOnly.chains.refl u
    · exact State.sendFrame_linksOnly u _ d) trivial

theorem State.sendFrames_link (h : (early.link c).atLimit = false) (s : State) (readFirst : BitVec 16) :
    (s.sendFrames early readFirst).link c =
      (s.link c).framed s.sampleIndex (if readFirst.getLsbD (s.conductor c).val then early else s) c := by
  obtain ⟨u, -, ⟨hlink, hindex⟩, ⟨hafter, -⟩⟩ := State.forChans_once (s := s) (l := allChans) (P := fun _ => True)
    (f := fun t c => if (early.link c).atLimit then t else t.sendFrame (if readFirst.getLsbD (s.conductor c).val then early else s) c)
    (FramedApart.chains c) (fun _ _ => id) (fun u _ d hne => by
      split
      · exact (FramedApart.chains c).refl u
      · exact State.sendFrame_apart u _ hne) (mem_allChans c) allChans_nodup trivial
  rw [h, if_neg Bool.false_ne_true, State.sendFrame_link, hlink, hindex] at hafter
  exact hafter

/-! ### The expiry -/

/-- R164: the state in which the frames of the period opened are sent. -/
def State.opened (s : State) (sched : Schedule) : State :=
  let p := (s.takeDue.endPeriods sched).tickTimers
  { p with sampleIndex := p.sampleIndex + 1 }

theorem State.expire_eq (s : State) (sched : Schedule) :
    s.expire sched = (s.opened sched).sendFrames s.takeDue sched.readFirst := rfl

theorem State.tickTimers_chan (s : State) (c : Chan) : s.tickTimers.chan c = (s.chan c).tick := Vector.getElem_map _ c.isLt

theorem State.tickTimers_pair (s : State) (k : PairIx) : s.tickTimers.pair k = { s.pair k with formed := false } :=
  Vector.getElem_map _ k.isLt

/-- What the expiry leaves of the machine at the end of the period, but for the links. -/
structure Opened (s p t : State) : Prop where
  chan : ∀ c, t.chan c = (p.chan c).tick
  pair : ∀ k, t.pair k = { p.pair k with formed := false }
  notices : t.notices = p.notices
  arb : t.arb = p.arb.countMs
  index : t.sampleIndex = s.sampleIndex + 1
  phase : t.phase = s.phase
  stopAll : t.stopAll = s.stopAll
  linkOk : t.linkOk = s.linkOk
  timerRunning : t.timerRunning = s.timerRunning

theorem State.opened_opened (s : State) (sched : Schedule) : Opened s (s.takeDue.endPeriods sched) (s.opened sched) := by
  have hkept : Holds s (s.takeDue.endPeriods sched) := (Keeps.refl s).takeDue.holds.endPeriods sched
  unfold State.opened
  dsimp only
  generalize s.takeDue.endPeriods sched = p at hkept ⊢
  exact ⟨p.tickTimers_chan, p.tickTimers_pair, rfl, rfl, congrArg (· + 1) hkept.sampleIndex, hkept.phase, hkept.stopAll, hkept.linkOk,
    hkept.timerRunning⟩

theorem Opened.linksOnly {p : State} (h : Opened s p u) (k : LinksOnly u t) : Opened s p t := by
  obtain ⟨ls, rfl⟩ := k
  exact ⟨h.chan, h.pair, h.notices, h.arb, h.index, h.phase, h.stopAll, h.linkOk, h.timerRunning⟩

theorem State.expire_opened (s : State) (sched : Schedule) : Opened s (s.takeDue.endPeriods sched) (s.expire sched) :=
  (s.opened_opened sched).linksOnly (State.sendFrames_linksOnly _ _ _)

theorem State.opened_ganged (s : State) (sched : Schedule) (k : PairIx) : ((s.opened sched).pair k).ganged = (s.pair k).ganged := by
  rw [(s.opened_opened sched).pair]
  exact ((s.takeDue.endPeriods_steady sched).ganged k).trans (s.takeDue_ganged k)

/-- R166: the link at the end of an expiry. -/
theorem State.expire_link (h : (s.link c).atLimit = false) (sched : Schedule) : (s.expire sched).link c =
    (s.link c).framed (s.sampleIndex + 1)
      (if sched.readFirst.getLsbD ((s.opened sched).conductor c).val then s.takeDue else s.opened sched) c := by
  have hdue := (s.takeDue_unmissed c).link
  have hperiod : (s.opened sched).link c = (s.takeDue.endPeriods sched).link c := rfl
  rw [State.expire_eq, State.sendFrames_link (by rw [hdue]; exact h), hperiod, (State.endPeriods_missed (by rw [hdue]; exact h) sched).1,
    hdue, (s.opened_opened sched).index]

theorem Link.atLimit_of_state {l : Link} (h : l.state ≠ .bringUp) : l.atLimit = false := by
  unfold Link.atLimit
  rw [decide_eq_false h, Bool.false_and]

/-! ### The demand of a frame -/

theorem conductor_of_ganged (h : ∀ k, (t.pair k).ganged = (s.pair k).ganged) (c : Chan) : t.conductor c = s.conductor c := by
  unfold State.conductor
  rw [follows_of_ganged h]

/-- R123, R166: the demand of a frame of channel c, by the channel that conducts it. -/
def State.shareOf (s : State) (c : Chan) (d : Int) : Int :=
  if s.follows c then d.tdiv 2 else if s.leads c then d - d.tdiv 2 else d

theorem State.frameDemand_of_ganged (h : ∀ k, (t.pair k).ganged = (s.pair k).ganged) (c : Chan) :
    t.frameDemand c = s.shareOf c (t.chan (s.conductor c)).demand := by
  unfold State.frameDemand
  dsimp only
  rw [conductor_of_ganged h, follows_of_ganged h, State.leads_congr (h _)]
  rfl

theorem State.frameRange_of_ganged (h : ∀ k, (t.pair k).ganged = (s.pair k).ganged) (c : Chan) :
    t.frameRange c = (t.chan (s.conductor c)).range := by
  unfold State.frameRange
  rw [conductor_of_ganged h]

theorem State.shareOf_zero (s : State) (c : Chan) : s.shareOf c 0 = 0 := by
  unfold State.shareOf
  split
  · rfl
  · split <;> rfl

theorem clampDemand_zero (range : Fin 3) : clampDemand range 0 = 0 := by
  revert range
  decide

/-- R2, R166: a nonzero demand is carried only of a channel that is RUNNING outside a chop. -/
theorem clampDemand_driven {ch : Channel} (h : ch.Ok) (s : State) (c : Chan) (range : Fin 3)
    (hv : clampDemand range (s.shareOf c ch.demand) ≠ 0) : ch.st = .running ∧ ch.chop = none := by
  refine h.driven fun e => hv ?_
  rw [e, State.shareOf_zero, clampDemand_zero]

/-- R167: the link after a DEMAND frame. -/
theorem Link.framed_inService {l : Link} (h : l.state = .inService) (index : BitVec 8) (read : State) (c : Chan) :
    l.framed index read c = l.sendDemand index (read.frameRange c) (read.frameDemand c) := by
  unfold Link.framed
  rw [h]

/-- Settles O8: the frame's reading is of the state before the missed samples were handled or of the state that the expiry leaves, both
sound. -/
theorem framesDriveOnlyWhileRunning : Obligations.FramesDriveOnlyWhileRunning := by
  intro sched s hok htimer
  refine ⟨s.expire sched, congrArg Host.Outcome.next (if_pos htimer), fun c hc => ?_⟩
  have hlimit : (s.link c).atLimit = false := Link.atLimit_of_state (by rw [hc]; decide)
  have hlink := State.expire_link hlimit sched
  rw [Link.framed_inService hc, conductor_of_ganged (s.opened_ganged sched)] at hlink
  have hreadOk : (if sched.readFirst.getLsbD (s.conductor c).val then s.takeDue else s.expire sched).Ok := by
    split
    · exact (Keeps.refl s).takeDue.ok hok
    · exact s.expire_ok sched hok
  have hchans (d : Chan) : (s.expire sched).chan d = (s.opened sched).chan d :=
    ((s.expire_opened sched).chan d).trans ((s.opened_opened sched).chan d).symm
  have hrange : (if sched.readFirst.getLsbD (s.conductor c).val then s.takeDue else s.opened sched).frameRange c =
      ((if sched.readFirst.getLsbD (s.conductor c).val then s.takeDue else s.expire sched).chan (s.conductor c)).range := by
    split
    · exact State.frameRange_of_ganged s.takeDue_ganged c
    · exact (State.frameRange_of_ganged (s.opened_ganged sched) c).trans (congrArg Channel.range (hchans _).symm)
  have hdemand : (if sched.readFirst.getLsbD (s.conductor c).val then s.takeDue else s.opened sched).frameDemand c =
      s.shareOf c ((if sched.readFirst.getLsbD (s.conductor c).val then s.takeDue else s.expire sched).chan (s.conductor c)).demand := by
    split
    · exact State.frameDemand_of_ganged s.takeDue_ganged c
    · rw [State.frameDemand_of_ganged (s.opened_ganged sched) c, hchans]
  rw [hrange, hdemand] at hlink
  have hdriven := clampDemand_driven (hreadOk.chans (s.conductor c)) s c
    ((if sched.readFirst.getLsbD (s.conductor c).val then s.takeDue else s.expire sched).chan (s.conductor c)).range
  intro read conductor range d v f
  refine ⟨by rw [hlink]; rfl, by rw [hlink]; rfl, ?_, hdriven⟩
  rw [hlink]
  by_cases h : v = d
  · rw [if_neg (not_not.2 h)]
    exact if_neg (ne_true_of_eq_false (decide_eq_false (not_not.2 h)))
  · rw [if_pos h]
    exact if_pos (decide_eq_true h)

end Sys2Proof.Machine

/-!
What an expiry of the sample timer leaves of a channel of a SEPARATE pair (R63 to R65, R67, R112, R170).
-/

namespace Sys2Proof.Machine

variable {s t u w : State} {c d : Chan} {sched : Schedule} {l : LimitSet} {x : Input}

/-! ### Silence -/

/-- R64: the channel noted silent for as long as its limit allows. -/
def State.reached (s : State) (c : Chan) : State := s.modChan c fun ch => { ch with silenceReached := true }

theorem State.reached_chan (s : State) (c : Chan) : (s.reached c).chan c = { s.chan c with silenceReached := true } :=
  State.chan_modChan_self _ _ _

theorem State.judgeSilence_of_lt (h : (s.chan c).silence < l.silenceLimit) (x : Input) : s.judgeSilence c l x = s :=
  if_neg (Nat.not_le.2 h)

theorem State.judgeSilence_of_le (h : l.silenceLimit ≤ (s.chan c).silence) (x : Input) : s.judgeSilence c l x =
    if (s.chan c).st.tripable then (s.reached c).trip c .stageSilent [] x.v x.i x.t none
    else if (s.chan c).silenceReached then s.reached c else (s.reached c).laterFault c .stageSilent x.v x.i x.t := if_pos h

/-- R64, R110: the handling of the missed sample that brings the silence of a channel to its limit. -/
theorem State.handle_silent (hl : (s.chan c).limits = some l) (hst : (s.chan c).st.tripable = true) (hv : x.valid = false)
    (hle : l.silenceLimit ≤ (s.chan c).silence) (e : Bool) :
    JudgedTrip c s (s.handle c x e) ((s.chan c).faultRecord .stageSilent [] x.v x.i x.t none) := by
  obtain ⟨b, hchan, hnotices, harb, -⟩ := s.blanked_noted c l
  have hreached : Noted c s ((s.blanked c l).reached c) :=
    ⟨⟨b, (s.chan c).checks, true, by rw [State.reached_chan, hchan]⟩, hnotices, harb⟩
  refine (State.handle_trips (x := x) hl hst hreached ?_ e).1
  rw [hv, if_neg Bool.false_ne_true, State.judgeSilence_of_le (by rw [hchan]; exact hle), hchan, if_pos hst]

theorem reached_noted (s : State) (c : Chan) : Noted c s (s.reached c) :=
  ⟨⟨(s.chan c).blanking, (s.chan c).checks, true, s.reached_chan c⟩, rfl, rfl⟩

/-- R64, R112, R113: the same in TRIPPED, once in a run of silence. -/
theorem State.handle_silent_later (hl : (s.chan c).limits = some l) (hst : (s.chan c).st = .tripped) (hv : x.valid = false)
    (hle : l.silenceLimit ≤ (s.chan c).silence) (hr : (s.chan c).silenceReached = false) (e : Bool) :
    JudgedLater c s (s.handle c x e) ((s.chan c).fault.later .stageSilent) 1 := by
  have hchan := s.reached_chan c
  have hne : ((s.reached c).chan c).st ≠ .running := by
    rw [hchan, hst]
    exact fun e : ChState.tripped = .running => nomatch e
  have hlater := (State.laterFault_laterIn hne .stageSilent x.v x.i x.t).1
  have hfault : ((s.reached c).chan c).fault = (s.chan c).fault := by rw [hchan]
  rw [hfault] at hlater
  refine (State.handle_laterFaults hl hst (reached_noted s c) ?_ e).1
  rw [hv, if_neg Bool.false_ne_true, State.judgeSilence_of_le hle, hst, if_neg (by decide), hr, if_neg Bool.false_ne_true]
  exact hlater

theorem State.handle_not_silent (hl : (s.chan c).limits = some l) (hst : (s.chan c).st = .tripped) (hv : x.valid = false)
    (h : (s.chan c).silence < l.silenceLimit ∨ (s.chan c).silenceReached = true) (e : Bool) :
    JudgedLater c s (s.handle c x e) (s.chan c).fault 0 := by
  by_cases hlt : (s.chan c).silence < l.silenceLimit
  · refine (State.handle_laterFaults hl hst (.refl c s) ?_ e).1
    rw [hv, if_neg Bool.false_ne_true, State.judgeSilence_of_lt hlt]
    exact .refl s c
  · have hr := h.resolve_left hlt
    have hfault : ((s.reached c).chan c).fault = (s.chan c).fault := by rw [s.reached_chan]
    refine (State.handle_laterFaults hl hst (reached_noted s c) ?_ e).1
    rw [hv, if_neg Bool.false_ne_true, State.judgeSilence_of_le (Nat.not_lt.1 hlt), hst, if_neg (by decide), hr, if_pos rfl, ← hfault]
    exact .refl _ c

/-! ### The expiry -/

/-- R64, R65: a channel after the count of a missed report of its own. -/
def Channel.missedOne (ch : Channel) : Channel := Channel.miss { ch with missedCtr := ch.missedCtr + 1 }

theorem follows_of_separate (h : (s.pair (pairOf c)).ganged = false) : s.follows c = false := by
  unfold State.follows
  rw [h, Bool.and_false]

theorem Link.atLimit_of_misses {l : Link} (h : l.misses = true) : l.atLimit = false := by
  refine Link.atLimit_of_state ?_
  unfold Link.misses at h
  simp only [Bool.and_eq_true, decide_eq_true_eq] at h
  rw [h.1.1]
  decide

/-- R170: an expiry that ends a period in which a channel of a SEPARATE pair has missed its report. -/
theorem State.expire_missed (hm : (s.link c).misses = true) (hg : (s.pair (pairOf c)).ganged = false)
    (hd : (s.chan c).linkHold.due = false) (sched : Schedule) : ∃ (u : State) (late : Bool), u.chan c = (s.chan c).missedOne ∧
      u.notices.chan[c] = s.notices.chan[c] ∧ (u.pair (pairOf c)).ganged = false ∧
      (s.expire sched).chan c = ((u.handle c (s.chan c).missedOne.missedInput late).chan c).tick ∧
      (s.expire sched).notices.chan[c] = (u.handle c (s.chan c).missedOne.missedInput late).notices.chan[c] := by
  have hdue := State.takeDue_unseen (follows_of_separate hg) hd
  have hg' : (s.takeDue.pair (pairOf c)).ganged = false := (s.takeDue_ganged _).trans hg
  obtain ⟨old, u, hold, hganged, hbefore, hganged', hafter⟩ := State.endPeriods_at (follows_of_separate hg')
    (by rw [hdue.link]; exact Link.atLimit_of_misses hm) sched
  have hchan : u.chan c = (s.chan c).missedOne := by
    rw [hbefore.chan, hold.chan, hdue.link, hdue.chan, Channel.counted, if_pos hm, State.leads_false hg', if_neg Bool.false_ne_true]
    rfl
  have hlink : (old.link c).misses = true := by rw [hold.link, hdue.link]; exact hm
  rw [State.handleMissed_single ((hganged _).trans hg'), if_pos hlink, hchan] at hafter
  refine ⟨u, sched.evalLate.getLsbD c.val, hchan, hbefore.notice.trans (hold.notice.trans hdue.notice), (hganged' _).trans hg', ?_, ?_⟩
  · rw [(s.expire_opened sched).chan, hafter.chan]
  · rw [(s.expire_opened sched).notices, hafter.notice]

/-- R22, R10: an expiry by which a channel of a SEPARATE pair misses nothing. -/
theorem State.expire_kept (hm : (s.link c).misses = false) (hlimit : (s.link c).atLimit = false)
    (hg : (s.pair (pairOf c)).ganged = false) (hd : (s.chan c).linkHold.due = false) (sched : Schedule) :
    (s.expire sched).chan c = (s.chan c).tick := by
  have hdue := State.takeDue_unseen (follows_of_separate hg) hd
  have hg' : (s.takeDue.pair (pairOf c)).ganged = false := (s.takeDue_ganged _).trans hg
  obtain ⟨old, u, hold, hganged, hbefore, -, hafter⟩ := State.endPeriods_at (follows_of_separate hg')
    (by rw [hdue.link]; exact hlimit) sched
  have hlink : (old.link c).misses = false := by rw [hold.link, hdue.link]; exact hm
  rw [State.handleMissed_single ((hganged _).trans hg'), if_neg (ne_true_of_eq_false hlink)] at hafter
  rw [(s.expire_opened sched).chan, hafter.chan, hbefore.chan, hold.chan, hdue.link, hdue.chan, Channel.counted,
    if_neg (ne_true_of_eq_false hm)]

theorem LinkHold.tick_eq (k : LinkHold) (o : Option LimitSet) : k.tick o =
    if k.running then ⟨true, k.count + 1, match o with
      | some l => decide (l.linkHoldMax * 1000 ≤ k.count + 1)
      | none => false⟩
    else k := by
  unfold LinkHold.tick
  obtain ⟨running, count, due⟩ := k
  cases running <;> rfl

theorem Channel.tick_eq (ch : Channel) : ch.tick = { ch with
    planTime := if ch.st.inPlan then min (ch.planTime + 1) (2 ^ 48 - 1) else ch.planTime
    linkHold := if ch.linkHold.running then ⟨true, ch.linkHold.count + 1, match ch.limits with
        | some l => decide (l.linkHoldMax * 1000 ≤ ch.linkHold.count + 1)
        | none => false⟩
      else ch.linkHold } := by
  unfold Channel.tick
  rw [LinkHold.tick_eq]
  rfl

/-! ### The interval timer -/

/-- R137: the interval timer after an expiry of the sample timer. -/
theorem State.expire_timer (s : State) (sched : Schedule) :
    (s.expire sched).arb.timer = (if s.arb.intervalDue then some 0 else s.arb.timer).map (· + 1) := by
  obtain ⟨a, ha, -, htimer⟩ := s.intervalExpire_parts
  rw [(s.expire_opened sched).arb]
  refine congrArg (Option.map (· + 1)) ?_
  rw [(s.takeDue.endPeriods_steady sched).timer, s.takeDue_steady.timer, ha]
  exact htimer

theorem State.expire_timer_none (h : s.arb.timer = none) (sched : Schedule) : (s.expire sched).arb.timer = none := by
  have hdue : s.arb.intervalDue = false := by
    unfold Arbiter.intervalDue
    rw [h]
  rw [State.expire_timer, hdue, h]
  rfl

theorem State.expire_timer_some {l : LinkSettings} {k : Nat} (hl : s.arb.settings = some l) (hk : s.arb.timer = some k)
    (sched : Schedule) : (s.expire sched).arb.timer = some (if l.interval ≤ k then 1 else k + 1) := by
  have hdue : s.arb.intervalDue = decide (l.interval ≤ k) := by
    unfold Arbiter.intervalDue
    rw [hk, hl]
  rw [State.expire_timer, hdue, hk]
  by_cases h : l.interval ≤ k
  · rw [decide_eq_true h, if_pos rfl, if_pos h]
    rfl
  · rw [decide_eq_false h, if_neg Bool.false_ne_true, if_neg h]
    rfl

end Sys2Proof.Machine

/-!
An expiry of the running sample timer (R164 to R166, R170, R172, R137).
-/

namespace Sys2Proof.Machine

variable {s t u w : State} {c d : Chan} {sched : Schedule} {l : LimitSet} {x : Input} {ch ch' : Channel} {faults faults' : U32}

/-! ### A missed sample -/

/-- R64, R67, R112: what a missed sample leaves of its channel, and the faults counted before and after. -/
structure MissHandled (ch ch' : Channel) (faults faults' : U32) : Prop where
  silence : ch'.silence = min (ch.silence + 1) 65535
  held : ch'.held = ch.held
  planSet : ch'.planSet = ch.planSet.takenIn ch.st ch.held.v ch.held.i
  lifeSet : ch'.lifeSet = ch.lifeSet.takenIn ch.st ch.held.v ch.held.i
  trips : ∀ l, ch.limits = some l → l.silenceLimit ≤ min (ch.silence + 1) 65535 → ch.st.tripable = true →
    ch'.st = .tripped ∧ ch'.demand = (if ch.st = .running then 0 else ch.demand) ∧
    ch'.fault = ⟨some .stageSilent, [], ch.planTime, ch.seqr.position, ch.stepEntered, ch.seqr.cycle, ch.held.v, ch.held.i, ch.held.t,
      false, 0, none⟩ ∧
    ch'.tripCtr = ch.tripCtr + 1 ∧ faults' = faults + 1
  later : ∀ l, ch.limits = some l → l.silenceLimit ≤ min (ch.silence + 1) 65535 → ch.st = .tripped → ch.silenceReached = false →
    ch'.st = .tripped ∧ faults' = faults + 1 ∧ ch'.fault = ch.fault.later .stageSilent
  stands : ∀ l, ch.limits = some l → ch.st = .tripped → min (ch.silence + 1) 65535 < l.silenceLimit ∨ ch.silenceReached = true →
    ch'.st = .tripped ∧ faults' = faults ∧ ch'.fault = ch.fault

theorem Channel.missedOne_reached (ch : Channel) (h : ch.st = .tripped) : ch.missedOne.silenceReached = ch.silenceReached := by
  change (ch.silenceReached || (!ch.st.inPlan && _)) = _
  rw [h]
  exact Bool.or_false _

/-- R64, R67, R112: the missed sample of a channel of a SEPARATE pair handled, its report counted. -/
theorem State.handle_missed (hchan : u.chan c = ch.missedOne) (hg : (u.pair (pairOf c)).ganged = false) (e : Bool) :
    MissHandled ch ((u.handle c ch.missedOne.missedInput e).chan c) (u.notices.chan[c]).faults
      ((u.handle c ch.missedOne.missedInput e).notices.chan[c]).faults := by
  obtain ⟨hmeasures, -⟩ := State.handle_single hg (x := ch.missedOne.missedInput) rfl e
  rw [hchan] at hmeasures
  simp only [Channel.measures, Prod.mk.injEq] at hmeasures
  obtain ⟨hheld, hsilence, -, -, hplan, hlife⟩ := hmeasures
  have hlimits (l : LimitSet) (hl : ch.limits = some l) : (u.chan c).limits = some l := by rw [hchan]; exact hl
  have hst : (u.chan c).st = ch.st := by rw [hchan]; rfl
  have hcount : (u.chan c).silence = min (ch.silence + 1) 65535 := by rw [hchan]; rfl
  refine ⟨hsilence, hheld, hplan, hlife, fun l hl hle htrip => ?_, fun l hl hle htripped hr => ?_, fun l hl htripped h => ?_⟩
  · have hjudged := State.handle_silent (x := ch.missedOne.missedInput) (hlimits l hl) (by rw [hst]; exact htrip) rfl
      (by rw [hcount]; exact hle) e
    refine ⟨hjudged.st, ?_, ?_, ?_, hjudged.faults⟩
    · rw [hjudged.demand, hchan]
      rfl
    · rw [hjudged.fault, hchan]
      rfl
    · rw [hjudged.tripCtr, hchan]
      rfl
  · have hjudged := State.handle_silent_later (x := ch.missedOne.missedInput) (hlimits l hl) (by rw [hst]; exact htripped) rfl
      (by rw [hcount]; exact hle) (by rw [hchan, ch.missedOne_reached htripped]; exact hr) e
    refine ⟨hjudged.st, hjudged.faults, hjudged.fault.trans ?_⟩
    rw [hchan]
    rfl
  · have hjudged := State.handle_not_silent (x := ch.missedOne.missedInput) (hlimits l hl) (by rw [hst]; exact htripped) rfl
      (by rw [hcount, hchan, ch.missedOne_reached htripped]; exact h) e
    refine ⟨hjudged.st, hjudged.faults.trans (BitVec.add_zero _), hjudged.fault.trans ?_⟩
    rw [hchan]
    rfl

theorem MissHandled.tick (h : MissHandled ch ch' faults faults') : MissHandled ch ch'.tick faults faults' :=
  ⟨h.silence, h.held, h.planSet, h.lifeSet, h.trips, h.later, h.stands⟩

theorem State.expire_missHandled (hm : (s.link c).misses = true) (hg : (s.pair (pairOf c)).ganged = false)
    (hd : (s.chan c).linkHold.due = false) (sched : Schedule) :
    MissHandled (s.chan c) ((s.expire sched).chan c) (s.notices.chan[c]).faults ((s.expire sched).notices.chan[c]).faults := by
  obtain ⟨u, late, hchan, hnotice, hganged, hend, hcounts⟩ := State.expire_missed hm hg hd sched
  rw [hend, hcounts, ← hnotice]
  exact (State.handle_missed hchan hganged late).tick

/-- R65: a missed report is counted, whoever conducts its channel. -/
theorem State.expire_missedCtr (hm : (s.link c).misses = true) (sched : Schedule) :
    ((s.expire sched).chan c).missedCtr = (s.chan c).missedCtr + 1 := by
  have hdue := s.takeDue_unmissed c
  have hcounted := (State.endPeriods_missed (s := s.takeDue) (c := c) (by rw [hdue.link]; exact Link.atLimit_of_misses hm) sched).2
  rw [hdue.link, if_pos hm, hdue.missed] at hcounted
  rw [(s.expire_opened sched).chan]
  exact hcounted

/-- Settles O45: the frames are read off the links as they stood, and the timer's stages leave a SEPARATE channel to its own missed
sample. -/
theorem sampleTimerExpiryBeginsAPeriod : Obligations.SampleTimerExpiryBeginsAPeriod := by
  refine ⟨fun sched s h => congrArg Host.Outcome.next (if_neg (ne_true_of_eq_false h)), fun sched s htimer => ?_⟩
  have hopened := s.expire_opened sched
  have hlink (c : Chan) (h : (s.link c).state ≠ .bringUp) := State.expire_link (Link.atLimit_of_state h) sched
  refine ⟨s.expire sched, congrArg Host.Outcome.next (if_pos htimer), hopened.index, hopened.phase, hopened.stopAll, hopened.linkOk,
    hopened.timerRunning.trans htimer, fun c hc => ?_, fun c hc hlt => ?_, fun c hc => ?_,
    fun h => State.expire_timer_none h sched, fun l k hl hk => State.expire_timer_some hl hk sched,
    fun c hm => State.expire_missedCtr hm sched, fun c hm hg hd => ?_, fun c hm hlimit hg hd => ?_⟩
  · have hsent := (hlink c (by rw [hc]; decide)).trans (Link.framed_inService hc _ _ _)
    refine ⟨_, _, ?_, ?_, hsent⟩ <;> rfl
  · have hlimit : (s.link c).atLimit = false := by
      unfold Link.atLimit
      rw [decide_eq_false (Nat.not_le.2 hlt : ¬ Config.bringUpLimit ≤ (s.link c).bringUp), Bool.and_false]
    rw [State.expire_link hlimit sched, Link.framed, hc]
    rfl
  · rw [hlink c (by rw [hc]; decide), Link.framed, hc]
  · have hmissed := State.expire_missHandled hm hg hd sched
    exact ⟨hmissed.silence, hmissed.held, hmissed.planSet, hmissed.lifeSet,
      fun l hl => ⟨hmissed.trips l hl, hmissed.later l hl, hmissed.stands l hl⟩⟩
  · exact (State.expire_kept hm hlimit hg hd sched).trans (Channel.tick_eq _)

end Sys2Proof.Machine

/-!
What the handling of a sample leaves of a pair and of its two channels (R63, R71, R127).
-/

namespace Sys2Proof.Machine

variable {s t u w : State} {c d : Chan} {k : PairIx} {l : LimitSet} {x : Input}

/-! ### The follower -/

/-- R62, R71: a follower after its leader has taken a sample, in RUNNING or not. -/
def Channel.ledBy (ch ch' : Channel) (st : ChState) : Prop := ∃ az cal ctr, ch' = { ch with
  az := az, cal := cal, learnCtr := ctr, lifeSet := ch.lifeSet.takenIn st ch.held.v ch.held.i }

theorem Gauged.zeroed (h : Gauged c s t) (hd : d ≠ c) : ZeroedOnly (s.chan d) (t.chan d) := by
  rcases h.others d hd with e | ⟨-, -, hz⟩
  · exact ⟨(s.chan d).az, (s.chan d).cal, (s.chan d).learnCtr, e⟩
  · exact hz

theorem ZeroedOnly.ledBy {a b ch : Channel} {st : ChState} (h : ZeroedOnly a b) (k : b.ledBy ch st) : a.ledBy ch st := by
  obtain ⟨x, y, z, rfl⟩ := h
  exact k

theorem Channel.ledBy.zeroed {a b ch : Channel} {st : ChState} (h : a.ledBy b st) (k : ZeroedOnly b ch) : a.ledBy ch st := by
  obtain ⟨x, y, z, rfl⟩ := h
  obtain ⟨x', y', z', rfl⟩ := k
  exact ⟨x', y', z', rfl⟩

theorem Channel.ledBy_of_ne (ch : Channel) {st : ChState} (h : st ≠ .running) : ch.ledBy ch st :=
  ⟨ch.az, ch.cal, ch.learnCtr, by rw [Acc.takenIn, if_neg h]⟩

theorem State.added_follower (hl : s.leads c = true) (x : Input) :
    (s.chan (followerOf (pairOf c))).ledBy ((s.added c x).chan (followerOf (pairOf c))) .running := by
  have hne : followerOf (pairOf c) ≠ c := (ne_followerOf_of_leads hl).symm
  unfold State.added
  dsimp only
  rw [if_pos hl, State.chan_modChan_self, State.chan_modChan_ne _ _ hne]
  exact ⟨_, _, _, rfl⟩

/-! ### The channel that takes the sample -/

theorem State.added_rest (s : State) (c : Chan) (x : Input) : (s.added c x).links = s.links ∧ (s.added c x).pairs = s.pairs := by
  unfold State.added
  dsimp only
  split <;> exact ⟨rfl, rfl⟩

theorem State.mismatched_rest (s : State) (c : Chan) (x : Input) :
    (∀ d, (s.mismatched c x).chan d = s.chan d) ∧ (s.mismatched c x).links = s.links ∧ (s.mismatched c x).leads c = s.leads c := by
  unfold State.mismatched State.judgeMismatch
  split
  · split
    · split
      · refine ⟨fun _ => rfl, rfl, State.leads_congr ?_⟩
        rw [State.pair_modPair_self]
      · exact ⟨fun _ => rfl, rfl, rfl⟩
    · exact ⟨fun _ => rfl, rfl, rfl⟩
  · exact ⟨fun _ => rfl, rfl, rfl⟩

/-- R63, R71: what the handling of a sample of channel c leaves. -/
structure Handled (s t : State) (c : Chan) (x : Input) : Prop where
  held : (t.chan c).held = (s.chan c).held
  silence : (t.chan c).silence = (s.chan c).silence
  planSet : (t.chan c).planSet = (s.chan c).planSet.takenIn (s.chan c).st x.v x.i
  links : t.links = s.links
  pairs : t.pairs = (s.mismatched c x).pairs
  follower : s.leads c = true → (s.chan (followerOf (pairOf c))).ledBy (t.chan (followerOf (pairOf c))) (s.chan c).st

theorem State.accounted_handled (s : State) (c : Chan) (x : Input) : Handled s (s.accounted c x) c x := by
  obtain ⟨hprotect, -⟩ := s.handle_gauged c x false
  obtain ⟨hchans, hlinks, hleads⟩ := s.mismatched_rest c x
  have hmeasures := hprotect.measures
  rw [hchans] at hmeasures
  simp only [Channel.measures, Prod.mk.injEq] at hmeasures
  obtain ⟨hheld, hsilence, -, -, hplan, -⟩ := hmeasures
  have hzeroed (hl : s.leads c = true) := hprotect.zeroed (ne_followerOf_of_leads hl).symm
  unfold State.accounted
  by_cases hr : (s.chan c).st = .running
  · rw [if_pos hr]
    obtain ⟨hlinks', hpairs'⟩ := (s.protect c x).added_rest c x
    have hself := (s.protect c x).added_chan_self c x
    refine ⟨?_, ?_, ?_, hlinks'.trans (hprotect.links.trans hlinks), hpairs'.trans hprotect.pairs, fun hl => ?_⟩
    · rw [hself]
      exact hheld
    · rw [hself]
      exact hsilence
    · rw [hself, Acc.takenIn, if_pos hr, ← hplan]
      rfl
    · have hled := State.added_follower (s := s.protect c x) ((hprotect.leads c).trans (hleads.trans hl)) x
      have hstart := hzeroed hl
      rw [hchans] at hstart
      rw [hr]
      exact hstart.ledBy hled
  · rw [if_neg hr]
    refine ⟨hheld, hsilence, ?_, hprotect.links.trans hlinks, hprotect.pairs, fun hl => ?_⟩
    · rw [Acc.takenIn, if_neg hr, hplan]
    · have hstart := hzeroed hl
      rw [hchans] at hstart
      exact ((s.chan (followerOf (pairOf c))).ledBy_of_ne hr).zeroed hstart

theorem State.handle_handled (s : State) (c : Chan) (x : Input) (e : Bool) : Handled s (s.handle c x e) c x := by
  obtain ⟨-, hhandle⟩ := s.handle_gauged c x e
  obtain ⟨hheld, hsilence, hplan, hlinks, hpairs, hfollower⟩ := s.accounted_handled c x
  have hmeasures := hhandle.measures
  simp only [Channel.measures, Prod.mk.injEq] at hmeasures
  obtain ⟨hheld', hsilence', -, -, hplan', -⟩ := hmeasures
  exact ⟨hheld'.trans hheld, hsilence'.trans hsilence, hplan'.trans hplan, hhandle.links.trans hlinks, hhandle.pairs.trans hpairs,
    fun hl => (hfollower hl).zeroed (hhandle.zeroed (ne_followerOf_of_leads hl).symm)⟩

/-! ### The mismatch count -/

/-- R127: the mismatch count after a formed pair sample that the leader ch handles. -/
def Channel.mismatchAfter (ch : Channel) (x : Input) (count : Nat) : Nat :=
  match ch.limits with
  | some l => if ch.st.inPlan = true then mismatchNext (disagrees l x) count else count
  | none => count

theorem State.mismatched_pair {v : Int} (hx : x.followerV = some v) (hv : x.valid = true) (s : State) (c : Chan) :
    (s.mismatched c x).pair (pairOf c) =
      { s.pair (pairOf c) with mismatch := (s.chan c).mismatchAfter x (s.pair (pairOf c)).mismatch } := by
  unfold State.mismatched Channel.mismatchAfter
  cases (s.chan c).limits with
  | none => rfl
  | some l =>
    dsimp only
    rw [hv, Bool.and_true]
    split
    · unfold State.judgeMismatch
      rw [hx]
      exact State.pair_modPair_self ..
    · rfl

/-- R99, R127: the judgement of a formed pair sample that violates no other check and is the last disagreement of a run. -/
theorem State.judgeChecks_mismatch (hst : (s.chan c).st.tripable = true) (hc : (l.judge x).causes = []) (hd : disagrees l x = true)
    (hcount : 9 ≤ (s.pair (pairOf c)).mismatch) : s.judgeChecks c l x =
      ((s.modChan c fun ch => { ch with checks := l.judge x }).judgeMismatch c l x).trip c .pairMismatch [] x.v x.i x.t none := by
  have hfull : Config.mismatchTrip ≤ mismatchNext true (s.pair (pairOf c)).mismatch := by
    change 10 ≤ min ((s.pair (pairOf c)).mismatch + 1) 10
    omega
  unfold State.judgeChecks
  dsimp only
  rw [if_pos hst, hc, hd, decide_eq_true hfull]
  rfl

theorem judgeMismatch_noted (s : State) (c : Chan) (l : LimitSet) (x : Input) : Noted c s (s.judgeMismatch c l x) := by
  unfold State.judgeMismatch
  split
  · exact ⟨⟨(s.chan c).blanking, (s.chan c).checks, (s.chan c).silenceReached, rfl⟩, rfl, rfl⟩
  · exact .refl c s

/-- R127, R110: the same sample handled. -/
theorem State.handle_mismatch (hl : (s.chan c).limits = some l) (hst : (s.chan c).st.tripable = true) (hv : x.valid = true)
    (hc : (l.judge x).causes = []) (hd : disagrees l x = true) (hcount : 9 ≤ (s.pair (pairOf c)).mismatch) (e : Bool) :
    JudgedTrip c s (s.handle c x e) ((s.chan c).faultRecord .pairMismatch [] x.v x.i x.t none) := by
  obtain ⟨b, hchan, -, -, hpairs⟩ := s.blanked_noted c l
  have hnoted := (s.blanked_checked c l (l.judge x)).1.trans (judgeMismatch_noted _ c l x)
  refine (State.handle_trips (x := x) hl hst hnoted ?_ e).1
  rw [if_pos hv]
  exact State.judgeChecks_mismatch (by rw [hchan]; exact hst) hc hd (by rw [State.pair_of_pairs hpairs]; exact hcount)

end Sys2Proof.Machine

/-!
The halves of a pair sample and its forming (R124 to R127).
-/

namespace Sys2Proof.Machine

variable {s t u v w : State} {c d : Chan} {k : PairIx} {x : Input} {frame : BitVec 96} {f : FrameRecord}

/-! ### The arrival of a half -/

/-- What of a channel the arrival of a valid report changes (R63, R64, R101). -/
def SampledAs (ch ch' : Channel) : Prop := ∃ held silence reached clampCtr faultCtr hotCtr hot, ch' = { ch with
  held := held, silence := silence, silenceReached := reached, clampCtr := clampCtr, stageFaultCtr := faultCtr
  stageHotCtr := hotCtr, stageHot := hot }

/-- R55, R63, R64, R101, R125: the state in which a half is handed to the assembly. -/
def State.halfArrived (s : State) (c : Chan) (r : Response) (f : FrameRecord) : State :=
  (s.modLink c fun l => { l with received := true }).setChan c
    (ReportedChannel (s.chan c) r ((s.chan c).cal.correct r f.range) (!isEven c))

/-- R52, R124: the half that a response forms. -/
def State.halfOf (s : State) (c : Chan) (r : Response) (f : FrameRecord) : Sample :=
  ⟨r.index, (s.chan c).cal.correct r f.range, r.ready, r.fault, r.hot, r.i, f.drive, f.range⟩

theorem State.halfArrived_chan (s : State) (c : Chan) (r : Response) (f : FrameRecord) :
    (s.halfArrived c r f).chan c = ReportedChannel (s.chan c) r ((s.chan c).cal.correct r f.range) (!isEven c) :=
  State.chan_setChan_self ..

theorem State.halfArrived_chan_ne (s : State) (r : Response) (f : FrameRecord) (h : d ≠ c) :
    (s.halfArrived c r f).chan d = s.chan d := State.chan_setChan_ne _ _ h

theorem State.halfArrived_sampled (s : State) (c : Chan) (r : Response) (f : FrameRecord) (d : Chan) :
    SampledAs (s.chan d) ((s.halfArrived c r f).chan d) := by
  by_cases h : d = c
  · rw [h, State.halfArrived_chan]
    exact ⟨_, _, _, _, _, _, _, rfl⟩
  · rw [State.halfArrived_chan_ne _ _ _ h]
    exact ⟨_, _, _, _, _, _, _, rfl⟩

theorem State.halfArrived_frame (s : State) (c : Chan) (r : Response) (f : FrameRecord) : Frame s (s.halfArrived c r f) c [] :=
  (Frame.modLink s c _).trans (Frame.modChan _ c fun _ => ReportedChannel (s.chan c) r ((s.chan c).cal.correct r f.range) (!isEven c)) rfl

theorem leads_eq_of_ganged (h : (s.pair (pairOf c)).ganged = true) : s.leads c = isEven c := by
  unfold State.leads
  rw [h, Bool.and_true]

theorem State.validReport_pair (hg : (s.pair (pairOf c)).ganged = true) (r : Response) (f : FrameRecord) (late : Bool) :
    (s.modLink c fun l => { l with received := true }).validReport c r f late = (s.halfArrived c r f).assemble c (s.halfOf c r f) late := by
  have hl : (s.modLink c fun l => { l with received := true }).leads c = isEven c := leads_eq_of_ganged hg
  have harrived : (if isEven c then (s.modLink c fun l => { l with received := true }).modChan c fun ch =>
        ch.report ((s.modLink c fun l => { l with received := true }).correctSample c r f)
      else ((s.modLink c fun l => { l with received := true }).modChan c fun ch =>
        ch.report ((s.modLink c fun l => { l with received := true }).correctSample c r f)).modChan c Channel.heard) =
      s.halfArrived c r f := by
    unfold State.halfArrived
    cases isEven c with
    | true => rfl
    | false =>
      rw [if_neg Bool.false_ne_true, State.modChan_modChan]
      rfl
  unfold State.validReport
  dsimp only
  rw [hl, harrived, State.modLink_pair, hg]
  rfl

theorem State.responseFrame_pair (hs : (s.link c).state = .inService) (he : (s.link c).examine frame = none)
    (hf : (s.link c).frame = some f) (hg : (s.pair (pairOf c)).ganged = true) (late : Bool) :
    s.responseFrame c frame late = (s.halfArrived c (Response.ofFrame frame) f).assemble c (s.halfOf c (Response.ofFrame frame) f) late := by
  rw [State.responseFrame_valid he hf, ← State.validReport_pair hg]
  unfold State.validResponse
  rw [State.link_modLink_self]
  dsimp only
  rw [hs]

/-! ### The forming -/

/-- R126: the state in which a formed pair sample is handled. -/
def State.formed (s : State) (k : PairIx) (l f : Sample) : State :=
  (s.modPair k fun p => { p with assembly := none, formed := true, held := pairQuantities l f }).modChan (leaderOf k) Channel.heard

theorem State.assemble_forms {h : Half} (ha : (s.pair (pairOf c)).assembly = some h) (hc : h.chan ≠ c) {x : Sample}
    (hx : h.sample.index = x.index) (e : Bool) : s.assemble c x e =
      (s.formed (pairOf c) (if isEven c then x else h.sample) (if isEven c then h.sample else x)).handle (leaderOf (pairOf c))
        (pairInput (if isEven c then x else h.sample) (if isEven c then h.sample else x)) e := by
  unfold State.assemble
  dsimp only
  rw [ha]
  exact if_pos ⟨hc, hx⟩

theorem State.formed_leader (s : State) (k : PairIx) (l f : Sample) : (s.formed k l f).chan (leaderOf k) = (s.chan (leaderOf k)).heard :=
  State.chan_modChan_self _ _ _

theorem State.formed_follower (s : State) (k : PairIx) (l f : Sample) :
    (s.formed k l f).chan (followerOf k) = s.chan (followerOf k) := State.chan_modChan_ne _ _ (leaderOf_ne_followerOf k).symm

theorem State.formed_pair (s : State) (k : PairIx) (l f : Sample) : (s.formed k l f).pair k =
    { s.pair k with assembly := none, formed := true, held := pairQuantities l f } :=
  State.pair_modPair_self s k fun p => { p with assembly := none, formed := true, held := pairQuantities l f }

/-- R99: no check but that of R127 is violated. -/
def ChecksHold (l : LimitSet) (x : Input) : Prop :=
  x.v ≤ l.vMax ∧ l.vMin ≤ x.v ∧ (x.i.natAbs : Int) ≤ l.iMax ∧ x.t ≤ l.tMax ∧ x.fault = false

theorem ChecksHold.causes {l : LimitSet} (h : ChecksHold l x) : (l.judge x).causes = [] := by
  obtain ⟨hmax, hmin, hi, ht, hfault⟩ := h
  unfold LimitSet.judge Checks.causes
  rw [decide_eq_false (Int.not_lt.2 hmax), decide_eq_false (Int.not_lt.2 hmin), decide_eq_false (Int.not_lt.2 hi),
    decide_eq_false (Int.not_lt.2 ht), hfault]
  rfl

/-- R126, R127, R71: what the handling of a formed pair sample leaves. -/
structure PairHandled (s t : State) (k : PairIx) (l f : Sample) : Prop where
  links : t.links = s.links
  pair : t.pair k = { s.pair k with
    assembly := none
    formed := true
    held := pairQuantities l f
    mismatch := (s.chan (leaderOf k)).mismatchAfter (pairInput l f) (s.pair k).mismatch }
  held : (t.chan (leaderOf k)).held = (s.chan (leaderOf k)).held
  silence : (t.chan (leaderOf k)).silence = 0
  planSet : (t.chan (leaderOf k)).planSet =
    (s.chan (leaderOf k)).planSet.takenIn (s.chan (leaderOf k)).st l.val.v (l.val.i + f.val.i)
  follower : (s.chan (followerOf k)).ledBy (t.chan (followerOf k)) (s.chan (leaderOf k)).st
  trips : ∀ set, (s.chan (leaderOf k)).limits = some set → (s.chan (leaderOf k)).st.tripable = true →
    ChecksHold set (pairInput l f) → disagrees set (pairInput l f) = true → 9 ≤ (s.pair k).mismatch →
    (t.chan (leaderOf k)).st = .tripped ∧
    (t.chan (leaderOf k)).demand = (if (s.chan (leaderOf k)).st = .running then 0 else (s.chan (leaderOf k)).demand) ∧
    (t.chan (leaderOf k)).fault = (s.chan (leaderOf k)).faultRecord .pairMismatch [] l.val.v (l.val.i + f.val.i)
      (max l.val.t f.val.t) none

theorem State.formed_handled (hg : (s.pair k).ganged = true) (l f : Sample) (e : Bool) :
    PairHandled s ((s.formed k l f).handle (leaderOf k) (pairInput l f) e) k l f := by
  have hchan := s.formed_leader k l f
  have hfollower := s.formed_follower k l f
  have hpair := s.formed_pair k l f
  have hlinks : (s.formed k l f).links = s.links := rfl
  generalize s.formed k l f = w at hchan hfollower hpair hlinks ⊢
  have hhandled := w.handle_handled (leaderOf k) (pairInput l f) e
  have hjudged := State.mismatched_pair (x := pairInput l f) rfl rfl w (leaderOf k)
  have hleads : w.leads (leaderOf k) = true := by
    unfold State.leads
    rw [isEven_leaderOf, pairOf_leaderOf, hpair]
    exact hg
  have hended := hhandled.follower hleads
  rw [pairOf_leaderOf] at hjudged hended
  refine ⟨hhandled.links.trans hlinks, ?_, ?_, ?_, ?_, ?_, fun set hset htrip hchecks hapart hcount => ?_⟩
  · rw [State.pair_of_pairs hhandled.pairs, hjudged, hchan, hpair]
    rfl
  · rw [hhandled.held, hchan]
    rfl
  · rw [hhandled.silence, hchan]
    rfl
  · rw [hhandled.planSet, hchan]
    rfl
  · rw [hchan, hfollower] at hended
    exact hended
  · have hjudgedTrip := State.handle_mismatch (s := w) (c := leaderOf k) (x := pairInput l f) (l := set) (by rw [hchan]; exact hset)
      (by rw [hchan]; exact htrip) rfl hchecks.causes hapart (by rw [pairOf_leaderOf, hpair]; exact hcount) e
    refine ⟨hjudgedTrip.st, ?_, ?_⟩
    · rw [hjudgedTrip.demand, hchan]
      rfl
    · rw [hjudgedTrip.fault, hchan]
      rfl

end Sys2Proof.Machine

/-!
Pair samples formed or missed (R124 to R127, R63, R71).
-/

namespace Sys2Proof.Machine

variable {s t u v w : State} {c d : Chan} {k : PairIx} {x : Input} {frame : BitVec 96} {f : FrameRecord} {sched : Schedule}

/-! ### Formed -/

theorem followerOf_of_odd (h : isEven c = false) : followerOf (pairOf c) = c := by
  simp only [isEven, beq_eq_false_iff_ne] at h
  exact Fin.ext (by simp only [followerOf, pairOf]; omega)

/-- R63: a channel's held values stand through the handling of the pair sample. -/
theorem PairHandled.held_own {l g : Sample} (h : PairHandled s t (pairOf c) l g) : (t.chan c).held = (s.chan c).held := by
  cases he : isEven c with
  | true =>
    have hheld := h.held
    rwa [leaderOf_of_even he] at hheld
  | false =>
    obtain ⟨_, _, _, hfollower⟩ := h.follower
    rw [followerOf_of_odd he] at hfollower
    rw [hfollower]

theorem pairQuantities_eq (l g : Sample) : pairQuantities l g = ⟨l.val.v, l.val.i + g.val.i, max l.val.t g.val.t,
    l.val.clampV || l.val.clampI || l.val.clampT1 || l.val.clampT2 || g.val.clampV || g.val.clampI || g.val.clampT1
      || g.val.clampT2⟩ := by
  unfold pairQuantities formPairHeld Corrected.anyClamp
  simp only [Bool.or_assoc]

/-- R127: the mismatch count in the words of the statement. -/
theorem Channel.mismatchAfter_eq (ch : Channel) (l g : Sample) (count : Nat) : ch.mismatchAfter (pairInput l g) count =
    match ch.limits with
    | some set =>
      if ch.st.inPlan = true then (if set.pairTol < ((l.val.v - g.val.v).natAbs : Int) then min (count + 1) 10 else 0) else count
    | none => count := by
  unfold Channel.mismatchAfter
  cases ch.limits with
  | none => rfl
  | some set =>
    dsimp only
    split
    · by_cases h : set.pairTol < ((l.val.v - g.val.v).natAbs : Int)
      · rw [if_pos h]
        exact if_pos (decide_eq_true h)
      · rw [if_neg h]
        exact if_neg (ne_true_of_eq_false (decide_eq_false h))
    · rfl

/-! ### Missed -/

/-- R125: what an expiry leaves of a pair whose sample is missed, and of one whose sample was formed. -/
theorem State.expire_pair (hg : (s.pair (pairOf c)).ganged = true) (he : isEven c = true) (hs : (s.link c).state = .inService)
    (hd : (s.chan c).linkHold.due = false) (sched : Schedule) :
    ((s.pair (pairOf c)).formed = false →
      (s.expire sched).pair (pairOf c) = { s.pair (pairOf c) with
        assembly := none, missedCtr := (s.pair (pairOf c)).missedCtr + 1 } ∧
      ((s.expire sched).chan c).silence = min ((s.chan c).silence + 1) 65535 ∧
      ((s.expire sched).chan c).planSet =
        (s.chan c).planSet.takenIn (s.chan c).st (s.pair (pairOf c)).held.v (s.pair (pairOf c)).held.i) ∧
    ((s.pair (pairOf c)).formed = true → (s.expire sched).pair (pairOf c) = { s.pair (pairOf c) with formed := false } ∧
      ((s.expire sched).chan c).silence = (s.chan c).silence ∧ ((s.expire sched).chan c).planSet = (s.chan c).planSet) := by
  have hfollows (w : State) : w.follows c = false := by
    unfold State.follows
    rw [he]
    rfl
  have hdue := State.takeDue_unseen (hfollows s) hd
  have hg' : (s.takeDue.pair (pairOf c)).ganged = true := (s.takeDue_ganged _).trans hg
  obtain ⟨old, u, hold, hganged, hbefore, -, hafter⟩ := State.endPeriods_at (hfollows s.takeDue)
    (by rw [hdue.link]; exact Link.atLimit_of_state (by rw [hs]; decide)) sched
  have hoPair : old.pair (pairOf c) = s.pair (pairOf c) := (hold.pair he).trans (hdue.pair he)
  have huPair : u.pair (pairOf c) = s.pair (pairOf c) := (hbefore.pair he).trans hoPair
  have huChan : u.chan c = (s.chan c).counted ((s.link c).misses) true := by
    rw [hbefore.chan, hold.chan, hdue.chan, hdue.link, leads_eq_of_ganged hg', he]
  have hcounted : (u.chan c).silence = (s.chan c).silence ∧ (u.chan c).planSet = (s.chan c).planSet ∧ (u.chan c).st = (s.chan c).st := by
    rw [huChan]
    unfold Channel.counted
    split <;> exact ⟨rfl, rfl, rfl⟩
  obtain ⟨hsilence, hplan, hst⟩ := hcounted
  rw [State.handleMissed_leader ((hganged _).trans hg') he, hoPair, huPair] at hafter
  have hend := s.expire_opened sched
  refine ⟨fun hformed => ?_, fun hformed => ?_⟩
  · rw [hformed, if_neg Bool.false_ne_true] at hafter
    have hhandled := (u.pairMissed c).handle_handled c ((s.pair (pairOf c)).missedInput c (followerOf (pairOf c)))
      (sched.evalLate.getLsbD c.val)
    have hpairs := hhandled.pairs
    rw [State.mismatched_of _ c rfl] at hpairs
    have hmissedPair : (u.pairMissed c).pair (pairOf c) =
        { s.pair (pairOf c) with assembly := none, missedCtr := (s.pair (pairOf c)).missedCtr + 1 } := by
      rw [← huPair]
      exact State.pair_modPair_self u _ fun p => { p with assembly := none, missedCtr := p.missedCtr + 1 }
    refine ⟨?_, ?_, ?_⟩
    · rw [hend.pair, hafter.pair he, State.pair_of_pairs hpairs, hmissedPair, ← hformed]
    · rw [hend.chan, hafter.chan]
      refine hhandled.silence.trans ?_
      rw [State.pairMissed_chan, ← hsilence]
      rfl
    · rw [hend.chan, hafter.chan]
      refine hhandled.planSet.trans ?_
      rw [State.pairMissed_chan, ← hplan, ← hst]
      rfl
  · rw [hformed, if_pos rfl] at hafter
    refine ⟨?_, ?_, ?_⟩
    · rw [hend.pair, hafter.pair he, huPair]
    · rw [hend.chan, hafter.chan]
      exact hsilence
    · rw [hend.chan, hafter.chan]
      exact hplan

/-- R126, R127, R71: the second half of an index, in the words of the statement: s is the state in which it arrives, w that in which it
is handed to the assembly. -/
theorem PairHandled.statement {l g : Sample} (h : PairHandled w t k l g) (hw : ∀ d, SampledAs (s.chan d) (w.chan d))
    (hp : w.pair k = s.pair k) :
    (∃ mismatch, t.pair k = { s.pair k with
      assembly := none
      formed := true
      held := ⟨l.val.v, l.val.i + g.val.i, max l.val.t g.val.t, l.val.clampV || l.val.clampI || l.val.clampT1 || l.val.clampT2
        || g.val.clampV || g.val.clampI || g.val.clampT1 || g.val.clampT2⟩
      mismatch := mismatch }) ∧
    (t.pair k).mismatch = (match (s.chan (leaderOf k)).limits with
      | some set =>
        if (s.chan (leaderOf k)).st.inPlan = true then
          (if set.pairTol < ((l.val.v - g.val.v).natAbs : Int) then min ((s.pair k).mismatch + 1) 10 else 0)
        else (s.pair k).mismatch
      | none => (s.pair k).mismatch) ∧
    (t.chan (leaderOf k)).silence = 0 ∧
    (t.chan (leaderOf k)).planSet =
      (s.chan (leaderOf k)).planSet.takenIn (s.chan (leaderOf k)).st l.val.v (l.val.i + g.val.i) ∧
    (t.chan (followerOf k)).lifeSet = (s.chan (followerOf k)).lifeSet.takenIn (s.chan (leaderOf k)).st
      (t.chan (followerOf k)).held.v (t.chan (followerOf k)).held.i ∧
    (t.chan (followerOf k)).st = (s.chan (followerOf k)).st ∧ (t.chan (followerOf k)).demand = (s.chan (followerOf k)).demand ∧
    (t.chan (followerOf k)).fault = (s.chan (followerOf k)).fault ∧
    (t.chan (followerOf k)).planSet = (s.chan (followerOf k)).planSet ∧
    ∀ set, (s.chan (leaderOf k)).limits = some set → (s.chan (leaderOf k)).st.tripable = true → ChecksHold set (pairInput l g) →
      disagrees set (pairInput l g) = true → 9 ≤ (s.pair k).mismatch →
      (t.chan (leaderOf k)).st = .tripped ∧
      (t.chan (leaderOf k)).demand = (if (s.chan (leaderOf k)).st = .running then 0 else (s.chan (leaderOf k)).demand) ∧
      (t.chan (leaderOf k)).fault = ⟨some .pairMismatch, [], (s.chan (leaderOf k)).planTime, (s.chan (leaderOf k)).seqr.position,
        (s.chan (leaderOf k)).stepEntered, (s.chan (leaderOf k)).seqr.cycle, l.val.v, l.val.i + g.val.i, max l.val.t g.val.t, false, 0,
        none⟩ := by
  obtain ⟨_, _, _, _, _, _, _, hlead⟩ := hw (leaderOf k)
  obtain ⟨_, _, _, _, _, _, _, hfoll⟩ := hw (followerOf k)
  obtain ⟨az, cal, ctr, hled⟩ := h.follower
  have hpair := h.pair
  have hplan := h.planSet
  have htrips := h.trips
  rw [hfoll] at hled
  rw [hlead] at hled hplan htrips
  rw [pairQuantities_eq, Channel.mismatchAfter_eq, hp, hlead] at hpair
  refine ⟨⟨_, hpair⟩, congrArg Pair.mismatch hpair, h.silence, hplan, ?_, ?_, ?_, ?_, ?_, fun set hset htrip hchecks hapart hcount =>
    htrips set hset htrip hchecks hapart (by rw [hp]; exact hcount)⟩
  all_goals rw [hled]

/-- Settles O15: the half is handed to the assembly in the state that its report leaves, the second half forms the sample that the leader
handles, and an expiry handles the missed one. -/
theorem pairSamplesAreFormedOrMissed : Obligations.PairSamplesAreFormedOrMissed := by
  refine ⟨fun c frame late s f hs he hf hg => ?_, fun sched s k _ htimer hg hleader _ hdue => ?_⟩
  · have hexec := State.responseFrame_pair hs he hf hg late
    have hchan := s.halfArrived_chan c (Response.ofFrame frame) f
    have hsampled := s.halfArrived_sampled c (Response.ofFrame frame) f
    have hframe := s.halfArrived_frame c (Response.ofFrame frame) f
    have hlink : (s.halfArrived c (Response.ofFrame frame) f).link c = { s.link c with received := true } :=
      State.link_modLink_self s c fun l => { l with received := true }
    have hrest : (s.halfArrived c (Response.ofFrame frame) f).pairs = s.pairs ∧ (s.halfArrived c (Response.ofFrame frame) f).slots = s.slots ∧
        (s.halfArrived c (Response.ofFrame frame) f).arb = s.arb ∧ (s.halfArrived c (Response.ofFrame frame) f).notices = s.notices ∧
        (s.halfArrived c (Response.ofFrame frame) f).store = s.store := ⟨rfl, rfl, rfl, rfl, rfl⟩
    have hhalf : s.halfOf c (Response.ofFrame frame) f = ⟨(Response.ofFrame frame).index, (s.chan c).cal.correct (Response.ofFrame frame)
      f.range, (Response.ofFrame frame).ready, (Response.ofFrame frame).fault, (Response.ofFrame frame).hot, (Response.ofFrame frame).i,
      f.drive, f.range⟩ := rfl
    generalize s.halfArrived c (Response.ofFrame frame) f = w at hexec hchan hsampled hframe hlink hrest
    obtain ⟨hpairs, hslots, harb, hnotices, hstore⟩ := hrest
    have hpair (j : PairIx) := State.pair_of_pairs hpairs j
    refine ⟨fun hnone => ?_, fun h hsome hother hindex => ?_⟩
    · have hwaits : w.assemble c (s.halfOf c (Response.ofFrame frame) f) late =
          w.modPair (pairOf c) fun p => { p with assembly := some ⟨c, s.halfOf c (Response.ofFrame frame) f⟩ } := by
        unfold State.assemble
        dsimp only
        rw [hpair, hnone]
      refine ⟨_, congrArg Host.Outcome.next (hexec.trans hwaits), ?_, hchan, hlink, harb, hnotices, hslots, hstore,
        hframe.trans (.modPair w c _) (State.leads_of_pairs hpairs c)⟩
      rw [State.pair_modPair_self, hpair]
      rfl
    · obtain ⟨l, g, hl, hlval, hg', hgval, hfaults⟩ : ∃ l g : Sample,
          (if isEven c then s.halfOf c (Response.ofFrame frame) f else h.sample) = l ∧
          (if isEven c then (s.chan c).cal.correct (Response.ofFrame frame) f.range else h.sample.val) = l.val ∧
          (if isEven c then h.sample else s.halfOf c (Response.ofFrame frame) f) = g ∧
          (if isEven c then h.sample.val else (s.chan c).cal.correct (Response.ofFrame frame) f.range) = g.val ∧
          ((Response.ofFrame frame).fault = false → h.sample.fault = false → (pairInput l g).fault = false) := by
        refine ⟨_, _, rfl, ?_, rfl, ?_, fun h1 h2 => ?_⟩
        · cases isEven c <;> rfl
        · cases isEven c <;> rfl
        · refine Bool.or_eq_false_iff.2 ?_
          cases isEven c
          · exact ⟨h2, h1⟩
          · exact ⟨h1, h2⟩
      have hforms := State.assemble_forms ((congrArg Pair.assembly (hpair (pairOf c))).trans hsome) hother
        (x := s.halfOf c (Response.ofFrame frame) f) hindex late
      rw [hl, hg'] at hforms
      rw [hforms] at hexec
      have hhandled := State.formed_handled (s := w) (k := pairOf c) (by rw [hpair]; exact hg) l g late
      generalize (w.formed (pairOf c) l g).handle (leaderOf (pairOf c)) (pairInput l g) late = t at hexec hhandled
      obtain ⟨hmismatch, hcount, hsilence, hplan, hlife, hst, hdemand, hfault, hfplan, htrips⟩ :=
        hhandled.statement hsampled (hpair _)
      have hheld : (t.chan c).held = (s.chan c).cal.correct (Response.ofFrame frame) f.range := by
        rw [hhandled.held_own, hchan]
        rfl
      dsimp only
      rw [hlval, hgval]
      exact ⟨t, congrArg Host.Outcome.next hexec, (State.link_of_links hhandled.links c).trans hlink, hheld, hmismatch, hcount, hsilence,
        hplan, hlife, hst, hdemand, hfault, hfplan, fun set hset htrip hmax hmin hi ht hf1 hf2 hapart hmis =>
          htrips set hset htrip ⟨hmax, hmin, hi, ht, hfaults hf1 hf2⟩ (decide_eq_true hapart) hmis⟩
  · have hparts := State.expire_pair (s := s) (c := leaderOf k) (by rw [pairOf_leaderOf]; exact hg) (isEven_leaderOf k) hleader hdue sched
    rw [pairOf_leaderOf] at hparts
    exact ⟨s.expire sched, congrArg Host.Outcome.next (if_pos htimer), hparts⟩

end Sys2Proof.Machine

/-!
The stages of the handling of a sample (R67, R73, R98, R149, R155, R161).
-/

namespace Sys2Proof.Machine

variable {s t u v w : State} {c d : Chan} {x : Input} {frame : BitVec 96} {f : FrameRecord} {ch : Channel} {st : Step} {l : LimitSet}

/-! ### The stages in order -/

theorem State.handle_stages (s : State) (c : Chan) (x : Input) (e : Bool) :
    let judged := s.protect c x
    let added := if (s.chan c).st = .running then judged.accumulate c x else judged
    let driven := if (s.chan c).st = .running ∧ (added.chan c).st = .running then added.drive c x (judged.chan c).seqr.firstDue e
      else added
    s.handle c x e = driven.watchAll c x := by
  unfold State.handle
  by_cases hr : (s.chan c).st = .running
  · simp only [hr, decide_true, if_true, Bool.true_and, decide_eq_true_eq, true_and]
  · simp only [hr, decide_false, Bool.false_eq_true, if_false, Bool.false_and, false_and]

theorem handlingRunsItsStages (hs : (s.link c).state = .inService) (he : (s.link c).examine frame = none)
    (hf : (s.link c).frame = some f) (hg : (s.pair (pairOf c)).ganged = false) (late : Bool) :
    let r := Response.ofFrame frame
    let x := (s.chan c).cal.correct r f.range
    let judged := (s.arrived c r f).protect c (singleInput r f x)
    let added := if (s.chan c).st = .running then judged.accumulate c (singleInput r f x) else judged
    let driven := if (s.chan c).st = .running ∧ (added.chan c).st = .running then
        added.drive c (singleInput r f x) (judged.chan c).seqr.firstDue late
      else added
    exec (.responseFrame c frame late) s = .next (driven.watchAll c (singleInput r f x)) := by
  have hst : ((s.arrived c (Response.ofFrame frame) f).chan c).st = (s.chan c).st := by
    rw [State.arrived_chan]
    rfl
  have hstages := (s.arrived c (Response.ofFrame frame) f).handle_stages c
    (singleInput (Response.ofFrame frame) f ((s.chan c).cal.correct (Response.ofFrame frame) f.range)) late
  rw [hst] at hstages
  exact congrArg Host.Outcome.next ((State.responseFrame_single hs he hf hg late).trans hstages)

/-! ### Accumulation -/

theorem Channel.accumulate_of (hl : ch.limits = some l) (x : Input) (trips : Bool) : ch.accumulate x trips = { ch with
    seqr := { ch.seqr with
      stepTime := min (ch.seqr.stepTime + 1) (2 ^ 32 - 1)
      peak := if x.valid then some (match ch.seqr.peak with
        | some p => max p x.v
        | none => x.v) else ch.seqr.peak
      firstDue := false }
    stepSet := ch.stepSet.add x.v x.i
    planSet := ch.planSet.add x.v x.i
    lifeSet := ch.lifeSet.add x.v x.i
    blanking := if ch.blanking.running then ⟨true, ch.blanking.count + 1⟩ else ch.blanking
    window := if trips then ch.window else if decide (l.softWindow ≤ ch.window + 1) then 0 else ch.window + 1
    hits := if trips then ch.hits else if decide (l.softWindow ≤ ch.window + 1) then 0 else ch.hits } := by
  have hblank : (if ch.blanking.running then { ch.blanking with count := ch.blanking.count + 1 } else ch.blanking) =
      if ch.blanking.running then ⟨true, ch.blanking.count + 1⟩ else ch.blanking := by
    obtain ⟨running, count⟩ := ch.blanking
    cases running <;> rfl
  unfold Channel.accumulate
  rw [hl, hblank]
  rfl

theorem accumulationStage : AccumulationStage := by
  intro s c x st l hl hstep hlimits full trips added
  have hadded : s.added c x = added := by
    unfold State.added
    rw [if_neg (ne_true_of_eq_false hl)]
    refine State.modChan_agree ?_
    rw [Channel.accumulate_of hlimits] <;> rfl
  rw [← hadded]
  unfold State.accumulate
  change (match (s.chan c).curStep with
    | some st =>
      if !decide ((s.chan c).st = .tripped) && st.azRest then
        let s3 := (s.added c x).autoZero c c x.own
        if s.leads c ∧ (s3.chan c).st = .running then s3.autoZero c (followerOf (pairOf c)) x.follower else s3
      else s.added c x
    | none => s.added c x : State) = _
  rw [hstep, hl]
  simp only [Bool.false_eq_true, false_and, if_false]
  rfl

/-! ### The stages after accumulation -/

theorem State.regulate_eq (s : State) (c : Chan) (x : Input) (g : Grant) : s.regulate c x g =
    if x.valid = false then s.modChan c fun ch => ch.bound x.v x.t g
    else if (s.chan c).chop = none then (s.deliver c ((s.chan c).wants x.v)).modChan c fun ch => ch.regulate x.v x.t g
    else s := by
  unfold State.regulate
  cases x.valid with
  | false => rfl
  | true =>
    rw [if_pos rfl, if_neg fun e : true = false => nomatch e]
    cases (s.chan c).chop <;> rfl

theorem driveStages : DriveStages := by
  intro s c x first late e u g r
  have hr : u.regulate c x g = r := u.regulate_eq c x g
  refine ⟨fun hne => if_neg hne, fun hst he => ?_, fun hst he => ?_⟩
  · refine (if_pos hst).trans ((if_pos he).trans hr)
  · refine (if_pos hst).trans ((if_neg (ne_true_of_eq_false he)).trans ?_)
    exact congrArg (fun w : State => w.sampleRecord c x first) hr

/-! ### The SAMPLE record -/

theorem Channel.intervalTrigger_of (h : ch.curStep = some st) : ch.intervalTrigger = decide (st.logInterval ∣ ch.seqr.stepTime) := by
  unfold Channel.intervalTrigger
  rw [h]
  simp only [Nat.dvd_iff_mod_eq_zero, beq_eq_decide]

theorem Channel.deltaTrigger_of {p : Plan} (h : ch.active = some p) (x : Input) : ch.deltaTrigger x =
    (x.valid && decide (p.header.logDelta ≠ 0) && match ch.loggedV with
      | some w => decide (p.header.logDelta ≤ (x.v - w).natAbs)
      | none => false) := by
  unfold Channel.deltaTrigger
  rw [h]
  cases ch.loggedV with
  | none => exact (Bool.and_false _).symm
  | some w => simp only [bne, beq_eq_decide, ne_eq, decide_not]

theorem Channel.termFlags_of (ch : Channel) (x : Input) : ch.termFlags (x.valid && ch.chop.isNone) =
    match ch.reg.last with
    | some r => if x.valid = true ∧ ch.chop = none then (r.derated, r.budget) else (false, false)
    | none => (false, false) := by
  unfold Channel.termFlags
  cases ch.reg.last with
  | none => cases (x.valid && ch.chop.isNone) <;> rfl
  | some r =>
    cases x.valid with
    | false => rfl
    | true => cases ch.chop <;> rfl

theorem bit_eq (n : Nat) (b : Bool) : 2 ^ n * bit b = if b then 2 ^ n else 0 := by
  cases b
  · exact Nat.mul_zero _
  · exact Nat.mul_one _

theorem SampleFlags.byte_eq (g : SampleFlags) : g.byte = (if g.first then 2 ^ 0 else 0) + (if g.interval then 2 ^ 1 else 0) +
    (if g.delta then 2 ^ 2 else 0) + (if g.heldValue then 2 ^ 3 else 0) + (if g.clamp then 2 ^ 4 else 0) +
    (if g.derated then 2 ^ 5 else 0) + (if g.budget then 2 ^ 6 else 0) + (if g.hot then 2 ^ 7 else 0) := by
  simp only [← bit_eq]
  unfold SampleFlags.byte
  omega

theorem sampleBytes_eq (ch : Channel) (c : Chan) (g : SampleFlags) (v i t1 t2 : Int) (seq : U32) :
    sampleBytes ch c g v i t1 t2 seq = leBytes 1 1 ++ leBytes 1 (c.val + 16) ++ leBytes 1 (ch.seqr.position % 64) ++ leBytes 1 g.byte ++
      leBytes 4 seq.toNat ++ leBytes 6 (min ch.planTime (2 ^ 48 - 1)) ++ leBytes 3 (fieldS 24 v) ++ leBytes 3 (fieldS 24 i) ++
      leBytes 3 (fieldS 24 ch.demand) ++ leBytes 2 (fieldS 16 t1) ++ leBytes 2 (fieldS 16 t2) ++ leBytes 4 ch.seqr.stepTime ++
      leBytes 1 0 := by
  simp only [sampleBytes, commonBytes, padTo, fieldU, Config.top, RecKind.code, List.length_append, leBytes_length, List.append_assoc,
    Nat.mul_zero, Nat.add_zero, Nat.mul_one]
  rfl

theorem recordStage : RecordStage := by
  intro s c x first p st hactive hstep ch interval delta terms flag flags bytes
  have hinterval : ch.intervalTrigger = interval := Channel.intervalTrigger_of hstep
  have hdelta : ch.deltaTrigger x = delta := Channel.deltaTrigger_of hactive x
  have hterms : ch.termFlags (x.valid && ch.chop.isNone) = terms := ch.termFlags_of x
  have hbytes : sampleBytes ch c ⟨first, interval, delta, !x.valid, x.clamp, terms.1, terms.2, x.valid && x.hot⟩ x.v x.i x.t1 x.t2 =
      bytes := by
    funext seq
    rw [sampleBytes_eq, SampleFlags.byte_eq]
  unfold State.sampleRecord
  dsimp only
  rw [hinterval, hdelta, hterms, hbytes]

/-! ### Reports -/

theorem State.settle_quiet (h : (s.chan c).log.report = false) : s.settle c = s := if_neg (ne_true_of_eq_false h)

theorem State.settle_reported (h : (s.chan c).log.report = true) : s.settle c =
    if (s.chan c).st.inPlan = true ∧ (s.chan c).hold.logFull = false then
      (s.modLog c fun l => { l with report := false }).joinCause c .logFull
    else s.modLog c fun l => { l with report := false } := by
  have hchan : (s.modLog c fun l => { l with report := false }).chan c = (s.chan c).withLog { (s.chan c).log with report := false } := by
    rw [State.modLog_chan, if_pos rfl]
  unfold State.settle
  dsimp only
  rw [if_pos h, hchan]
  simp only [Channel.withLog, Bool.and_eq_true, Bool.not_eq_true']

/-- R8, R9: what LOG_FULL's joining leaves of the hold causes, the state and the step of a channel. -/
theorem State.joinCause_joined (s : State) (c : Chan) : ((s.joinCause c .logFull).chan c).hold = { (s.chan c).hold with logFull := true } ∧
    ((s.joinCause c .logFull).chan c).st = (if (s.chan c).st = .running then .held else (s.chan c).st) ∧
    ((s.chan c).st = .running → ((s.joinCause c .logFull).chan c).demand = 0 ∧
      (s.joinCause c .logFull).arb.wanted[c] = ⟨.none, 0⟩) ∧
    ((s.joinCause c .logFull).chan c).seqr = (s.chan c).seqr ∧ ((s.joinCause c .logFull).chan c).stepSet = (s.chan c).stepSet := by
  have hcaused : (s.modChan c fun ch => { ch with hold := ch.hold.put .logFull true }).chan c =
      { s.chan c with hold := (s.chan c).hold.put .logFull true } := State.chan_modChan_self _ _ _
  unfold State.joinCause
  dsimp only
  generalize s.modChan c (fun ch => { ch with hold := ch.hold.put .logFull true }) = w at hcaused ⊢
  have hst : (w.chan c).st = (s.chan c).st := by rw [hcaused]
  rw [hst]
  by_cases hr : (s.chan c).st = .running
  · rw [if_pos hr, if_pos hr]
    obtain ⟨az, hmoved⟩ := w.moveTo_chan_self c .held
    rw [hst, if_pos hr, if_pos hr, hcaused] at hmoved
    have hwanted := w.moveTo_wanted (c := c) (st := .held) (by decide)
    rw [hst, if_pos hr] at hwanted
    have hrec := (Recorded.refl c (w.moveTo c .held)).emitEvent c subHold 0 (leBytes 1 HoldCause.logFull.code)
    obtain ⟨log, hlog⟩ := hrec.chan
    rw [hrec.arb, hlog, hmoved]
    exact ⟨rfl, rfl, fun _ => ⟨rfl, hwanted⟩, rfl, rfl⟩
  · rw [if_neg hr, if_neg hr]
    obtain ⟨log, hlog⟩ := ((Recorded.refl c w).emitEvent c subHold 0 (leBytes 1 HoldCause.logFull.code)).chan
    rw [hlog, hcaused]
    exact ⟨rfl, rfl, fun e => absurd e hr, rfl, rfl⟩

theorem reportsAreTaken : ReportsAreTaken := by
  intro s c ch t
  refine ⟨fun h => State.settle_quiet h, fun h hout => ?_, fun h hplan hfull => ?_⟩
  · refine (State.settle_reported h).trans (if_neg fun hin => ?_)
    obtain ⟨hplan, hfull⟩ := hin
    rcases hout with hout | hout
    · exact absurd (hplan.symm.trans hout) (by decide)
    · exact absurd (hout.symm.trans hfull) (by decide)
  · have hchan : (s.modLog c fun l => { l with report := false }).chan c = ch.withLog { ch.log with report := false } := by
      rw [State.modLog_chan, if_pos rfl]
    have hjoined := (s.modLog c fun l => { l with report := false }).joinCause_joined c
    have ht : t = (s.modLog c fun l => { l with report := false }).joinCause c .logFull :=
      (State.settle_reported h).trans (if_pos ⟨hplan, hfull⟩)
    rw [hchan] at hjoined
    rw [ht]
    exact hjoined

end Sys2Proof.Machine

/-!
End conditions (R36 to R39).
-/

namespace Sys2Proof.Machine

variable {s t u v w : State} {c d : Chan} {x : Input} {ch : Channel} {st : Step} {e : EndCond} {q n : Nat} {es : List EndCond} {qs : List Nat}

/-! ### One condition -/

theorem Comparison.holds_iff (k : Comparison) (value figure : Int) :
    k.holds value figure = true ↔ (k = .atLeast ∧ figure ≤ value) ∨ (k = .atMost ∧ value ≤ figure) := by
  cases k <;> simp [Comparison.holds]

/-- R36: a condition by the value of its quantity and the figure compared with it. -/
theorem Channel.condHolds_eq (ch : Channel) (st : Step) (x : Input) (e : EndCond) : ch.condHolds st x e =
    match conditionValue ch st x e with
    | some p => e.comparison.holds p.1 p.2
    | none => false := by
  unfold Channel.condHolds conditionValue
  cases e.quantity
  case stepCharge => cases st.body.dir <;> rfl
  case stepEnergy => cases st.body.dir <;> rfl
  case currentMag => cases st.body.isCccv <;> cases ch.reg.cvPhase <;> rfl
  case voltDrop => cases ch.seqr.peak <;> rfl
  all_goals rfl

theorem Channel.condHolds_iff (ch : Channel) (st : Step) (x : Input) (e : EndCond) :
    ch.condHolds st x e = true ↔ ConditionHolds ch st x e := by
  rw [Channel.condHolds_eq]
  unfold ConditionHolds
  cases conditionValue ch st x e with
  | none => simp
  | some p =>
    dsimp only
    rw [Comparison.holds_iff]
    refine ⟨fun h => ⟨p.1, p.2, rfl, h⟩, fun ⟨value, figure, hp, h⟩ => ?_⟩
    obtain rfl := Option.some.inj hp
    exact h

/-- R38: a condition's counter after a sample. -/
theorem Channel.judgeCond_counter (ch : Channel) (st : Step) (x : Input) (e : EndCond) (q : Nat) : (ch.judgeCond st x e q).1 =
    if e.quantity = .stepTime ∨ x.valid = false then q else if ch.condHolds st x e = true then min (q + 1) 255 else 0 := by
  unfold Channel.judgeCond
  dsimp only
  by_cases hq : e.quantity = .stepTime
  · rw [if_pos hq, if_pos (.inl hq)]
  · rw [if_neg hq]
    by_cases hv : x.valid = true
    · have hnot : ¬ (e.quantity = .stepTime ∨ x.valid = false) := not_or.2 ⟨hq, ne_false_of_eq_true hv⟩
      rw [if_pos hv, if_neg hnot]
      cases ch.condHolds st x e <;> rfl
    · rw [if_neg hv, if_pos (.inr (eq_false_of_ne_true hv))]

/-- R38: when a condition is met. -/
theorem Channel.judgeCond_met (ch : Channel) (st : Step) (x : Input) (e : EndCond) (q : Nat) :
    (ch.judgeCond st x e q).2 = true ↔ ConditionMet ch st x e q := by
  unfold ConditionMet
  rw [← Channel.condHolds_iff]
  unfold Channel.judgeCond
  dsimp only
  by_cases hq : e.quantity = .stepTime
  · simp only [hq, if_true, true_or, and_true]
  · by_cases hv : x.valid = true
    · by_cases hh : ch.condHolds st x e = true
      · simp only [hq, hv, hh, if_true, if_false, decide_eq_true_eq, true_and, false_or]
      · simp only [hq, hv, hh, if_true, if_false, Bool.false_eq_true, false_and]
    · simp only [hq, hv, if_false, Bool.false_eq_true, false_and, or_self, and_false]

/-! ### The conditions of a step -/

theorem Channel.qualifyNext_get (ch : Channel) (st : Step) (x : Input) : ∀ (es : List EndCond) (qs : List Nat) (n : Nat),
    es[n]? = some e → qs[n]? = some q → (ch.qualifyNext st x es qs)[n]? = some (ch.judgeCond st x e q).1
  | [], _, _, he, _ => absurd he (by simp)
  | _ :: _, [], _, _, hq => absurd hq (by simp)
  | e' :: es, q' :: qs, 0, he, hq => by
    obtain rfl := Option.some.inj he
    obtain rfl := Option.some.inj hq
    rfl
  | _ :: es, _ :: qs, n + 1, he, hq => Channel.qualifyNext_get ch st x es qs n he hq

theorem Channel.firstMet_none (ch : Channel) (st : Step) (x : Input) : ∀ (es : List EndCond) (qs : List Nat) (k : Nat),
    (∀ (n : Nat) (e : EndCond) (q : Nat), es[n]? = some e → qs[n]? = some q → ¬ ConditionMet ch st x e q) → ch.firstMet st x k es qs = none
  | [], _, _, _ => rfl
  | _ :: _, [], _, _ => rfl
  | e :: es, q :: qs, k, h => by
    have hne : ¬ (ch.judgeCond st x e q).2 = true := (ch.judgeCond_met st x e q).not.2 (h 0 e q rfl rfl)
    exact (if_neg hne).trans (Channel.firstMet_none ch st x es qs (k + 1) fun n => h (n + 1))

theorem Channel.firstMet_some (ch : Channel) (st : Step) (x : Input) : ∀ (es : List EndCond) (qs : List Nat) (k n : Nat),
    es[n]? = some e → qs[n]? = some q → ConditionMet ch st x e q →
    (∀ (m : Nat) (e' : EndCond) (q' : Nat), m < n → es[m]? = some e' → qs[m]? = some q' → ¬ ConditionMet ch st x e' q') →
    ch.firstMet st x k es qs = some (k + n, e)
  | [], _, _, _, he, _, _, _ => absurd he (by simp)
  | _ :: _, [], _, _, _, hq, _, _ => absurd hq (by simp)
  | e' :: es, q' :: qs, k, 0, he, hq, hmet, _ => by
    obtain rfl := Option.some.inj he
    obtain rfl := Option.some.inj hq
    exact if_pos ((ch.judgeCond_met st x e' q').2 hmet)
  | e' :: es, q' :: qs, k, n + 1, he, hq, hmet, hfirst => by
    have hne : ¬ (ch.judgeCond st x e' q').2 = true :=
      (ch.judgeCond_met st x e' q').not.2 (hfirst 0 e' q' (Nat.succ_pos n) rfl rfl)
    refine (if_neg hne).trans ((Channel.firstMet_some ch st x es qs (k + 1) n he hq hmet fun m a b hm => ?_).trans ?_)
    · exact hfirst (m + 1) a b (Nat.succ_lt_succ hm)
    · rw [Nat.add_right_comm, Nat.add_assoc]

theorem State.endConditions_eq (h : (s.chan c).curStep = some st) (x : Input) : s.endConditions c x =
    match (s.chan c).firstMet st x 0 st.conds (s.chan c).seqr.qualify with
    | some p => ((s.modChan c fun ch => { ch with seqr := { ch.seqr with
        qualify := (s.chan c).qualifyNext st x st.conds (s.chan c).seqr.qualify } }).endStep c st p.1 p.2 x.v x.i x.t, true)
    | none => (s.modChan c fun ch => { ch with seqr := { ch.seqr with
        qualify := (s.chan c).qualifyNext st x st.conds (s.chan c).seqr.qualify } }, false) := by
  have hcounted : (s.modChan c fun ch => { ch with seqr := { ch.seqr with
      qualify := ch.qualifyNext st x st.conds ch.seqr.qualify } }) = s.modChan c fun ch => { ch with seqr := { ch.seqr with
      qualify := (s.chan c).qualifyNext st x st.conds (s.chan c).seqr.qualify } } := State.modChan_agree rfl
  unfold State.endConditions
  dsimp only
  rw [h]
  dsimp only
  rw [hcounted]
  cases (s.chan c).firstMet st x 0 st.conds (s.chan c).seqr.qualify <;> rfl

theorem endConditionsEndTheStep (s : State) (c : Chan) (x : Input) (st : Step) (h : (s.chan c).curStep = some st) :
    let ch := s.chan c
    let counters := ch.qualifyNext st x st.conds ch.seqr.qualify
    let s1 := s.modChan c fun ch => { ch with seqr := { ch.seqr with qualify := counters } }
    (∀ (n : Nat) (e : EndCond) (q : Nat), st.conds[n]? = some e → ch.seqr.qualify[n]? = some q → counters[n]? = some (
      if e.quantity = .stepTime ∨ x.valid = false then q
      else if (ch.condHolds st x e) = true then min (q + 1) 255 else 0)) ∧
    (∀ e, ch.condHolds st x e = true ↔ ConditionHolds ch st x e) ∧
    ((∀ (n : Nat) (e : EndCond) (q : Nat), st.conds[n]? = some e → ch.seqr.qualify[n]? = some q → ¬ ConditionMet ch st x e q) →
      s.endConditions c x = (s1, false)) ∧
    ∀ (n : Nat) (e : EndCond) (q : Nat), st.conds[n]? = some e → ch.seqr.qualify[n]? = some q → ConditionMet ch st x e q →
      (∀ (m : Nat) (e' : EndCond) (q' : Nat), m < n → st.conds[m]? = some e' → ch.seqr.qualify[m]? = some q' →
        ¬ ConditionMet ch st x e' q') →
      s.endConditions c x = (s1.endStep c st n e x.v x.i x.t, true) := by
  intro ch counters s1
  have heq := State.endConditions_eq h x
  refine ⟨fun n e q he hq => ?_, fun e => ch.condHolds_iff st x e, fun hnone => ?_, fun n e q he hq hmet hfirst => ?_⟩
  · rw [← Channel.judgeCond_counter]
    exact ch.qualifyNext_get st x _ _ n he hq
  · rw [ch.firstMet_none st x st.conds ch.seqr.qualify 0 hnone] at heq
    exact heq
  · rw [ch.firstMet_some st x st.conds ch.seqr.qualify 0 n he hq hmet hfirst, Nat.zero_add] at heq
    exact heq

/-! ### Arrivals at LOOP steps -/

theorem arrive_onTop (loops : List (Nat × Nat)) (j left target count : Nat) : arrive (loops ++ [(j, left)]) j target count =
    if 0 < left then (loops ++ [(j, left - 1)], target) else (loops, j + 1) := by
  unfold arrive loopEntry
  rw [List.getLast?_concat]
  dsimp only
  rw [if_pos rfl, List.dropLast_concat]

theorem arrive_anew {loops : List (Nat × Nat)} {j : Nat} (h : ∀ e, loops.getLast? = some e → e.1 ≠ j) (target count : Nat) :
    arrive loops j target count = if 0 < count - 1 then (loops ++ [(j, count - 1 - 1)], target) else (loops, j + 1) := by
  have hentry : loopEntry loops j count = (loops, count - 1) := by
    unfold loopEntry
    split
    · next e he => exact if_neg (h e he)
    · next hnone => rw [List.getLast?_eq_none_iff.1 hnone]
  unfold arrive
  dsimp only
  rw [hentry]

theorem Plan.loopAt_of {p : Plan} (h : p.steps[n]? = some st) : p.loopAt n = match st.body with
    | .loop target count => some (target, count)
    | _ => none := by
  unfold Plan.loopAt
  rw [h] <;> rfl

theorem Plan.resolve_past {p : Plan} (h : p.steps.length ≤ n) (fuel : Nat) (loops : List (Nat × Nat)) :
    p.resolve (fuel + 1) loops n = (loops, none) := if_neg (Nat.not_lt.2 h)

theorem Plan.resolve_step {p : Plan} (h : p.steps[n]? = some st) (hl : st.body.isLoop = false) (fuel : Nat) (loops : List (Nat × Nat)) :
    p.resolve (fuel + 1) loops n = (loops, some n) := by
  have hnone : p.loopAt n = none := by
    rw [Plan.loopAt_of h]
    revert hl
    cases st.body <;> simp [StepBody.isLoop]
  obtain ⟨hlt, -⟩ := List.getElem?_eq_some_iff.1 h
  rw [Plan.resolve, if_pos hlt, hnone]

theorem Plan.resolve_loop {p : Plan} {target count : Nat} (h : p.steps[n]? = some st) (hl : st.body = .loop target count) (fuel : Nat)
    (loops : List (Nat × Nat)) :
    p.resolve (fuel + 1) loops n = p.resolve fuel (arrive loops n target count).1 (arrive loops n target count).2 := by
  have hsome : p.loopAt n = some (target, count) := by
    rw [Plan.loopAt_of h, hl]
  obtain ⟨hlt, -⟩ := List.getElem?_eq_some_iff.1 h
  rw [Plan.resolve, if_pos hlt, hsome]

end Sys2Proof.Machine

/-!
Step ends (R39 to R45): the trip, the end of the plan, the staged switch and the step that follows.
-/

namespace Sys2Proof.Machine

variable {s t u v w : State} {c d : Chan} {x : Input} {ch ch' : Channel} {st : Step} {e : EndCond} {n m : Nat} {p : Plan}

/-! ### What the stages of a step end leave of the channel -/

/-- R110: a trip of a channel in any state. -/
theorem State.trip_chan (s : State) (c : Chan) (cause : Cause) (coincident : List Cause) (v i x : Int) (ended : Option Nat) :
    TrippedWith (s.chan c) ((s.trip c cause coincident v i x ended).chan c) ((s.chan c).faultRecord cause coincident v i x ended) := by
  by_cases h : (s.chan c).st = .tripped
  · have hne : (s.chan c).st ≠ .running := by
      rw [h]
      exact fun e : ChState.tripped = .running => nomatch e
    have hlocal : (s.modChan c fun ch => ch.tripLocal cause coincident v i x ended).chan c =
      (s.chan c).tripLocal cause coincident v i x ended := State.chan_modChan_self _ _ _
    unfold State.trip
    dsimp only
    rw [if_neg hne, show s.setSt c .tripped = s from if_pos h]
    generalize s.modChan c (fun ch => ch.tripLocal cause coincident v i x ended) = w at hlocal ⊢
    have hevent := (Recorded.refl c w).reported.event (by rw [hlocal]; exact hne) c subTrip 0 (tripBody cause coincident v i x)
    obtain ⟨log, hold, hchan, hdown, hfull⟩ := (hevent.trans ((Recorded.refl c _).closePool .trip).reported).chan
    rw [hlocal] at hchan hdown hfull
    rw [State.notify_chan, State.bumpChan_chan, hchan]
    refine ⟨(s.chan c).az, log, hold, hdown, hfull, ?_⟩
    rw [if_neg hne, if_neg hne, ← h]
    rfl
  · exact (State.trip_trippedIn h cause coincident v i x ended).chan

/-- R155: what the taking of a report may change of a channel. -/
def SettledAs (ch ch' : Channel) : Prop := ∃ st demand chop hold az log, ch' = { ch with
  st := st, demand := demand, chop := chop, hold := hold, az := az, log := log }

theorem State.settle_settledAs (s : State) (c : Chan) : SettledAs (s.chan c) ((s.settle c).chan c) := by
  rcases s.settle_outcome c with h | h
  · obtain ⟨log, hold, hchan, -, -⟩ := h.chan
    exact ⟨_, _, _, hold, _, log, hchan⟩
  · obtain ⟨az, log, hchan⟩ := h.chan
    exact ⟨_, _, _, _, az, log, hchan⟩

/-- R49: what the end of a plan leaves of the channel, whatever its state was. -/
theorem State.endPlan_chan (s : State) (c : Chan) (q : PlanReason) : ∃ demand chop az log, (s.endPlan c q).chan c =
    { (s.chan c).endPlan with st := .idle, demand := demand, chop := chop, az := az, log := log } := by
  have hrec := ((Recorded.refl c s).emit .planEnd 2 (planEndBytes (s.chan c) c q)).closePool .planEnd
  unfold State.endPlan
  dsimp only
  generalize (s.emit c .planEnd 2 (planEndBytes (s.chan c) c q)).closePool c .planEnd = u at hrec ⊢
  obtain ⟨l, hl⟩ := hrec.chan
  obtain ⟨az, hmoved⟩ := u.moveTo_chan_self c .idle
  have hchan : (((u.moveTo c .idle).modChan c Channel.endPlan).modAz c AutoZero.ended).chan c =
      { ((u.moveTo c .idle).chan c).endPlan with az := ((u.moveTo c .idle).chan c).endPlan.az.ended } := by
    rw [State.modAz_chan_self, State.chan_modChan_self]
  rw [hmoved, hl] at hchan
  generalize ((u.moveTo c .idle).modChan c Channel.endPlan).modAz c AutoZero.ended = w at hchan
  obtain ⟨hsettled, -⟩ := (Recorded.refl c w).settle (by rw [hchan]; rfl)
  obtain ⟨log, hlog⟩ := hsettled.chan
  rw [hchan] at hlog
  exact ⟨_, _, _, log, hlog⟩

/-- R49: the end of a plan at a step end, the report of its record taken. -/
theorem State.endPlan_settled (s : State) (c : Chan) (q : PlanReason) :
    EndedAtStep (s.chan c) (((s.endPlan c q).settle c).chan c) ∧
      (((s.endPlan c q).settle c).chan c).seqr.retRef = (s.chan c).seqr.retRef := by
  obtain ⟨_, _, _, _, hended⟩ := s.endPlan_chan c q
  obtain ⟨hsettled, -⟩ := (Recorded.refl c (s.endPlan c q)).settle (by rw [hended]; rfl)
  obtain ⟨log, hlog⟩ := hsettled.chan
  rw [hlog, hended]
  exact ⟨⟨rfl, rfl, rfl, rfl, rfl⟩, rfl⟩

theorem endedAtStep_of_staged {t' : Channel} (h : EndedAtStep ch' t') (hs : ch'.staged = ch.staged) : EndedAtStep ch t' := by
  obtain ⟨hst, hactive, hentered, hloops, hstaged⟩ := h
  exact ⟨hst, hactive, hentered, hloops, hstaged.trans hs⟩

/-! ### The step that follows -/

/-- R33: a channel that has entered step n of its plan. -/
structure StepEntry (ch ch' : Channel) (n : Nat) : Prop where
  active : ch'.active = ch.active
  staged : ch'.staged = ch.staged
  loops : ch'.seqr.loops = ch.seqr.loops
  position : ch'.seqr.position = n
  stepTime : ch'.seqr.stepTime = 0
  stepSet : ch'.stepSet = .zero
  stepEntered : ch'.stepEntered = true
  qualify : ch'.seqr.qualify = [0, 0, 0, 0]

theorem State.enterStep_settled (s : State) (c : Chan) (n : Nat) :
    (((s.enterStep c n false).settle c).chan c).seqr.retRef = (s.chan c).seqr.retRef ∧
      ∀ st, (s.chan c).stepAt n = some st → StepEntry (s.chan c) (((s.enterStep c n false).settle c).chan c) n := by
  obtain ⟨_, _, _, _, _, _, hsettled⟩ := (s.enterStep c n false).settle_settledAs c
  rw [hsettled]
  cases h : (s.chan c).stepAt n with
  | none =>
    have hsame : s.enterStep c n false = s := by
      unfold State.enterStep
      rw [h]
    rw [hsame]
    exact ⟨rfl, (fun _ hn => nomatch hn)⟩
  | some st =>
    obtain ⟨g, hg, -⟩ := (s.chan c).enterStep_eq n st false
    rw [(State.enterStep_parts h false).1, hg]
    exact ⟨rfl, fun _ _ => ⟨rfl, rfl, rfl, rfl, rfl, rfl, rfl, rfl⟩⟩

/-- R46: the arrivals lead to a step of the plan. -/
theorem Plan.resolve_lt (p : Plan) : ∀ (fuel : Nat) (loops : List (Nat × Nat)) (n : Nat),
    (p.resolve fuel loops n).2 = some m → m < p.steps.length
  | 0, _, _, h => nomatch h
  | fuel + 1, loops, n, h => by
    rw [Plan.resolve] at h
    split at h
    · next hlt =>
      split at h
      · exact Plan.resolve_lt p fuel _ _ h
      · obtain rfl := Option.some.inj h
        exact hlt
    · cases h

/-- R45: what follows a step end that names index m and is no switch. -/
theorem State.follow_index (hp : (s.chan c).active = some p) (goto : Bool) (m : Nat) :
    let q := p.resolve 65 (if goto then p.prune m (s.chan c).seqr.loops else (s.chan c).seqr.loops) m
    let ch' := ((s.follow c (.index m goto)).settle c).chan c
    ch'.seqr.retRef = (s.chan c).seqr.retRef ∧ (q.2 = none → EndedAtStep (s.chan c) ch') ∧
      ∀ n, q.2 = some n → StepEntry { s.chan c with seqr := { (s.chan c).seqr with loops := q.1 } } ch' n := by
  intro q
  have hloops : (s.modChan c fun ch => { ch with seqr := { ch.seqr with loops := q.1 } }).chan c =
      { s.chan c with seqr := { (s.chan c).seqr with loops := q.1 } } := State.chan_modChan_self _ _ _
  have hfollow : s.follow c (.index m goto) = match q.2 with
      | some n => (s.modChan c fun ch => { ch with seqr := { ch.seqr with loops := q.1 } }).enterStep c n false
      | none => (s.modChan c fun ch => { ch with seqr := { ch.seqr with loops := q.1 } }).endPlan c .completed := by
    unfold State.follow
    dsimp only
    rw [hp]
    rfl
  rw [hfollow]
  have hlt (n : Nat) (h : q.2 = some n) : n < p.steps.length := p.resolve_lt _ _ _ h
  generalize s.modChan c (fun ch => { ch with seqr := { ch.seqr with loops := q.1 } }) = w at hloops ⊢
  cases hq : q.2 with
  | none =>
    obtain ⟨hended, hret⟩ := w.endPlan_settled c .completed
    rw [hloops] at hret hended
    exact ⟨hret, fun _ => endedAtStep_of_staged hended rfl, (fun _ h => nomatch h)⟩
  | some n =>
    obtain ⟨hret, hentry⟩ := w.enterStep_settled c n
    rw [hloops] at hret hentry
    have hat : Channel.stepAt { s.chan c with seqr := { (s.chan c).seqr with loops := q.1 } } n = some (p.steps[n]'(hlt n hq)) := by
      unfold Channel.stepAt
      rw [hp]
      exact List.getElem?_eq_getElem (hlt n hq)
    refine ⟨hret, (fun h => nomatch h), fun k hk => ?_⟩
    obtain rfl := Option.some.inj hk
    exact hentry _ hat

/-- R32: the staged switch. -/
theorem State.switchPlan_settled {p' : Plan} (hs : (s.chan c).staged = .valid p') :
    let ch' := ((s.switchPlan c).settle c).chan c
    ch'.seqr.retRef = (s.chan c).seqr.retRef ∧ ∀ st0, p'.steps[0]? = some st0 → StepEntry ((s.chan c).switchTo p') ch' 0 := by
  have hswitched : (s.modChan c fun ch => ch.switchTo p').chan c = (s.chan c).switchTo p' := State.chan_modChan_self _ _ _
  unfold State.switchPlan
  rw [hs]
  dsimp only
  generalize s.modChan c (fun ch => ch.switchTo p') = w at hswitched ⊢
  have hrec := (Recorded.refl c w).emitEvent c subSwitch 0 (leBytes 4 (s.chan c).label.toNat ++ leBytes 4 p'.header.label.toNat)
  generalize w.emitEvent c c subSwitch 0 (leBytes 4 (s.chan c).label.toNat ++ leBytes 4 p'.header.label.toNat) = u at hrec ⊢
  obtain ⟨log, hlog⟩ := hrec.chan
  rw [hswitched] at hlog
  obtain ⟨hret, hentry⟩ := u.enterStep_settled c 0
  rw [hlog] at hret hentry
  refine ⟨hret, fun st0 h0 => ?_⟩
  obtain ⟨h1, h2, h3, h4, h5, h6, h7, h8⟩ := hentry st0 h0
  exact ⟨h1, h2, h3, h4, h5, h6, h7, h8⟩

/-! ### The step end -/

/-- R45, R31: where the step end goes on to. -/
def State.goOn (s : State) (c : Chan) (f : Follow) (switch : Bool) : State :=
  (if switch then s.switchPlan c else s.follow c f).settle c

theorem Staged.switches_iff (g : Staged) : g.switches = true ↔ ∃ p, g = .valid p ∧ p.header.switchMode = .atStepEnd := by
  cases g with
  | valid p => simp [Staged.switches]
  | _ => simp [Staged.switches]

theorem State.goOn_index {log : Logger} {ref : Option Nat} (hp : ch.active = some p)
    (hw : w.chan c = { ch with log := log, seqr := { ch.seqr with retRef := ref } }) (goto : Bool) (m : Nat) :
    FollowsIndex p ch ((w.goOn c (.index m goto) ch.staged.switches).chan c) goto m ∧
      ((w.goOn c (.index m goto) ch.staged.switches).chan c).seqr.retRef = ref := by
  have hactive : (w.chan c).active = some p := by rw [hw]; exact hp
  by_cases hswitch : ch.staged.switches = true
  · obtain ⟨p', hstaged, hmode⟩ := ch.staged.switches_iff.1 hswitch
    obtain ⟨hret, hentry⟩ := State.switchPlan_settled (s := w) (c := c) (p' := p') (by rw [hw]; exact hstaged)
    unfold State.goOn
    rw [if_pos hswitch]
    rw [hw] at hret hentry
    refine ⟨⟨fun p'' st0 hv hm h0 => ?_, fun hnext => ?_⟩, hret⟩
    · obtain rfl := Staged.valid.inj (hstaged.symm.trans hv)
      obtain ⟨h1, h2, h3, h4, h5, h6, h7, -⟩ := hentry st0 h0
      exact ⟨h1, h2, h3, h4, h5, h6, h7⟩
    · exact absurd (hmode.symm.trans (hnext p' hstaged)) (by decide)
  · obtain ⟨hret, hends, hentry⟩ := State.follow_index hactive goto m
    unfold State.goOn
    rw [if_neg hswitch]
    rw [hw] at hret hends hentry
    refine ⟨⟨fun p' st0 hv hm _ => absurd (ch.staged.switches_iff.2 ⟨p', hv, hm⟩) hswitch, fun _ => ⟨fun hq => ?_, fun n hq => ?_⟩⟩, hret⟩
    · exact endedAtStep_of_staged (hends hq) rfl
    · obtain ⟨h1, h2, h3, h4, h5, h6, h7, h8⟩ := hentry n hq
      exact ⟨h1.trans hp, h2, h3, h4, h5, h6, h7, h8⟩

theorem State.goOn_ends {log : Logger} {ref : Option Nat}
    (hw : w.chan c = { ch with log := log, seqr := { ch.seqr with retRef := ref } }) (q : PlanReason) :
    EndedAtStep ch ((w.goOn c (.ends q) false).chan c) ∧ ((w.goOn c (.ends q) false).chan c).seqr.retRef = ref := by
  obtain ⟨hended, hret⟩ := w.endPlan_settled c q
  rw [hw] at hended hret
  exact ⟨endedAtStep_of_staged hended rfl, hret⟩

/-- R39 to R45: a step end whose action is no trip. -/
theorem State.endStep_goesOn (ha : e.action ≠ .trip) (v i x : Int) : ∃ (w : State) (log : Logger), w.chan c = { s.chan c with
      log := log, seqr := { (s.chan c).seqr with retRef := ((s.chan c).outcome st e).1 } } ∧
    s.endStep c st n e v i x = w.goOn c ((s.chan c).outcome st e).2.1 (((s.chan c).outcome st e).2.1.switches (s.chan c).staged) := by
  unfold State.endStep
  dsimp only
  rw [if_neg ha]
  have hrec (o : StepOutcome) := (Recorded.refl c s).emitStepEnd st (.condition n e.action) o v i x
  obtain ⟨log, hlog⟩ := (hrec _).chan
  refine ⟨_, log, ?_, rfl⟩
  rw [State.chan_modChan_self, hlog]
  rfl

/-- R40: a step end whose action is a trip. -/
theorem State.endStep_trips (ha : e.action = .trip) (hp : (s.chan c).active = some p) (v i x : Int) :
    let ch := s.chan c
    let ch' := (s.endStep c st n e v i x).chan c
    ch'.st = .tripped ∧ ch'.seqr.position = e.target ∧ ch'.seqr.loops = p.prune e.target ch.seqr.loops ∧ ch'.stepEntered = false ∧
      ch'.seqr.retRef = ch.seqr.retRef ∧ ch'.fault.first = some .planTrip ∧ ch'.fault.stepIndex = ch.seqr.position := by
  intro ch
  obtain ⟨log, hlog⟩ := ((Recorded.refl c s).emitStepEnd st (.condition n .trip) .none v i x).chan
  unfold State.endStep
  rw [if_pos ha]
  unfold State.endStepTrip
  dsimp only
  generalize s.emitStepEnd c st (.condition n .trip) .none v i x = w at hlog
  have hmoved : (w.modChan c fun ch => { ch with
      stepEntered := false
      seqr := { ch.seqr with
        position := e.target
        loops := match ch.active with
          | some p => p.prune e.target ch.seqr.loops
          | none => ch.seqr.loops } }).chan c = { ch with
      log := log, stepEntered := false
      seqr := { ch.seqr with position := e.target, loops := p.prune e.target ch.seqr.loops } } := by
    rw [State.chan_modChan_self, hlog, Channel.withLog]
    rw [hp]
  generalize w.modChan c (fun ch => { ch with
      stepEntered := false
      seqr := { ch.seqr with
        position := e.target
        loops := match ch.active with
          | some p => p.prune e.target ch.seqr.loops
          | none => ch.seqr.loops } }) = u at hmoved
  obtain ⟨_, _, _, -, -, htrip⟩ := u.trip_chan c .planTrip [] v i x (some ch.seqr.position)
  rw [hmoved] at htrip
  rw [htrip]
  exact ⟨rfl, rfl, rfl, rfl, rfl, rfl, rfl⟩

/-- R43, R44: what a step end of action NEXT or GOTO names. -/
theorem Channel.stages_eq (ch : Channel) (st : Step) (named : Follow) :
    (ch.stages st named).1 = ch.capture st ∧
      ((∀ r q, st.retention = some r → ch.capture st = some q → r.threshold < ch.stepSet.charge st.body.dir * 1000 / q) →
        (ch.stages st named).2.1 = named) ∧
      ∀ r q, st.retention = some r → ch.capture st = some q → ch.stepSet.charge st.body.dir * 1000 / q ≤ r.threshold →
        (ch.stages st named).2.1 = r.action.follow ch.seqr.position r.target := by
  unfold Channel.stages
  dsimp only
  cases hr : st.retention with
  | none => exact ⟨rfl, fun _ => rfl, (fun _ _ h => nomatch h)⟩
  | some r =>
    cases hq : ch.capture st with
    | none => exact ⟨rfl, fun _ => rfl, (fun _ _ _ h => nomatch h)⟩
    | some q =>
      dsimp only
      by_cases hv : retentionOf (ch.stepSet.charge st.body.dir) q ≤ r.threshold
      · rw [if_pos hv]
        refine ⟨rfl, fun h => absurd hv (Nat.not_le.2 (h r q rfl rfl)), fun r' q' h' _ _ => ?_⟩
        obtain rfl := Option.some.inj h'
        rfl
      · rw [if_neg hv]
        refine ⟨rfl, fun _ => rfl, fun r' q' h' hq' hle => absurd ?_ hv⟩
        obtain rfl := Option.some.inj h'
        obtain rfl := Option.some.inj hq'
        exact hle

/-- R39 to R45: what a step end makes of the channel. -/
theorem stepEndsGoOn (s : State) (c : Chan) (st : Step) (p : Plan) (n : Nat) (e : EndCond) (v i w : Int)
    (hp : (s.chan c).active = some p) :
    let ch := s.chan c
    let ch' := (s.endStep c st n e v i w).chan c
    let charge := ch.stepSet.charge st.body.dir
    let ref := if st.captureRef then (if charge = 0 then none else some charge) else ch.seqr.retRef
    (e.action = .trip → ch'.st = .tripped ∧ ch'.seqr.position = e.target ∧ ch'.seqr.loops = p.prune e.target ch.seqr.loops ∧
      ch'.stepEntered = false ∧ ch'.seqr.retRef = ch.seqr.retRef ∧ ch'.fault.first = some .planTrip ∧
      ch'.fault.stepIndex = ch.seqr.position) ∧
    (e.action = .endPlan → EndedAtStep ch ch' ∧ ch'.seqr.retRef = ch.seqr.retRef) ∧
    ∀ (goto : Bool) (m : Nat),
      (e.action = .next ∧ goto = false ∧ m = ch.seqr.position + 1) ∨ (e.action = .goto ∧ goto = true ∧ m = e.target) →
      ch'.seqr.retRef = ref ∧
      ((∀ r q, st.retention = some r → ref = some q → r.threshold < charge * 1000 / q) → FollowsIndex p ch ch' goto m) ∧
      ∀ r q, st.retention = some r → ref = some q → charge * 1000 / q ≤ r.threshold →
        match r.action with
        | .next => FollowsIndex p ch ch' false (ch.seqr.position + 1)
        | .goto => FollowsIndex p ch ch' true r.target
        | .endPlan => EndedAtStep ch ch' := by
  intro ch ch' charge ref
  refine ⟨fun ha => State.endStep_trips ha hp v i w, fun ha => ?_, fun goto m hnamed => ?_⟩
  · obtain ⟨u, log, hu, hend⟩ := State.endStep_goesOn (s := s) (c := c) (st := st) (e := e) (n := n)
      (fun h : e.action = .trip => nomatch ha.symm.trans h) v i w
    have hout : ch.outcome st e = (ch.seqr.retRef, .ends .conditionEnd, .none) := by
      unfold Channel.outcome
      rw [ha]
      rfl
    rw [hout] at hu hend
    have hgoes := State.goOn_ends hu .conditionEnd
    rw [show ch' = _ from congrArg (fun t : State => t.chan c) hend]
    exact hgoes
  · have hne : e.action ≠ .trip := by
      rcases hnamed with ⟨ha, -⟩ | ⟨ha, -⟩ <;> exact fun h => nomatch ha.symm.trans h
    have hout : ch.outcome st e = ch.stages st (.index m goto) := by
      unfold Channel.outcome
      rcases hnamed with ⟨ha, rfl, rfl⟩ | ⟨ha, rfl, rfl⟩ <;> rw [ha] <;> rfl
    obtain ⟨u, log, hu, hend⟩ := State.endStep_goesOn (s := s) (c := c) (st := st) (e := e) (n := n) hne v i w
    obtain ⟨href, hstays, hfires⟩ := ch.stages_eq st (.index m goto)
    rw [show (s.chan c).outcome st e = _ from hout] at hu hend
    rw [href] at hu
    have hindex := State.goOn_index hp hu
    have hends := State.goOn_ends hu
    generalize (ch.stages st (.index m goto)).2.1 = f at hend hstays hfires
    rw [show ch' = _ from congrArg (fun t : State => t.chan c) hend]
    have hret : ((u.goOn c f (f.switches ch.staged)).chan c).seqr.retRef = ch.capture st := by
      cases f with
      | index k g => exact (hindex g k).2
      | ends q => exact (hends q).2
    refine ⟨hret, fun h => ?_, fun r q hr hq hle => ?_⟩
    · obtain rfl := hstays h
      exact (hindex goto m).1
    · obtain rfl := hfires r q hr hq hle
      cases r.action with
      | next => exact (hindex false _).1
      | goto => exact (hindex true _).1
      | endPlan => exact (hends .retentionEnd).1

end Sys2Proof.Machine

/-!
The placing of records (R147 to R157): where a generated record goes, and how issued sequence numbers keep step with the records written,
lost and held.
-/

namespace Sys2Proof.Machine

variable {s t u : State} {c : Chan} {p : PoolId} {x : Record} {l l' : Logger}

/-! ### Loggers -/

/-- R152: a handover changes the two pools of a Logger alone. -/
theorem Logger.handedOver_pools (l : Logger) (p : PoolId) (q : CloseReason) :
    ∃ a b, l.handedOver p q = { l with poolA := a, poolB := b } := by
  unfold Logger.handedOver
  dsimp only
  split
  · cases p <;> exact ⟨_, _, rfl⟩
  · cases p <;> exact ⟨_, _, rfl⟩

/-- R150, R157: a Logger after the placing of a record, with the GAP before it if a loss was pending. -/
structure Logger.PlacedAs (l l' : Logger) (g : U32) : Prop where
  gap : g = 0 ∨ g = 1
  nextSeq : l'.nextSeq = l.nextSeq + g
  gaps : l'.gaps = l.gaps + g
  written : l'.written = l.written + 1 + g
  lost : l'.lost = l.lost
  latch : l'.latch = l.latch

theorem Logger.recorded_placedAs (l : Logger) (p : PoolId) (x : Record) : l.PlacedAs (l.recorded p x) 0 := by
  cases p <;> exact ⟨.inl rfl, (BitVec.add_zero _).symm, (BitVec.add_zero _).symm, (BitVec.add_zero _).symm, rfl, rfl⟩

theorem Logger.gapped_placedAs (l : Logger) (p : PoolId) (x y : Record) : l.PlacedAs ((l.gapped.recorded p x).recorded p y) 1 := by
  cases p <;> exact ⟨.inr rfl, rfl, rfl, rfl, rfl, rfl⟩

theorem Logger.PlacedAs.handedOver {g : U32} (h : l.PlacedAs l' g) (p : PoolId) (q : CloseReason) : l.PlacedAs (l'.handedOver p q) g := by
  obtain ⟨a, b, hpools⟩ := l'.handedOver_pools p q
  rw [hpools]
  exact ⟨h.gap, h.nextSeq, h.gaps, h.written, h.lost, h.latch⟩

/-! ### The record in its pool -/

theorem State.modLog_log (s : State) (c : Chan) (f : Logger → Logger) : ((s.modLog c f).chan c).log = f (s.chan c).log := by
  rw [State.modLog_chan, if_pos rfl, Channel.withLog_log]

theorem State.handover_log (s : State) (c : Chan) (p : PoolId) (q : CloseReason) :
    ((s.handover c p q).chan c).log = (s.chan c).log.handedOver p q := by
  rw [State.handover_chan, if_pos rfl, Channel.withLog_log]

/-- R152: a handover leaves the bytes of the pools. -/
theorem State.handover_records (s : State) (c : Chan) (p : PoolId) (q : CloseReason) (a n : Nat) :
    (s.handover c p q).store.readBytes (Config.poolBase c p + a) n = s.store.readBytes (Config.poolBase c p + a) n := by
  have hc := c.isLt
  refine (Frame.handover s c p q).store.readBytes fun y hy => .inr ?_
  simp only [List.mem_cons, List.not_mem_nil, or_false] at hy
  rcases hy with rfl | rfl <;>
    simp only [noticeArea, headersArea, Config.chanNotice, Config.headerBase, Config.poolBase, Config.poolNo] <;> omega

/-- R150: the record written stands after the slots used before, whatever its length. -/
theorem State.writeRecord_stored (s : State) (c : Chan) (p : PoolId) (x : Record) :
    (s.writeRecord c p x).store.readBytes (Config.poolBase c p + ((s.chan c).log.pool p).used * 32) x.bytes.length = x.bytes := by
  have hapart := pool_headers_apart c p
  refine (Mem.readBytes_writeBytes_ne _ _ _ _ _ (.inr ?_)).trans (Mem.readBytes_writeBytes _ _ _)
  rw [PoolHeader.bytes_length]
  omega

theorem State.writeGap_placedAs (s : State) (c : Chan) (p : PoolId) (x : Record) :
    ∃ g, (s.chan c).log.PlacedAs (((s.writeGap c p).chan c).log.recorded p x) g := by
  cases h : (s.chan c).log.pendingLoss with
  | none =>
    rw [State.writeGap_of_none h]
    exact ⟨0, Logger.recorded_placedAs _ _ _⟩
  | some loss =>
    rw [State.writeGap_of_some (first := loss.1) (count := loss.2) h, State.writeRecord_log, Channel.withLog_log, State.modLog_log]
    exact ⟨1, Logger.gapped_placedAs _ _ _ _⟩

/-- R150, R157: a record placed in pool p, and its bytes in the store. -/
theorem State.placeIn_placed (s : State) (c : Chan) (p : PoolId) (x : Record) :
    let l' := ((s.placeIn c p x).chan c).log
    (∃ g, (s.chan c).log.PlacedAs l' g) ∧ (l'.pool p).lastSeq = x.seq ∧
      (s.placeIn c p x).store.readBytes (Config.poolBase c p + ((l'.pool p).used - x.slots) * 32) x.bytes.length = x.bytes := by
  obtain ⟨g, hplaced⟩ := s.writeGap_placedAs c p x
  have hstored := (s.writeGap c p).writeRecord_stored c p x
  have hlog : (((s.writeGap c p).writeRecord c p x).chan c).log = ((s.writeGap c p).chan c).log.recorded p x := by
    rw [State.writeRecord_log, Channel.withLog_log]
  have hpool := Logger.recorded_pool ((s.writeGap c p).chan c).log p x
  have hused := Nat.add_sub_cancel (((s.writeGap c p).chan c).log.pool p).used x.slots
  unfold State.placeIn
  dsimp only
  generalize (s.writeGap c p).writeRecord c p x = w at hstored hlog
  generalize ((s.writeGap c p).chan c).log = k at hplaced hstored hlog hpool hused
  rw [← hlog] at hplaced hpool
  split
  · rw [State.handover_log, State.handover_records, Logger.handedOver_pool]
    refine ⟨⟨g, hplaced.handedOver p _⟩, ?_, ?_⟩
    · exact congrArg PoolHeader.lastSeq hpool
    · rw [show ((w.chan c).log.pool p).handed .full = _ from congrArg (PoolHeader.handed · .full) hpool]
      simp only [PoolHeader.handed]
      rw [hused]
      exact hstored
  · refine ⟨⟨g, hplaced⟩, ?_, ?_⟩
    · rw [hpool]
    · rw [hpool]
      dsimp only
      rw [hused]
      exact hstored

/-! ### The record refused -/

/-- R154, R155: a Logger that has refused a record: the record is held in the latch or lost. -/
structure Logger.RefusedBy (l l' : Logger) (x : Record) : Prop where
  nextSeq : l'.nextSeq = l.nextSeq
  gaps : l'.gaps = l.gaps
  written : l'.written = l.written
  outcome : (l'.lost = l.lost ∧ l.latch = none ∧ l'.latch = some x) ∨
    (l'.lost = l.lost + 1 ∧ l'.latch = l.latch ∧ l'.pendingLoss = some (match l.pendingLoss with
      | none => (x.seq, 1)
      | some (first, count) => (first, count + 1)))

theorem Logger.refuse_refusedBy (l : Logger) (policy : LossPolicy) (x : Record) : l.RefusedBy (l.refuse policy x) x := by
  unfold Logger.refuse
  split
  · next h => exact ⟨rfl, rfl, rfl, .inl ⟨rfl, h.2, rfl⟩⟩
  · refine ⟨rfl, rfl, rfl, .inr ⟨rfl, rfl, ?_⟩⟩
    unfold Logger.lose
    cases l.pendingLoss <;> rfl

/-- R150: a record is placed in a pool, or refused. -/
theorem State.place_outcome (s : State) (c : Chan) (policy : LossPolicy) (x : Record) :
    let t := s.place c policy x
    let l' := (t.chan c).log
    ((∃ g, (s.chan c).log.PlacedAs l' g) ∧ ∃ p, (l'.pool p).lastSeq = x.seq ∧
      t.store.readBytes (Config.poolBase c p + ((l'.pool p).used - x.slots) * 32) x.bytes.length = x.bytes) ∨
    (s.chan c).log.RefusedBy l' x := by
  unfold State.place
  dsimp only
  split
  · next p _ =>
    split
    · obtain ⟨hplaced, hstored⟩ := s.placeIn_placed c p x
      exact .inl ⟨hplaced, p, hstored⟩
    · obtain ⟨a, b, hpools⟩ := (s.chan c).log.handedOver_pools p .full
      have hlog := s.handover_log c p .full
      rw [hpools] at hlog
      generalize s.handover c p .full = w at hlog
      split
      · next q _ =>
        obtain ⟨⟨g, hplaced⟩, hstored⟩ := w.placeIn_placed c q x
        rw [hlog] at hplaced
        exact .inl ⟨⟨g, hplaced.gap, hplaced.nextSeq, hplaced.gaps, hplaced.written, hplaced.lost, hplaced.latch⟩, q, hstored⟩
      · have hrefused := (w.chan c).log.refuse_refusedBy policy x
        rw [State.modLog_log]
        generalize (w.chan c).log.refuse policy x = l' at hrefused ⊢
        rw [hlog] at hrefused
        exact .inr ⟨hrefused.nextSeq, hrefused.gaps, hrefused.written, hrefused.outcome⟩
  · rw [State.modLog_log]
    exact .inr ((s.chan c).log.refuse_refusedBy policy x)

/-! ### The ledger -/

theorem Logger.PlacedAs.ledger_eq {g : U32} (h : l.PlacedAs l' g) : ledger l' = ledger l - 1 := by
  unfold ledger
  rw [h.nextSeq, h.written, h.lost, h.latch]
  ring

theorem Logger.RefusedBy.ledger_eq (h : l.RefusedBy l' x) : ledger l' = ledger l - 1 := by
  unfold ledger
  rw [h.nextSeq, h.written]
  rcases h.outcome with ⟨hlost, hempty, hlatch⟩ | ⟨hlost, hlatch, -⟩
  · rw [hlost, hempty, hlatch]
    simp
  · rw [hlost, hlatch]
    ring

theorem ledger_issued (l : Logger) : ledger { l with nextSeq := l.nextSeq + 1 } = ledger l + 1 := by
  unfold ledger
  ring

/-- R147, R148, R154 to R157: where a generated record goes. -/
theorem recordsAreIssued (s : State) (c : Chan) (kind : RecKind) (slots : Nat) (mk : U32 → List Byte) :
    let t := s.emit c kind slots mk
    let l := (s.chan c).log
    let l' := (t.chan c).log
    let gap : U32 := l'.gaps - l.gaps
    ledger l' = ledger l ∧ l'.nextSeq = l.nextSeq + 1 + gap ∧ (gap = 0 ∨ gap = 1) ∧
    ((∃ p, l'.written = l.written + 1 + gap ∧ l'.lost = l.lost ∧ l'.latch = l.latch ∧ (l'.pool p).lastSeq = l.nextSeq ∧
        t.store.readBytes (Config.poolBase c p + ((l'.pool p).used - slots) * 32) (mk l.nextSeq).length = mk l.nextSeq) ∨
      (gap = 0 ∧ l'.written = l.written ∧ l'.lost = l.lost ∧ l.latch = none ∧
        l'.latch = some ⟨kind, l.nextSeq, slots, mk l.nextSeq⟩) ∨
      (gap = 0 ∧ l'.written = l.written ∧ l'.lost = l.lost + 1 ∧ l'.latch = l.latch ∧
        l'.pendingLoss = some (match l.pendingLoss with
          | none => (l.nextSeq, 1)
          | some (first, count) => (first, count + 1)))) := by
  intro t l l' gap
  have hissued : ((s.modLog c fun l => { l with nextSeq := l.nextSeq + 1 }).chan c).log = { l with nextSeq := l.nextSeq + 1 } :=
    s.modLog_log c _
  have hledger := ledger_issued l
  have hout := (s.modLog c fun l => { l with nextSeq := l.nextSeq + 1 }).place_outcome c (s.chan c).lossPolicy
    ⟨kind, l.nextSeq, slots, mk l.nextSeq⟩
  rw [hissued] at hout
  change ((∃ g, Logger.PlacedAs { l with nextSeq := l.nextSeq + 1 } l' g) ∧ ∃ p, (l'.pool p).lastSeq = l.nextSeq ∧
    t.store.readBytes (Config.poolBase c p + ((l'.pool p).used - slots) * 32) (mk l.nextSeq).length = mk l.nextSeq) ∨
    Logger.RefusedBy { l with nextSeq := l.nextSeq + 1 } l' ⟨kind, l.nextSeq, slots, mk l.nextSeq⟩ at hout
  rcases hout with ⟨⟨g, hplaced⟩, p, hseq, hstored⟩ | hrefused
  · have hgap : gap = g := by
      rw [show gap = l.gaps + g - l.gaps from congrArg (· - l.gaps) hplaced.gaps]
      ring
    rw [hgap]
    refine ⟨?_, hplaced.nextSeq, hplaced.gap, .inl ⟨p, hplaced.written, hplaced.lost, hplaced.latch, hseq, hstored⟩⟩
    rw [hplaced.ledger_eq, hledger]
    ring
  · have hgap : gap = 0 := by
      rw [show gap = l.gaps - l.gaps from congrArg (· - l.gaps) hrefused.gaps]
      ring
    rw [hgap]
    refine ⟨?_, hrefused.nextSeq.trans (BitVec.add_zero _).symm, .inl rfl, .inr ?_⟩
    · rw [hrefused.ledger_eq, hledger]
      ring
    · rcases hrefused.outcome with ⟨hlost, hempty, hlatch⟩ | ⟨hlost, hlatch, hpending⟩
      · exact .inl ⟨rfl, hrefused.written, hlost, hempty, hlatch⟩
      · exact .inr ⟨rfl, hrefused.written, hlost, hlatch, hpending⟩

/-! ### A held record written out -/

theorem State.emit_ledger (s : State) (c : Chan) (kind : RecKind) (slots : Nat) (mk : U32 → List Byte) :
    ledger ((s.emit c kind slots mk).chan c).log = ledger (s.chan c).log :=
  (recordsAreIssued s c kind slots mk).1

theorem State.emitEvent_ledger (s : State) (c : Chan) (sub flags : Nat) (body : List Byte) :
    ledger ((s.emitEvent c c sub flags body).chan c).log = ledger (s.chan c).log := by
  unfold State.emitEvent
  exact s.emit_ledger _ _ _ _

theorem State.moveTo_log (s : State) (c : Chan) (st : ChState) : ((s.moveTo c st).chan c).log = (s.chan c).log := by
  obtain ⟨a, hmoved⟩ := s.moveTo_chan_self c st
  rw [hmoved]

theorem State.joinCause_ledger (s : State) (c : Chan) (k : HoldCause) :
    ledger ((s.joinCause c k).chan c).log = ledger (s.chan c).log := by
  have hlog : ((s.modChan c fun ch => { ch with hold := ch.hold.put k true }).chan c).log = (s.chan c).log := by
    rw [State.chan_modChan_self]
  unfold State.joinCause
  dsimp only
  generalize s.modChan c (fun ch => { ch with hold := ch.hold.put k true }) = w at hlog ⊢
  rw [State.emitEvent_ledger, ← hlog]
  split
  · rw [State.moveTo_log]
  · rfl

theorem State.settle_ledger (s : State) (c : Chan) : ledger ((s.settle c).chan c).log = ledger (s.chan c).log := by
  have hlog : ledger ((s.modLog c fun l => { l with report := false }).chan c).log = ledger (s.chan c).log := by
    rw [State.modLog_log]
    rfl
  unfold State.settle
  dsimp only
  split
  · split
    · exact (State.joinCause_ledger _ _ _).trans hlog
    · exact hlog
  · rfl

theorem State.event_ledger (s : State) (c : Chan) (sub flags : Nat) (body : List Byte) :
    ledger ((s.event c c sub flags body).chan c).log = ledger (s.chan c).log :=
  ((s.emitEvent c c sub flags body).settle_ledger c).trans (s.emitEvent_ledger c sub flags body)

/-- R8, R9: a cause leaves the set. -/
theorem State.leaveCause_ledger (s : State) (c : Chan) (k : HoldCause) :
    ledger ((s.leaveCause c k).chan c).log = ledger (s.chan c).log := by
  have hlog : ((s.modChan c fun ch => { ch with
      hold := ch.hold.put k false, linkHold := if k = .linkDown then .stopped else ch.linkHold }).chan c).log = (s.chan c).log := by
    rw [State.chan_modChan_self]
  unfold State.leaveCause
  dsimp only
  split
  · generalize s.modChan c (fun ch => { ch with
      hold := ch.hold.put k false, linkHold := if k = .linkDown then .stopped else ch.linkHold }) = w at hlog ⊢
    have hevent : ledger ((w.event c c subRelease 0 (leBytes 1 k.code)).chan c).log = ledger (s.chan c).log := by
      rw [State.event_ledger, hlog]
    generalize w.event c c subRelease 0 (leBytes 1 k.code) = u at hevent ⊢
    split
    · rw [(State.enterRunning_logged _ _ _).1.log]
      exact hevent
    · exact hevent
  · rfl

/-- R156: the ledger when a released pool takes the held record. -/
theorem theHeldRecordStaysCounted (s : State) (c : Chan) (p : PoolId) :
    ledger ((s.writeOut c p).chan c).log = ledger (s.chan c).log := by
  unfold State.writeOut
  cases h : (s.chan c).log.latch with
  | none => rfl
  | some x =>
    dsimp only
    obtain ⟨⟨g, hplaced⟩, -⟩ := (s.modLog c fun l => { l with latch := none }).placeIn_placed c p x
    rw [State.modLog_log] at hplaced
    rw [State.leaveCause_ledger, hplaced.ledger_eq]
    unfold ledger
    rw [h]
    simp

end Sys2Proof.Machine

/-!
Auto-zero (R59 to R62): the collection of codes in a qualifying rest, and what the 64th makes of the learned offset.
-/

namespace Sys2Proof.Machine

variable {s t u : State} {c d x : Chan} {ch ch' : Channel} {a : AutoZero} {code : Int} {own : Option (Int × Bool)}

/-! ### What leaves a learned offset -/

/-- The calibration and the count of learned offsets stand, and auto-zero where no collection runs. -/
structure CodesKept (ch ch' : Channel) : Prop where
  cal : ch'.cal = ch.cal
  learnCtr : ch'.learnCtr = ch.learnCtr
  az : ch.az.phase = .idle → ch'.az = ch.az

theorem CodesKept.refl (ch : Channel) : CodesKept ch ch := ⟨rfl, rfl, fun _ => rfl⟩

theorem CodesKept.trans {ch'' : Channel} (h : CodesKept ch ch') (k : CodesKept ch' ch'') : CodesKept ch ch'' :=
  ⟨k.cal.trans h.cal, k.learnCtr.trans h.learnCtr, fun hi => (k.az ((congrArg AutoZero.phase (h.az hi)).trans hi)).trans (h.az hi)⟩

/-- No channel has learned. -/
def Unlearned (s t : State) : Prop := ∀ d, CodesKept (s.chan d) (t.chan d)

theorem Unlearned.refl (s : State) : Unlearned s s := fun _ => .refl _

theorem Unlearned.trans (h : Unlearned s t) (k : Unlearned t u) : Unlearned s u := fun d => (h d).trans (k d)

theorem Unlearned.of (h : ∀ d, t.chan d = s.chan d) : Unlearned s t := fun d => by
  rw [h d]
  exact .refl _

theorem State.modChan_unlearned (s : State) (c : Chan) (f : Channel → Channel) (hf : CodesKept (s.chan c) (f (s.chan c))) :
    Unlearned s (s.modChan c f) := by
  intro d
  by_cases hd : d = c
  · rw [hd, State.chan_modChan_self]
    exact hf
  · rw [State.chan_modChan_ne s f hd]
    exact .refl _

theorem Recorded.unlearned (h : Recorded c s t) : Unlearned s t := by
  intro d
  by_cases hd : d = c
  · obtain ⟨log, hlog⟩ := h.chan
    rw [hd, hlog]
    exact ⟨rfl, rfl, fun _ => rfl⟩
  · rw [h.others d hd]
    exact .refl _

theorem State.setSt_unlearned (s : State) (c : Chan) (st : ChState) : Unlearned s (s.setSt c st) := by
  unfold State.setSt
  split
  · exact .refl s
  · exact (s.modChan_unlearned c _ ⟨rfl, rfl, fun _ => rfl⟩).trans (.of fun d => State.bumpChan_chan _ _ _ d)

/-- R61: a discard acts on a collection alone. -/
theorem AutoZero.discard_idle (h : a.phase = .idle) : a.discard = a :=
  if_neg (by rw [h]; exact fun e : AzPhase.idle = .collecting => nomatch e)

theorem State.modAz_unlearned (s : State) (c : Chan) : Unlearned s (s.modAz c AutoZero.discard) := by
  have hkept (u : State) (d : Chan) : Unlearned u (u.modChan d fun ch => { ch with az := ch.az.discard }) :=
    u.modChan_unlearned d _ ⟨rfl, rfl, AutoZero.discard_idle⟩
  unfold State.modAz
  dsimp only
  split
  · exact (hkept s c).trans (hkept _ _)
  · exact hkept s c

theorem State.moveTo_unlearned (s : State) (c : Chan) (st : ChState) : Unlearned s (s.moveTo c st) := by
  unfold State.moveTo
  split
  · have hdeparted : Unlearned s (s.departLocal c) := (s.modChan_unlearned c _ ⟨rfl, rfl, fun _ => rfl⟩).trans (State.modAz_unlearned _ c)
    exact (hdeparted.trans (State.setSt_unlearned _ c st)).trans (.of fun d => State.notify_chan _ _ d)
  · exact s.setSt_unlearned c st

theorem State.joinCause_unlearned (s : State) (c : Chan) (k : HoldCause) : Unlearned s (s.joinCause c k) := by
  have hcaused := s.modChan_unlearned c (fun ch => { ch with hold := ch.hold.put k true }) ⟨rfl, rfl, fun _ => rfl⟩
  unfold State.joinCause
  dsimp only
  generalize s.modChan c (fun ch => { ch with hold := ch.hold.put k true }) = w at hcaused ⊢
  refine Unlearned.trans ?_ ((Recorded.refl c _).emitEvent c _ _ _).unlearned
  split
  · exact hcaused.trans (w.moveTo_unlearned c .held)
  · exact hcaused

theorem State.settle_unlearned (s : State) (c : Chan) : Unlearned s (s.settle c) := by
  have hlog := ((Recorded.refl c s).modLog fun l => { l with report := false }).unlearned
  unfold State.settle
  dsimp only
  split
  · split
    · exact hlog.trans (State.joinCause_unlearned _ c .logFull)
    · exact hlog
  · exact .refl s

theorem State.event_unlearned (s : State) (c about : Chan) (sub flags : Nat) (body : List Byte) :
    Unlearned s (s.event c about sub flags body) :=
  ((Recorded.refl c s).emitEvent about sub flags body).unlearned.trans (State.settle_unlearned _ c)

/-! ### The collection -/

theorem AutoZero.collect_idle (h : a.phase = .idle) (q : Bool) (n : Nat) (own : Option (Int × Bool)) : a.collect q n own = a := by
  unfold AutoZero.collect
  rw [h]

theorem AutoZero.collect_waiting (h : a.phase = .waiting) (q : Bool) (n : Nat) :
    a.collect q n (some (code, false)) = if q = true ∧ 500 < n then ⟨.collecting, code, 1, a.learned⟩ else a := by
  have hwaits : (q && decide (Config.azWait < n)) = true ↔ q = true ∧ 500 < n := by
    rw [Bool.and_eq_true, decide_eq_true_eq]
    rfl
  unfold AutoZero.collect
  rw [h]
  exact if_congr hwaits rfl rfl

theorem AutoZero.collect_restart (h : a.phase = .collecting) (q : Bool) (n : Nat) {own : Option (Int × Bool)}
    (ho : own = none ∨ ∃ code, own = some (code, true)) : a.collect q n own = ⟨.collecting, 0, 0, a.learned⟩ := by
  unfold AutoZero.collect
  rw [h]
  rcases ho with rfl | ⟨code, rfl⟩
  · rfl
  · rfl

theorem AutoZero.collect_further (h : a.phase = .collecting) (q : Bool) (n : Nat) :
    a.collect q n (some (code, false)) = ⟨.collecting, a.sum + code, a.count + 1, a.learned⟩ := by
  unfold AutoZero.collect
  rw [h]
  rfl

/-- R59: what lets a rest qualify. -/
theorem CurRecord.qualifies_iff (r : CurRecord) (learned : Bool) : r.qualifies learned = true ↔
    (r.mode = .learnEvery ∨ (r.mode = .learnOnce ∧ r.pending = true)) ∧ r.limit ≠ 0 ∧ learned = false := by
  simp [CurRecord.qualifies, and_assoc]

/-! ### The learning -/

theorem State.learn_learns (s : State) (c x : Chan) (range : Fin 3) :
    CodesKept ((s.chan x).learn range) ((s.learn c x range).chan x) := by
  unfold State.learn
  dsimp only
  have hlearned : (s.modChan x fun ch => ch.learn range).chan x = (s.chan x).learn range := State.chan_modChan_self _ _ _
  generalize s.modChan x (fun ch => ch.learn range) = w at hlearned ⊢
  rw [← hlearned]
  exact ((w.modChan_unlearned c _ ⟨rfl, rfl, fun _ => rfl⟩).trans (State.event_unlearned _ c x _ _ _)) x

/-- R59, R61: the auto-zero state of channel x after the collection of a sample handled by c. -/
def State.collected (s : State) (c x : Chan) (own : Option (Int × Bool)) : AutoZero :=
  (s.chan x).az.collect (((s.chan x).cal.cur (s.chan c).range).qualifies (s.chan x).az.learned) (s.chan c).seqr.stepTime own

theorem State.autoZero_same (ha : s.collected c x own = (s.chan x).az) (h : (s.chan x).az.phase ≠ .collecting) :
    s.autoZero c x own = s := by
  have hnot : ¬ ((s.collected c x own).phase = .collecting ∧ Config.azRun ≤ (s.collected c x own).count) :=
    fun k => h (ha ▸ k.1)
  refine (if_neg hnot).trans (State.modChan_same ?_)
  rw [show AutoZero.collect _ _ _ _ = _ from ha]

theorem State.autoZero_collects (ha : s.collected c x own = a) (hlt : a.count < 64) :
    (s.autoZero c x own).chan x = { s.chan x with az := a } := by
  have hnot : ¬ ((s.collected c x own).phase = .collecting ∧ Config.azRun ≤ (s.collected c x own).count) :=
    fun k => absurd k.2 (by rw [ha]; exact Nat.not_le.2 hlt)
  have hgathers : s.autoZero c x own = s.modChan x fun ch => { ch with az := s.collected c x own } := if_neg hnot
  rw [hgathers, State.chan_modChan_self, ha]

/-- R60: the learning at the 64th code. -/
theorem State.autoZero_learns (ha : s.collected c x own = a) (hp : a.phase = .collecting) (hfull : 64 ≤ a.count) :
    CodesKept (Channel.learn { s.chan x with az := a } (s.chan c).range) ((s.autoZero c x own).chan x) := by
  have hfills : (s.collected c x own).phase = .collecting ∧ Config.azRun ≤ (s.collected c x own).count := by
    rw [ha]
    exact ⟨hp, hfull⟩
  have hlearns : s.autoZero c x own =
      (s.modChan x fun ch => { ch with az := s.collected c x own }).learn c x (s.chan c).range := if_pos hfills
  have hgathered : (s.modChan x fun ch => { ch with az := s.collected c x own }).chan x = { s.chan x with az := a } := by
    rw [State.chan_modChan_self, ha]
  have hlearned := (s.modChan x fun ch => { ch with az := s.collected c x own }).learn_learns c x (s.chan c).range
  rw [hgathered] at hlearned
  rw [hlearns]
  exact hlearned

/-- R59 to R61: what auto-zero makes of the channel. -/
theorem autoZeroCollectsAndLearns (s : State) (c x : Chan) (own : Option (Int × Bool)) :
    let ch := s.chan x
    let ch' := (s.autoZero c x own).chan x
    let r := ch.cal.cur (s.chan c).range
    let qualifies := (r.mode = .learnEvery ∨ (r.mode = .learnOnce ∧ r.pending = true)) ∧ r.limit ≠ 0 ∧ ch.az.learned = false
    (ch.az.phase = .idle → s.autoZero c x own = s) ∧
    (∀ code, ch.az.phase = .waiting → own = some (code, false) →
      (qualifies → 500 < (s.chan c).seqr.stepTime → ch' = { ch with az := ⟨.collecting, code, 1, ch.az.learned⟩ }) ∧
      (¬ qualifies ∨ (s.chan c).seqr.stepTime ≤ 500 → s.autoZero c x own = s)) ∧
    (ch.az.phase = .collecting → own = none ∨ (∃ code, own = some (code, true)) →
      ch' = { ch with az := ⟨.collecting, 0, 0, ch.az.learned⟩ }) ∧
    ∀ code, ch.az.phase = .collecting → own = some (code, false) →
      (ch.az.count + 1 < 64 → ch' = { ch with az := ⟨.collecting, ch.az.sum + code, ch.az.count + 1, ch.az.learned⟩ }) ∧
      (64 ≤ ch.az.count + 1 →
        ch'.cal = ch.cal.setCur (s.chan c).range { r with
          learned := some (max (-r.limit) (min r.limit (nearest (ch.az.sum + code) 64)))
          pending := if r.mode = .learnOnce then false else r.pending } ∧
        ch'.az.learned = true ∧ ch'.az.phase = .idle ∧ ch'.learnCtr = ch.learnCtr + 1) := by
  intro ch ch' r qualifies
  have hq : r.qualifies ch.az.learned = true ↔ qualifies := r.qualifies_iff ch.az.learned
  refine ⟨fun h => ?_, fun code h ho => ?_, fun h ho => ?_, fun code h ho => ?_⟩
  · refine State.autoZero_same (AutoZero.collect_idle h _ _ _) ?_
    rw [h]
    exact fun e : AzPhase.idle = .collecting => nomatch e
  · subst ho
    have hnext : s.collected c x (some (code, false)) = _ := AutoZero.collect_waiting h _ _
    refine ⟨fun hqual htime => ?_, fun hnot => ?_⟩
    · rw [if_pos ⟨hq.2 hqual, htime⟩] at hnext
      exact State.autoZero_collects hnext (Nat.succ_lt_succ (Nat.succ_pos 62))
    · rw [if_neg fun k => hnot.elim (absurd (hq.1 k.1)) (Nat.not_le.2 k.2)] at hnext
      refine State.autoZero_same hnext ?_
      rw [h]
      exact fun e : AzPhase.waiting = .collecting => nomatch e
  · exact State.autoZero_collects (AutoZero.collect_restart h _ _ ho) (Nat.succ_pos 63)
  · subst ho
    have hnext : s.collected c x (some (code, false)) = _ := AutoZero.collect_further h _ _
    refine ⟨State.autoZero_collects hnext, fun hfull => ?_⟩
    obtain ⟨hcal, hctr, haz⟩ := State.autoZero_learns hnext rfl hfull
    have hidle := haz rfl
    exact ⟨hcal, congrArg AutoZero.learned hidle, congrArg AutoZero.phase hidle, hctr⟩

end Sys2Proof.Machine

/-!
The watch points (R161): what a value makes of a watch point, and what a reported crossing leaves.
-/

namespace Sys2Proof.Machine

variable {s t u : State} {c : Chan} {x : Input} {n : Fin 3} {w : Watch} {y z : Int}

/-! ### The judgement of a value -/

/-- R161: a crossing of the threshold, from the previous value to the present one. -/
def Watch.Crossing (w : Watch) (z y : Int) : Prop :=
  (w.dir = .rising ∧ z < w.threshold ∧ w.threshold ≤ y) ∨ (w.dir = .falling ∧ w.threshold < z ∧ y ≤ w.threshold)

theorem Watch.crosses_iff (w : Watch) (z y : Int) : w.crosses z y = true ↔ w.Crossing z y := by
  unfold Watch.crosses Watch.Crossing
  cases w.dir <;> simp

theorem Watch.judge_first (hz : w.prev = none) : w.judge y = ({ w with prev := some y }, none) := by
  unfold Watch.judge
  rw [hz]

theorem Watch.judge_between (hz : w.prev = some z) (hc : ¬ w.Crossing z y) : w.judge y = ({ w with prev := some y }, none) := by
  unfold Watch.judge
  rw [hz]
  exact if_neg (mt (w.crosses_iff z y).1 hc)

theorem Watch.judge_every (hz : w.prev = some z) (hc : w.Crossing z y) (hm : w.mode = .every) :
    w.judge y = ({ w with prev := some y, hits := w.hits + 1 }, some z) := by
  unfold Watch.judge
  rw [hz]
  dsimp only
  rw [if_pos ((w.crosses_iff z y).2 hc), hm]

theorem Watch.judge_latches (hz : w.prev = some z) (hc : w.Crossing z y) (hm : w.mode = .latch) (hl : w.latched = false) :
    w.judge y = ({ w with prev := some y, hits := w.hits + 1, latched := true }, some z) := by
  unfold Watch.judge
  rw [hz]
  dsimp only
  rw [if_pos ((w.crosses_iff z y).2 hc), hm, hl]
  rfl

theorem Watch.judge_latched (hz : w.prev = some z) (hc : w.Crossing z y) (hm : w.mode = .latch) (hl : w.latched = true) :
    w.judge y = ({ w with prev := some y, hits := w.hits + 1 }, none) := by
  unfold Watch.judge
  rw [hz]
  dsimp only
  rw [if_pos ((w.crosses_iff z y).2 hc), hm, hl]
  rfl

/-! ### What is left of the machine -/

theorem State.settle_watchHits (s : State) (c : Chan) :
    ((s.settle c).notices.chan[c]).watchHits = (s.notices.chan[c]).watchHits := by
  rcases s.settle_outcome c with h | h
  · exact h.counts.watchHits
  · exact h.tallied.watchHits

/-- R147, R155: an EVENT record leaves the watch points and their count. -/
theorem State.event_watches (s : State) (c about : Chan) (sub flags : Nat) (body : List Byte) :
    ((s.event c about sub flags body).chan c).watches = (s.chan c).watches ∧
      ((s.event c about sub flags body).notices.chan[c]).watchHits = (s.notices.chan[c]).watchHits := by
  have hrec := (Recorded.refl c s).emitEvent about sub flags body
  unfold State.event
  generalize s.emitEvent c about sub flags body = w at hrec ⊢
  obtain ⟨log, hlog⟩ := hrec.chan
  obtain ⟨_, _, _, _, _, _, hsettled⟩ := w.settle_settledAs c
  refine ⟨?_, (w.settle_watchHits c).trans hrec.counts.watchHits⟩
  rw [hsettled, hlog]
  rfl

/-- R161: a value that reports no crossing. -/
theorem State.watch_quiet {w' : Watch} (hv : (s.chan c).watchValue x (s.chan c).watches[n].quantity = some y)
    (hj : (s.chan c).watches[n].judge y = (w', none)) :
    ((s.watch c x n).chan c).watches[n] = w' ∧ (s.watch c x n).notices = s.notices ∧ (s.watch c x n).store = s.store := by
  have hquiet : s.watch c x n = s.modChan c fun ch => { ch with watches := ch.watches.set n w' } := by
    unfold State.watch
    dsimp only
    rw [hv]
    dsimp only
    rw [hj]
  rw [hquiet, State.chan_modChan_self]
  exact ⟨Vector.getElem_set_self _, rfl, rfl⟩

/-- R161, R186: a value that reports a crossing. -/
theorem State.watch_reports {w' : Watch} (hv : (s.chan c).watchValue x (s.chan c).watches[n].quantity = some y)
    (hj : (s.chan c).watches[n].judge y = (w', some z)) :
    ((s.watch c x n).chan c).watches[n] = w' ∧
      ((s.watch c x n).notices.chan[c]).watchHits = (s.notices.chan[c]).watchHits + 1 ∧
      (s.watch c x n).notices.attention.getLsbD c.val = true := by
  have hreports : s.watch c x n = ((s.modChan c fun ch => { ch with watches := ch.watches.set n w' }).event c c subWatch 0
      (watchBody n.val w' z y w'.hits)).bumpChan c .watchHits := by
    unfold State.watch
    dsimp only
    rw [hv]
    dsimp only
    rw [hj]
  have hset : ((s.modChan c fun ch => { ch with watches := ch.watches.set n w' }).chan c).watches[n] = w' := by
    rw [State.chan_modChan_self]
    exact Vector.getElem_set_self _
  have hnotices : (s.modChan c fun ch => { ch with watches := ch.watches.set n w' }).notices = s.notices := rfl
  rw [hreports]
  generalize s.modChan c (fun ch => { ch with watches := ch.watches.set n w' }) = u at hset hnotices ⊢
  obtain ⟨hwatches, hhits⟩ := u.event_watches c c subWatch 0 (watchBody n.val w' z y w'.hits)
  generalize u.event c c subWatch 0 (watchBody n.val w' z y w'.hits) = v at hwatches hhits ⊢
  refine ⟨?_, ?_, v.bumpChan_bit c .watchHits⟩
  · rw [State.bumpChan_chan, hwatches]
    exact hset
  · rw [State.bumpChan_self, ← hnotices, ← hhits]
    rfl

/-- R161: what a value makes of a watch point. -/
theorem watchPointsReportCrossings (s : State) (c : Chan) (x : Input) (n : Fin 3) :
    let ch := s.chan c
    let w := ch.watches[n]
    let t := s.watch c x n
    let w' := (t.chan c).watches[n]
    let value : Option Int := match w.quantity with
      | .none => none
      | .voltage => some x.v
      | .planNetCharge => some (((ch.planSet.chIn : Int) - ch.planSet.chOut).tdiv 1000)
      | .cycleCount => some ch.seqr.cycle
      | .temperature => some x.t
    (value = none → t = s) ∧
    ∀ y, value = some y →
      (w.prev = none → w' = { w with prev := some y } ∧ t.notices = s.notices ∧ t.store = s.store) ∧
      ∀ z, w.prev = some z →
        let crossing := (w.dir = .rising ∧ z < w.threshold ∧ w.threshold ≤ y) ∨
          (w.dir = .falling ∧ w.threshold < z ∧ y ≤ w.threshold)
        let hits := fun (t : State) => (t.notices.chan[c]).watchHits
        (¬ crossing → w' = { w with prev := some y } ∧ t.notices = s.notices ∧ t.store = s.store) ∧
        (crossing → w.mode = .every → w' = { w with prev := some y, hits := w.hits + 1 } ∧ hits t = hits s + 1 ∧
          t.notices.attention.getLsbD c.val = true) ∧
        (crossing → w.mode = .latch → w.latched = false →
          w' = { w with prev := some y, hits := w.hits + 1, latched := true } ∧ hits t = hits s + 1 ∧
          t.notices.attention.getLsbD c.val = true) ∧
        (crossing → w.mode = .latch → w.latched = true →
          w' = { w with prev := some y, hits := w.hits + 1 } ∧ t.notices = s.notices ∧ t.store = s.store) := by
  intro ch w t w' value
  have hvalue : ch.watchValue x w.quantity = value := by
    unfold Channel.watchValue
    rfl
  refine ⟨fun hnone => ?_, fun y hy => ⟨fun hz => ?_, fun z hz => ⟨fun hc => ?_, fun hc hm => ?_, fun hc hm hl => ?_, fun hc hm hl => ?_⟩⟩⟩
  · change s.watch c x n = s
    unfold State.watch
    dsimp only
    rw [show (s.chan c).watchValue x (s.chan c).watches[n].quantity = none from hvalue.trans hnone]
  · exact State.watch_quiet (hvalue.trans hy) (Watch.judge_first hz)
  · exact State.watch_quiet (hvalue.trans hy) (Watch.judge_between hz hc)
  · exact State.watch_reports (hvalue.trans hy) (Watch.judge_every hz hc hm)
  · exact State.watch_reports (hvalue.trans hy) (Watch.judge_latches hz hc hm hl)
  · exact State.watch_quiet (hvalue.trans hy) (Watch.judge_latched hz hc hm hl)

end Sys2Proof.Machine

/-!
The stages of a handling, its step ends, its learning, its watch points and its records put together (R34 to R49, R59 to R61, R67, R148 to R157, R161).
-/

namespace Sys2Proof.Machine

theorem State.watchAll_eq (s : State) (c : Chan) (x : Input) : s.watchAll c x =
    if x.valid = true ∧ (s.chan c).st.inPlan = true then ((s.watch c x 0).watch c x 1).watch c x 2 else s := by
  unfold State.watchAll
  simp only [Bool.and_eq_true]

/-- R46: the arrivals at LOOP steps and their resolution. -/
theorem arrivalsAreResolved : (∀ (loops : List (Nat × Nat)) (j left target count : Nat), arrive (loops ++ [(j, left)]) j target count =
      if 0 < left then (loops ++ [(j, left - 1)], target) else (loops, j + 1)) ∧
    (∀ (loops : List (Nat × Nat)) (j target count : Nat), (∀ e, loops.getLast? = some e → e.1 ≠ j) →
      arrive loops j target count = if 0 < count - 1 then (loops ++ [(j, count - 1 - 1)], target) else (loops, j + 1)) ∧
    ∀ (p : Plan) (fuel : Nat) (loops : List (Nat × Nat)) (n : Nat),
      (p.steps.length ≤ n → p.resolve (fuel + 1) loops n = (loops, none)) ∧
      (∀ st, p.steps[n]? = some st → st.body.isLoop = false → p.resolve (fuel + 1) loops n = (loops, some n)) ∧
      ∀ st target count, p.steps[n]? = some st → st.body = .loop target count →
        p.resolve (fuel + 1) loops n = p.resolve fuel (arrive loops n target count).1 (arrive loops n target count).2 :=
  ⟨arrive_onTop, fun _ _ _ _ h => arrive_anew h _ _, fun _ fuel loops _ => ⟨fun h => Plan.resolve_past h fuel loops,
    fun _ h hl => Plan.resolve_step h hl fuel loops, fun _ _ _ h hl => Plan.resolve_loop h hl fuel loops⟩⟩

/-- Settles O53: the handling of a sample is its stages in their order, and each stage is judged by what it leaves of the channel: the
first condition met and the step that its action goes on to, the codes collected, the crossings reported, and the records placed or
refused, which lowers the ledger by the one that generating them raises it by. -/
theorem stepEndsLearningWatchesAndRecords : Obligations.StepEndsLearningWatchesAndRecords := by
  unfold Obligations.StepEndsLearningWatchesAndRecords
  exact ⟨fun _ _ late _ _ hs he hf hg => handlingRunsItsStages hs he hf hg late, accumulationStage, driveStages, recordStage,
    reportsAreTaken, State.watchAll_eq, endConditionsEndTheStep, stepEndsGoOn, arrivalsAreResolved, autoZeroCollectsAndLearns,
    watchPointsReportCrossings, recordsAreIssued, theHeldRecordStaysCounted⟩

end Sys2Proof.Machine
